-- ==== Sys2Proof/Word.lean ====
section
/-! DEFINITION. The machine word and the byte of a memory cell. -/

namespace Sys2Proof

/-- A 32-bit word: a command word, an operand or result register, or a binary32 value in the layout of rule R11. -/
abbrev Word := BitVec 32

/-- One byte of the memory representation. The block itself names no byte (rule R76). -/
abbrev Byte := BitVec 8

end Sys2Proof
end

