-- ==== Sys2Proof/Syntax/Operands.lean ====
section
/-! DEFINITION. The operand types of the commands: what a `sub` field stands for (rules R92, R93), without its encoding. -/

namespace Sys2Proof

/-- A channel of the store and its write head: `c ∈ {L, R}` (rules R41, R70). -/
inductive Channel where
  | left
  | right
  deriving DecidableEq, Repr

/-- The channel mask of `WHSTART` and `WHSTOP`: bit 0 is L, bit 1 is R (rule R191). The empty mask is no legal operand. -/
structure ChannelMask where
  left : Bool
  right : Bool
  deriving DecidableEq, Repr

/-- The two modes of `CLEAR` (rule R163). -/
inductive ClearMode where
  | all
  | step
  deriving DecidableEq, Repr

/-- The read direction of `STREAD` and of `Interp`: `+1` or `-1` (rules R160, R162). -/
inductive Direction where
  | forward
  | backward
  deriving DecidableEq, Repr

/-- The 32 registers that `RDREG` names (rules R35 to R43, R45 and the index map of rule R273). -/
inductive Reg where
  | speedRaw | startX | lengthX | recX | sosX | filterX
  | spd | vol | sosL | filterL
  | start | length | phase | nstart | nlength | nphase
  | xfKind | xfProg | xfWin | xo
  | wp | whStateL | whStateR | whCntL | whCntR
  | clrBusy | clrPtr
  | clkPrev | clkAge | synced | trigPend
  | statusWord
  deriving DecidableEq, Repr

end Sys2Proof
end

