-- ==== Sys2Proof/Syntax.lean ====
section
/-! DEFINITION. The commands of `LBE-1`: one constructor for each row of the opcode map (rule R93). -/

namespace Sys2Proof

/-- A command of the opcode map of rule R93. The operands are what the `sub` field selects; the `ARG` registers are read when
the command is performed. -/
inductive Instr where
  /-- `NOP` (rule R138). -/
  | nop
  /-- `TICK`, with the clock level of `sub` bit 0 (rule R220). -/
  | tick (clk : Bool)
  /-- `LATCH` (rule R130). -/
  | latch
  /-- `SETSPEED` (rule R122). -/
  | setspeed
  /-- `SETSTART` (rule R123). -/
  | setstart
  /-- `SETLENGTH` (rule R124). -/
  | setlength
  /-- `SETREC`, with the value of `sub` bit 0 (rule R125). -/
  | setrec (on : Bool)
  /-- `SETSOS` (rule R126). -/
  | setsos
  /-- `SETFILTER` (rule R127). -/
  | setfilter
  /-- `TRIG` (rule R137). -/
  | trig
  /-- `CLEAR` (rule R163). -/
  | clear (mode : ClearMode)
  /-- `WHSTART` (rule R191). -/
  | whstart (mask : ChannelMask)
  /-- `WHSTOP` (rule R192). -/
  | whstop (mask : ChannelMask)
  /-- `WHWRITE` (rule R193). -/
  | whwrite (c : Channel)
  /-- `STWRITE` (rule R161). -/
  | stwrite
  /-- `STREAD` (rule R162). -/
  | stread (dir : Direction)
  /-- `STATUS`; `clr` is `sub = 0x01` (rule R270). -/
  | status (clr : Bool)
  /-- `RDREG` (rule R272). -/
  | rdreg (r : Reg)
  deriving DecidableEq, Repr

end Sys2Proof
end

