-- ==== Sys2Proof/WellFormed.lean ====
section
/-! DEFINITION. Which terms of `Instr` stand for a legal command word. Every operand is typed by its legal values, except the
channel masks, whose empty value is ILLEGAL (rules R93, R191, R192). -/

namespace Sys2Proof

/-- A mask names at least one head: the legal values are 1, 2 and 3 (rule R191). -/
def ChannelMask.nonempty (m : ChannelMask) : Bool :=
  m.left || m.right

/-- The operands of the command are in the legal set of its row (rule R93). -/
def Instr.wellFormed : Instr → Bool
  | .nop => true
  | .tick _ => true
  | .latch => true
  | .setspeed => true
  | .setstart => true
  | .setlength => true
  | .setrec _ => true
  | .setsos => true
  | .setfilter => true
  | .trig => true
  | .clear _ => true
  | .whstart mask => mask.nonempty
  | .whstop mask => mask.nonempty
  | .whwrite _ => true
  | .stwrite => true
  | .stread _ => true
  | .status _ => true
  | .rdreg _ => true

end Sys2Proof
end

