-- ==== Sys2Proof/Decode.lean ====
section
/-! DEFINITION. The decoder of command words (rules R91 to R96), total on all 2^32 words and rejecting by name, then the encoder
written from the same table. -/

namespace Sys2Proof

/-- Why a word is ILLEGAL: the three tests of rule R95, in their order. -/
inductive DecodeError where
  /-- `z ≠ 0`. -/
  | reservedBits
  /-- `op` is not in the opcode map. -/
  | unknownOpcode
  /-- `sub` is outside the legal set of its opcode. -/
  | illegalSub
  deriving DecidableEq, Repr

/-- The `op` field, bits 31:24 (rule R91). -/
def opField (w : Word) : BitVec 8 :=
  w.extractLsb' 24 8

/-- The `sub` field, bits 23:16 (rule R91). -/
def subField (w : Word) : BitVec 8 :=
  w.extractLsb' 16 8

/-- The reserved field `z`, bits 15:0 (rule R91). -/
def zField (w : Word) : BitVec 16 :=
  w.extractLsb' 0 16

/-- The register number of `RDREG` (the index map of rule R273). -/
def Reg.index : Reg → BitVec 8
  | .speedRaw => 0x00#8
  | .startX => 0x01#8
  | .lengthX => 0x02#8
  | .recX => 0x03#8
  | .sosX => 0x04#8
  | .filterX => 0x05#8
  | .spd => 0x08#8
  | .vol => 0x09#8
  | .sosL => 0x0A#8
  | .filterL => 0x0B#8
  | .start => 0x10#8
  | .length => 0x11#8
  | .phase => 0x12#8
  | .nstart => 0x13#8
  | .nlength => 0x14#8
  | .nphase => 0x15#8
  | .xfKind => 0x18#8
  | .xfProg => 0x19#8
  | .xfWin => 0x1A#8
  | .xo => 0x1B#8
  | .wp => 0x20#8
  | .whStateL => 0x21#8
  | .whStateR => 0x22#8
  | .whCntL => 0x23#8
  | .whCntR => 0x24#8
  | .clrBusy => 0x28#8
  | .clrPtr => 0x29#8
  | .clkPrev => 0x30#8
  | .clkAge => 0x31#8
  | .synced => 0x32#8
  | .trigPend => 0x33#8
  | .statusWord => 0x3F#8

/-- The registers in the order of their numbers: the legal set of `RDREG` (rule R93). -/
def Reg.all : List Reg :=
  [.speedRaw, .startX, .lengthX, .recX, .sosX, .filterX, .spd, .vol, .sosL, .filterL, .start, .length, .phase, .nstart, .nlength,
    .nphase] ++
  [.xfKind, .xfProg, .xfWin, .xo, .wp, .whStateL, .whStateR, .whCntL, .whCntR, .clrBusy, .clrPtr, .clkPrev, .clkAge, .synced,
    .trigPend, .statusWord]

/-- The register with a given number, if the number is legal. -/
def Reg.ofIndex (idx : BitVec 8) : Option Reg :=
  Reg.all.find? fun r => r.index == idx

/-- `sub` as a flag: the legal set 0x00, 0x01 (`TICK`, `SETREC`, `CLEAR`, `STATUS`). -/
def flagOfSub (sub : BitVec 8) : Option Bool :=
  if sub = 0x00#8 then some false else if sub = 0x01#8 then some true else none

/-- `sub` as a channel mask: bit 0 is L, bit 1 is R; legal set 0x01, 0x02, 0x03 (rule R191). -/
def maskOfSub (sub : BitVec 8) : Option ChannelMask :=
  if sub = 0x01#8 then some { left := true, right := false }
  else if sub = 0x02#8 then some { left := false, right := true }
  else if sub = 0x03#8 then some { left := true, right := true }
  else none

/-- `sub` as one channel: 0x01 is L, 0x02 is R (rule R193). -/
def channelOfSub (sub : BitVec 8) : Option Channel :=
  if sub = 0x01#8 then some .left else if sub = 0x02#8 then some .right else none

/-- `sub` as a signed direction: 0x01 is +1, 0xFF is -1 (rules R92, R162). -/
def directionOfSub (sub : BitVec 8) : Option Direction :=
  if sub = 0x01#8 then some .forward else if sub = 0xFF#8 then some .backward else none

/-- A command that takes no operand: the legal set is 0x00. -/
def plainOfSub (i : Instr) (sub : BitVec 8) : Option Instr :=
  if sub = 0x00#8 then some i else none

/-- The `CLEAR` mode of its flag (rule R163). -/
def ClearMode.ofFlag (b : Bool) : ClearMode :=
  if b then .step else .all

/-- The row of the opcode map that `op` selects, as the reader of its `sub` field; `none` for the reserved opcodes 0x12 to 0xFF
(rules R93, R96). -/
def rowOfOp (op : BitVec 8) : Option (BitVec 8 → Option Instr) :=
  if op = 0x00#8 then some (plainOfSub .nop)
  else if op = 0x01#8 then some fun sub => (flagOfSub sub).map .tick
  else if op = 0x02#8 then some (plainOfSub .latch)
  else if op = 0x03#8 then some (plainOfSub .setspeed)
  else if op = 0x04#8 then some (plainOfSub .setstart)
  else if op = 0x05#8 then some (plainOfSub .setlength)
  else if op = 0x06#8 then some fun sub => (flagOfSub sub).map .setrec
  else if op = 0x07#8 then some (plainOfSub .setsos)
  else if op = 0x08#8 then some (plainOfSub .setfilter)
  else if op = 0x09#8 then some (plainOfSub .trig)
  else if op = 0x0A#8 then some fun sub => (flagOfSub sub).map fun b => .clear (ClearMode.ofFlag b)
  else if op = 0x0B#8 then some fun sub => (maskOfSub sub).map .whstart
  else if op = 0x0C#8 then some fun sub => (maskOfSub sub).map .whstop
  else if op = 0x0D#8 then some fun sub => (channelOfSub sub).map .whwrite
  else if op = 0x0E#8 then some (plainOfSub .stwrite)
  else if op = 0x0F#8 then some fun sub => (directionOfSub sub).map .stread
  else if op = 0x10#8 then some fun sub => (flagOfSub sub).map .status
  else if op = 0x11#8 then some fun sub => (Reg.ofIndex sub).map .rdreg
  else none

/-- `Decode(w)` of rule R95: the tests of `z`, `op` and `sub` in that order. -/
def decode (w : Word) : Except DecodeError Instr :=
  if zField w ≠ 0#16 then .error .reservedBits
  else
    match rowOfOp (opField w) with
    | none => .error .unknownOpcode
    | some row =>
      match row (subField w) with
      | none => .error .illegalSub
      | some i => .ok i

/-- The opcode of a command (rule R93). -/
def Instr.opcode : Instr → BitVec 8
  | .nop => 0x00#8
  | .tick _ => 0x01#8
  | .latch => 0x02#8
  | .setspeed => 0x03#8
  | .setstart => 0x04#8
  | .setlength => 0x05#8
  | .setrec _ => 0x06#8
  | .setsos => 0x07#8
  | .setfilter => 0x08#8
  | .trig => 0x09#8
  | .clear _ => 0x0A#8
  | .whstart _ => 0x0B#8
  | .whstop _ => 0x0C#8
  | .whwrite _ => 0x0D#8
  | .stwrite => 0x0E#8
  | .stread _ => 0x0F#8
  | .status _ => 0x10#8
  | .rdreg _ => 0x11#8

/-- A flag as a `sub` field. -/
def subOfFlag (b : Bool) : BitVec 8 :=
  if b then 0x01#8 else 0x00#8

/-- A channel mask as a `sub` field (rule R191). -/
def subOfMask (m : ChannelMask) : BitVec 8 :=
  (if m.left then 0x01#8 else 0x00#8) ||| (if m.right then 0x02#8 else 0x00#8)

/-- The `sub` field of a command (rules R93, R98). -/
def Instr.sub : Instr → BitVec 8
  | .nop => 0x00#8
  | .tick clk => subOfFlag clk
  | .latch => 0x00#8
  | .setspeed => 0x00#8
  | .setstart => 0x00#8
  | .setlength => 0x00#8
  | .setrec on => subOfFlag on
  | .setsos => 0x00#8
  | .setfilter => 0x00#8
  | .trig => 0x00#8
  | .clear .all => 0x00#8
  | .clear .step => 0x01#8
  | .whstart mask => subOfMask mask
  | .whstop mask => subOfMask mask
  | .whwrite .left => 0x01#8
  | .whwrite .right => 0x02#8
  | .stwrite => 0x00#8
  | .stread .forward => 0x01#8
  | .stread .backward => 0xFF#8
  | .status clr => subOfFlag clr
  | .rdreg r => r.index

/-- The command word of a command: `op`, `sub` and a zero `z` (rules R91, R100). -/
def encode (i : Instr) : Word :=
  i.opcode ++ i.sub ++ 0#16

/-- The instruction the decoder reads from the bits `w` of a table row of `nbits` bits. A command is one 32-bit word (rule R91),
so the bits above `nbits` are zero and the word is given to the decoder as it is; there is no byte order (rule R76). -/
def decodeTableWord (nbits w : Nat) : Option Instr :=
  match decode (BitVec.ofNat 32 (w % 2 ^ nbits)) with
  | .ok i => some i
  | .error _ => none

/-- One row of the opcode map as rule R93 prints it: the match and mask over the whole word, and the legal set of `sub`. -/
structure OpcodeRow where
  pattern : Word
  mask : Word
  legalSub : List (BitVec 8)
  deriving DecidableEq, Repr

/-- A word selects a row when `w AND mask = match` and `sub` is in the legal set (rule R93). -/
def OpcodeRow.selects (r : OpcodeRow) (w : Word) : Bool :=
  w &&& r.mask == r.pattern && r.legalSub.contains (subField w)

/-- The opcode map of rule R93, row by row. -/
def opcodeMap : List OpcodeRow :=
  [ ⟨0x00000000#32, 0xFF00FFFF#32, [0x00#8]⟩,
    ⟨0x01000000#32, 0xFFFEFFFF#32, [0x00#8, 0x01#8]⟩,
    ⟨0x02000000#32, 0xFF00FFFF#32, [0x00#8]⟩,
    ⟨0x03000000#32, 0xFF00FFFF#32, [0x00#8]⟩,
    ⟨0x04000000#32, 0xFF00FFFF#32, [0x00#8]⟩,
    ⟨0x05000000#32, 0xFF00FFFF#32, [0x00#8]⟩,
    ⟨0x06000000#32, 0xFFFEFFFF#32, [0x00#8, 0x01#8]⟩,
    ⟨0x07000000#32, 0xFF00FFFF#32, [0x00#8]⟩,
    ⟨0x08000000#32, 0xFF00FFFF#32, [0x00#8]⟩,
    ⟨0x09000000#32, 0xFF00FFFF#32, [0x00#8]⟩ ] ++
  [ ⟨0x0A000000#32, 0xFFFEFFFF#32, [0x00#8, 0x01#8]⟩,
    ⟨0x0B000000#32, 0xFF00FFFF#32, [0x01#8, 0x02#8, 0x03#8]⟩,
    ⟨0x0C000000#32, 0xFF00FFFF#32, [0x01#8, 0x02#8, 0x03#8]⟩,
    ⟨0x0D000000#32, 0xFF00FFFF#32, [0x01#8, 0x02#8]⟩,
    ⟨0x0E000000#32, 0xFF00FFFF#32, [0x00#8]⟩,
    ⟨0x0F000000#32, 0xFF00FFFF#32, [0x01#8, 0xFF#8]⟩,
    ⟨0x10000000#32, 0xFFFEFFFF#32, [0x00#8, 0x01#8]⟩,
    ⟨0x11000000#32, 0xFF00FFFF#32, rdregNumbers⟩ ]
where
  /-- The register numbers that rule R93 lists for `RDREG`. -/
  rdregNumbers : List (BitVec 8) :=
    [0x00#8, 0x01#8, 0x02#8, 0x03#8, 0x04#8, 0x05#8, 0x08#8, 0x09#8, 0x0A#8, 0x0B#8, 0x10#8, 0x11#8, 0x12#8, 0x13#8, 0x14#8,
      0x15#8] ++
    [0x18#8, 0x19#8, 0x1A#8, 0x1B#8, 0x20#8, 0x21#8, 0x22#8, 0x23#8, 0x24#8, 0x28#8, 0x29#8, 0x30#8, 0x31#8, 0x32#8, 0x33#8, 0x3F#8]

end Sys2Proof
end

