-- ==== Sys2Proof/Config.lean ====
section
/-! DEFINITION. The configuration of rule R8, the test configuration `TC` of rule R10, and the free values: constants without a
body, for what the spec leaves open. -/

namespace Sys2Proof

/-- The open parameters of rule R8, in its order. The parameters to which the spec gives a value (`SPEED_MAX`, `VOL_KNEE`, `T0`,
`T1L`, `T1H`) are constants of `Sys2Proof.Machine.Operands`. -/
structure Config where
  /-- `FS`, the tick rate in Hz: a positive real, here a positive rational (log 7). No rule reads it. -/
  fs : Rat
  /-- `BUF_SECONDS`, with `N = floor(FS × BUF_SECONDS)`. -/
  bufSeconds : Rat
  /-- `N`, the store capacity in samples per channel. -/
  n : Nat
  /-- `MIN_LOOP`. -/
  minLoop : Nat
  /-- `Q`, the entries of each lookup table. -/
  q : Nat
  /-- `START_LUT[0..Q-1]`. -/
  startLut : List Nat
  /-- `LENGTH_LUT[0..Q-1]`. -/
  lengthLut : List Nat
  /-- `XF_FRAC`, binary32. -/
  xfFrac : Word
  /-- `XF_MAX`, binary32. -/
  xfMax : Word
  /-- `XF_MIN`, binary32. -/
  xfMin : Word
  /-- `TRIG_FADE`, ticks. -/
  trigFade : Nat
  /-- `WFADE`, ticks. -/
  wfade : Nat
  /-- `CLEAR_SLICE`, samples per channel. -/
  clearSlice : Nat
  /-- `NOISE_AMP`, binary32. -/
  noiseAmp : Word
  /-- `CLOCK_TIMEOUT`, ticks. -/
  clockTimeout : Nat
  deriving DecidableEq, Repr

/-- The test configuration `TC` of rule R10. The rule gives no `FS` and no `NOISE_AMP`; those two and `BUF_SECONDS` are chosen
here. DESIGN CHOICE, unsafe (log 1). -/
def Config.tc : Config where
  fs := 16
  bufSeconds := 1
  n := 16
  minLoop := 4
  q := 5
  startLut := [0, 2, 4, 6, 8]
  lengthLut := [4, 6, 8, 12, 16]
  xfFrac := 0x3E800000#32
  xfMax := 0x40800000#32
  xfMin := 0x3F800000#32
  trigFade := 2
  wfade := 4
  clearSlice := 4
  noiseAmp := 0x3A83126F#32
  clockTimeout := 8

/-- FREE VALUE. The sign (bit 22) and the payload below the quiet bit (bits 21:0) of the NaN that an arithmetic operation
produces: "any quiet NaN" (rule R167, item U2). The first argument counts the commands that draw, the second numbers the
operations inside one command, so that no two operations need agree (log 6). -/
opaque Config.nanDraw : Nat → Nat → BitVec 23

/-- FREE VALUE. The binary32 value of an integer above `2^24` used where a binary32 is expected: rule R13 states it up to `2^24`
only (log 10). -/
opaque Config.openFloatOfInteger : Nat → Word

/-- FREE VALUE. The integer taken from a word that is not finite, where a rule takes one from finite words only (`wrapN`, rule
R73; `Quant`, rule R128). Rules R74 and R121 say that it is never asked for (log 11). -/
opaque Config.openIntegerOfWord : Word → Nat

end Sys2Proof
end

