-- ==== Sys2Proof/Machine/Float.lean ====
section
/-! DEFINITION. IEEE 754 binary32 as rules R11 and R13 use it: round-to-nearest-even, one rounding per operation, subnormals
kept. Every finite binary32 is a whole multiple of `2^-149`; the definitions compute exactly in those units and round once. The
behaviour of the operations on zeros, infinities and NaNs is the standard's (log 13). -/

namespace Sys2Proof

/-- `2^149`: the number of units (`2^-149`, the least subnormal) in 1. -/
def F32.unitsPerOne : Nat :=
  2 ^ 149

/-- Bits 30:0: the magnitude bits, exponent above fraction. -/
def F32.magBits (w : Word) : Nat :=
  w.toNat % 2 ^ 31

/-- Bit 31: the sign. -/
def F32.isNeg (w : Word) : Bool :=
  w.msb

/-- The magnitude bits of the infinities: exponent 255, fraction 0. -/
def F32.infBits : Nat :=
  0x7F800000

/-- Neither NaN nor infinite. -/
def F32.isFinite (w : Word) : Bool :=
  F32.magBits w < F32.infBits

/-- A NaN: any payload, quiet or signalling. -/
def F32.isNaN (w : Word) : Bool :=
  F32.infBits < F32.magBits w

/-- `±infinity`. -/
def F32.isInf (w : Word) : Bool :=
  F32.magBits w == F32.infBits

/-- The magnitude, in units of `2^-149`, that given magnitude bits stand for (finite ones): fraction bits for exponent 0, else
the significand `2^23 + fraction` scaled by the exponent less 1. -/
def F32.unitsOfBits (m : Nat) : Nat :=
  if m / 2 ^ 23 = 0 then m % 2 ^ 23 else (2 ^ 23 + m % 2 ^ 23) * 2 ^ (m / 2 ^ 23 - 1)

/-- The magnitude of a finite word in units of `2^-149`. -/
def F32.magnitude (w : Word) : Nat :=
  F32.unitsOfBits (F32.magBits w)

/-- The value of a finite word in units of `2^-149`. -/
def F32.units (w : Word) : Int :=
  if F32.isNeg w then -(F32.magnitude w : Int) else F32.magnitude w

/-- The word with a given sign and magnitude bits. -/
def F32.ofBits (neg : Bool) (mag : Nat) : Word :=
  BitVec.ofNat 32 ((if neg then 2 ^ 31 else 0) + mag)

/-- The integer nearest to `num / den`, ties to even. -/
def F32.roundToInteger (num den : Nat) : Nat :=
  if 2 * (num % den) < den then num / den
  else if den < 2 * (num % den) then num / den + 1
  else num / den + num / den % 2

/-- The magnitude bits of the binary32 value nearest to `num / den` units, ties to even, overflowing to infinity. With `k` such
that the quotient lies in the binade of significands `[2^23, 2^24)` times `2^k` (`k = 0` for the subnormals too), the rounded
significand `r` has bits `k·2^23 + r`, a carry out of the significand included. -/
def F32.roundBits (num den : Nat) : Nat :=
  min (((num / den).log2 - 23) * 2 ^ 23 + F32.roundToInteger num (den * 2 ^ ((num / den).log2 - 23))) F32.infBits

/-- `f32` of rule R13, for a value of `num / den` units with a given sign. -/
def F32.round (neg : Bool) (num den : Nat) : Word :=
  F32.ofBits neg (F32.roundBits num den)

/-- `+0.0`. -/
def F32.zero : Word := 0x00000000#32

/-- `1.0`. -/
def F32.one : Word := 0x3F800000#32

/-- `-1.0`. -/
def F32.negOne : Word := 0xBF800000#32

/-- The sign bit turned over. -/
def F32.neg (a : Word) : Word :=
  a ^^^ 0x80000000#32

/-- `|x|`: the sign bit cleared (rule R12). -/
def F32.abs (a : Word) : Word :=
  a &&& 0x7FFFFFFF#32

/-- A quiet NaN with a drawn sign and payload (rule R167). -/
def F32.quietNaN (d : BitVec 23) : Word :=
  d.extractLsb' 22 1 ++ 0x1FF#9 ++ d.extractLsb' 0 22

/-- A sum of two finite words: exact, then rounded once. An exact zero is `-0.0` only when both operands are. -/
def F32.addFinite (a b : Word) : Word :=
  if F32.units a + F32.units b = 0 then F32.ofBits (F32.isNeg a && F32.isNeg b) 0
  else F32.round (F32.units a + F32.units b < 0) (F32.units a + F32.units b).natAbs 1

/-- `fadd(a, b)` (rule R13). `nan` is the word to answer where the result is a NaN (rule R167). -/
def F32.add (nan a b : Word) : Word :=
  if F32.isNaN a || F32.isNaN b then nan
  else if F32.isInf a then (if F32.isInf b && F32.isNeg a != F32.isNeg b then nan else a)
  else if F32.isInf b then b
  else F32.addFinite a b

/-- `fsub(a, b)` (rule R13). -/
def F32.sub (nan a b : Word) : Word :=
  F32.add nan a (F32.neg b)

/-- `fmul(a, b)` (rule R13). -/
def F32.mul (nan a b : Word) : Word :=
  if F32.isNaN a || F32.isNaN b then nan
  else if F32.isInf a || F32.isInf b then
    (if F32.magBits a = 0 || F32.magBits b = 0 then nan else F32.ofBits (F32.isNeg a != F32.isNeg b) F32.infBits)
  else F32.round (F32.isNeg a != F32.isNeg b) (F32.magnitude a * F32.magnitude b) F32.unitsPerOne

/-- `fdiv(a, b)` (rule R13). -/
def F32.div (nan a b : Word) : Word :=
  if F32.isNaN a || F32.isNaN b then nan
  else if F32.isInf a then (if F32.isInf b then nan else F32.ofBits (F32.isNeg a != F32.isNeg b) F32.infBits)
  else if F32.isInf b then F32.ofBits (F32.isNeg a != F32.isNeg b) 0
  else if F32.magBits b = 0 then
    (if F32.magBits a = 0 then nan else F32.ofBits (F32.isNeg a != F32.isNeg b) F32.infBits)
  else F32.round (F32.isNeg a != F32.isNeg b) (F32.magnitude a * F32.unitsPerOne) (F32.magnitude b)

/-- An order key of the words that are not NaNs: the magnitude bits with the sign. It orders them as their values, and gives
`+0.0` and `-0.0` one key. -/
def F32.key (a : Word) : Int :=
  if F32.isNeg a then -(F32.magBits a : Int) else F32.magBits a

/-- `a < b`, the IEEE comparison (rule R13): false when an operand is a NaN. -/
def F32.lt (a b : Word) : Bool :=
  !F32.isNaN a && !F32.isNaN b && decide (F32.key a < F32.key b)

/-- `a ≤ b`, the IEEE comparison. -/
def F32.le (a b : Word) : Bool :=
  !F32.isNaN a && !F32.isNaN b && decide (F32.key a ≤ F32.key b)

/-- `a = b`, the IEEE comparison: `+0 = −0` is true. -/
def F32.eq (a b : Word) : Bool :=
  !F32.isNaN a && !F32.isNaN b && F32.key a == F32.key b

/-- `min` by value; the first operand among equals (rule R12). -/
def F32.min (a b : Word) : Word :=
  if F32.lt b a then b else a

/-- `max` by value; the first operand among equals (rule R12). -/
def F32.max (a b : Word) : Word :=
  if F32.lt a b then b else a

/-- `clamp(x, lo, hi) = min(max(x, lo), hi)` (rule R12). -/
def F32.clamp (x lo hi : Word) : Word :=
  F32.min (F32.max x lo) hi

/-- The binary32 value that an integer used as a binary32 denotes: exact up to `2^24` (rule R13), a free value above (log 10). -/
def F32.ofInteger (k : Nat) : Word :=
  if k ≤ 2 ^ 24 then F32.round false (k * F32.unitsPerOne) 1 else Config.openFloatOfInteger k

/-- `floor` of a finite word that is not below zero. -/
def F32.floorNat (a : Word) : Nat :=
  F32.magnitude a / F32.unitsPerOne

/-- `roundTiesToEven` of a word that is not below zero (rule R128): the nearest integer, ties to even. Not finite: a free value
(log 11). -/
def F32.roundTiesToEven (a : Word) : Nat :=
  if F32.isFinite a then F32.roundToInteger (F32.magnitude a) F32.unitsPerOne else Config.openIntegerOfWord a

end Sys2Proof
end

