-- ==== Sys2Proof/Machine/Memory.lean ====
section
/-! DEFINITION. The memory that holds the sample store: a list of (byte address, byte) pairs in one canonical form, addresses
strictly rising and no entry equal to what an unlisted address reads as. -/

namespace Sys2Proof.Machine

/-- A memory: the listed cells. -/
abbrev Memory := List Host.Cell

/-- What an unlisted byte reads as. Rule R46 leaves the reset contents to a draw of finite words; the draw that lists nothing is
the one in which every word is `+0.0`. DESIGN CHOICE, unsafe (log 3). -/
def Memory.unlisted : Byte :=
  0x00#8

/-- The byte at an address. -/
def Memory.readByte (m : Memory) (addr : Nat) : Byte :=
  match m with
  | [] => Memory.unlisted
  | (a, b) :: rest => if a = addr then b else Memory.readByte rest addr

/-- A cell put before a memory, unless it holds what an unlisted address reads as. -/
def Memory.listCell (addr : Nat) (v : Byte) (rest : Memory) : Memory :=
  if v = Memory.unlisted then rest else (addr, v) :: rest

/-- The memory with one byte written, in canonical form again. -/
def Memory.writeByte (m : Memory) (addr : Nat) (v : Byte) : Memory :=
  match m with
  | [] => Memory.listCell addr v []
  | (a, b) :: rest =>
    if addr < a then Memory.listCell addr v ((a, b) :: rest)
    else if a = addr then Memory.listCell addr v rest
    else (a, b) :: Memory.writeByte rest addr v

/-- Byte `k` of a word, lowest first. DESIGN CHOICE, safe: the byte order cannot be observed (rule R76, log 5). -/
def Memory.byteOf (w : Word) (k : Nat) : Byte :=
  w.extractLsb' (8 * k) 8

/-- `MemRead(a, 4)` of rule R14: the word at word address `a`, its bytes at `4a` to `4a + 3`. -/
def Memory.readWord (m : Memory) (a : Nat) : Word :=
  m.readByte (4 * a + 3) ++ m.readByte (4 * a + 2) ++ m.readByte (4 * a + 1) ++ m.readByte (4 * a)

/-- `MemWrite(a, 4, w)` of rule R14. -/
def Memory.writeWord (m : Memory) (a : Nat) (w : Word) : Memory :=
  (((m.writeByte (4 * a) (Memory.byteOf w 0)).writeByte (4 * a + 1) (Memory.byteOf w 1)).writeByte (4 * a + 2)
    (Memory.byteOf w 2)).writeByte (4 * a + 3) (Memory.byteOf w 3)

/-- The memory with every byte at an address in `[lo, hi)` zero: what writing the zero byte to each of them leaves. -/
def Memory.zeroBytes (m : Memory) (lo hi : Nat) : Memory :=
  m.filter fun c => c.1 < lo || hi ≤ c.1

/-- The memory in which the words of a list stand at the word addresses from `a` on and every other word is zero. -/
def Memory.ofWords (ws : List Word) (a : Nat) : Memory :=
  match ws with
  | [] => []
  | w :: rest =>
    Memory.listCell (4 * a) (Memory.byteOf w 0) (Memory.listCell (4 * a + 1) (Memory.byteOf w 1)
      (Memory.listCell (4 * a + 2) (Memory.byteOf w 2) (Memory.listCell (4 * a + 3) (Memory.byteOf w 3)
        (Memory.ofWords rest (a + 1)))))

/-- The addresses rise strictly from `lo` on, and no listed byte is what an unlisted address reads as. -/
def Memory.canonicalFrom (m : Memory) (lo : Nat) : Bool :=
  match m with
  | [] => true
  | (a, b) :: rest => decide (lo ≤ a) && decide (b ≠ Memory.unlisted) && Memory.canonicalFrom rest (a + 1)

/-- The canonical form. -/
def Memory.wf (m : Memory) : Bool :=
  m.canonicalFrom 0

/-- Every listed address is below a bound. -/
def Memory.below (m : Memory) (bound : Nat) : Bool :=
  m.all fun c => decide (c.1 < bound)

end Sys2Proof.Machine
end

