-- ==== Sys2Proof/Machine/State.lean ====
section
/-! DEFINITION. The state of the block (rule R30): every register of rules R32 to R44 under its own name, the store, and four
fields of the model's own (the configuration it is parameterised by, the host's pending actions, the NaN draw counter and the
error log). Then the reset state. -/

namespace Sys2Proof.Machine

/-- `XF_KIND` (rule R39). -/
inductive XfKind where
  | none
  | boundary
  | param
  | trigger
  deriving DecidableEq, Repr

/-- `WH_STATE` (rule R41). -/
inductive HeadState where
  | inactive
  | fadingIn
  | active
  | fadingOut
  deriving DecidableEq, Repr

/-- A write head: `WH_STATE[c]` and `WH_CNT[c]` (rule R41). -/
structure Head where
  state : HeadState
  count : Word
  deriving DecidableEq, Repr

/-- The error codes of rule R291. -/
inductive ErrorCode where
  | illegal
  | nonfinite
  | busy
  deriving DecidableEq, Repr

/-- An operand register (rule R32). -/
inductive ArgReg where
  | arg0
  | arg1
  | arg2
  deriving DecidableEq, Repr

/-- What the host can do to the block (rules R337, R340). -/
inductive HostAction where
  /-- A direct write of an operand register; not a command (rule R32). -/
  | writeArg (r : ArgReg) (w : Word)
  /-- A command word written to `CMD` (rule R90). -/
  | command (w : Word)
  /-- A read of `CMD`, which has no meaning (rule R34). -/
  | readCommandPort
  /-- Reset, with the draw of the `2N` store words in the order of their word addresses (rules R320, R322). -/
  | reset (draw : List Word)
  deriving DecidableEq, Repr

/-- Why a step stops with a fault. No behaviour of the block is a fault (rules R290, R304), so there is no constructor. -/
inductive Fault where
  deriving DecidableEq, Repr

/-- Why a step has no next state. -/
inductive Refusal where
  /-- An instruction without a meaning. Raised by an arm of `exec` that has none; here no arm raises it. Safe. -/
  | notModelled (mnemonic : String)
  /-- The configuration breaks a constraint of rule R9, so no block exists for it (rule R304). Raised by `step`. Safe. -/
  | configurationNotAdmitted
  /-- A read of `CMD`, which has no meaning (rules R34, R304). Raised by `hostStep`. Safe. -/
  | commandPortRead
  /-- A reset whose store contents are no draw that rule R322 allows. Raised by `hostStep`. Safe. -/
  | resetDrawNotAdmitted
  deriving DecidableEq, Repr

/-- The state of the block. -/
@[ext]
structure State where
  /-- The model's own field: the configuration (rule R8), which no step changes (log 1). -/
  cfg : Config
  /-- The model's own field: the host actions not yet performed, the next one first (log 2). -/
  host : List HostAction
  /-- `ARG0` (rule R32). -/
  arg0 : Word
  /-- `ARG1`. -/
  arg1 : Word
  /-- `ARG2`. -/
  arg2 : Word
  /-- `RES0` (rule R33). -/
  res0 : Word
  /-- `RES1`. -/
  res1 : Word
  /-- `SPEED_RAW` (rule R35). -/
  speedRaw : Word
  /-- `START_X`. -/
  startX : Word
  /-- `LENGTH_X`. -/
  lengthX : Word
  /-- `REC_X`. -/
  recX : Bool
  /-- `SOS_X`. -/
  sosX : Word
  /-- `FILTER_X`. -/
  filterX : Word
  /-- `SPD` (rule R36). -/
  spd : Word
  /-- `VOL`. -/
  vol : Word
  /-- `SOS_L`. -/
  sosL : Word
  /-- `FILTER_L`. -/
  filterL : Word
  /-- `START` (rule R37). -/
  start : Word
  /-- `LENGTH`. -/
  length : Word
  /-- `PHASE`. -/
  phase : Word
  /-- `NSTART` (rule R38). -/
  nstart : Word
  /-- `NLENGTH`. -/
  nlength : Word
  /-- `NPHASE`. -/
  nphase : Word
  /-- `XF_KIND` (rule R39). -/
  xfKind : XfKind
  /-- `XF_PROG`. -/
  xfProg : Word
  /-- `XF_WIN`. -/
  xfWin : Word
  /-- `XO`. -/
  xo : Word
  /-- `WP` (rule R40). -/
  wp : Word
  /-- `WH_STATE[L]`, `WH_CNT[L]` (rule R41). -/
  headL : Head
  /-- `WH_STATE[R]`, `WH_CNT[R]`. -/
  headR : Head
  /-- `CLR_BUSY` (rule R42). -/
  clrBusy : Bool
  /-- `CLR_PTR`. -/
  clrPtr : Word
  /-- `CLK_PREV` (rule R43). -/
  clkPrev : Bool
  /-- `CLK_AGE`. -/
  clkAge : Word
  /-- `SYNCED`. -/
  synced : Bool
  /-- `TRIG_PEND`. -/
  trigPend : Bool
  /-- `ERR_ILLEGAL` (rule R44). -/
  errIllegal : Bool
  /-- `ERR_NONFINITE`. -/
  errNonfinite : Bool
  /-- `ERR_BUSY`. -/
  errBusy : Bool
  /-- The sample store `S` (rules R46, R70). -/
  mem : Memory
  /-- The model's own field: how many commands have drawn NaN payloads (log 6). -/
  draws : Nat
  /-- The model's own field: every error raised, oldest first, never cleared (rule R304, log 8). -/
  errLog : List ErrorCode
  deriving DecidableEq, Repr

/-- The outcomes of a step of this machine. -/
abbrev Result := Host.Outcome State Fault Refusal

/-- The registers after reset (rule R321) under a configuration, with given store contents and nothing pending. -/
def State.resetWith (cfg : Config) (mem : Memory) : State where
  cfg := cfg
  host := []
  arg0 := 0#32
  arg1 := 0#32
  arg2 := 0#32
  res0 := 0#32
  res1 := 0#32
  speedRaw := F32.zero
  startX := F32.zero
  lengthX := F32.one
  recX := false
  sosX := F32.zero
  filterX := F32.zero
  spd := F32.zero
  vol := F32.zero
  sosL := F32.zero
  filterL := F32.zero
  start := 0#32
  length := BitVec.ofNat 32 cfg.n
  phase := F32.zero
  nstart := 0#32
  nlength := BitVec.ofNat 32 cfg.n
  nphase := F32.zero
  xfKind := .none
  xfProg := F32.zero
  xfWin := F32.zero
  xo := F32.zero
  wp := 0#32
  headL := { state := .inactive, count := 0#32 }
  headR := { state := .inactive, count := 0#32 }
  clrBusy := false
  clrPtr := 0#32
  clkPrev := false
  clkAge := 0#32
  synced := false
  trigPend := false
  errIllegal := false
  errNonfinite := false
  errBusy := false
  mem := mem
  draws := 0
  errLog := []

/-- The machine right after reset: rule R321's registers, under the test configuration `TC` (DESIGN CHOICE, log 1) and with the
draw in which every store word is `+0.0` (DESIGN CHOICE, log 3). -/
def State.reset : State :=
  State.resetWith Config.tc []

end Sys2Proof.Machine
end

