-- ==== Sys2Proof/Machine/Operands.lean ====
section
/-! DEFINITION. The operand forms of the commands (rules R72, R73, R92), the source of NaN draws, and the parameters of rule R8
to which the spec gives a value. -/

namespace Sys2Proof.Machine

/-- `SPEED_MAX = 2.0` (rule R8). -/
def speedMax : Word := 0x40000000#32

/-- `VOL_KNEE`, the binary32 nearest 0.1 (rule R8). -/
def volKnee : Word := 0x3DCCCCCD#32

/-- `T0`, the binary32 nearest 0.1 (rule R8). -/
def deadbandZero : Word := 0x3DCCCCCD#32

/-- `T1L`, the binary32 nearest 0.95 (rule R8). -/
def deadbandUnityLow : Word := 0x3F733333#32

/-- `T1H`, the binary32 nearest 1.05 (rule R8). -/
def deadbandUnityHigh : Word := 0x3F866666#32

/-- The quiet NaN that each arithmetic operation of a command answers if its result is a NaN; operations are numbered. -/
abbrev NanSource := Nat → Word

/-- The operations numbered from `k` on. -/
def NanSource.shift (g : NanSource) (k : Nat) : NanSource :=
  fun j => g (k + j)

/-- The draws of the command that a state is about to perform (log 6). -/
def State.nanSource (s : State) : NanSource :=
  fun site => F32.quietNaN (Config.nanDraw s.draws site)

/-- A command that computed with binary32 has used its draws. -/
def State.drawn (s : State) : State :=
  { s with draws := s.draws + 1 }

/-- Bit `c` of a word address: `L = 0`, `R = 1` (rule R70). -/
def channelBit : Channel → Nat
  | .left => 0
  | .right => 1

/-- The word address `2i + c` of sample `i` of channel `c` (rules R14, R70). -/
def wordAddress (c : Channel) (i : Nat) : Nat :=
  2 * i + channelBit c

/-- `+1` or `-1` (rule R92). -/
def directionStep : Direction → Int
  | .forward => 1
  | .backward => -1

/-- `int32(w) mod N`, the Euclidean remainder (rule R72). -/
def integerPosition (n : Nat) (w : Word) : Nat :=
  (w.toInt % (n : Int)).toNat

/-- The index next to `i` in a read direction, modulo `N` (rule R160). -/
def neighbour (n i : Nat) (dir : Direction) : Nat :=
  (((i : Int) + directionStep dir) % (n : Int)).toNat

/-- `if y = N then y <- +0.0`: rounding up to the top of `[0, N)` (rule R73). -/
def snapTop (n : Nat) (y : Word) : Word :=
  if F32.eq y (F32.ofInteger n) then F32.zero else y

/-- `wrapN(x)` (rule R73): the exact remainder of a finite position modulo `N`, rounded once, `N` itself snapped to `+0.0`. A
position that is not finite, which rule R74 excludes, gives a free position in `[0, N)` (log 11). -/
def wrapN (n : Nat) (x : Word) : Word :=
  if F32.isFinite x then snapTop n (F32.round false (F32.units x % ((n * F32.unitsPerOne : Nat) : Int)).toNat 1)
  else F32.ofInteger (Config.openIntegerOfWord x % n)

/-- A register's unsigned integer used as a binary32 (rule R13). -/
def floatOfRegister (w : Word) : Word :=
  F32.ofInteger w.toNat

end Sys2Proof.Machine
end

