-- ==== Sys2Proof/Machine/Admission.lean ====
section
/-! DEFINITION. Which configurations have a block: the constraints (a) to (j) of rule R9, rule R129 for the tables, and what the
widths of rules R41 and R43 add. -/

namespace Sys2Proof.Machine

/-- The entries of a table never fall. -/
def nondecreasing : List Nat → Bool
  | [] => true
  | x :: rest => (match rest with | [] => true | y :: _ => decide (x ≤ y)) && nondecreasing rest

/-- `START_LUT` (rule R129 (a)). -/
def startLutAdmitted (c : Config) : Bool :=
  c.startLut.length == c.q && (c.startLut.all fun x => decide (x < c.n)) && nondecreasing c.startLut &&
    c.startLut.head? == some 0

/-- `LENGTH_LUT` (rule R129 (b)). -/
def lengthLutAdmitted (c : Config) : Bool :=
  c.lengthLut.length == c.q && (c.lengthLut.all fun x => decide (c.minLoop ≤ x) && decide (x ≤ c.n)) &&
    nondecreasing c.lengthLut && c.lengthLut.head? == some c.minLoop && c.lengthLut.getLast? == some c.n

/-- Rule R9 (a) and (b): `1 ≤ MIN_LOOP ≤ N ≤ 2^24` and `MIN_LOOP ≥ 2 × SPEED_MAX`; and `N = floor(FS × BUF_SECONDS)` with `FS > 0`
(rule R8, log 7). -/
def sizesAdmitted (c : Config) : Bool :=
  decide (1 ≤ c.minLoop) && decide (c.minLoop ≤ c.n) && decide (c.n ≤ 2 ^ 24) &&
    decide (2 * F32.magnitude speedMax ≤ c.minLoop * F32.unitsPerOne) && decide (0 < c.fs) &&
    decide ((c.fs * c.bufSeconds).floor = (c.n : Int))

/-- Rule R9 (c), (d), (e) and (f): the fade windows. -/
def fadesAdmitted (c : Config) : Bool :=
  F32.isFinite c.xfMin && F32.isFinite c.xfMax && F32.isFinite c.xfFrac && F32.lt F32.zero c.xfMin && F32.le c.xfMin c.xfMax &&
    decide (2 * F32.magnitude c.xfMin ≤ c.minLoop * F32.unitsPerOne) && F32.lt F32.zero c.xfFrac && F32.le c.xfFrac 0x3F000000#32 &&
    decide (2 * F32.magnitude c.xfMax ≤ c.n * F32.unitsPerOne)

/-- Rule R9 (g) and (h): the counts. `WH_CNT`, which counts up to `WFADE - 1`, and `CLK_AGE`, which counts up to `CLOCK_TIMEOUT`, are
32-bit registers (rules R41, R43, R299), which bounds the two. DEDUCED, safe (log 16). -/
def countsAdmitted (c : Config) : Bool :=
  decide (1 ≤ c.trigFade) && decide (2 * c.trigFade < c.n) && decide (1 ≤ c.wfade) && decide (1 ≤ c.clearSlice) &&
    decide (1 ≤ c.clockTimeout) && decide (2 ≤ c.q) && decide (c.wfade ≤ 2 ^ 32) && decide (c.clockTimeout < 2 ^ 32)

/-- Rule R9 (i): the noise bound. -/
def noiseAdmitted (c : Config) : Bool :=
  F32.isFinite c.noiseAmp && F32.le F32.zero c.noiseAmp

/-- The configuration has a block (rule R9). -/
def configAdmitted (c : Config) : Bool :=
  sizesAdmitted c && fadesAdmitted c && countsAdmitted c && noiseAdmitted c && startLutAdmitted c && lengthLutAdmitted c

end Sys2Proof.Machine
end

