-- ==== Sys2Proof/Machine/Flags.lean ====
section
/-! DEFINITION. The flag-like outputs of the block (rule R47): the `STATUS` word of rule R45 and the register words of `RDREG`
(rule R273). -/

namespace Sys2Proof.Machine

/-- The code of `XF_KIND` (rule R39). -/
def XfKind.code : XfKind → BitVec 2
  | .none => 0#2
  | .boundary => 1#2
  | .param => 2#2
  | .trigger => 3#2

/-- The code of `WH_STATE` (rule R41). -/
def HeadState.code : HeadState → BitVec 2
  | .inactive => 0#2
  | .fadingIn => 1#2
  | .active => 2#2
  | .fadingOut => 3#2

/-- `isWriting`: the head is not INACTIVE (rule R197). -/
def Head.isWriting (h : Head) : Bool :=
  decide (h.state ≠ .inactive)

/-- One bit. -/
def bit (b : Bool) : BitVec 1 :=
  BitVec.ofBool b

/-- `StatusWord()`: the fields of rule R45 from bit 31 down to bit 0. -/
def State.statusWord (s : State) : Word :=
  0#13 ++ bit s.errBusy ++ bit s.errNonfinite ++ bit s.errIllegal ++ 0#4 ++ bit s.headR.isWriting ++ bit s.headL.isWriting ++
    bit s.recX ++ bit s.trigPend ++ bit s.synced ++ bit s.clrBusy ++ s.xfKind.code ++ s.headR.state.code ++ s.headL.state.code

/-- A one-bit register as a word: the value in bit 0 (rule R273). -/
def wordOfBit (b : Bool) : Word :=
  (bit b).setWidth 32

/-- `RegWord(idx)` of rule R273. -/
def State.registerWord (s : State) : Reg → Word
  | .speedRaw => s.speedRaw
  | .startX => s.startX
  | .lengthX => s.lengthX
  | .recX => wordOfBit s.recX
  | .sosX => s.sosX
  | .filterX => s.filterX
  | .spd => s.spd
  | .vol => s.vol
  | .sosL => s.sosL
  | .filterL => s.filterL
  | .start => s.start
  | .length => s.length
  | .phase => s.phase
  | .nstart => s.nstart
  | .nlength => s.nlength
  | .nphase => s.nphase
  | .xfKind => s.xfKind.code.setWidth 32
  | .xfProg => s.xfProg
  | .xfWin => s.xfWin
  | .xo => s.xo
  | .wp => s.wp
  | .whStateL => s.headL.state.code.setWidth 32
  | .whStateR => s.headR.state.code.setWidth 32
  | .whCntL => s.headL.count
  | .whCntR => s.headR.count
  | .clrBusy => wordOfBit s.clrBusy
  | .clrPtr => s.clrPtr
  | .clkPrev => wordOfBit s.clkPrev
  | .clkAge => s.clkAge
  | .synced => wordOfBit s.synced
  | .trigPend => wordOfBit s.trigPend
  | .statusWord => s.statusWord

/-- The output level `FILTER_OUT`, equal to `FILTER_L` at all times (rule R136). -/
def State.filterOut (s : State) : Word :=
  s.filterL

end Sys2Proof.Machine
end

