-- ==== Sys2Proof/Machine/Ops.lean ====
section
/-! DEFINITION. The named operations over the store and the registers: store access (rules R14, R70, R160, R164, R165), raising an
error and clearing the errors (rules R290, R291, R270: the block's only exceptions), the write heads (rules R191, R192, R194) and
reset (rules R320 to R322). -/

namespace Sys2Proof.Machine

/-- `S[c][i]`. -/
def State.storeRead (s : State) (c : Channel) (i : Nat) : Word :=
  s.mem.readWord (wordAddress c i)

/-- `S[c][i] <- w`. -/
def State.storeWrite (s : State) (c : Channel) (i : Nat) (w : Word) : State :=
  { s with mem := s.mem.writeWord (wordAddress c i) w }

/-- `for i in lo .. hi-1: S[L][i] <- +0.0; S[R][i] <- +0.0` (rules R164, R165). Sample `i` of both channels is the eight bytes from
`8i` on. -/
def State.storeClear (s : State) (lo hi : Nat) : State :=
  { s with mem := s.mem.zeroBytes (8 * lo) (8 * hi) }

/-- `raise Error(code)` (rules R14, R290, R291): the sticky bit, and the model's log (rule R304), and nothing else. -/
def State.raise (s : State) : ErrorCode → State
  | .illegal => { s with errIllegal := true, errLog := s.errLog ++ [.illegal] }
  | .nonfinite => { s with errNonfinite := true, errLog := s.errLog ++ [.nonfinite] }
  | .busy => { s with errBusy := true, errLog := s.errLog ++ [.busy] }

/-- The recovery of rule R295: the three sticky bits cleared (rule R270). -/
def State.clearErrors (s : State) : State :=
  { s with errIllegal := false, errNonfinite := false, errBusy := false }

/-- The write head of a channel. -/
def State.head (s : State) : Channel → Head
  | .left => s.headL
  | .right => s.headR

/-- The write head of a channel replaced. -/
def State.setHead (s : State) (c : Channel) (h : Head) : State :=
  match c with
  | .left => { s with headL := h }
  | .right => { s with headR := h }

/-- `fadd(a, fmul(fsub(b, a), fr))` (rule R160). -/
def lerp (g : NanSource) (fr a b : Word) : Word :=
  F32.add (g 3) a (F32.mul (g 2) (F32.sub (g 1) b a) fr)

/-- The interpolated read at a position `pw` in `[0, N)`: base index, fraction, neighbour (rule R160). -/
def State.interpAt (s : State) (g : NanSource) (c : Channel) (pw : Word) (dir : Direction) : Word :=
  lerp g (F32.sub (g 0) pw (F32.ofInteger (F32.floorNat pw))) (s.storeRead c (F32.floorNat pw))
    (s.storeRead c (neighbour s.cfg.n (F32.floorNat pw) dir))

/-- `Interp(c, p, dir)` (rule R160). -/
def State.interp (s : State) (g : NanSource) (c : Channel) (p : Word) (dir : Direction) : Word :=
  s.interpAt g c (wrapN s.cfg.n p) dir

/-- `WHStart(c)` on one head (rule R191). -/
def Head.start (wfade : Nat) (h : Head) : Head :=
  match h.state with
  | .inactive => { state := .fadingIn, count := 0#32 }
  | .fadingOut =>
    if wfade - h.count.toNat = wfade then { state := .active, count := 0#32 }
    else { state := .fadingIn, count := BitVec.ofNat 32 (wfade - h.count.toNat) }
  | .fadingIn => h
  | .active => h

/-- `WHStop(c)` on one head (rule R192). -/
def Head.stop (wfade : Nat) (h : Head) : Head :=
  match h.state with
  | .active => { state := .fadingOut, count := 0#32 }
  | .fadingIn =>
    if wfade - h.count.toNat = wfade then { state := .inactive, count := 0#32 }
    else { state := .fadingOut, count := BitVec.ofNat 32 (wfade - h.count.toNat) }
  | .fadingOut => h
  | .inactive => h

/-- `WHStart(c)` (rule R191). -/
def State.startHead (s : State) (c : Channel) : State :=
  s.setHead c ((s.head c).start s.cfg.wfade)

/-- `WHStop(c)` (rule R192). -/
def State.stopHead (s : State) (c : Channel) : State :=
  s.setHead c ((s.head c).stop s.cfg.wfade)

/-- The level of a fading write, from the count before the increment (rule R194). -/
def Head.level (g : NanSource) (wfade : Nat) (h : Head) : Word :=
  match h.state with
  | .fadingIn => F32.div (g 0) (floatOfRegister h.count) (F32.ofInteger wfade)
  | _ => F32.sub (g 1) F32.one (F32.div (g 0) (floatOfRegister h.count) (F32.ofInteger wfade))

/-- The blend of a fading write: `fadd(fmul(old, fsub(1.0, lev)), fmul(v, lev))` (rule R194). -/
def fadeBlend (g : NanSource) (lev old v : Word) : Word :=
  F32.add (g 5) (F32.mul (g 3) old (F32.sub (g 2) F32.one lev)) (F32.mul (g 4) v lev)

/-- A fading head after a write: the count advanced, the fade ended when it reaches `WFADE` (rule R194). -/
def Head.advance (wfade : Nat) (h : Head) : Head :=
  if h.count.toNat + 1 = wfade then
    { state := if h.state = .fadingIn then .active else .inactive, count := 0#32 }
  else { h with count := BitVec.ofNat 32 (h.count.toNat + 1) }

/-- The write of a fading head: the blend against the old word, then the count (rule R194). -/
def State.headFade (s : State) (g : NanSource) (c : Channel) (i : Nat) (v : Word) : State :=
  (s.storeWrite c i (fadeBlend g ((s.head c).level g s.cfg.wfade) (s.storeRead c i) v)).setHead c
    ((s.head c).advance s.cfg.wfade)

/-- `WHCore(c, i, v)` (rule R194). -/
def State.headWrite (s : State) (g : NanSource) (c : Channel) (i : Nat) (v : Word) : State :=
  match (s.head c).state with
  | .inactive => s
  | .active => s.storeWrite c i v
  | .fadingIn => s.headFade g c i v
  | .fadingOut => s.headFade g c i v

/-- A store word that the reset draw may hold: finite, of magnitude at most `NOISE_AMP` (rules R46, R322). -/
def noiseWord (noiseAmp w : Word) : Bool :=
  F32.isFinite w && F32.le (F32.abs w) noiseAmp

/-- A draw of the `2N` store words that rule R322 allows. -/
def drawAdmitted (cfg : Config) (draw : List Word) : Bool :=
  draw.length == 2 * cfg.n && draw.all fun w => noiseWord cfg.noiseAmp w

/-- The reset event (rules R320 to R322): every register at its reset value, the store at the draw. The configuration is not
changed by it (rule R320). The model's own fields go on: the host's remaining actions, the count of draws and the never-cleared
error log (log 4). -/
def State.resetEvent (s : State) (draw : List Word) : State :=
  { State.resetWith s.cfg (Memory.ofWords draw 0) with host := s.host, draws := s.draws, errLog := s.errLog }

end Sys2Proof.Machine
end

