-- ==== Sys2Proof/Machine/StatusRead.lean ====
section
/-! DEFINITION. The observability commands (spec file 44_status.md): `STATUS` and `RDREG`. -/

namespace Sys2Proof.Machine

/-- `STATUS` (rule R270): the word before any clearing, then the clearing. -/
def execStatus (clr : Bool) (s : State) : Result :=
  if clr then .next { s with res0 := s.statusWord }.clearErrors else .next { s with res0 := s.statusWord }

/-- `RDREG` (rule R272). -/
def execRdreg (r : Reg) (s : State) : Result :=
  .next { s with res0 := s.registerWord r }

end Sys2Proof.Machine
end

