-- ==== Sys2Proof/Machine/Control.lean ====
section
/-! DEFINITION. The control front-end (spec file 40_control.md): the `SET` commands, `LATCH`, `TRIG` and `NOP`. -/

namespace Sys2Proof.Machine

/-- The shape of the binary32 `SET` commands (rule R121): `ARG0` goes to a shadow register exactly as written if it is finite, else
`NONFINITE` is raised. -/
def setShadow (write : Word → State) (s : State) : Result :=
  if F32.isFinite s.arg0 then .next (write s.arg0) else .next (s.raise .nonfinite)

/-- `SETSPEED` (rule R122). -/
def execSetspeed (s : State) : Result :=
  setShadow (fun v => { s with speedRaw := v }) s

/-- `SETSTART` (rule R123). -/
def execSetstart (s : State) : Result :=
  setShadow (fun v => { s with startX := v }) s

/-- `SETLENGTH` (rule R124). -/
def execSetlength (s : State) : Result :=
  setShadow (fun v => { s with lengthX := v }) s

/-- `SETREC` (rule R125). -/
def execSetrec (on : Bool) (s : State) : Result :=
  .next { s with recX := on }

/-- `SETSOS` (rule R126). -/
def execSetsos (s : State) : Result :=
  setShadow (fun v => { s with sosX := v }) s

/-- `SETFILTER` (rule R127). -/
def execSetfilter (s : State) : Result :=
  setShadow (fun v => { s with filterX := v }) s

/-- `Quant(x)` (rule R128). -/
def quant (g : NanSource) (q : Nat) (x : Word) : Nat :=
  min (F32.roundTiesToEven (F32.mul (g 0) (F32.clamp x F32.zero F32.one) (F32.ofInteger (q - 1)))) (q - 1)

/-- The raw speed clamped to `±SPEED_MAX`: `r` of rule R131. -/
def clampSpeed (raw : Word) : Word :=
  F32.clamp raw (F32.neg speedMax) speedMax

/-- The first output of `ResolveSpeed` (rule R131). -/
def resolveSpeed (raw : Word) : Word :=
  if F32.le (F32.abs (clampSpeed raw)) deadbandZero then F32.zero
  else if F32.le deadbandUnityLow (F32.abs (clampSpeed raw)) && F32.le (F32.abs (clampSpeed raw)) deadbandUnityHigh then
    (if F32.lt (clampSpeed raw) F32.zero then F32.negOne else F32.one)
  else clampSpeed raw

/-- The second output of `ResolveSpeed`, the stall volume (rule R132). -/
def resolveVolume (g : NanSource) (raw : Word) : Word :=
  F32.min F32.one (F32.div (g 0) (F32.abs (clampSpeed raw)) volKnee)

/-- The fade window `W(L)` (rule R244). -/
def fadeWindow (g : NanSource) (cfg : Config) (len : Nat) : Word :=
  F32.max cfg.xfMin (F32.min (F32.mul (g 0) cfg.xfFrac (F32.ofInteger len)) cfg.xfMax)

/-- The absolute position of the head stream, `wrapN(fadd(START, PHASE))`. -/
def State.headPosition (s : State) (g : NanSource) : Word :=
  wrapN s.cfg.n (F32.add (g 0) (floatOfRegister s.start) s.phase)

/-- `BeginParam(ts, tl)`: the normal case (rule R134) when `PHASE < tl`, else the edge case (rule R135). -/
def State.beginParam (s : State) (g : NanSource) (ts tl : Nat) : State :=
  if F32.lt s.phase (F32.ofInteger tl) then
    { s with
      xo := s.headPosition g
      nstart := BitVec.ofNat 32 ts
      nlength := BitVec.ofNat 32 tl
      nphase := s.phase
      xfWin := fadeWindow (g.shift 1) s.cfg tl
      xfProg := F32.zero
      xfKind := .param }
  else
    { s with
      xo := s.headPosition g
      nstart := BitVec.ofNat 32 ts
      nlength := BitVec.ofNat 32 tl
      nphase := F32.zero
      xfWin := F32.clamp (F32.sub (g 2) s.phase (F32.ofInteger tl)) s.cfg.xfMin s.cfg.xfMax
      xfProg := F32.zero
      xfKind := .param }

/-- The start that the shadow register targets: `START_LUT[Quant(START_X)]` (rule R130). -/
def State.targetStart (s : State) (g : NanSource) : Nat :=
  s.cfg.startLut.getD (quant g s.cfg.q s.startX) 0

/-- The length that the shadow register targets: `LENGTH_LUT[Quant(LENGTH_X)]` (rule R130). -/
def State.targetLength (s : State) (g : NanSource) : Nat :=
  s.cfg.lengthLut.getD (quant g s.cfg.q s.lengthX) 0

/-- `LATCH` steps 1 and 2: speed, stall volume, feedback and filter (rule R130). -/
def State.latchLevels (s : State) (g : NanSource) : State :=
  { s with
    spd := resolveSpeed s.speedRaw
    vol := resolveVolume g s.speedRaw
    sosL := F32.clamp s.sosX F32.zero F32.one
    filterL := F32.clamp s.filterX F32.zero F32.one }

/-- `LATCH` step 3: both heads, L then R (rule R133). -/
def State.latchHeads (s : State) : State :=
  if s.recX then (s.startHead .left).startHead .right else (s.stopHead .left).stopHead .right

/-- `LATCH` steps 4 and 5: the targets, and a parameter transition unless one of any kind is in flight (rules R130, R233). -/
def State.latchTargets (s : State) (g : NanSource) : State :=
  if s.xfKind = .none ∧ (s.targetStart g ≠ s.start.toNat ∨ s.targetLength (g.shift 1) ≠ s.length.toNat) then
    s.beginParam (g.shift 2) (s.targetStart g) (s.targetLength (g.shift 1))
  else s

/-- `LATCH` (rule R130). -/
def execLatch (s : State) : Result :=
  .next (((s.latchLevels s.nanSource).latchHeads).latchTargets (s.nanSource.shift 1)).drawn

/-- `TRIG` (rule R137). -/
def execTrig (s : State) : Result :=
  .next { s with trigPend := true }

/-- `NOP` (rule R138). -/
def execNop (s : State) : Result :=
  .next s

end Sys2Proof.Machine
end

