-- ==== Sys2Proof/Machine/Store.lean ====
section
/-! DEFINITION. The circular sample store commands (spec file 41_store.md): `STWRITE`, `STREAD` and `CLEAR`. -/

namespace Sys2Proof.Machine

/-- `STWRITE` (rule R161). -/
def execStwrite (s : State) : Result :=
  if s.clrBusy then .next (s.raise .busy)
  else
    .next ((s.storeWrite .left (integerPosition s.cfg.n s.arg0) s.arg1).storeWrite .right
      (integerPosition s.cfg.n s.arg0) s.arg2)

/-- The NaN draws of `STREAD`. They depend on the wrapped position and the direction besides the draw counter, which `STREAD` does
not advance: two `STREAD`s with no other command between them return the same words (rule R78), and so do `STREAD`s at `p` and at
`wrapN(p)` (rule R168; log 6). -/
def State.readSource (s : State) (dir : Direction) : NanSource :=
  s.nanSource.shift (128 + 16 * (2 * (wrapN s.cfg.n s.arg0).toNat + (if dir = .forward then 0 else 1)))

/-- `STREAD` (rule R162). -/
def execStread (dir : Direction) (s : State) : Result :=
  if F32.isFinite s.arg0 then
    .next { s with
      res0 := s.interp (s.readSource dir) .left s.arg0 dir
      res1 := s.interp ((s.readSource dir).shift 4) .right s.arg0 dir }
  else .next (s.raise .nonfinite)

/-- `CLEAR` mode 0, the whole store (rule R164). -/
def State.clearAll (s : State) : State :=
  { s.storeClear 0 s.cfg.n with clrBusy := false, clrPtr := 0#32, res0 := 1#32 }

/-- Where a clear goes on from: 0 when none is in progress (rule R165). -/
def State.clearFrom (s : State) : Nat :=
  if s.clrBusy then s.clrPtr.toNat else 0

/-- Where a slice ends: `min(CLR_PTR + CLEAR_SLICE, N)` (rule R165). -/
def State.clearTo (s : State) : Nat :=
  min (s.clearFrom + s.cfg.clearSlice) s.cfg.n

/-- `CLEAR` mode 1, one slice (rule R165). -/
def State.clearStep (s : State) : State :=
  if s.clearTo = s.cfg.n then
    { s.storeClear s.clearFrom s.clearTo with clrBusy := false, clrPtr := 0#32, res0 := 1#32 }
  else
    { s.storeClear s.clearFrom s.clearTo with clrBusy := true, clrPtr := BitVec.ofNat 32 s.clearTo, res0 := 0#32 }

/-- `CLEAR` (rule R163). -/
def execClear (mode : ClearMode) (s : State) : Result :=
  match mode with
  | .all => .next s.clearAll
  | .step => .next s.clearStep

end Sys2Proof.Machine
end

