-- ==== Sys2Proof/Machine/Tick.lean ====
section
/-! DEFINITION. `TICK`, the per-sample engine (spec file 43_tick.md): the write stage, the read and blend stage, the advance stage
and the trigger stage. -/

namespace Sys2Proof.Machine

/-- The value offered to a head, `fadd(in_c, fmul(SOS_L, old))` (rule R223). -/
def soundOnSound (g : NanSource) (sos input old : Word) : Word :=
  F32.add (g 7) input (F32.mul (g 6) sos old)

/-- The write of one channel at `WP` (rule R221). -/
def State.writeChannel (s : State) (g : NanSource) (c : Channel) (input : Word) : State :=
  s.headWrite g c s.wp.toNat (soundOnSound g s.sosL input (s.storeRead c s.wp.toNat))

/-- `WP <- (WP + 1) mod N` (rule R221). -/
def State.advanceWp (s : State) : State :=
  { s with wp := BitVec.ofNat 32 ((s.wp.toNat + 1) % s.cfg.n) }

/-- `WriteStage(inL, inR)` (rule R221). -/
def State.writeStage (s : State) (g : NanSource) (inL inR : Word) : State :=
  if s.clrBusy then s.advanceWp
  else ((s.writeChannel g .left inL).writeChannel (g.shift 8) .right inR).advanceWp

/-- The read direction of the tick (rule R230). -/
def State.readDirection (s : State) : Direction :=
  if F32.lt s.spd F32.zero then .backward else .forward

/-- `Lin(a, b, f)` (rule R235). -/
def lin (g : NanSource) (a b f : Word) : Word :=
  F32.add (g 3) (F32.mul (g 1) a (F32.sub (g 0) F32.one f)) (F32.mul (g 2) b f)

/-- `EPout(x)` (rule R236). -/
def equalPowerOut (g : NanSource) (x : Word) : Word :=
  F32.sub (g 1) F32.one (F32.mul (g 0) x x)

/-- `EPin(x)` (rule R236). -/
def equalPowerIn (g : NanSource) (x : Word) : Word :=
  F32.sub (g 2) F32.one (F32.mul (g 1) (F32.sub (g 0) F32.one x) (F32.sub (g 0) F32.one x))

/-- The blend fraction of BOUNDARY and PARAM (rule R232). -/
def State.blendFraction (s : State) (g : NanSource) : Word :=
  F32.min F32.one (F32.div (g 0) s.xfProg s.xfWin)

/-- The read of the canonical head stream, at `fadd(START, PHASE)` (rule R231). -/
def State.readHead (s : State) (g : NanSource) (c : Channel) : Word :=
  s.interp (g.shift 1) c (F32.add (g 0) (floatOfRegister s.start) s.phase) s.readDirection

/-- The read of the pending new stream, at `fadd(NSTART, NPHASE)` (rule R231). -/
def State.readNew (s : State) (g : NanSource) (c : Channel) : Word :=
  s.interp (g.shift 1) c (F32.add (g 0) (floatOfRegister s.nstart) s.nphase) s.readDirection

/-- The read of the old (tail) stream, at `XO` (rule R231). -/
def State.readTail (s : State) (g : NanSource) (c : Channel) : Word :=
  s.interp g c s.xo s.readDirection

/-- `y_c` of a TRIGGER transition (rules R231, R234). -/
def State.triggerSample (s : State) (g : NanSource) (c : Channel) : Word :=
  if F32.lt s.xfProg (F32.ofInteger s.cfg.trigFade) then
    F32.mul (g 20) (s.readTail g c) (equalPowerOut (g.shift 15) (F32.div (g 14) s.xfProg (F32.ofInteger s.cfg.trigFade)))
  else
    F32.mul (g 20) (s.readHead (g.shift 4) c)
      (equalPowerIn (g.shift 15)
        (F32.div (g 14) (F32.sub (g 13) s.xfProg (F32.ofInteger s.cfg.trigFade)) (F32.ofInteger s.cfg.trigFade)))

/-- `y_c` (rule R231). -/
def State.streamSample (s : State) (g : NanSource) (c : Channel) : Word :=
  match s.xfKind with
  | .none => s.readHead (g.shift 4) c
  | .boundary => lin (g.shift 9) (s.readTail g c) (s.readHead (g.shift 4) c) (s.blendFraction (g.shift 13))
  | .param => lin (g.shift 9) (s.readTail g c) (s.readNew (g.shift 4) c) (s.blendFraction (g.shift 13))
  | .trigger => s.triggerSample g c

/-- `RES_c`: the stream sample times the stall volume (rule R237). -/
def State.outputSample (s : State) (g : NanSource) (c : Channel) : Word :=
  F32.mul (g 21) (s.streamSample g c) s.vol

/-- `ReadStage()` (rules R230 to R237). -/
def State.readStage (s : State) (g : NanSource) : State :=
  { s with res0 := s.outputSample g .left, res1 := s.outputSample (g.shift 22) .right }

/-- `WrapPhase(p, L)` (rule R241): the wrapped phase and whether it wrapped. -/
def wrapPhase (g : NanSource) (p : Word) (len : Nat) : Word × Bool :=
  if F32.le (F32.ofInteger len) p then (F32.sub (g 0) p (F32.ofInteger len), true)
  else if F32.lt p F32.zero then (snapTop len (F32.add (g 1) p (F32.ofInteger len)), true)
  else (p, false)

/-- The unwrapped phase `pun` after the step of the canonical stream (rule R240). -/
def State.unwrappedPhase (s : State) (g : NanSource) : Word :=
  F32.add (g 0) s.phase s.spd

/-- `ev`: the canonical phase wraps in this tick; never during PARAM, where it is frozen (rules R240, R249). -/
def State.phaseWraps (s : State) (g : NanSource) : Bool :=
  decide (s.xfKind ≠ .param) && (wrapPhase (g.shift 1) (s.unwrappedPhase g) s.length.toNat).2

/-- Advance stage, step 1: the phases (rule R240). -/
def State.advancePhases (s : State) (g : NanSource) : State :=
  if s.xfKind = .param then
    { s with nphase := (wrapPhase (g.shift 1) (F32.add (g 0) s.nphase s.spd) s.nlength.toNat).1 }
  else { s with phase := (wrapPhase (g.shift 1) (s.unwrappedPhase g) s.length.toNat).1 }

/-- Advance stage, step 2: the tail position (rule R242). -/
def State.advanceTail (s : State) (g : NanSource) : State :=
  if s.xfKind = .none then s else { s with xo := wrapN s.cfg.n (F32.add (g 3) s.xo s.spd) }

/-- Advance stage, step 3: the progress (rule R243). -/
def State.advanceProgress (s : State) (g : NanSource) : State :=
  match s.xfKind with
  | .none => s
  | .boundary => { s with xfProg := F32.add (g 4) s.xfProg (F32.abs s.spd) }
  | .param => { s with xfProg := F32.add (g 4) s.xfProg (F32.abs s.spd) }
  | .trigger => { s with xfProg := F32.add (g 4) s.xfProg F32.one }

/-- Advance stage, step 4: completion (rules R246, R247, R248). -/
def State.completeTransition (s : State) : State :=
  match s.xfKind with
  | .none => s
  | .boundary => if F32.le s.xfWin s.xfProg then { s with xfKind := .none } else s
  | .param =>
    if F32.le s.xfWin s.xfProg then
      { s with start := s.nstart, length := s.nlength, phase := s.nphase, xfKind := .none }
    else s
  | .trigger => if F32.le (F32.ofInteger (2 * s.cfg.trigFade)) s.xfProg then { s with xfKind := .none } else s

/-- `BeginBoundary(pun)` (rule R245). -/
def State.beginBoundary (s : State) (g : NanSource) (pun : Word) : State :=
  { s with
    xo := wrapN s.cfg.n (F32.add (g 5) (floatOfRegister s.start) pun)
    xfProg := F32.zero
    xfWin := fadeWindow (g.shift 6) s.cfg s.length.toNat
    xfKind := .boundary }

/-- Advance stage, step 5: a wrap begins a boundary fade if no transition is in flight (rules R245, R249). -/
def State.fadeAtWrap (s : State) (g : NanSource) (ev : Bool) (pun : Word) : State :=
  if ev = true ∧ s.xfKind = .none then s.beginBoundary g pun else s

/-- `AdvanceStage()` (rule R240), in the order of rule R249. -/
def State.advanceStage (s : State) (g : NanSource) : State :=
  ((((s.advancePhases g).advanceTail g).advanceProgress g).completeTransition).fadeAtWrap g (s.phaseWraps g)
    (s.unwrappedPhase g)

/-- The part of `Retrigger()` before the fade: the position `h` of the head stream, the new window adopted if a PARAM transition is
in flight, and the phase back at 0 (rule R251). -/
def State.retriggerWindow (s : State) (g : NanSource) : Word × State :=
  if s.xfKind = .param then
    (wrapN s.cfg.n (F32.add (g 0) (floatOfRegister s.nstart) s.nphase),
      { s with start := s.nstart, length := s.nlength, phase := F32.zero })
  else (wrapN s.cfg.n (F32.add (g 0) (floatOfRegister s.start) s.phase), { s with phase := F32.zero })

/-- The trigger fade from a tail at `h`, or the hard cut of a loop too short for it (rule R251). -/
def State.beginTrigger (s : State) (h : Word) : State :=
  if 2 * s.cfg.trigFade < s.length.toNat then
    { s with xo := h, xfProg := F32.zero, xfWin := F32.ofInteger s.cfg.trigFade, xfKind := .trigger }
  else { s with xfKind := .none }

/-- `Retrigger()` (rule R251). -/
def State.retrigger (s : State) (g : NanSource) : State :=
  { (s.retriggerWindow g).2.beginTrigger (s.retriggerWindow g).1 with
    trigPend := false, clkAge := 0#32, synced := true }

/-- `ClockAge()` (rule R252). -/
def State.ageClock (s : State) : State :=
  if s.clkAge.toNat < s.cfg.clockTimeout then
    { s with
      clkAge := BitVec.ofNat 32 (s.clkAge.toNat + 1)
      synced := if s.clkAge.toNat + 1 = s.cfg.clockTimeout then false else s.synced }
  else s

/-- `edge`: a rising clock edge (rule R250). -/
def State.clockEdge (s : State) (clk : Bool) : Bool :=
  clk && !s.clkPrev

/-- `CLK_PREV <- clk` (rule R250). -/
def State.sampleClock (s : State) (clk : Bool) : State :=
  { s with clkPrev := clk }

/-- `TriggerStage(clk)` (rule R250). -/
def State.triggerStage (s : State) (g : NanSource) (clk : Bool) : State :=
  if s.clockEdge clk || s.trigPend then (s.sampleClock clk).retrigger g else (s.sampleClock clk).ageClock

/-- The four stages of a tick, in order (rules R220, R222). -/
def State.tick (s : State) (clk : Bool) : State :=
  ((((s.writeStage s.nanSource s.arg0 s.arg1).readStage (s.nanSource.shift 16)).advanceStage (s.nanSource.shift 60)).triggerStage
    (s.nanSource.shift 67) clk)

/-- `TICK` (rule R220). -/
def execTick (clk : Bool) (s : State) : Result :=
  .next (s.tick clk).drawn

end Sys2Proof.Machine
end

