-- ==== Sys2Proof/Machine/WriteHead.lean ====
section
/-! DEFINITION. The write head commands (spec file 42_write_head.md): `WHSTART`, `WHSTOP` and `WHWRITE`. -/

namespace Sys2Proof.Machine

/-- A state change for each channel of a mask, L before R (rules R191, R192). -/
def forMask (mask : ChannelMask) (f : State → Channel → State) (s : State) : State :=
  if mask.right then f (if mask.left then f s .left else s) .right else if mask.left then f s .left else s

/-- `WHSTART` (rule R191). The empty mask, which no word decodes to, is ILLEGAL as the rule says (log 15). -/
def execWhstart (mask : ChannelMask) (s : State) : Result :=
  if mask.nonempty then .next (forMask mask State.startHead s) else .next (s.raise .illegal)

/-- `WHSTOP` (rule R192). The empty mask is ILLEGAL (log 15). -/
def execWhstop (mask : ChannelMask) (s : State) : Result :=
  if mask.nonempty then .next (forMask mask State.stopHead s) else .next (s.raise .illegal)

/-- `WHWRITE` (rule R193). -/
def execWhwrite (c : Channel) (s : State) : Result :=
  if s.clrBusy then .next (s.raise .busy)
  else .next (s.headWrite s.nanSource c (integerPosition s.cfg.n s.arg0) s.arg1).drawn

end Sys2Proof.Machine
end

