-- ==== Sys2Proof/Machine/Dispatch.lean ====
section
/-! DEFINITION. One arm for each command. -/

namespace Sys2Proof.Machine

def exec (i : Instr) (s : State) : Host.Outcome State Fault Refusal :=
  match i with
  | .nop => Sys2Proof.Machine.execNop s
  | .tick clk => Sys2Proof.Machine.execTick clk s
  | .latch => Sys2Proof.Machine.execLatch s
  | .setspeed => Sys2Proof.Machine.execSetspeed s
  | .setstart => Sys2Proof.Machine.execSetstart s
  | .setlength => Sys2Proof.Machine.execSetlength s
  | .setrec on => Sys2Proof.Machine.execSetrec on s
  | .setsos => Sys2Proof.Machine.execSetsos s
  | .setfilter => Sys2Proof.Machine.execSetfilter s
  | .trig => Sys2Proof.Machine.execTrig s
  | .clear mode => Sys2Proof.Machine.execClear mode s
  | .whstart mask => Sys2Proof.Machine.execWhstart mask s
  | .whstop mask => Sys2Proof.Machine.execWhstop mask s
  | .whwrite c => Sys2Proof.Machine.execWhwrite c s
  | .stwrite => Sys2Proof.Machine.execStwrite s
  | .stread dir => Sys2Proof.Machine.execStread dir s
  | .status clr => Sys2Proof.Machine.execStatus clr s
  | .rdreg r => Sys2Proof.Machine.execRdreg r s

end Sys2Proof.Machine
end

