-- ==== Sys2Proof/Machine/HostPort.lean ====
section
/-! DEFINITION. The host interface (spec file 70_reset_and_hazards.md, rule R340): what one host action does to the block. -/

namespace Sys2Proof.Machine

/-- A direct write of an operand register (rule R32). -/
def State.writeArg (s : State) (r : ArgReg) (w : Word) : State :=
  match r with
  | .arg0 => { s with arg0 := w }
  | .arg1 => { s with arg1 := w }
  | .arg2 => { s with arg2 := w }

/-- A command word written to `CMD` (rules R90, R95): the command it decodes to, or `ILLEGAL`. -/
def commandStep (w : Word) (s : State) : Result :=
  match decode w with
  | .ok i => exec i s
  | .error _ => .next (s.raise .illegal)

/-- One host action (rules R32, R34, R90, R320). -/
def hostStep (a : HostAction) (s : State) : Result :=
  match a with
  | .writeArg r w => .next (s.writeArg r w)
  | .command w => commandStep w s
  | .readCommandPort => .refused .commandPortRead
  | .reset draw => if drawAdmitted s.cfg draw then .next (s.resetEvent draw) else .refused .resetDrawNotAdmitted

/-- The next host action is performed and leaves the list. With none pending the block holds its state (rule R303). -/
def fetchStep (s : State) : Result :=
  match s.host with
  | [] => .next s
  | a :: rest => hostStep a { s with host := rest }

/-- A command word made the next host action: the word that the bits `w` of a table row of `nbits` bits stand for (rule R91). -/
def State.issueTableWord (s : State) (nbits w : Nat) : State :=
  { s with host := .command (BitVec.ofNat 32 (w % 2 ^ nbits)) :: s.host }

end Sys2Proof.Machine
end

