-- ==== Sys2Proof/Machine/Step.lean ====
section
/-! DEFINITION. One step of the machine: one host action of a block whose configuration is admitted. -/

namespace Sys2Proof.Machine

/-- One step. A configuration that breaks rule R9 is refused: no block exists for it (rule R304). -/
def step (s : State) : Host.Outcome State Fault Refusal :=
  if configAdmitted s.cfg then fetchStep s else .refused .configurationNotAdmitted

/-- The state in which the very next step performs the command whose table bits are `w`: the block has no program memory (rule
R31), and the host's action list is where it takes its commands from (log 2). -/
def State.withFetchWord (s : State) (nbits w : Nat) : State :=
  s.issueTableWord nbits w

end Sys2Proof.Machine
end

