-- ==== Sys2Proof/Safety.lean ====
section
/-! DEFINITION. What counts as a legal state and a safe run (rules R35 to R43, R49, R304), what a run is and what it shows (rule
R337), when a word is a correctly rounded binary32 value (rule R13), and which error a command word raises (rules R291, R293). -/

namespace Sys2Proof

/-! ### Correct rounding -/

/-- The least magnitude, in units of `2^-149`, that rounds to infinity: half a unit in the last place above the greatest finite
binary32. -/
def F32.overflowUnits : Nat :=
  (2 ^ 25 - 1) * 2 ^ 252

/-- `w` is finite and no finite binary32 is nearer to `num / den` units; if another one is as near, `w` is the one whose last
fraction bit is 0. -/
def F32.NearestEven (num : Int) (den : Nat) (w : Word) : Prop :=
  F32.isFinite w = true ∧
    ∀ v : Word, F32.isFinite v = true →
      |F32.units w * den - num| ≤ |F32.units v * den - num| ∧
        (F32.units v ≠ F32.units w → |F32.units w * den - num| = |F32.units v * den - num| → F32.magBits w % 2 = 0)

/-- `w` is `f32` of the nonzero or zero value `num / den` units (rule R13): the nearest binary32, ties to even, or the infinity of
its sign where it overflows. The sign bit is that of the value unless the value is zero. -/
def F32.CorrectlyRounded (num : Int) (den : Nat) (w : Word) : Prop :=
  (if num.natAbs < F32.overflowUnits * den then F32.NearestEven num den w else F32.isInf w = true) ∧
    (num ≠ 0 → F32.isNeg w = decide (num < 0))

/-! ### NaNs, infinities, order -/

/-- A quiet NaN: exponent field 255 and bit 22 set, any sign and payload (rule R167). -/
def F32.isQuietNaN (w : Word) : Bool :=
  w.extractLsb' 22 9 == 0x1FF#9

/-- What the four operations answer for NaNs, infinities and a zero divisor, by the standard that rule R13 names (log 13). `nan` is
the word that answers a NaN. -/
structure F32.SpecialOperands (nan a b : Word) : Prop where
  nanOperand : F32.isNaN a = true ∨ F32.isNaN b = true →
    F32.add nan a b = nan ∧ F32.sub nan a b = nan ∧ F32.mul nan a b = nan ∧ F32.div nan a b = nan
  addBothInfinite : F32.isInf a = true → F32.isInf b = true →
    (F32.isNeg a = F32.isNeg b → F32.add nan a b = a ∧ F32.sub nan a b = nan) ∧
      (F32.isNeg a ≠ F32.isNeg b → F32.add nan a b = nan ∧ F32.sub nan a b = a)
  addLeftInfinite : F32.isInf a = true → F32.isFinite b = true → F32.add nan a b = a ∧ F32.sub nan a b = a
  addRightInfinite : F32.isFinite a = true → F32.isInf b = true → F32.add nan a b = b ∧ F32.sub nan a b = F32.neg b
  mulInfiniteZero : F32.isInf a = true → F32.isFinite b = true → F32.units b = 0 →
    F32.mul nan a b = nan ∧ F32.mul nan b a = nan
  mulInfinite : F32.isInf a = true → F32.isNaN b = false → (F32.isFinite b = true → F32.units b ≠ 0) →
    F32.isInf (F32.mul nan a b) = true ∧ F32.isNeg (F32.mul nan a b) = (F32.isNeg a != F32.isNeg b) ∧
      F32.mul nan b a = F32.mul nan a b
  divBothInfinite : F32.isInf a = true → F32.isInf b = true → F32.div nan a b = nan
  divLeftInfinite : F32.isInf a = true → F32.isFinite b = true →
    F32.isInf (F32.div nan a b) = true ∧ F32.isNeg (F32.div nan a b) = (F32.isNeg a != F32.isNeg b)
  divRightInfinite : F32.isFinite a = true → F32.isInf b = true →
    F32.isFinite (F32.div nan a b) = true ∧ F32.units (F32.div nan a b) = 0 ∧
      F32.isNeg (F32.div nan a b) = (F32.isNeg a != F32.isNeg b)
  divZeroByZero : F32.isFinite a = true → F32.isFinite b = true → F32.units a = 0 → F32.units b = 0 → F32.div nan a b = nan
  divByZero : F32.isFinite a = true → F32.isFinite b = true → F32.units a ≠ 0 → F32.units b = 0 →
    F32.isInf (F32.div nan a b) = true ∧ F32.isNeg (F32.div nan a b) = (F32.isNeg a != F32.isNeg b)

/-- The comparisons of rule R13 and the choices of rule R12: by value, the infinities at the ends, `+0 = -0`, false on a NaN;
`min` and `max` return the first of equal values. That they answer the first operand on a NaN is log 12. -/
structure F32.ComparedByValue (a b : Word) : Prop where
  nanOperand : F32.isNaN a = true ∨ F32.isNaN b = true →
    F32.lt a b = false ∧ F32.le a b = false ∧ F32.eq a b = false ∧ F32.min a b = a ∧ F32.max a b = a
  finite : F32.isFinite a = true → F32.isFinite b = true →
    F32.lt a b = decide (F32.units a < F32.units b) ∧ F32.le a b = decide (F32.units a ≤ F32.units b)
  belowTop : F32.isNaN a = false → F32.isInf b = true → F32.isNeg b = false → F32.le a b = true ∧ F32.lt a b = decide (a ≠ b)
  aboveBottom : F32.isInf a = true → F32.isNeg a = true → F32.isNaN b = false → F32.le a b = true ∧ F32.lt a b = decide (a ≠ b)
  total : F32.isNaN a = false → F32.isNaN b = false →
    F32.lt a b = !F32.le b a ∧ F32.eq a b = (F32.le a b && F32.le b a)
  chosen : F32.isNaN a = false → F32.isNaN b = false →
    (F32.le a b = true → F32.min a b = a) ∧ (F32.lt b a = true → F32.min a b = b) ∧
      (F32.le b a = true → F32.max a b = a) ∧ (F32.lt a b = true → F32.max a b = b)

/-! ### Classes of commands -/

/-- The command reads `ARG0` as a binary32 that must be finite (rule R291). -/
def Instr.checksFinite : Instr → Bool
  | .setspeed => true
  | .setstart => true
  | .setlength => true
  | .setsos => true
  | .setfilter => true
  | .stread _ => true
  | .nop => false
  | .tick _ => false
  | .latch => false
  | .setrec _ => false
  | .trig => false
  | .clear _ => false
  | .whstart _ => false
  | .whstop _ => false
  | .whwrite _ => false
  | .stwrite => false
  | .status _ => false
  | .rdreg _ => false

/-- The command writes the store from the host, which an incremental clear refuses (rule R291). -/
def Instr.checksBusy : Instr → Bool
  | .stwrite => true
  | .whwrite _ => true
  | .nop => false
  | .tick _ => false
  | .latch => false
  | .setspeed => false
  | .setstart => false
  | .setlength => false
  | .setrec _ => false
  | .setsos => false
  | .setfilter => false
  | .trig => false
  | .clear _ => false
  | .whstart _ => false
  | .whstop _ => false
  | .stread _ => false
  | .status _ => false
  | .rdreg _ => false

/-- The commands that write result registers (rule R33): each of them writes `RES0`. -/
def Instr.writesResults : Instr → Bool
  | .tick _ => true
  | .stread _ => true
  | .clear _ => true
  | .status _ => true
  | .rdreg _ => true
  | .nop => false
  | .latch => false
  | .setspeed => false
  | .setstart => false
  | .setlength => false
  | .setrec _ => false
  | .setsos => false
  | .setfilter => false
  | .trig => false
  | .whstart _ => false
  | .whstop _ => false
  | .whwrite _ => false
  | .stwrite => false

/-- The commands that write `RES1` too (rules R162, R231); `CLEAR`, `STATUS` and `RDREG` write `RES0` only (rules R164, R165, R270,
R272). -/
def Instr.writesRes1 : Instr → Bool
  | .tick _ => true
  | .stread _ => true
  | .clear _ => false
  | .status _ => false
  | .rdreg _ => false
  | .nop => false
  | .latch => false
  | .setspeed => false
  | .setstart => false
  | .setlength => false
  | .setrec _ => false
  | .setsos => false
  | .setfilter => false
  | .trig => false
  | .whstart _ => false
  | .whstop _ => false
  | .whwrite _ => false
  | .stwrite => false

namespace Machine

/-! ### NaN sources -/

/-- Every word that a source answers is a quiet NaN: all that rule R167 says of it. -/
def NanSource.Quiet (g : NanSource) : Prop :=
  ∀ k : Nat, F32.isQuietNaN (g k) = true

/-! ### Legal values of the registers -/

/-- A binary32 word in `[0, n)`; `-0.0` counts as 0 (rule R37). -/
def InWindow (n : Nat) (w : Word) : Prop :=
  F32.le F32.zero w = true ∧ F32.lt w (F32.ofInteger n) = true

/-- A binary32 word in `[0, 1]` (rule R36). -/
def InUnitRange (w : Word) : Prop :=
  F32.le F32.zero w = true ∧ F32.le w F32.one = true

/-- The legal values of `SPD` (rule R36): `+0.0`, `±1.0`, or a magnitude between the deadbands or up to `SPEED_MAX`. -/
def LegalSpeed (w : Word) : Prop :=
  w = F32.zero ∨ w = F32.one ∨ w = F32.negOne ∨
    (F32.lt deadbandZero (F32.abs w) = true ∧ F32.lt (F32.abs w) deadbandUnityLow = true) ∨
    (F32.lt deadbandUnityHigh (F32.abs w) = true ∧ F32.le (F32.abs w) speedMax = true)

/-- The head is in a fade. -/
def Head.isFading (h : Head) : Bool :=
  decide (h.state = .fadingIn ∨ h.state = .fadingOut)

/-- `WH_CNT < WFADE`, and 0 unless the head is fading (rules R41, R49 (f)). -/
structure Head.Legal (wfade : Nat) (h : Head) : Prop where
  below : h.count.toNat < wfade
  resting : h.isFading = false → h.count = 0#32

/-- The level of the next write of a head as a numerator over `WFADE`, in exact arithmetic (rules R191, R192, R194). -/
def Head.levelNumerator (wfade : Nat) (h : Head) : Nat :=
  match h.state with
  | .inactive => 0
  | .fadingIn => h.count.toNat
  | .active => wfade
  | .fadingOut => wfade - h.count.toNat

/-- The store is in its canonical form and lies in the `2N` words of rule R70. -/
structure State.StoreLegal (s : State) : Prop where
  canonical : s.mem.wf = true
  inStore : s.mem.below (8 * s.cfg.n) = true

/-- The counters: rule R49 (e), (f), (g), (h), and `CLR_PTR` in `[0, N-1]` (rule R42). -/
structure State.CountersLegal (s : State) : Prop where
  wp : s.wp.toNat < s.cfg.n
  headL : s.headL.Legal s.cfg.wfade
  headR : s.headR.Legal s.cfg.wfade
  clrIdle : s.clrBusy = false → s.clrPtr = 0#32
  clrPtr : s.clrPtr.toNat < s.cfg.n
  clkAge : s.clkAge.toNat ≤ s.cfg.clockTimeout

/-- The shadow registers hold finite values (rule R35). -/
structure State.ShadowsLegal (s : State) : Prop where
  speedRaw : F32.isFinite s.speedRaw = true
  startX : F32.isFinite s.startX = true
  lengthX : F32.isFinite s.lengthX = true
  sosX : F32.isFinite s.sosX = true
  filterX : F32.isFinite s.filterX = true

/-- The block-latched registers hold legal values (rule R36). -/
structure State.LevelsLegal (s : State) : Prop where
  spd : LegalSpeed s.spd
  vol : InUnitRange s.vol
  sosL : InUnitRange s.sosL
  filterL : InUnitRange s.filterL

/-- The playback window, the pending new stream and the tail position: rule R49 (a) to (d), and rules R37, R38 and R39. -/
structure State.WindowLegal (s : State) : Prop where
  startLt : s.start.toNat < s.cfg.n
  lengthGe : s.cfg.minLoop ≤ s.length.toNat
  lengthLe : s.length.toNat ≤ s.cfg.n
  phase : InWindow s.length.toNat s.phase
  nstartLt : s.nstart.toNat < s.cfg.n
  nlengthGe : s.cfg.minLoop ≤ s.nlength.toNat
  nlengthLe : s.nlength.toNat ≤ s.cfg.n
  nphase : InWindow s.nlength.toNat s.nphase
  xo : InWindow s.cfg.n s.xo

/-- The transition registers (rule R39): the progress is finite and not negative; while a transition is in flight its window is
legal and the progress has not reached the end. -/
structure State.TransitionLegal (s : State) : Prop where
  progFinite : F32.isFinite s.xfProg = true
  progNonneg : F32.le F32.zero s.xfProg = true
  windowed : s.xfKind = .boundary ∨ s.xfKind = .param →
    F32.le s.cfg.xfMin s.xfWin = true ∧ F32.le s.xfWin s.cfg.xfMax = true ∧ F32.lt s.xfProg s.xfWin = true
  trigger : s.xfKind = .trigger →
    s.xfWin = F32.ofInteger s.cfg.trigFade ∧ F32.lt s.xfProg (F32.ofInteger (2 * s.cfg.trigFade)) = true

/-- A legal state: an admitted configuration and every register in its legal values (rules R35 to R43, R49). -/
structure State.Legal (s : State) : Prop where
  admitted : configAdmitted s.cfg = true
  store : s.StoreLegal
  counters : s.CountersLegal
  shadows : s.ShadowsLegal
  levels : s.LevelsLegal
  window : s.WindowLegal
  transition : s.TransitionLegal

/-! ### Errors -/

/-- The error that a command word raises in a state, by the table of rule R291 in the order of rule R293. -/
def commandError (w : Word) (s : State) : Option ErrorCode :=
  match decode w with
  | .error _ => some .illegal
  | .ok i =>
    if i.checksBusy && s.clrBusy then some .busy
    else if i.checksFinite && !F32.isFinite s.arg0 then some .nonfinite
    else none

/-- The state in which an error has set its sticky bit and its entry of the log, and nothing else (rule R290). -/
def State.withError (s : State) (e : ErrorCode) : State :=
  { s with
    errIllegal := s.errIllegal || decide (e = .illegal)
    errNonfinite := s.errNonfinite || decide (e = .nonfinite)
    errBusy := s.errBusy || decide (e = .busy)
    errLog := s.errLog ++ [e] }

/-- No error has been raised since the machine was built: the premise that rule R304 gives a claim. -/
def State.NoErrorRaised (s : State) : Prop :=
  s.errLog = []

/-- Every sticky bit that is set has its error in the log (rule R304). -/
structure State.LogCovers (s : State) : Prop where
  illegal : s.errIllegal = true → ErrorCode.illegal ∈ s.errLog
  nonfinite : s.errNonfinite = true → ErrorCode.nonfinite ∈ s.errLog
  busy : s.errBusy = true → ErrorCode.busy ∈ s.errLog

/-! ### Runs and observations -/

/-- The next state of an outcome, if it has one. -/
def nextState : Result → Option State
  | .next t => some t
  | .fault _ => none
  | .refused _ => none

/-- The same command performed `k` times with nothing between. -/
def repeatCommand (i : Instr) : Nat → State → Option State
  | 0, s => some s
  | k + 1, s => (nextState (exec i s)).bind (repeatCommand i k)

/-- A list of host actions performed in order (rule R337); none at the first refusal. -/
def runHost : List HostAction → State → Option State
  | [], s => some s
  | a :: rest, s => (nextState (hostStep a s)).bind (runHost rest)

/-- What one command wrote to the result registers: each register that it wrote, with the word. -/
structure ResultWrite where
  res0 : Option Word
  res1 : Option Word
  deriving DecidableEq, Repr

/-- The observation of a run (rule R337). -/
structure Observation where
  /-- The values that each command wrote to `RES0` and `RES1`, for the commands that wrote one. -/
  results : List ResultWrite
  /-- `FILTER_OUT` after each `LATCH`. -/
  filterOuts : List Word
  /-- The state after the last command; the state that the run starts from if it has no command. -/
  final : State
  deriving DecidableEq, Repr

/-- What a command word adds to the results: the registers that its command wrote, if it is one that writes them and raised no
error. -/
def resultsOf (w : Word) (s t : State) : List ResultWrite :=
  match decode w with
  | .ok i =>
    if i.writesResults && (commandError w s).isNone then
      [{ res0 := some t.res0, res1 := if i.writesRes1 then some t.res1 else none }]
    else []
  | .error _ => []

/-- What a command word adds to the filter levels. -/
def filterOutsOf (w : Word) (t : State) : List Word :=
  if decode w = .ok .latch then [t.filterOut] else []

/-- The observation of a list of host actions performed in a state, where `last` is the state after the last command before them. The
actions of a run are operand writes and command writes (rule R337): a reset begins another run and a read of `CMD` is none. -/
def observeFrom (last : State) : List HostAction → State → Option Observation
  | [], _ => some { results := [], filterOuts := [], final := last }
  | .writeArg r w :: rest, s => observeFrom last rest (s.writeArg r w)
  | .command w :: rest, s =>
    (nextState (commandStep w s)).bind fun t =>
      (observeFrom t rest t).map fun o =>
        { results := resultsOf w s t ++ o.results, filterOuts := filterOutsOf w t ++ o.filterOuts, final := o.final }
  | .readCommandPort :: _, _ => none
  | .reset _ :: _, _ => none

/-- The observation of a list of host actions from a state. -/
def observe (acts : List HostAction) (s : State) : Option Observation :=
  observeFrom s acts s

/-- The observation of a run: the reset state of an admitted configuration with an admitted draw of the store, then the host's actions
(rules R322, R337). -/
def observeRun (cfg : Config) (draw : List Word) (acts : List HostAction) : Option Observation :=
  if configAdmitted cfg && drawAdmitted cfg draw then observe acts (State.resetWith cfg (Memory.ofWords draw 0)) else none

/-- A trigger in this tick: a rising clock edge or a pending `TRIG` (rule R250). -/
def State.triggered (s : State) (clk : Bool) : Bool :=
  (clk && !s.clkPrev) || s.trigPend

/-- The `2N` words of the ramp store of rule R255 under `TC`: `S[L][k] = k`, `S[R][k] = 100 + k`. -/
def rampWords : List Word :=
  (List.range 16).flatMap fun k => [F32.ofInteger k, F32.ofInteger (100 + k)]

/-- The reset state under `TC` with the ramp store (rule R255). -/
def rampState : State :=
  State.resetWith Config.tc (Memory.ofWords rampWords 0)

/-- The action is a command word that acts on one head only (rule R196). -/
def HostAction.separatesHeads (a : HostAction) : Bool :=
  match a with
  | .command w =>
    match decode w with
    | .ok (.whstart mask) => mask.left != mask.right
    | .ok (.whstop mask) => mask.left != mask.right
    | .ok (.whwrite _) => true
    | _ => false
  | .writeArg _ _ => false
  | .readCommandPort => false
  | .reset _ => false

end Machine

end Sys2Proof
end

