-- ==== Sys2Proof/Certificates/Slice0/Obligations.lean ====
section
/-! DEFINITION. The statements for the provers. Each docstring names the rule of spec/ that the statement formalises, or says that
it rests on a choice of the model. -/

open Sys2Proof Sys2Proof.Machine

/-! ### Encoding -/

/-- Rule R100: the worked command words, both ways, and the words that raise `ILLEGAL`. -/
def Obligations.WorkedCommandWords : Prop :=
  (∀ p ∈ ([(.nop, 0x00000000#32), (.tick false, 0x01000000#32), (.tick true, 0x01010000#32), (.latch, 0x02000000#32),
        (.setspeed, 0x03000000#32), (.setrec true, 0x06010000#32), (.clear .step, 0x0A010000#32)] ++
      [(.whstart ⟨true, true⟩, 0x0B030000#32), (.whwrite .right, 0x0D020000#32), (.stread .backward, 0x0FFF0000#32),
        (.status true, 0x10010000#32), (.rdreg .phase, 0x11120000#32)] : List (Instr × Word)),
    encode p.1 = p.2 ∧ decode p.2 = .ok p.1) ∧
  ∀ (s : State), ∀ w ∈ [0x00000001#32, 0x12000000#32, 0x0B000000#32, 0x0F000000#32, 0x11070000#32],
    commandStep w s = .next (s.withError .illegal)

/-- Rules R91, R93, R95: every command with legal operands has exactly one command word, and every word that decodes is the word of
the command it decodes to. -/
def Obligations.DecodeAndEncodeAgree : Prop :=
  (∀ i : Instr, i.wellFormed = true → decode (encode i) = .ok i) ∧
    ∀ (w : Word) (i : Instr), decode w = .ok i → i.wellFormed = true ∧ encode i = w

/-- Rules R93, R95, R96: a word decodes exactly when a row of the printed opcode map selects it, and no word is selected by two
rows; the map has 59 legal words. -/
def Obligations.DecodeFollowsOpcodeMap : Prop :=
  (∀ w : Word, (∃ i, decode w = .ok i) ↔ ∃ r ∈ opcodeMap, r.selects w = true) ∧
    (opcodeMap.Pairwise fun r r' => ∀ w : Word, ¬(r.selects w = true ∧ r'.selects w = true)) ∧
    (∀ (w : Word) (i : Instr), decode w = .ok i → opField w = i.opcode ∧ subField w = i.sub ∧ zField w = 0#16) ∧
    (opcodeMap.map fun r => r.legalSub.length).sum = 59

/-- Rule R95: a word with `z ≠ 0`, an `op` outside the map or a `sub` outside the legal set raises `ILLEGAL` and changes nothing
else; every other word performs the command of its row. -/
def Obligations.DecodingIsTotal : Prop :=
  ∀ (w : Word) (s : State),
    ((zField w ≠ 0#16 ∨ (∀ r ∈ opcodeMap, opField r.pattern ≠ opField w) ∨
        (∀ r ∈ opcodeMap, opField r.pattern = opField w → subField w ∉ r.legalSub)) →
      commandStep w s = .next (s.withError .illegal)) ∧
    (zField w = 0#16 → ∀ r ∈ opcodeMap, opField r.pattern = opField w → subField w ∈ r.legalSub →
      ∃ i : Instr, i.opcode = opField w ∧ i.sub = subField w ∧ commandStep w s = exec i s)

/-! ### Steps, runs and what the commands can change -/

/-- Rules R90, R95 and log 2: a step whose next host action is a command word that decodes is `exec` of that command, with the action
taken from the list. That the host's actions stand in a list of the state, from which a step takes the next one, is the model's
choice (log 2). -/
def Obligations.StepRunsTheDecodedCommand : Prop :=
  ∀ (s : State) (w : Word) (i : Instr) (rest : List HostAction),
    configAdmitted s.cfg = true → s.host = .command w :: rest → decode w = .ok i → step s = exec i { s with host := rest }

/-- Rules R303, R304, R34 and log 2: a step performs the next host action; with none pending the state is held; a configuration that
breaks rule R9 and a read of `CMD` are refused. That the host's actions stand in a list of the state is the model's choice. -/
def Obligations.StepTakesHostActionsInOrder : Prop :=
  ∀ s : State,
    (configAdmitted s.cfg = false → step s = .refused .configurationNotAdmitted) ∧
    (configAdmitted s.cfg = true → s.host = [] → step s = .next s) ∧
    (configAdmitted s.cfg = true → ∀ (a : HostAction) (rest : List HostAction), s.host = a :: rest →
      step s = hostStep a { s with host := rest }) ∧
    hostStep .readCommandPort s = .refused .commandPortRead

/-- Rule R337 and log 2: a run over a list of host actions is as many steps of the machine as the list has actions (that they stand in a
list of the state is the model's choice, log 2). Its observation grows with each command by the result registers that the command
wrote, by `FILTER_OUT` after a `LATCH`, and ends in the state after the last command: operand writes after it do not show. A run has
an observation exactly when its configuration and its draw are admitted and its actions are operand writes and command writes. -/
def Obligations.RunIsStepsOverTheActions : Prop :=
  (∀ (acts : List HostAction) (s t : State), configAdmitted s.cfg = true → s.host = [] → runHost acts s = some t →
    Host.Core.run Sys2Proof.core acts.length { s with host := acts } = .next t) ∧
  (∀ (acts : List HostAction) (w : Word) (s t u : State) (o : Observation),
    runHost acts s = some t → observe acts s = some o → commandStep w t = .next u →
      observe (acts ++ [.command w]) s =
        some { results := o.results ++ resultsOf w t u, filterOuts := o.filterOuts ++ filterOutsOf w u, final := u }) ∧
  (∀ (acts : List HostAction) (r : ArgReg) (w : Word) (s : State), observe (acts ++ [.writeArg r w]) s = observe acts s) ∧
  (∀ s : State, observe [] s = some { results := [], filterOuts := [], final := s }) ∧
  ∀ (cfg : Config) (draw : List Word) (acts : List HostAction),
    (configAdmitted cfg = true → drawAdmitted cfg draw = true →
      observeRun cfg draw acts = observe acts (State.resetWith cfg (Memory.ofWords draw 0))) ∧
    ((observeRun cfg draw acts).isSome = true ↔
      configAdmitted cfg = true ∧ drawAdmitted cfg draw = true ∧
        ∀ a ∈ acts, (∃ r w, a = .writeArg r w) ∨ ∃ w, a = .command w)

/-- Rules R290 and R291: a command word raises the error that the table gives it, in the order of rule R293, which sets its sticky
bit and changes nothing else (the model's log besides), or it raises none and leaves the bits alone unless it is `STATUS CLR`. The
bits are bits 16 to 18 of the status word. Every command word is performed: none stops the block. -/
def Obligations.ErrorsFollowTheTable : Prop :=
  ∀ (w : Word) (s : State),
    (∃ t : State, commandStep w s = .next t ∧
      (∀ e, commandError w s = some e → t = s.withError e) ∧
      (commandError w s = none →
        t.errLog = s.errLog ∧
          (w ≠ 0x10010000#32 → t.errIllegal = s.errIllegal ∧ t.errNonfinite = s.errNonfinite ∧ t.errBusy = s.errBusy) ∧
          (w = 0x10010000#32 → t.errIllegal = false ∧ t.errNonfinite = false ∧ t.errBusy = false))) ∧
    s.statusWord.getLsbD 16 = s.errIllegal ∧ s.statusWord.getLsbD 17 = s.errNonfinite ∧ s.statusWord.getLsbD 18 = s.errBusy

/-- Rules R44, R295, R304, R320 (the log is the model's field, log 8): a host action other than `STATUS CLR` and reset clears no
sticky bit; the error log only grows; and every set bit stays covered by the log. -/
def Obligations.ErrorsAreStickyAndLogged : Prop :=
  ∀ (a : HostAction) (s t : State), hostStep a s = .next t →
    (∃ l, t.errLog = s.errLog ++ l) ∧
    (s.LogCovers → t.LogCovers) ∧
    (a ≠ .command 0x10010000#32 → (∀ draw, a ≠ .reset draw) →
      (s.errIllegal = true → t.errIllegal = true) ∧ (s.errNonfinite = true → t.errNonfinite = true) ∧
        (s.errBusy = true → t.errBusy = true))

/-- Rule R32: no command and no command word changes `ARG0` to `ARG2`; the host's direct writes do, each its own register alone; they
reset to 0. -/
def Obligations.OnlyTheHostWritesOperands : Prop :=
  (∀ (i : Instr) (s t : State), exec i s = .next t → t.arg0 = s.arg0 ∧ t.arg1 = s.arg1 ∧ t.arg2 = s.arg2) ∧
  (∀ (w : Word) (s t : State), commandStep w s = .next t → t.arg0 = s.arg0 ∧ t.arg1 = s.arg1 ∧ t.arg2 = s.arg2) ∧
  (∀ (r : ArgReg) (w : Word) (s : State), hostStep (.writeArg r w) s = .next { s with
      arg0 := if r = .arg0 then w else s.arg0
      arg1 := if r = .arg1 then w else s.arg1
      arg2 := if r = .arg2 then w else s.arg2 }) ∧
  State.reset.arg0 = 0x00000000#32 ∧ State.reset.arg1 = 0x00000000#32 ∧ State.reset.arg2 = 0x00000000#32

/-- Rule R325: no step changes the configuration. -/
def Obligations.ConfigurationIsFixed : Prop :=
  ∀ s t : State, step s = .next t → t.cfg = s.cfg

/-- Rule R33: a command other than `TICK`, `STREAD`, `CLEAR`, `STATUS` and `RDREG`, and every command word that raises an error,
leaves `RES0` and `RES1` unchanged; they reset to 0. -/
def Obligations.OnlyResultCommandsWriteResults : Prop :=
  (∀ (w : Word) (s t : State), commandStep w s = .next t →
    ((∀ i, decode w = .ok i → i.writesResults = false) ∨ commandError w s ≠ none) → t.res0 = s.res0 ∧ t.res1 = s.res1) ∧
  State.reset.res0 = 0x00000000#32 ∧ State.reset.res1 = 0x00000000#32

/-- Rules R35 to R43 and R46, the "written by" columns, and rule R71: which commands write which registers and the store; and that only
`TICK` and `STREAD` write `RES1` (rules R162, R164, R165, R231, R270, R272). -/
def Obligations.RegistersAreWrittenByTheirColumns : Prop :=
  ∀ (i : Instr) (s t : State), exec i s = .next t →
    (i ≠ .setspeed → t.speedRaw = s.speedRaw) ∧ (i ≠ .setstart → t.startX = s.startX) ∧ (i ≠ .setlength → t.lengthX = s.lengthX) ∧
    ((∀ on, i ≠ .setrec on) → t.recX = s.recX) ∧ (i ≠ .setsos → t.sosX = s.sosX) ∧ (i ≠ .setfilter → t.filterX = s.filterX) ∧
    (i ≠ .latch → t.spd = s.spd ∧ t.vol = s.vol ∧ t.sosL = s.sosL ∧ t.filterL = s.filterL ∧ t.nstart = s.nstart ∧
      t.nlength = s.nlength) ∧
    ((∀ clk, i ≠ .tick clk) → t.start = s.start ∧ t.length = s.length ∧ t.phase = s.phase ∧ t.wp = s.wp ∧ t.clkPrev = s.clkPrev ∧
      t.clkAge = s.clkAge ∧ t.synced = s.synced) ∧
    (i ≠ .latch → (∀ clk, i ≠ .tick clk) → t.nphase = s.nphase ∧ t.xfKind = s.xfKind ∧ t.xfProg = s.xfProg ∧ t.xfWin = s.xfWin ∧
      t.xo = s.xo) ∧
    (i ≠ .trig → (∀ clk, i ≠ .tick clk) → t.trigPend = s.trigPend) ∧
    ((∀ mode, i ≠ .clear mode) → t.clrBusy = s.clrBusy ∧ t.clrPtr = s.clrPtr) ∧
    ((∀ mask, i ≠ .whstart mask ∧ i ≠ .whstop mask) → (∀ c, i ≠ .whwrite c) → i ≠ .latch → (∀ clk, i ≠ .tick clk) →
      t.headL = s.headL ∧ t.headR = s.headR) ∧
    ((∀ clk, i ≠ .tick clk) → (∀ dir, i ≠ .stread dir) → t.res1 = s.res1) ∧
    (i ≠ .stwrite → (∀ c, i ≠ .whwrite c) → (∀ clk, i ≠ .tick clk) → (∀ mode, i ≠ .clear mode) → t.mem = s.mem)

/-! ### Control -/

/-- Rule R121: a `SET` command whose operand is not a NaN and not infinite (exponent field not 255) writes it to its shadow register
exactly as written; otherwise it raises `NONFINITE` and changes nothing else. -/
def Obligations.SetCommandsCheckTheirOperand : Prop :=
  ∀ s : State,
    (s.arg0.extractLsb' 23 8 ≠ 0xFF#8 →
      exec .setspeed s = .next { s with speedRaw := s.arg0 } ∧ exec .setstart s = .next { s with startX := s.arg0 } ∧
      exec .setlength s = .next { s with lengthX := s.arg0 } ∧ exec .setsos s = .next { s with sosX := s.arg0 } ∧
      exec .setfilter s = .next { s with filterX := s.arg0 }) ∧
    (s.arg0.extractLsb' 23 8 = 0xFF#8 →
      ∀ i ∈ [Instr.setspeed, .setstart, .setlength, .setsos, .setfilter], exec i s = .next (s.withError .nonfinite))

/-- Rules R125, R137, R138: `SETREC`, `TRIG` and `NOP`, with the status words of their examples. -/
def Obligations.SetrecTrigAndNop : Prop :=
  (∀ (s : State) (on : Bool), exec (.setrec on) s = .next { s with recX := on }) ∧
  (∀ s : State, exec .trig s = .next { s with trigPend := true }) ∧
  (∀ s : State, exec .nop s = .next s) ∧
  ({ State.reset with recX := true } : State).statusWord = 0x00000200#32 ∧
  ({ State.reset with trigPend := true } : State).statusWord = 0x00000100#32

/-- Rule R131: the resolved speed, by the values of the words: clamp to `±2.0`, the two closed deadbands, and the worked table;
`LATCH` puts it into `SPD`. -/
def Obligations.SpeedResolution : Prop :=
  (∀ raw : Word, F32.isFinite raw = true →
    resolveSpeed raw =
      (let r : Word := if F32.units speedMax ≤ F32.units raw then speedMax
        else if F32.units raw ≤ -F32.units speedMax then F32.neg speedMax else raw
       if |F32.units r| ≤ F32.units deadbandZero then F32.zero
       else if F32.units deadbandUnityLow ≤ |F32.units r| ∧ |F32.units r| ≤ F32.units deadbandUnityHigh then
         (if F32.units r < 0 then F32.negOne else F32.one)
       else r)) ∧
  (∀ p ∈ ([(0x3D4CCCCD#32, 0x00000000#32), (0x3DCCCCCD#32, 0x00000000#32), (0x3DCCCCCE#32, 0x3DCCCCCE#32),
        (0x3DE147AE#32, 0x3DE147AE#32), (0x3F70A3D7#32, 0x3F70A3D7#32), (0x3F733332#32, 0x3F733332#32),
        (0x3F733333#32, 0x3F800000#32), (0x3F800000#32, 0x3F800000#32), (0x3F866666#32, 0x3F800000#32)] ++
      [(0x3F866667#32, 0x3F866667#32), (0x3F87AE14#32, 0x3F87AE14#32), (0x3F8CCCCD#32, 0x3F8CCCCD#32),
        (0xBF7851EC#32, 0xBF800000#32), (0xBFC00000#32, 0xBFC00000#32), (0x40200000#32, 0x40000000#32),
        (0xC0400000#32, 0xC0000000#32), (0x00000000#32, 0x00000000#32), (0x80000000#32, 0x00000000#32)] : List (Word × Word)),
    resolveSpeed p.1 = p.2) ∧
  ∀ s : State, ∃ t : State, exec .latch s = .next t ∧ t.spd = resolveSpeed s.speedRaw

/-- Rule R132: the stall volume is `f32(a / VOL_KNEE)` below the knee and 1 from it on, with the worked values; `LATCH` puts it into
`VOL`. The words that stand for a NaN result are quiet NaNs (rule R167). -/
def Obligations.StallVolume : Prop :=
  (∀ (g : NanSource) (raw : Word), F32.isFinite raw = true →
    (F32.units volKnee ≤ |F32.units (clampSpeed raw)| → resolveVolume g raw = F32.one) ∧
    (|F32.units (clampSpeed raw)| < F32.units volKnee →
      F32.CorrectlyRounded (|F32.units (clampSpeed raw)| * F32.unitsPerOne) (F32.magnitude volKnee) (resolveVolume g raw) ∧
        F32.isNeg (resolveVolume g raw) = false ∧ F32.le (resolveVolume g raw) F32.one = true)) ∧
  (∀ g : NanSource, resolveVolume g 0x3D4CCCCD#32 = 0x3F000000#32 ∧ resolveVolume g 0x3DCCCCCD#32 = 0x3F800000#32 ∧
    resolveVolume g 0x3DCCCCBF#32 = 0x3F7FFFEF#32 ∧ resolveVolume g 0x00000000#32 = 0x00000000#32) ∧
  ∀ s : State, ∃ (t : State) (g : NanSource), g.Quiet ∧ exec .latch s = .next t ∧ t.vol = resolveVolume g s.speedRaw

/-- Rule R128: `Quant` of a finite control value: clamp to `[0, 1]`, one rounded product with `Q - 1`, the nearest integer with ties
to even, never above `Q - 1`; and the worked table for `Q = 5`. The bound on `Q` is where rule R13 gives `Q - 1` a binary32 value
(log 10). -/
def Obligations.QuantRoundsToTheTable : Prop :=
  (∀ (g : NanSource) (q : Nat) (x : Word), 2 ≤ q → q ≤ 2 ^ 24 + 1 → F32.isFinite x = true →
    quant g q x ≤ q - 1 ∧
    ∃ v : Word, F32.CorrectlyRounded (min (max (F32.units x) 0) F32.unitsPerOne * ((q - 1 : Nat) : Int)) 1 v ∧
      ∀ z : Int, |(quant g q x * F32.unitsPerOne : Int) - F32.units v| ≤ |z * F32.unitsPerOne - F32.units v| ∧
        (z ≠ quant g q x → |(quant g q x * F32.unitsPerOne : Int) - F32.units v| = |z * F32.unitsPerOne - F32.units v| →
          quant g q x % 2 = 0)) ∧
  ∀ g : NanSource, ∀ p ∈ ([(0x00000000#32, 0), (0x3DCCCCCD#32, 0), (0x3E000000#32, 0), (0x3EC00000#32, 2), (0x3F000000#32, 2),
      (0x3F200000#32, 2), (0x3F600000#32, 4), (0x3F666666#32, 4), (0x3F800000#32, 4), (0x3FC00000#32, 4), (0xBF800000#32, 0)] :
      List (Word × Nat)), quant g 5 p.1 = p.2

/-- Rules R130, R133, R134, R135: what `LATCH` does in any state: the levels, the same call on both heads, and a parameter transition
if none is in flight and the targets differ, in the normal or the edge case; otherwise the transition and the pending stream stay (the
change is deferred). Nothing else changes but the model's draw counter. The words that stand for a NaN result are quiet NaNs (rule
R167). -/
def Obligations.LatchAdoptsTheControls : Prop :=
  ∀ s : State, ∃ (t : State) (g : NanSource), g.Quiet ∧
    exec .latch s = .next t ∧
    t = { s with
      spd := t.spd, vol := t.vol, sosL := t.sosL, filterL := t.filterL, headL := t.headL, headR := t.headR,
      nstart := t.nstart, nlength := t.nlength, nphase := t.nphase, xfKind := t.xfKind, xfProg := t.xfProg, xfWin := t.xfWin,
      xo := t.xo, draws := t.draws } ∧
    t.spd = resolveSpeed s.speedRaw ∧ t.vol = resolveVolume g s.speedRaw ∧
    t.sosL = F32.clamp s.sosX 0x00000000#32 0x3F800000#32 ∧ t.filterL = F32.clamp s.filterX 0x00000000#32 0x3F800000#32 ∧
    (s.recX = true → t.headL = s.headL.start s.cfg.wfade ∧ t.headR = s.headR.start s.cfg.wfade) ∧
    (s.recX = false → t.headL = s.headL.stop s.cfg.wfade ∧ t.headR = s.headR.stop s.cfg.wfade) ∧
    ∃ ts tl : Nat, ts = s.cfg.startLut.getD (quant (g.shift 1) s.cfg.q s.startX) 0 ∧
      tl = s.cfg.lengthLut.getD (quant (g.shift 2) s.cfg.q s.lengthX) 0 ∧
      (s.xfKind = .none ∧ (ts ≠ s.start.toNat ∨ tl ≠ s.length.toNat) →
        t.xfKind = .param ∧ t.xfProg = F32.zero ∧ t.nstart = BitVec.ofNat 32 ts ∧ t.nlength = BitVec.ofNat 32 tl ∧
        t.xo = wrapN s.cfg.n (F32.add (g 3) (F32.ofInteger s.start.toNat) s.phase) ∧
        (F32.lt s.phase (F32.ofInteger tl) = true → t.nphase = s.phase ∧ t.xfWin = fadeWindow (g.shift 4) s.cfg tl) ∧
        (F32.lt s.phase (F32.ofInteger tl) = false → t.nphase = F32.zero ∧
          t.xfWin = F32.clamp (F32.sub (g 5) s.phase (F32.ofInteger tl)) s.cfg.xfMin s.cfg.xfMax)) ∧
      (¬(s.xfKind = .none ∧ (ts ≠ s.start.toNat ∨ tl ≠ s.length.toNat)) →
        t.xfKind = s.xfKind ∧ t.xfProg = s.xfProg ∧ t.xfWin = s.xfWin ∧ t.xo = s.xo ∧ t.nstart = s.nstart ∧
        t.nlength = s.nlength ∧ t.nphase = s.nphase)

/-- Rules R233, R245, R248 and R249: where a transition of another kind than the one in flight can begin. A PARAM transition begins
only at `LATCH` with none in flight; a BOUNDARY only in a `TICK` whose advance wraps the phase, with none in flight or a TRIGGER that
completes in that tick; a TRIGGER only in a `TICK` with a trigger. The words that stand for a NaN result are quiet NaNs (rule R167). -/
def Obligations.TransitionsBeginOnlyWhereAllowed : Prop :=
  ∀ (i : Instr) (s t : State), exec i s = .next t →
    (t.xfKind = .param → s.xfKind ≠ .param → i = .latch ∧ s.xfKind = .none) ∧
    (t.xfKind = .boundary → s.xfKind ≠ .boundary → (∃ clk, i = .tick clk) ∧
      ∃ g : NanSource, g.Quiet ∧ (wrapPhase (g.shift 1) (F32.add (g 0) s.phase s.spd) s.length.toNat).2 = true ∧
        (s.xfKind = .none ∨ (s.xfKind = .trigger ∧
          F32.le (F32.ofInteger (2 * s.cfg.trigFade)) (F32.add (g 4) s.xfProg F32.one) = true))) ∧
    (t.xfKind = .trigger → s.xfKind ≠ .trigger → ∃ clk, i = .tick clk ∧ s.triggered clk = true)

/-- Rules R321 and R324, for tables of at most `2^24 + 1` entries (log 10): from reset under any admitted configuration and any store
contents, a first `LATCH` starts no transition and no head and leaves the block stalled and silent. -/
def Obligations.FirstLatchAfterReset : Prop :=
  ∀ (cfg : Config) (mem : Memory), configAdmitted cfg = true → cfg.q ≤ 2 ^ 24 + 1 →
    ∃ t : State, exec .latch (State.resetWith cfg mem) = .next t ∧
      t = { State.resetWith cfg mem with draws := t.draws }

/-! ### The store -/

/-- Rules R161 and R72: `STWRITE` stores `ARG1` and `ARG2` at sample `int32(ARG0) mod N` of the two channels, changes no other byte
and no register; while a clear is in progress it raises `BUSY` instead. -/
def Obligations.StwriteStoresOneFrame : Prop :=
  ∀ s : State,
    (s.clrBusy = false → s.mem.wf = true → 0 < s.cfg.n →
      ∃ t : State, exec .stwrite s = .next t ∧ t = { s with mem := t.mem } ∧
        ∃ i : Nat, (i : Int) = s.arg0.toInt % s.cfg.n ∧ i < s.cfg.n ∧ t.storeRead .left i = s.arg1 ∧ t.storeRead .right i = s.arg2 ∧
          ∀ a : Nat, a < 8 * i ∨ 8 * i + 8 ≤ a → t.mem.readByte a = s.mem.readByte a) ∧
    (s.clrBusy = true → exec .stwrite s = .next (s.withError .busy))

/-- Rules R160, R162 and R78: `STREAD` at a finite position reads the sample at the integer part of the wrapped position and its
neighbour in the read direction, weighs the neighbour by the exact fraction, in the three roundings written, and writes `RES0` and
`RES1` only; a second `STREAD` gives the same; a position that is not finite raises `NONFINITE`; and rule R160's worked values on the
ramp store. The words that stand for a NaN result are quiet NaNs (rule R167). -/
def Obligations.StreadInterpolates : Prop :=
  (∀ (s : State) (dir : Direction), 0 < s.cfg.n → s.cfg.n ≤ 2 ^ 24 → F32.isFinite s.arg0 = true →
    ∃ (t : State) (g : NanSource) (fr : Word) (i j : Nat), g.Quiet ∧
      exec (.stread dir) s = .next t ∧ t = { s with res0 := t.res0, res1 := t.res1 } ∧ exec (.stread dir) t = .next t ∧
      i < s.cfg.n ∧
      j = (match dir with
        | .forward => if i + 1 = s.cfg.n then 0 else i + 1
        | .backward => if i = 0 then s.cfg.n - 1 else i - 1) ∧
      F32.isFinite fr = true ∧ 0 ≤ F32.units fr ∧ F32.units fr < F32.unitsPerOne ∧
      F32.units (wrapN s.cfg.n s.arg0) = i * F32.unitsPerOne + F32.units fr ∧
      t.res0 = F32.add (g 2) (s.storeRead .left i) (F32.mul (g 1) (F32.sub (g 0) (s.storeRead .left j) (s.storeRead .left i)) fr) ∧
      t.res1 =
        F32.add (g 5) (s.storeRead .right i) (F32.mul (g 4) (F32.sub (g 3) (s.storeRead .right j) (s.storeRead .right i)) fr)) ∧
  (∀ (s : State) (dir : Direction), F32.isFinite s.arg0 = false → exec (.stread dir) s = .next (s.withError .nonfinite)) ∧
  ∀ g : NanSource, ∀ p ∈ ([(0x40600000#32, .forward, 0x40600000#32), (0x40500000#32, .backward, 0x40300000#32),
        (0x41780000#32, .forward, 0x40F00000#32), (0x41780000#32, .backward, 0x41680000#32), (0xBE800000#32, .forward, 0x40700000#32),
        (0xBE800000#32, .backward, 0x41640000#32)] ++
      [(0x41800000#32, .forward, 0x00000000#32), (0x418E0000#32, .forward, 0x3FE00000#32), (0xB3D6BF95#32, .forward, 0x00000000#32),
        (0x3F000000#32, .backward, 0x40F00000#32), (0x4E6E6B28#32, .forward, 0x00000000#32)] : List (Word × Direction × Word)),
    rampState.interp g .left p.1 p.2.1 = p.2.2

/-- Rule R73: `wrapN` is the exact remainder modulo `N`, rounded once to nearest-even, with `N` snapped to `+0.0`; it is the identity
on `[0, N)`, takes `-0.0` to `+0.0`, and has the worked values. -/
def Obligations.WrapIsTheExactRemainder : Prop :=
  (∀ (n : Nat) (x : Word), 0 < n → n ≤ 2 ^ 24 → F32.isFinite x = true →
    (∃ y : Word, F32.NearestEven (F32.units x % ((n * F32.unitsPerOne : Nat) : Int)) 1 y ∧ F32.isNeg y = false ∧
      wrapN n x = if F32.units y = ((n * F32.unitsPerOne : Nat) : Int) then F32.zero else y) ∧
    0 ≤ F32.units (wrapN n x) ∧ F32.units (wrapN n x) < ((n * F32.unitsPerOne : Nat) : Int) ∧
    (F32.isNeg x = false → F32.units x < ((n * F32.unitsPerOne : Nat) : Int) → wrapN n x = x) ∧
    wrapN n 0x80000000#32 = 0x00000000#32) ∧
  wrapN 16 0xBE800000#32 = 0x417C0000#32 ∧ wrapN 16 0x418E0000#32 = 0x3FE00000#32 ∧ wrapN 16 0xB3D6BF95#32 = 0x00000000#32 ∧
    wrapN 16 0x4E6E6B28#32 = 0x00000000#32

/-- Rule R168: positions that differ by a multiple of `N` are written alike, and a position is read like its `wrapN`. -/
def Obligations.PositionsAreUsedModuloN : Prop :=
  (∀ (s : State) (k k' : Word) (m : Int), k'.toInt = k.toInt + m * s.cfg.n →
    integerPosition s.cfg.n k' = integerPosition s.cfg.n k ∧
    ∃ t : State, exec .stwrite { s with arg0 := k } = .next t ∧ exec .stwrite { s with arg0 := k' } = .next { t with arg0 := k' }) ∧
  (∀ (s : State) (dir : Direction) (p : Word), 0 < s.cfg.n → s.cfg.n ≤ 2 ^ 24 → F32.isFinite p = true →
    ∃ t : State, exec (.stread dir) { s with arg0 := p } = .next t ∧
      exec (.stread dir) { s with arg0 := wrapN s.cfg.n p } = .next { t with arg0 := wrapN s.cfg.n p })

/-- Rule R169, with the premise that the difference of the neighbour and the value does not overflow (where it does, the product
`infinity × 0` is a NaN and the rule's first line fails): what `STREAD` at an integer position returns after `STWRITE` there. -/
def Obligations.StoreRoundTrip : Prop :=
  ∀ (s : State) (dir : Direction), s.clrBusy = false → s.mem.wf = true → 0 < s.cfg.n → s.cfg.n ≤ 2 ^ 24 →
    ∃ (t u : State) (i : Nat), exec .stwrite s = .next t ∧ (i : Int) = s.arg0.toInt % s.cfg.n ∧
      exec (.stread dir) { t with arg0 := F32.ofInteger i } = .next u ∧
      ∀ c : Channel, ∃ v b r : Word,
        v = (match c with | .left => s.arg1 | .right => s.arg2) ∧ r = (match c with | .left => u.res0 | .right => u.res1) ∧
        b = t.storeRead c (neighbour s.cfg.n i dir) ∧
        (F32.isFinite v = true → v ≠ 0x80000000#32 → F32.isFinite b = true → F32.isFinite (F32.sub F32.zero b v) = true → r = v) ∧
        (v = 0x80000000#32 → F32.isFinite b = true → F32.isNeg b = false → r = 0x00000000#32) ∧
        (F32.isFinite v = false ∨ F32.isFinite b = false → F32.isNaN r = true)

/-- Rule R164: `CLEAR ALL` zeroes the whole store, ends any clear in progress and returns 1; after it, `STREAD` returns `+0.0` in both
channels for every finite position and direction. -/
def Obligations.ClearAllZeroesTheStore : Prop :=
  ∀ s : State, s.mem.wf = true →
    ∃ t : State, exec (.clear .all) s = .next t ∧
      t = { s with mem := t.mem, clrBusy := false, clrPtr := 0#32, res0 := 1#32 } ∧
      (∀ (c : Channel) (i : Nat), i < s.cfg.n → t.storeRead c i = 0x00000000#32) ∧
      (∀ a : Nat, 8 * s.cfg.n ≤ a → t.mem.readByte a = s.mem.readByte a) ∧
      (0 < s.cfg.n → s.cfg.n ≤ 2 ^ 24 → ∀ (p : Word) (dir : Direction), F32.isFinite p = true →
        ∃ u : State, exec (.stread dir) { t with arg0 := p } = .next u ∧ u.res0 = 0x00000000#32 ∧ u.res1 = 0x00000000#32)

/-- Rule R165: one `CLEAR STEP` from any state, and a full clear of `ceil(N / CLEAR_SLICE)` calls, of which only the last returns 1.
After `k` calls the indices below `k · CLEAR_SLICE` are zero and the rest keep their content. -/
def Obligations.ClearStepsZeroTheStore : Prop :=
  (∀ s : State, s.mem.wf = true → s.cfg.n ≤ 2 ^ 24 →
    ∃ (t : State) (p e : Nat), p = (if s.clrBusy = true then s.clrPtr.toNat else 0) ∧ e = min (p + s.cfg.clearSlice) s.cfg.n ∧
      exec (.clear .step) s = .next t ∧
      t = { s with mem := t.mem, clrBusy := t.clrBusy, clrPtr := t.clrPtr, res0 := t.res0 } ∧
      (∀ (c : Channel) (i : Nat), t.storeRead c i = if p ≤ i ∧ i < e then 0x00000000#32 else s.storeRead c i) ∧
      (e = s.cfg.n → t.clrBusy = false ∧ t.clrPtr = 0#32 ∧ t.res0 = 1#32) ∧
      (e ≠ s.cfg.n → t.clrBusy = true ∧ t.clrPtr.toNat = e ∧ t.res0 = 0#32)) ∧
  (∀ s : State, s.mem.wf = true → 0 < s.cfg.n → s.cfg.n ≤ 2 ^ 24 → 0 < s.cfg.clearSlice → s.clrBusy = false →
    ∀ k : Nat, 1 ≤ k → k ≤ (s.cfg.n + s.cfg.clearSlice - 1) / s.cfg.clearSlice →
      ∃ t : State, repeatCommand (.clear .step) k s = some t ∧
        t = { s with mem := t.mem, clrBusy := t.clrBusy, clrPtr := t.clrPtr, res0 := t.res0 } ∧
        (k < (s.cfg.n + s.cfg.clearSlice - 1) / s.cfg.clearSlice →
          t.clrBusy = true ∧ t.clrPtr.toNat = k * s.cfg.clearSlice ∧ t.res0 = 0#32) ∧
        (k = (s.cfg.n + s.cfg.clearSlice - 1) / s.cfg.clearSlice → t.clrBusy = false ∧ t.clrPtr = 0#32 ∧ t.res0 = 1#32) ∧
        ∀ (c : Channel) (i : Nat), i < s.cfg.n →
          t.storeRead c i = if i < k * s.cfg.clearSlice then 0x00000000#32 else s.storeRead c i)

/-- Rules R164, R165 and R14: the range operation that `CLEAR` uses is the loop of single stores that the rules write. -/
def Obligations.ClearIsALoopOfStores : Prop :=
  ∀ (s : State) (lo hi : Nat), s.mem.wf = true →
    s.storeClear lo hi =
      (List.range' lo (hi - lo)).foldl
        (fun u i => (u.storeWrite .left i 0x00000000#32).storeWrite .right i 0x00000000#32) s

/-- Rule R166: while a clear is in progress `STWRITE` and `WHWRITE` raise `BUSY`, a `TICK` writes no store word and moves no head but
moves `WP`, and `NOP`, `LATCH`, the `SET` commands, `TRIG` and `STREAD` act as they do with no clear in progress. The words that stand
for a NaN result are quiet NaNs (rule R167). -/
def Obligations.ClearSuppressesWrites : Prop :=
  ∀ s : State, s.clrBusy = true →
    exec .stwrite s = .next (s.withError .busy) ∧ (∀ c, exec (.whwrite c) s = .next (s.withError .busy)) ∧
    (∀ clk, ∃ t : State, exec (.tick clk) s = .next t ∧ t.mem = s.mem ∧ t.headL = s.headL ∧ t.headR = s.headR ∧
      t.clrBusy = true ∧ t.clrPtr = s.clrPtr ∧ t.wp = BitVec.ofNat 32 ((s.wp.toNat + 1) % s.cfg.n) ∧
      ∃ g : NanSource, g.Quiet ∧ t.res0 = s.outputSample g .left ∧ t.res1 = s.outputSample (g.shift 22) .right) ∧
    (∀ i ∈ [Instr.nop, .latch, .setspeed, .setstart, .setlength, .setsos, .setfilter, .trig, .setrec true, .setrec false] ++
        [.stread .forward, .stread .backward],
      ∃ t : State, exec i { s with clrBusy := false } = .next t ∧ exec i s = .next { t with clrBusy := true })

/-! ### The write heads -/

/-- Rules R191 and R192: the start and stop tables of one head, and that the commands apply them to the heads of the mask and change
nothing else. (Log 15: the empty mask, which no word decodes to, raises `ILLEGAL`.) -/
def Obligations.StartAndStopTables : Prop :=
  (∀ (wfade : Nat) (h : Head), wfade ≤ 2 ^ 32 →
    (h.state = .inactive → h.start wfade = ⟨.fadingIn, 0#32⟩ ∧ h.stop wfade = h) ∧
    (h.state = .active → h.start wfade = h ∧ h.stop wfade = ⟨.fadingOut, 0#32⟩) ∧
    (h.state = .fadingIn → h.start wfade = h ∧ (h.count = 0#32 → h.stop wfade = ⟨.inactive, 0#32⟩) ∧
      (0 < h.count.toNat → h.count.toNat < wfade →
        (h.stop wfade).state = .fadingOut ∧ (h.stop wfade).count.toNat = wfade - h.count.toNat)) ∧
    (h.state = .fadingOut → h.stop wfade = h ∧ (h.count = 0#32 → h.start wfade = ⟨.active, 0#32⟩) ∧
      (0 < h.count.toNat → h.count.toNat < wfade →
        (h.start wfade).state = .fadingIn ∧ (h.start wfade).count.toNat = wfade - h.count.toNat))) ∧
  (∀ (s : State) (mask : ChannelMask), mask.left = true ∨ mask.right = true →
    exec (.whstart mask) s = .next { s with
      headL := if mask.left = true then s.headL.start s.cfg.wfade else s.headL
      headR := if mask.right = true then s.headR.start s.cfg.wfade else s.headR } ∧
    exec (.whstop mask) s = .next { s with
      headL := if mask.left = true then s.headL.stop s.cfg.wfade else s.headL
      headR := if mask.right = true then s.headR.stop s.cfg.wfade else s.headR }) ∧
  ∀ (s : State) (mask : ChannelMask), mask.left = false → mask.right = false →
    exec (.whstart mask) s = .next (s.withError .illegal) ∧ exec (.whstop mask) s = .next (s.withError .illegal)

/-- Rule R195 (c), in exact arithmetic: starting or stopping a head never changes the level of its next write but at rest, and a
fading write changes it by exactly `1 / WFADE`. -/
def Obligations.FadeLevelsAreContinuous : Prop :=
  ∀ (wfade : Nat) (h : Head), wfade ≤ 2 ^ 32 → h.Legal wfade →
    (h.start wfade).levelNumerator wfade = h.levelNumerator wfade ∧
    (h.stop wfade).levelNumerator wfade = h.levelNumerator wfade ∧
    (h.start wfade).Legal wfade ∧ (h.stop wfade).Legal wfade ∧ (h.isFading = true → (h.advance wfade).Legal wfade) ∧
    (h.state = .fadingIn → (h.advance wfade).levelNumerator wfade = h.levelNumerator wfade + 1) ∧
    (h.state = .fadingOut → (h.advance wfade).levelNumerator wfade + 1 = h.levelNumerator wfade)

/-- Rules R193 and R194: what `WHWRITE` does through an INACTIVE, an ACTIVE and a fading head, at sample `int32(ARG0) mod N` of its
channel; it changes no other byte, no other head and no register; while a clear is in progress it raises `BUSY`. The words that stand
for a NaN result are quiet NaNs (rule R167). -/
def Obligations.WhwriteWritesThroughItsHead : Prop :=
  ∀ (s : State) (c : Channel),
    (s.clrBusy = false → s.mem.wf = true → 0 < s.cfg.n →
      ∃ (t : State) (g : NanSource) (i : Nat), g.Quiet ∧ exec (.whwrite c) s = .next t ∧
        t = { s with mem := t.mem, headL := t.headL, headR := t.headR, draws := t.draws } ∧
        (i : Int) = s.arg0.toInt % s.cfg.n ∧ i < s.cfg.n ∧
        (∀ a : Nat, a < 4 * wordAddress c i ∨ 4 * wordAddress c i + 4 ≤ a → t.mem.readByte a = s.mem.readByte a) ∧
        (∀ d : Channel, d ≠ c → t.head d = s.head d) ∧
        ((s.head c).state = .inactive → t.mem = s.mem ∧ t.head c = s.head c) ∧
        ((s.head c).state = .active → t.storeRead c i = s.arg1 ∧ t.head c = s.head c) ∧
        ((s.head c).isFading = true →
          ∃ q lev : Word, q = F32.div (g 0) (F32.ofInteger (s.head c).count.toNat) (F32.ofInteger s.cfg.wfade) ∧
            lev = (if (s.head c).state = .fadingIn then q else F32.sub (g 1) F32.one q) ∧
            t.storeRead c i =
              F32.add (g 5) (F32.mul (g 3) (s.storeRead c i) (F32.sub (g 2) F32.one lev)) (F32.mul (g 4) s.arg1 lev) ∧
            ((s.head c).count.toNat + 1 = s.cfg.wfade →
              t.head c = ⟨if (s.head c).state = .fadingIn then .active else .inactive, 0#32⟩) ∧
            ((s.head c).count.toNat + 1 ≠ s.cfg.wfade →
              t.head c = ⟨(s.head c).state, BitVec.ofNat 32 ((s.head c).count.toNat + 1)⟩))) ∧
    (s.clrBusy = true → exec (.whwrite c) s = .next (s.withError .busy))

/-- Rule R194: a fade takes exactly `WFADE` writes: after fewer the head is still fading with the count of the writes, after `WFADE`
a fade-in is ACTIVE and a fade-out INACTIVE. -/
def Obligations.FadesTakeWfadeWrites : Prop :=
  ∀ (s : State) (c : Channel) (f : HeadState), f = .fadingIn ∨ f = .fadingOut → s.clrBusy = false → 1 ≤ s.cfg.wfade →
    s.cfg.wfade ≤ 2 ^ 32 → s.head c = ⟨f, 0#32⟩ →
    ∀ k : Nat, k ≤ s.cfg.wfade →
      ∃ t : State, repeatCommand (.whwrite c) k s = some t ∧
        (k < s.cfg.wfade → t.head c = ⟨f, BitVec.ofNat 32 k⟩) ∧
        (k = s.cfg.wfade → t.head c = ⟨if f = .fadingIn then .active else .inactive, 0#32⟩)

/-- Rule R196: heads in the same state and count stay equal over every run in which no one-channel `WHSTART`, `WHSTOP` or `WHWRITE`
separates them. -/
def Obligations.HeadsStayInLockstep : Prop :=
  ∀ (acts : List HostAction) (s t : State), (∀ a ∈ acts, a.separatesHeads = false) → s.headL = s.headR → runHost acts s = some t →
    t.headL = t.headR

/-- Rule R195 (a): with both heads INACTIVE, no sequence of `TICK`s and `WHWRITE`s (with any operands) changes a store word or starts
a head. -/
def Obligations.SilenceBeforeRecording : Prop :=
  ∀ (acts : List HostAction) (s t : State),
    (∀ a ∈ acts, (∃ r w, a = .writeArg r w) ∨ ∃ w, a = .command w ∧ ((∃ clk, decode w = .ok (.tick clk)) ∨
      ∃ c, decode w = .ok (.whwrite c))) →
    s.headL.state = .inactive → s.headR.state = .inactive → runHost acts s = some t →
    t.mem = s.mem ∧ t.headL = s.headL ∧ t.headR = s.headR

/-! ### `TICK` -/

/-- Rules R220, R221, R223, R194: the write stage of `TICK` with no clear in progress: the word of each channel at `WP`, no other
byte, the heads, and `WP`; and the registers that no `TICK` writes. The words that stand for a NaN result are quiet NaNs (rule R167). -/
def Obligations.TickWritesAtTheWritePhase : Prop :=
  ∀ (s : State) (clk : Bool), s.clrBusy = false → s.mem.wf = true →
    ∃ (t : State) (g : NanSource), g.Quiet ∧ exec (.tick clk) s = .next t ∧
      t = { s with
        res0 := t.res0, res1 := t.res1, start := t.start, length := t.length, phase := t.phase, nphase := t.nphase,
        xfKind := t.xfKind, xfProg := t.xfProg, xfWin := t.xfWin, xo := t.xo, wp := t.wp, headL := t.headL, headR := t.headR,
        clkPrev := t.clkPrev, clkAge := t.clkAge, synced := t.synced, trigPend := t.trigPend, mem := t.mem, draws := t.draws } ∧
      t.wp = BitVec.ofNat 32 ((s.wp.toNat + 1) % s.cfg.n) ∧
      (∀ a : Nat, a < 8 * s.wp.toNat ∨ 8 * s.wp.toNat + 8 ≤ a → t.mem.readByte a = s.mem.readByte a) ∧
      ∀ c : Channel, ∃ (k : Nat) (old v : Word), old = s.storeRead c s.wp.toNat ∧
        v = F32.add (g (k + 7)) (match c with | .left => s.arg0 | .right => s.arg1) (F32.mul (g (k + 6)) s.sosL old) ∧
        ((s.head c).state = .inactive → t.storeRead c s.wp.toNat = old ∧ t.head c = s.head c) ∧
        ((s.head c).state = .active → t.storeRead c s.wp.toNat = v ∧ t.head c = s.head c) ∧
        ((s.head c).isFading = true → t.head c = (s.head c).advance s.cfg.wfade ∧
          ∃ q lev : Word, q = F32.div (g k) (F32.ofInteger (s.head c).count.toNat) (F32.ofInteger s.cfg.wfade) ∧
            lev = (if (s.head c).state = .fadingIn then q else F32.sub (g (k + 1)) F32.one q) ∧
            t.storeRead c s.wp.toNat =
              F32.add (g (k + 5)) (F32.mul (g (k + 3)) old (F32.sub (g (k + 2)) F32.one lev)) (F32.mul (g (k + 4)) v lev))

/-- Rule R82 (and R222): the output of a `TICK` is read from the store as the write stage of the same `TICK` leaves it. The words that
stand for a NaN result are quiet NaNs (rule R167). -/
def Obligations.TickReadsAfterWriting : Prop :=
  ∀ (s : State) (clk : Bool), ∃ (t : State) (g : NanSource), g.Quiet ∧ exec (.tick clk) s = .next t ∧
    t.res0 = ({ s with mem := t.mem } : State).outputSample g .left ∧
    t.res1 = ({ s with mem := t.mem } : State).outputSample (g.shift 22) .right

/-- Rules R230, R231, R232, R234, R237: the output sample by the kind of transition in flight, times the stall volume. The words that
stand for a NaN result are quiet NaNs (rule R167). -/
def Obligations.OutputSampleByKind : Prop :=
  ∀ (s : State) (c : Channel) (g : NanSource), ∃ (g' : NanSource) (dir : Direction) (tail head new : Word),
    (g.Quiet → g'.Quiet) ∧
    (dir = if F32.lt s.spd F32.zero = true then .backward else .forward) ∧
    tail = s.interp (g'.shift 10) c s.xo dir ∧
    head = s.interp (g'.shift 20) c (F32.add (g' 0) (F32.ofInteger s.start.toNat) s.phase) dir ∧
    new = s.interp (g'.shift 20) c (F32.add (g' 0) (F32.ofInteger s.nstart.toNat) s.nphase) dir ∧
    (s.xfKind = .none → s.outputSample g c = F32.mul (g' 1) head s.vol) ∧
    (s.xfKind = .boundary → s.outputSample g c =
      F32.mul (g' 1) (lin (g'.shift 30) tail head (F32.min F32.one (F32.div (g' 2) s.xfProg s.xfWin))) s.vol) ∧
    (s.xfKind = .param → s.outputSample g c =
      F32.mul (g' 1) (lin (g'.shift 30) tail new (F32.min F32.one (F32.div (g' 2) s.xfProg s.xfWin))) s.vol) ∧
    (s.xfKind = .trigger → F32.lt s.xfProg (F32.ofInteger s.cfg.trigFade) = true → s.outputSample g c =
      F32.mul (g' 1) (F32.mul (g' 3) tail
        (equalPowerOut (g'.shift 40) (F32.div (g' 4) s.xfProg (F32.ofInteger s.cfg.trigFade)))) s.vol) ∧
    (s.xfKind = .trigger → F32.lt s.xfProg (F32.ofInteger s.cfg.trigFade) = false → s.outputSample g c =
      F32.mul (g' 1) (F32.mul (g' 3) head (equalPowerIn (g'.shift 40)
        (F32.div (g' 4) (F32.sub (g' 5) s.xfProg (F32.ofInteger s.cfg.trigFade)) (F32.ofInteger s.cfg.trigFade)))) s.vol)

/-- Rules R235 and R236: the linear law and the equal-power gains, as written, with their worked values. -/
def Obligations.BlendLaws : Prop :=
  ∀ g : NanSource,
    (∀ a b f : Word, lin g a b f = F32.add (g 3) (F32.mul (g 1) a (F32.sub (g 0) F32.one f)) (F32.mul (g 2) b f)) ∧
    lin g 0x41300000#32 0x40400000#32 0x3F000000#32 = 0x40E00000#32 ∧
    (∀ x : Word, equalPowerOut g x = F32.sub (g 1) F32.one (F32.mul (g 0) x x)) ∧
    (∀ x : Word, ∃ u : Word, u = F32.sub (g 0) F32.one x ∧ equalPowerIn g x = F32.sub (g 2) F32.one (F32.mul (g 1) u u)) ∧
    equalPowerOut g 0x00000000#32 = 0x3F800000#32 ∧ equalPowerOut g 0x3F000000#32 = 0x3F400000#32 ∧
    equalPowerOut g 0x3F800000#32 = 0x00000000#32 ∧ equalPowerIn g 0x00000000#32 = 0x00000000#32 ∧
    equalPowerIn g 0x3F000000#32 = 0x3F400000#32 ∧ equalPowerIn g 0x3F800000#32 = 0x3F800000#32 ∧
    F32.add (g 5) (F32.mul (g 3) 0x3F400000#32 0x3F400000#32) (F32.mul (g 4) 0x3F400000#32 0x3F400000#32) = 0x3F900000#32

/-- Rule R244, and the bounds of rules R39 and R245: the fade window, its values under `TC`, and that for a legal length it lies in
`[XF_MIN, XF_MAX]` and is at most half the length. -/
def Obligations.FadeWindowBounds : Prop :=
  (∀ (g : NanSource) (cfg : Config) (len : Nat),
    fadeWindow g cfg len = F32.max cfg.xfMin (F32.min (F32.mul (g 0) cfg.xfFrac (F32.ofInteger len)) cfg.xfMax)) ∧
  (∀ (g : NanSource) (cfg : Config) (len : Nat), configAdmitted cfg = true → cfg.minLoop ≤ len → len ≤ cfg.n →
    F32.le cfg.xfMin (fadeWindow g cfg len) = true ∧ F32.le (fadeWindow g cfg len) cfg.xfMax = true ∧
      2 * F32.units (fadeWindow g cfg len) ≤ len * F32.unitsPerOne) ∧
  ∀ g : NanSource, fadeWindow g Config.tc 4 = 0x3F800000#32 ∧ fadeWindow g Config.tc 6 = 0x3FC00000#32 ∧
    fadeWindow g Config.tc 8 = 0x40000000#32 ∧ fadeWindow g Config.tc 12 = 0x40400000#32 ∧
    fadeWindow g Config.tc 16 = 0x40800000#32

/-- Rule R241: for a phase in `[-L/2, 3L/2)` one conditional wrap leads into `[0, L)`; a forward wrap is exact, a backward wrap is
rounded once with `L` snapped to `+0.0`; and the worked values. -/
def Obligations.PhaseWrapsOnce : Prop :=
  (∀ (g : NanSource) (p : Word) (len : Nat), 0 < len → len ≤ 2 ^ 24 → F32.isFinite p = true →
    -(len * F32.unitsPerOne : Int) ≤ 2 * F32.units p → 2 * F32.units p < 3 * (len * F32.unitsPerOne : Int) →
    InWindow len (wrapPhase g p len).1 ∧
    ((len * F32.unitsPerOne : Int) ≤ F32.units p →
      (wrapPhase g p len).2 = true ∧ F32.units (wrapPhase g p len).1 = F32.units p - len * F32.unitsPerOne) ∧
    (0 ≤ F32.units p → F32.units p < (len * F32.unitsPerOne : Int) → wrapPhase g p len = (p, false)) ∧
    (F32.units p < 0 → (wrapPhase g p len).2 = true ∧
      ∃ y : Word, F32.NearestEven (F32.units p + len * F32.unitsPerOne) 1 y ∧
        (wrapPhase g p len).1 = if F32.units y = (len * F32.unitsPerOne : Int) then F32.zero else y)) ∧
  ∀ g : NanSource, wrapPhase g 0x41000000#32 8 = (0x00000000#32, true) ∧ wrapPhase g 0xBF800000#32 8 = (0x40E00000#32, true) ∧
    wrapPhase g 0xB22BCC77#32 8 = (0x00000000#32, true) ∧ wrapPhase g 0x40F00000#32 8 = (0x40F00000#32, false)

/-- Rules R240, R245, R249: a `TICK` with no transition in flight and no trigger advances the phase by `SPD`; if it wraps, a BOUNDARY
fade begins with its tail at the unwrapped position; if not, no transition begins. The words that stand for a NaN result are quiet
NaNs (rule R167). -/
def Obligations.TickAdvancesThePhase : Prop :=
  ∀ (s : State) (clk : Bool), s.xfKind = .none → s.triggered clk = false →
    ∃ (t : State) (g : NanSource) (pun : Word), g.Quiet ∧ exec (.tick clk) s = .next t ∧ pun = F32.add (g 0) s.phase s.spd ∧
      t.phase = (wrapPhase (g.shift 1) pun s.length.toNat).1 ∧ t.start = s.start ∧ t.length = s.length ∧ t.nphase = s.nphase ∧
      ((wrapPhase (g.shift 1) pun s.length.toNat).2 = false →
        t.xfKind = .none ∧ t.xfProg = s.xfProg ∧ t.xfWin = s.xfWin ∧ t.xo = s.xo) ∧
      ((wrapPhase (g.shift 1) pun s.length.toNat).2 = true →
        t.xfKind = .boundary ∧ t.xfProg = F32.zero ∧ t.xfWin = fadeWindow (g.shift 6) s.cfg s.length.toNat ∧
        t.xo = wrapN s.cfg.n (F32.add (g 5) (F32.ofInteger s.start.toNat) pun))

/-- Rules R240, R242, R243, R247: a `TICK` without a trigger during a PARAM transition: the canonical phase is frozen, the new stream
and the tail move by `SPD`, the progress grows by `|SPD|`; when it reaches the window, the new start, length and phase are adopted and
the transition ends. The words that stand for a NaN result are quiet NaNs (rule R167). -/
def Obligations.ParamTransitionProgress : Prop :=
  ∀ (s : State) (clk : Bool), s.xfKind = .param → s.triggered clk = false →
    ∃ (t : State) (g : NanSource), g.Quiet ∧ exec (.tick clk) s = .next t ∧
      t.nphase = (wrapPhase (g.shift 1) (F32.add (g 0) s.nphase s.spd) s.nlength.toNat).1 ∧
      t.xo = wrapN s.cfg.n (F32.add (g 3) s.xo s.spd) ∧ t.xfProg = F32.add (g 4) s.xfProg (F32.abs s.spd) ∧ t.xfWin = s.xfWin ∧
      (F32.le s.xfWin t.xfProg = true →
        t.start = s.nstart ∧ t.length = s.nlength ∧ t.phase = t.nphase ∧ t.xfKind = .none) ∧
      (F32.le s.xfWin t.xfProg = false →
        t.start = s.start ∧ t.length = s.length ∧ t.phase = s.phase ∧ t.xfKind = .param)

/-- Rules R240, R242, R243, R246, R248, R249: a `TICK` without a trigger during a BOUNDARY or TRIGGER transition: the head and the
tail move by `SPD`, the progress grows by `|SPD|` or by 1; at the end of the window the transition ends, and only if the phase wraps
in that tick does a BOUNDARY begin at once. The words that stand for a NaN result are quiet NaNs (rule R167). -/
def Obligations.FadeTransitionProgress : Prop :=
  ∀ (s : State) (clk : Bool), s.xfKind = .boundary ∨ s.xfKind = .trigger → s.triggered clk = false →
    ∃ (t : State) (g : NanSource) (pun prog : Word) (done : Bool), g.Quiet ∧ exec (.tick clk) s = .next t ∧
      pun = F32.add (g 0) s.phase s.spd ∧
      prog = F32.add (g 4) s.xfProg (if s.xfKind = .boundary then F32.abs s.spd else F32.one) ∧
      done = (if s.xfKind = .boundary then F32.le s.xfWin prog else F32.le (F32.ofInteger (2 * s.cfg.trigFade)) prog) ∧
      t.phase = (wrapPhase (g.shift 1) pun s.length.toNat).1 ∧ t.start = s.start ∧ t.length = s.length ∧ t.nphase = s.nphase ∧
      (done = false → t.xfKind = s.xfKind ∧ t.xfProg = prog ∧ t.xfWin = s.xfWin ∧
        t.xo = wrapN s.cfg.n (F32.add (g 3) s.xo s.spd)) ∧
      (done = true → (wrapPhase (g.shift 1) pun s.length.toNat).2 = false →
        t.xfKind = .none ∧ t.xfProg = prog ∧ t.xfWin = s.xfWin ∧ t.xo = wrapN s.cfg.n (F32.add (g 3) s.xo s.spd)) ∧
      (done = true → (wrapPhase (g.shift 1) pun s.length.toNat).2 = true →
        t.xfKind = .boundary ∧ t.xfProg = F32.zero ∧ t.xfWin = fadeWindow (g.shift 6) s.cfg s.length.toNat ∧
        t.xo = wrapN s.cfg.n (F32.add (g 5) (F32.ofInteger s.start.toNat) pun))

/-- Rule R253: stalled (`SPD = +0.0`), a `TICK` without a trigger in a legal state moves no phase, no tail and no BOUNDARY or PARAM
progress, ends no such transition and begins none of any kind; a TRIGGER goes on or ends. Values are compared: `-0.0` may become
`+0.0`. -/
def Obligations.StallHoldsThePosition : Prop :=
  ∀ (s : State) (clk : Bool), s.Legal → s.spd = F32.zero → s.triggered clk = false →
    ∃ t : State, exec (.tick clk) s = .next t ∧
      F32.units t.phase = F32.units s.phase ∧ F32.units t.nphase = F32.units s.nphase ∧ F32.units t.xo = F32.units s.xo ∧
      t.start = s.start ∧ t.length = s.length ∧
      t.xfWin = s.xfWin ∧ (s.xfKind ≠ .trigger → t.xfKind = s.xfKind ∧ F32.units t.xfProg = F32.units s.xfProg) ∧
      (s.xfKind = .trigger → t.xfKind = .trigger ∨ t.xfKind = .none)

/-- Rules R250, R251: a `TICK` with a trigger does what the same `TICK` does without it (the state `u`: the same output, store and
heads), then restarts the phase, adopts the new window of a PARAM transition still in flight, and begins a TRIGGER fade from the
position the head stream would have read next, or cuts hard if the loop is not longer than `2 · TRIG_FADE`. The words that stand for a
NaN result are quiet NaNs (rule R167). -/
def Obligations.RetriggerRestartsThePhase : Prop :=
  ∀ (s : State) (clk : Bool), s.triggered clk = true →
    ∃ (t u : State) (x : Word), F32.isQuietNaN x = true ∧ exec (.tick clk) s = .next t ∧
      exec (.tick clk) { s with trigPend := false, clkPrev := true } = .next u ∧
      t.res0 = u.res0 ∧ t.res1 = u.res1 ∧ t.mem = u.mem ∧ t.headL = u.headL ∧ t.headR = u.headR ∧ t.wp = u.wp ∧
      t.phase = F32.zero ∧ t.trigPend = false ∧ t.clkAge = 0#32 ∧ t.synced = true ∧ t.clkPrev = clk ∧
      (u.xfKind = .param → t.start = u.nstart ∧ t.length = u.nlength) ∧
      (u.xfKind ≠ .param → t.start = u.start ∧ t.length = u.length) ∧
      (2 * s.cfg.trigFade < t.length.toNat →
        t.xfKind = .trigger ∧ t.xfProg = F32.zero ∧ t.xfWin = F32.ofInteger s.cfg.trigFade ∧
        t.xo = if u.xfKind = .param then wrapN s.cfg.n (F32.add x (F32.ofInteger u.nstart.toNat) u.nphase)
          else wrapN s.cfg.n (F32.add x (F32.ofInteger u.start.toNat) u.phase)) ∧
      (t.length.toNat ≤ 2 * s.cfg.trigFade →
        t.xfKind = .none ∧ t.xfProg = u.xfProg ∧ t.xfWin = u.xfWin ∧ t.xo = u.xo)

/-- Rule R252: the clock age saturates at `CLOCK_TIMEOUT`, and after a trigger `SYNCED` falls on exactly the `CLOCK_TIMEOUT`-th tick
without one. -/
def Obligations.ClockAgesOut : Prop :=
  (∀ (s : State) (clk : Bool), s.triggered clk = false → s.cfg.clockTimeout < 2 ^ 32 →
    ∃ t : State, exec (.tick clk) s = .next t ∧ t.clkPrev = clk ∧ t.trigPend = false ∧
      (s.clkAge.toNat < s.cfg.clockTimeout → t.clkAge.toNat = s.clkAge.toNat + 1 ∧
        (s.clkAge.toNat + 1 = s.cfg.clockTimeout → t.synced = false) ∧
        (s.clkAge.toNat + 1 ≠ s.cfg.clockTimeout → t.synced = s.synced)) ∧
      (s.cfg.clockTimeout ≤ s.clkAge.toNat → t.clkAge = s.clkAge ∧ t.synced = s.synced)) ∧
  (∀ s : State, 1 ≤ s.cfg.clockTimeout → s.cfg.clockTimeout < 2 ^ 32 → s.trigPend = false → s.clkAge = 0#32 → s.synced = true →
    ∀ k : Nat, ∃ t : State, repeatCommand (.tick false) k s = some t ∧ t.clkAge.toNat = min k s.cfg.clockTimeout ∧
      t.synced = decide (k < s.cfg.clockTimeout))

/-- Rules R234, R243, R248: from the state a trigger leaves, the progress counts the ticks exactly, and the TRIGGER transition lasts
exactly `2 · TRIG_FADE` ticks. -/
def Obligations.TriggerFadeLastsTwoHalves : Prop :=
  ∀ s : State, configAdmitted s.cfg = true → s.xfKind = .trigger → s.xfProg = F32.zero → s.trigPend = false →
    (∀ k : Nat, k < 2 * s.cfg.trigFade →
      ∃ t : State, repeatCommand (.tick false) k s = some t ∧ t.xfKind = .trigger ∧ t.xfProg = F32.ofInteger k) ∧
    ∃ t : State, repeatCommand (.tick false) (2 * s.cfg.trigFade) s = some t ∧ t.xfKind ≠ .trigger

/-- Rules R120, R136, R331 (a): what a `TICK` does depends on no shadow register and on no filter level: replacing them changes
nothing else in its result. -/
def Obligations.TickIgnoresShadowsAndFilter : Prop :=
  ∀ (s : State) (clk : Bool) (a b c d e f : Word) (r : Bool),
    ∃ t : State, exec (.tick clk) s = .next t ∧
      exec (.tick clk) { s with speedRaw := a, startX := b, lengthX := c, sosX := d, filterX := e, filterL := f, recX := r } =
        .next { t with speedRaw := a, startX := b, lengthX := c, sosX := d, filterX := e, filterL := f, recX := r }

/-! ### Status -/

/-- Rules R45 and R197: the fields of the status word, its reserved bits, and its value after reset. -/
def Obligations.StatusWordFields : Prop :=
  (∀ s : State, (s.statusWord).extractLsb' 0 2 = s.headL.state.code ∧ (s.statusWord).extractLsb' 2 2 = s.headR.state.code ∧
    (s.statusWord).extractLsb' 4 2 = s.xfKind.code ∧ s.statusWord.getLsbD 6 = s.clrBusy ∧ s.statusWord.getLsbD 7 = s.synced ∧
    s.statusWord.getLsbD 8 = s.trigPend ∧ s.statusWord.getLsbD 9 = s.recX ∧
    s.statusWord.getLsbD 10 = decide (s.headL.state ≠ .inactive) ∧ s.statusWord.getLsbD 11 = decide (s.headR.state ≠ .inactive) ∧
    (s.statusWord).extractLsb' 12 4 = 0#4 ∧ s.statusWord.getLsbD 16 = s.errIllegal ∧ s.statusWord.getLsbD 17 = s.errNonfinite ∧
    s.statusWord.getLsbD 18 = s.errBusy ∧ (s.statusWord).extractLsb' 19 13 = 0#13) ∧
  HeadState.inactive.code = 0#2 ∧ HeadState.fadingIn.code = 1#2 ∧ HeadState.active.code = 2#2 ∧ HeadState.fadingOut.code = 3#2 ∧
  XfKind.none.code = 0#2 ∧ XfKind.boundary.code = 1#2 ∧ XfKind.param.code = 2#2 ∧ XfKind.trigger.code = 3#2 ∧
  ∀ (cfg : Config) (mem : Memory), (State.resetWith cfg mem).statusWord = 0x00000000#32

/-- Rules R270 and R271: `STATUS` puts the status word of the state before any clearing into `RES0`; `STATUS CLR` then clears the three
error bits; nothing else changes; and the worked status words. -/
def Obligations.StatusReadsThenClears : Prop :=
  (∀ s : State, exec (.status false) s = .next { s with res0 := s.statusWord } ∧
    exec (.status true) s =
      .next { s with res0 := s.statusWord, errIllegal := false, errNonfinite := false, errBusy := false }) ∧
  State.reset.statusWord = 0x00000000#32 ∧
  ({ State.reset with headL := ⟨.active, 0#32⟩, headR := ⟨.active, 0#32⟩, recX := true } : State).statusWord = 0x00000E0A#32 ∧
  ({ State.reset with xfKind := .trigger, synced := true } : State).statusWord = 0x000000B0#32

/-- Rules R272 and R273: every `RDREG` word of the index map reads its register into `RES0` and changes nothing else. -/
def Obligations.RdregReadsEveryRegister : Prop :=
  ∀ s : State, ∀ p ∈ ([(0x11000000#32, s.speedRaw), (0x11010000#32, s.startX), (0x11020000#32, s.lengthX),
        (0x11030000#32, if s.recX = true then 1#32 else 0#32), (0x11040000#32, s.sosX), (0x11050000#32, s.filterX),
        (0x11080000#32, s.spd), (0x11090000#32, s.vol), (0x110A0000#32, s.sosL), (0x110B0000#32, s.filterL),
        (0x110B0000#32, s.filterOut)] ++
      [(0x11100000#32, s.start), (0x11110000#32, s.length), (0x11120000#32, s.phase), (0x11130000#32, s.nstart),
        (0x11140000#32, s.nlength), (0x11150000#32, s.nphase),
        (0x11180000#32, match s.xfKind with | .none => 0#32 | .boundary => 1#32 | .param => 2#32 | .trigger => 3#32),
        (0x11190000#32, s.xfProg), (0x111A0000#32, s.xfWin), (0x111B0000#32, s.xo), (0x11200000#32, s.wp)] ++
      [(0x11210000#32,
          match s.headL.state with | .inactive => 0#32 | .fadingIn => 1#32 | .active => 2#32 | .fadingOut => 3#32),
        (0x11220000#32,
          match s.headR.state with | .inactive => 0#32 | .fadingIn => 1#32 | .active => 2#32 | .fadingOut => 3#32),
        (0x11230000#32, s.headL.count), (0x11240000#32, s.headR.count),
        (0x11280000#32, if s.clrBusy = true then 1#32 else 0#32), (0x11290000#32, s.clrPtr)] ++
      [(0x11300000#32, if s.clkPrev = true then 1#32 else 0#32), (0x11310000#32, s.clkAge),
        (0x11320000#32, if s.synced = true then 1#32 else 0#32), (0x11330000#32, if s.trigPend = true then 1#32 else 0#32),
        (0x113F0000#32, s.statusWord)] : List (Word × Word)),
    (∃ r, decode p.1 = .ok (.rdreg r) ∧ exec (.rdreg r) s = .next { s with res0 := p.2 }) ∧
    commandStep p.1 s = .next { s with res0 := p.2 }

/-! ### Reset and the invariant -/

/-- Rules R320, R321, R322 (that the draw comes with the host's reset action, and that the model's own fields go on, is log 4): a reset
with any store contents that the rules allow gives every register its reset value, each store word its draw, and keeps the
configuration; any other contents are refused. -/
def Obligations.ResetTakesAnyAdmittedDraw : Prop :=
  ∀ (s : State) (draw : List Word),
    (draw.length = 2 * s.cfg.n → (∀ w ∈ draw, F32.isFinite w = true ∧ F32.le (F32.abs w) s.cfg.noiseAmp = true) →
      ∃ t : State, hostStep (.reset draw) s = .next t ∧
        t = { State.resetWith s.cfg t.mem with host := s.host, draws := s.draws, errLog := s.errLog } ∧
        t.mem.wf = true ∧ t.mem.below (8 * s.cfg.n) = true ∧
        ∀ (c : Channel) (i : Nat), i < s.cfg.n → some (t.storeRead c i) = draw[2 * i + channelBit c]?) ∧
    ((draw.length ≠ 2 * s.cfg.n ∨ ∃ w ∈ draw, F32.isFinite w = false ∨ F32.le (F32.abs w) s.cfg.noiseAmp = false) →
      hostStep (.reset draw) s = .refused .resetDrawNotAdmitted)

/-- Rules R321 and R50: the reset value of every register. (The configuration of `State.reset` and its all-zero store are the model's
choice, logs 1 and 3; the statement holds for every configuration and store.) -/
def Obligations.ResetValues : Prop :=
  ∀ (cfg : Config) (mem : Memory), ∃ s : State, s = State.resetWith cfg mem ∧
    s.arg0 = 0x00000000#32 ∧ s.arg1 = 0x00000000#32 ∧ s.arg2 = 0x00000000#32 ∧ s.res0 = 0x00000000#32 ∧ s.res1 = 0x00000000#32 ∧
    s.speedRaw = 0x00000000#32 ∧ s.startX = 0x00000000#32 ∧ s.lengthX = 0x3F800000#32 ∧ s.recX = false ∧
    s.sosX = 0x00000000#32 ∧ s.filterX = 0x00000000#32 ∧ s.spd = 0x00000000#32 ∧ s.vol = 0x00000000#32 ∧
    s.sosL = 0x00000000#32 ∧ s.filterL = 0x00000000#32 ∧ s.filterOut = 0x00000000#32 ∧ s.start = 0#32 ∧
    s.length = BitVec.ofNat 32 cfg.n ∧ s.phase = 0x00000000#32 ∧ s.nstart = 0#32 ∧ s.nlength = BitVec.ofNat 32 cfg.n ∧
    s.nphase = 0x00000000#32 ∧ s.xfKind = .none ∧ s.xfProg = 0x00000000#32 ∧ s.xfWin = 0x00000000#32 ∧ s.xo = 0x00000000#32 ∧
    s.wp = 0#32 ∧ s.headL = ⟨.inactive, 0#32⟩ ∧ s.headR = ⟨.inactive, 0#32⟩ ∧ s.clrBusy = false ∧ s.clrPtr = 0#32 ∧
    s.clkPrev = false ∧ s.clkAge = 0#32 ∧ s.synced = false ∧ s.trigPend = false ∧ s.errIllegal = false ∧
    s.errNonfinite = false ∧ s.errBusy = false ∧ s.statusWord = 0x00000000#32

/-- Rules R49 and R321: the reset state is legal, and so is the reset state of every admitted configuration with store contents that
lie in the store. -/
def Obligations.ResetIsLegal : Prop :=
  State.reset.Legal ∧
    ∀ (cfg : Config) (mem : Memory), configAdmitted cfg = true → mem.wf = true → mem.below (8 * cfg.n) = true →
      (State.resetWith cfg mem).Legal

/-- Every step keeps the store in its canonical form (the model's representation, log 3) and inside the `2N` words of rule R70, if it
is there and the write phase is in the store. -/
def Obligations.StoreStaysCanonical : Prop :=
  ∀ s t : State, s.StoreLegal → s.wp.toNat < s.cfg.n → step s = .next t → t.StoreLegal

/-- Rule R49 (e) to (h), and rules R40 to R43: every step keeps the counters legal. -/
def Obligations.CountersStayLegal : Prop :=
  ∀ s t : State, s.CountersLegal → step s = .next t → t.CountersLegal

/-- Rule R49, with the legal values of rules R35 to R43: every step of the machine, from every legal state and not only on the runs
from reset, leads to a legal state. -/
def Obligations.EveryStepKeepsTheStateLegal : Prop :=
  ∀ s t : State, s.Legal → step s = .next t → t.Legal

/-! ### Arithmetic -/

/-- Rules R11 to R13: on finite operands the four operations are the exact result rounded once to nearest-even, overflowing to infinity;
an exact zero sum is `+0.0` unless both operands are `-0.0`, and the sign of a product or a quotient is the exclusive or of the signs.
NaNs, infinities and a zero divisor give what the standard gives. The comparisons go by value, with `+0 = -0` and false on a NaN; `min`,
`max` and `clamp` return the first of equal values. The signs of zeros and the special operands are taken from the standard (log 13); the
answer of `min` and `max` on a NaN (log 12) and the clamp of `-0.0` (log 9) are the model's choices. -/
def Obligations.ArithmeticRoundsOnce : Prop :=
  (∀ nan a b : Word, F32.isFinite a = true → F32.isFinite b = true →
    (F32.CorrectlyRounded (F32.units a + F32.units b) 1 (F32.add nan a b) ∧
      (F32.units a + F32.units b = 0 → F32.isNeg (F32.add nan a b) = (F32.isNeg a && F32.isNeg b))) ∧
    (F32.CorrectlyRounded (F32.units a - F32.units b) 1 (F32.sub nan a b) ∧
      (F32.units a - F32.units b = 0 → F32.isNeg (F32.sub nan a b) = (F32.isNeg a && !F32.isNeg b))) ∧
    (F32.CorrectlyRounded (F32.units a * F32.units b) F32.unitsPerOne (F32.mul nan a b) ∧
      F32.isNeg (F32.mul nan a b) = (F32.isNeg a != F32.isNeg b)) ∧
    (F32.units b ≠ 0 →
      F32.CorrectlyRounded (F32.units a * F32.unitsPerOne * (F32.units b).sign) (F32.magnitude b) (F32.div nan a b) ∧
        F32.isNeg (F32.div nan a b) = (F32.isNeg a != F32.isNeg b))) ∧
  (∀ nan a b : Word, F32.SpecialOperands nan a b) ∧ (∀ a b : Word, F32.ComparedByValue a b) ∧
  F32.eq 0x00000000#32 0x80000000#32 = true ∧
  (∀ x lo hi : Word, F32.clamp x lo hi = F32.min (F32.max x lo) hi) ∧ F32.clamp 0x80000000#32 0x00000000#32 0x3F800000#32 = 0x80000000#32
end

