-- ==== Sys2Proof/Laws/Float.lean ====
section
/-! SUPPORT. The laws of rounding: the magnitude bits order the finite values, `roundBits` answers a nearest value with ties to
even, and from these two facts exactness and monotonicity follow. -/

namespace Sys2Proof

/-! ### Words as sign and magnitude bits -/

theorem F32.magBits_lt (w : Word) : F32.magBits w < 2 ^ 31 :=
  Nat.mod_lt _ (by norm_num)

theorem F32.isNeg_iff (w : Word) : F32.isNeg w = true ↔ 2 ^ 31 ≤ w.toNat := by
  rw [F32.isNeg, BitVec.msb_eq_decide]
  simp

theorem F32.toNat_eq (w : Word) : w.toNat = (if F32.isNeg w then 2 ^ 31 else 0) + F32.magBits w := by
  have h := w.isLt
  by_cases hn : F32.isNeg w = true
  · have := (F32.isNeg_iff w).1 hn
    simp only [hn, if_true, F32.magBits]
    omega
  · have : w.toNat < 2 ^ 31 := by
      by_contra hc
      exact hn ((F32.isNeg_iff w).2 (by omega))
    simp only [hn, F32.magBits, Bool.false_eq_true, if_false]
    omega

theorem F32.ofBits_toNat (neg : Bool) {m : Nat} (h : m < 2 ^ 31) :
    (F32.ofBits neg m).toNat = (if neg then 2 ^ 31 else 0) + m := by
  rw [F32.ofBits, BitVec.toNat_ofNat, Nat.mod_eq_of_lt]
  split <;> omega

@[simp] theorem F32.magBits_ofBits (neg : Bool) {m : Nat} (h : m < 2 ^ 31) : F32.magBits (F32.ofBits neg m) = m := by
  rw [F32.magBits, F32.ofBits_toNat neg h]
  split <;> omega

@[simp] theorem F32.isNeg_ofBits (neg : Bool) {m : Nat} (h : m < 2 ^ 31) : F32.isNeg (F32.ofBits neg m) = neg := by
  have := F32.ofBits_toNat neg h
  have := F32.isNeg_iff (F32.ofBits neg m)
  cases neg <;> cases hb : F32.isNeg (F32.ofBits _ m) <;> simp_all
  omega

/-- A word is its sign and its magnitude bits. -/
theorem F32.ofBits_isNeg_magBits (w : Word) : F32.ofBits (F32.isNeg w) (F32.magBits w) = w := by
  apply BitVec.eq_of_toNat_eq
  rw [F32.ofBits_toNat _ (F32.magBits_lt w), ← F32.toNat_eq]

/-- Two words with the same sign and the same magnitude bits are equal. -/
theorem F32.ext_bits {a b : Word} (hn : F32.isNeg a = F32.isNeg b) (hm : F32.magBits a = F32.magBits b) : a = b := by
  rw [← F32.ofBits_isNeg_magBits a, ← F32.ofBits_isNeg_magBits b, hn, hm]

/-! ### The magnitudes -/

/-- A significand `r` in the binade `k` (or below it for `k = 0`), its carry `2^24` included, has bits `k·2^23 + r` and stands for
`r·2^k` units. -/
theorem F32.unitsOfBits_significand {k r : Nat} (hlo : k = 0 ∨ 2 ^ 23 ≤ r) (hhi : r ≤ 2 ^ 24) :
    F32.unitsOfBits (k * 2 ^ 23 + r) = r * 2 ^ k := by
  have h0 : (0 : Nat) < 2 ^ 23 := by norm_num
  rcases Nat.lt_or_ge r (2 ^ 23) with hr | hr
  · have hk : k = 0 := by rcases hlo with h | h <;> omega
    subst hk
    rw [F32.unitsOfBits, Nat.zero_mul, Nat.zero_add, if_pos (Nat.div_eq_of_lt hr), Nat.mod_eq_of_lt hr]
    simp
  · rcases Nat.lt_or_ge r (2 ^ 24) with hr2 | hr2
    · obtain ⟨f, rfl⟩ : ∃ f, r = 2 ^ 23 + f := ⟨r - 2 ^ 23, by omega⟩
      have hf : f < 2 ^ 23 := by omega
      have e1 : (k * 2 ^ 23 + (2 ^ 23 + f)) / 2 ^ 23 = k + 1 := by
        rw [show k * 2 ^ 23 + (2 ^ 23 + f) = f + (k + 1) * 2 ^ 23 by ring, Nat.add_mul_div_right _ _ h0, Nat.div_eq_of_lt hf]
        omega
      have e2 : (k * 2 ^ 23 + (2 ^ 23 + f)) % 2 ^ 23 = f := by
        rw [show k * 2 ^ 23 + (2 ^ 23 + f) = f + (k + 1) * 2 ^ 23 by ring, Nat.add_mul_mod_self_right, Nat.mod_eq_of_lt hf]
      rw [F32.unitsOfBits, e1, e2]
      simp
    · have hr' : r = 2 ^ 24 := by omega
      subst hr'
      have e1 : (k * 2 ^ 23 + 2 ^ 24) / 2 ^ 23 = k + 2 := by
        rw [show k * 2 ^ 23 + 2 ^ 24 = 0 + (k + 2) * 2 ^ 23 by ring, Nat.add_mul_div_right _ _ h0]
        simp
      have e2 : (k * 2 ^ 23 + 2 ^ 24) % 2 ^ 23 = 0 := by
        rw [show k * 2 ^ 23 + 2 ^ 24 = 0 + (k + 2) * 2 ^ 23 by ring, Nat.add_mul_mod_self_right]
        simp
      rw [F32.unitsOfBits, e1, e2]
      simp only [Nat.add_eq_zero_iff, OfNat.ofNat_ne_zero, and_false, if_false, Nat.add_zero]
      rw [show k + 2 - 1 = k + 1 by omega]
      ring

/-- Every magnitude is a significand of some binade. -/
theorem F32.exists_significand (m : Nat) :
    ∃ k r, m = k * 2 ^ 23 + r ∧ (k = 0 ∨ 2 ^ 23 ≤ r) ∧ r < 2 ^ 24 ∧ F32.unitsOfBits m = r * 2 ^ k := by
  have h0 : (0 : Nat) < 2 ^ 23 := by norm_num
  have hd := Nat.div_add_mod m (2 ^ 23)
  have hm := Nat.mod_lt m h0
  rcases Nat.eq_zero_or_pos (m / 2 ^ 23) with he | he
  · refine ⟨0, m, by omega, .inl rfl, by rw [he] at hd; omega, ?_⟩
    have h := F32.unitsOfBits_significand (k := 0) (r := m) (.inl rfl) (by rw [he] at hd; omega)
    simpa using h
  · obtain ⟨e, he'⟩ : ∃ e, m / 2 ^ 23 = e + 1 := ⟨m / 2 ^ 23 - 1, by omega⟩
    rw [he'] at hd
    refine ⟨e, 2 ^ 23 + m % 2 ^ 23, by linarith, .inr (by omega), by omega, ?_⟩
    have h := F32.unitsOfBits_significand (k := e) (r := 2 ^ 23 + m % 2 ^ 23) (.inr (by omega)) (by omega)
    rwa [show e * 2 ^ 23 + (2 ^ 23 + m % 2 ^ 23) = m by linarith] at h

theorem F32.unitsOfBits_lt_succ (m : Nat) : F32.unitsOfBits m < F32.unitsOfBits (m + 1) := by
  obtain ⟨k, r, hm, hlo, hhi, hu⟩ := F32.exists_significand m
  have h := F32.unitsOfBits_significand (k := k) (r := r + 1) (by omega) (by omega)
  rw [← Nat.add_assoc, ← hm] at h
  rw [h, hu]
  exact Nat.mul_lt_mul_of_pos_right (by omega) (by positivity)

/-- The magnitude bits order the magnitudes. -/
theorem F32.unitsOfBits_strictMono : StrictMono F32.unitsOfBits :=
  strictMono_nat_of_lt_succ F32.unitsOfBits_lt_succ

@[simp] theorem F32.unitsOfBits_zero : F32.unitsOfBits 0 = 0 := by
  simp [F32.unitsOfBits]

/-! ### Rounding to an integer -/

/-- The rounded quotient is a nearest integer. -/
theorem F32.roundToInteger_nearest (num : Nat) {den : Nat} (hd : 0 < den) (z : Int) :
    |(F32.roundToInteger num den * den : Int) - num| ≤ |z * den - num| := by
  have h1 := Nat.div_add_mod num den
  have h2 := Nat.mod_lt num hd
  set q := num / den with hq
  set r := num % den with hr
  have hn : (num : Int) = den * q + r := by exact_mod_cast h1.symm
  have hdz : (0 : Int) < den := by exact_mod_cast hd
  have hrz : (r : Int) < den := by exact_mod_cast h2
  have hr0 : (0 : Int) ≤ r := by positivity
  -- distance of `z` from `num`, by the side it lies on
  have key : (r : Int) ≤ |z * den - num| ∨ (den - r : Int) ≤ |z * den - num| := by
    rcases le_or_gt z q with hz | hz
    · left
      have : z * den ≤ q * den := mul_le_mul_of_nonneg_right hz hdz.le
      rw [abs_of_nonpos (by rw [hn]; nlinarith)]
      rw [hn]; nlinarith
    · right
      have : (q + 1 : Int) * den ≤ z * den := mul_le_mul_of_nonneg_right (by omega) hdz.le
      refine le_trans ?_ (le_abs_self _)
      rw [hn]; nlinarith
  have lower : |(q * den : Int) - num| = r := by
    rw [hn, abs_of_nonpos (by nlinarith)]; ring
  have upper : |((q + 1) * den : Int) - num| = den - r := by
    rw [hn, abs_of_nonneg (by nlinarith)]; ring
  rw [F32.roundToInteger, ← hq, ← hr]
  by_cases c1 : 2 * r < den
  · have : (2 * r : Int) < den := by exact_mod_cast c1
    rw [if_pos c1, lower]
    rcases key with h | h <;> linarith
  · have c1' : (den : Int) ≤ 2 * r := by exact_mod_cast not_lt.1 c1
    rw [if_neg c1]
    by_cases c2 : den < 2 * r
    · have : (den : Int) < 2 * r := by exact_mod_cast c2
      rw [if_pos c2]
      push_cast
      rw [upper]
      rcases key with h | h <;> linarith
    · have c2' : (2 * r : Int) ≤ den := by exact_mod_cast not_lt.1 c2
      rw [if_neg c2]
      rcases Nat.mod_two_eq_zero_or_one q with h | h
      · rw [h, Nat.add_zero, lower]
        rcases key with h | h <;> linarith
      · rw [h]
        push_cast
        rw [upper]
        rcases key with h | h <;> linarith

/-- Where another integer is as near, the rounded quotient is even. -/
theorem F32.roundToInteger_tie (num : Nat) {den : Nat} (hd : 0 < den) {z : Int} (hz : z ≠ F32.roundToInteger num den)
    (he : |(F32.roundToInteger num den * den : Int) - num| = |z * den - num|) : F32.roundToInteger num den % 2 = 0 := by
  have h1 := Nat.div_add_mod num den
  have h2 := Nat.mod_lt num hd
  by_contra hodd
  set q := num / den with hq
  set r := num % den with hr
  have hn : (num : Int) = den * q + r := by exact_mod_cast h1.symm
  have hdz : (0 : Int) < den := by exact_mod_cast hd
  have hrz : (r : Int) < den := by exact_mod_cast h2
  have hr0 : (0 : Int) ≤ r := by positivity
  have lower : |(q * den : Int) - num| = r := by
    rw [hn, abs_of_nonpos (by nlinarith)]; ring
  have upper : |((q + 1) * den : Int) - num| = den - r := by
    rw [hn, abs_of_nonneg (by nlinarith)]; ring
  have keyLow : z ≤ q → (z = q ∧ |z * den - num| = r) ∨ (r + den : Int) ≤ |z * den - num| := by
    intro hzq
    rcases eq_or_lt_of_le hzq with h | h
    · left; subst h; exact ⟨rfl, lower⟩
    · right
      have : z * den ≤ (q - 1) * den := mul_le_mul_of_nonneg_right (by omega) hdz.le
      rw [abs_of_nonpos (by rw [hn]; nlinarith), hn]
      nlinarith
  have keyHigh : (q : Int) < z → (z = q + 1 ∧ |z * den - num| = den - r) ∨ (den - r + den : Int) ≤ |z * den - num| := by
    intro hzq
    rcases eq_or_lt_of_le (show (q : Int) + 1 ≤ z by omega) with h | h
    · left; subst h; exact ⟨rfl, upper⟩
    · right
      have : (q + 2 : Int) * den ≤ z * den := mul_le_mul_of_nonneg_right (by omega) hdz.le
      refine le_trans ?_ (le_abs_self _)
      rw [hn]; nlinarith
  unfold F32.roundToInteger at hz he hodd
  rw [← hq, ← hr] at hz he hodd
  by_cases c1 : 2 * r < den
  · have c1' : (2 * r : Int) < den := by exact_mod_cast c1
    rw [if_pos c1] at hz he hodd
    rw [lower] at he
    rcases le_or_gt z q with h | h
    · rcases keyLow h with ⟨h', _⟩ | h'
      · exact hz h'
      · linarith
    · rcases keyHigh h with ⟨_, h'⟩ | h' <;> linarith
  · have c1' : (den : Int) ≤ 2 * r := by exact_mod_cast not_lt.1 c1
    rw [if_neg c1] at hz he hodd
    by_cases c2 : den < 2 * r
    · have c2' : (den : Int) < 2 * r := by exact_mod_cast c2
      rw [if_pos c2] at hz he hodd
      push_cast at hz he
      rw [upper] at he
      rcases le_or_gt z q with h | h
      · rcases keyLow h with ⟨_, h'⟩ | h' <;> linarith
      · rcases keyHigh h with ⟨h', _⟩ | h'
        · exact hz h'
        · linarith
    · rw [if_neg c2] at hodd
      omega

/-! ### Rounding to binary32 -/

/-- The exponent of the binade that `num / den` units lie in, 0 for the subnormals and the lowest normals. -/
def F32.binade (num den : Nat) : Nat :=
  (num / den).log2 - 23

/-- The magnitude bits before the overflow to infinity. -/
def F32.unboundedBits (num den : Nat) : Nat :=
  F32.binade num den * 2 ^ 23 + F32.roundToInteger num (den * 2 ^ F32.binade num den)

theorem F32.roundBits_eq_min (num den : Nat) : F32.roundBits num den = Min.min (F32.unboundedBits num den) F32.infBits :=
  rfl

theorem F32.roundBits_le (num den : Nat) : F32.roundBits num den ≤ F32.infBits :=
  Nat.min_le_right _ _

theorem F32.roundBits_lt (num den : Nat) : F32.roundBits num den < 2 ^ 31 :=
  lt_of_le_of_lt (F32.roundBits_le num den) (by norm_num [F32.infBits])

/-- The quotient lies below the top of its binade. -/
theorem F32.lt_binade_top (num : Nat) {den : Nat} (hd : 0 < den) : num < 2 ^ 24 * (den * 2 ^ F32.binade num den) := by
  have h1 : num / den < 2 ^ ((num / den).log2 + 1) := Nat.lt_log2_self
  have h2 : num / den < 2 ^ (24 + F32.binade num den) :=
    lt_of_lt_of_le h1 (Nat.pow_le_pow_right (by norm_num) (by unfold F32.binade; omega))
  have h3 := (Nat.div_lt_iff_lt_mul hd).1 h2
  rw [pow_add] at h3
  linarith

/-- Unless its binade is the lowest, the quotient is not below the bottom of its binade. -/
theorem F32.binade_bottom_le (num : Nat) {den : Nat} (hd : 0 < den) (hk : F32.binade num den ≠ 0) :
    2 ^ 23 * (den * 2 ^ F32.binade num den) ≤ num := by
  have hq : num / den ≠ 0 := by
    intro h
    apply hk
    rw [F32.binade, h]
    simp
  have h1 : 2 ^ (num / den).log2 ≤ num / den := Nat.log2_self_le hq
  have h2 : (num / den).log2 = 23 + F32.binade num den := by unfold F32.binade at *; omega
  rw [h2, pow_add] at h1
  have h3 := (Nat.le_div_iff_mul_le hd).1 h1
  linarith

theorem F32.roundToInteger_le (num : Nat) {den : Nat} (hd : 0 < den) {z : Nat} (h : num ≤ z * den) :
    F32.roundToInteger num den ≤ z := by
  by_contra hc
  have hn := F32.roundToInteger_nearest num hd z
  have h1 : ((z : Int) + 1) * den ≤ F32.roundToInteger num den * den :=
    mul_le_mul_of_nonneg_right (by exact_mod_cast not_le.1 hc) (by positivity)
  have h2 : (num : Int) ≤ z * den := by exact_mod_cast h
  have h3 : (0 : Int) < den := by exact_mod_cast hd
  rw [abs_of_nonneg (by linarith), abs_of_nonneg (by linarith)] at hn
  linarith

theorem F32.le_roundToInteger (num : Nat) {den : Nat} (hd : 0 < den) {z : Nat} (h : z * den ≤ num) :
    z ≤ F32.roundToInteger num den := by
  by_contra hc
  have hn := F32.roundToInteger_nearest num hd z
  have h1 : (F32.roundToInteger num den + 1 : Int) * den ≤ z * den :=
    mul_le_mul_of_nonneg_right (by exact_mod_cast not_le.1 hc) (by positivity)
  have h2 : (z * den : Int) ≤ num := by exact_mod_cast h
  have h3 : (0 : Int) < den := by exact_mod_cast hd
  rw [abs_of_nonpos (by linarith), abs_of_nonpos (by linarith)] at hn
  linarith

/-- The rounded significand of `roundBits` in its binade, the carry included. -/
theorem F32.rounded_significand (num : Nat) {den : Nat} (hd : 0 < den) :
    (F32.binade num den = 0 ∨ 2 ^ 23 ≤ F32.roundToInteger num (den * 2 ^ F32.binade num den)) ∧
      F32.roundToInteger num (den * 2 ^ F32.binade num den) ≤ 2 ^ 24 := by
  have hd' : 0 < den * 2 ^ F32.binade num den := by positivity
  refine ⟨?_, F32.roundToInteger_le num hd' (F32.lt_binade_top num hd).le⟩
  by_cases hk : F32.binade num den = 0
  · exact .inl hk
  · exact .inr (F32.le_roundToInteger num hd' (F32.binade_bottom_le num hd hk))

/-- What the bits before the overflow stand for. -/
theorem F32.unitsOfBits_unboundedBits (num : Nat) {den : Nat} (hd : 0 < den) :
    F32.unitsOfBits (F32.unboundedBits num den) =
      F32.roundToInteger num (den * 2 ^ F32.binade num den) * 2 ^ F32.binade num den :=
  F32.unitsOfBits_significand (F32.rounded_significand num hd).1 (F32.rounded_significand num hd).2

/-- A magnitude is a multiple of a binade's unit, or lies below the binade. -/
theorem F32.unitsOfBits_multiple_or_below (m k : Nat) :
    (∃ z : Nat, F32.unitsOfBits m = z * 2 ^ k ∧ (z < 2 ^ 24 → m = k * 2 ^ 23 + z ∨ z < 2 ^ 23)) ∨
      (k ≠ 0 ∧ F32.unitsOfBits m < 2 ^ 23 * 2 ^ k) := by
  obtain ⟨j, r, hm, hlo, hhi, hu⟩ := F32.exists_significand m
  rcases Nat.lt_or_ge j k with hjk | hjk
  · right
    refine ⟨by omega, ?_⟩
    rw [hu]
    calc r * 2 ^ j < 2 ^ 24 * 2 ^ j := Nat.mul_lt_mul_of_pos_right hhi (by positivity)
      _ = 2 ^ 23 * 2 ^ (j + 1) := by ring
      _ ≤ 2 ^ 23 * 2 ^ k := Nat.mul_le_mul_left _ (Nat.pow_le_pow_right (by norm_num) hjk)
  · left
    obtain ⟨d, rfl⟩ := Nat.exists_eq_add_of_le hjk
    refine ⟨r * 2 ^ d, by rw [hu]; ring, fun hz => ?_⟩
    rcases Nat.eq_zero_or_pos d with hd | hd
    · subst hd; left; simpa using hm
    · right
      rcases hlo with h | h
      · omega
      · exfalso
        have : 2 ^ 23 * 2 ^ 1 ≤ r * 2 ^ d := Nat.mul_le_mul h (Nat.pow_le_pow_right (by norm_num) hd)
        omega

/-- The rounded value is a nearest one among all magnitudes. -/
theorem F32.unboundedBits_nearest (num : Nat) {den : Nat} (hd : 0 < den) (m : Nat) :
    |(F32.unitsOfBits (F32.unboundedBits num den) * den : Int) - num| ≤ |(F32.unitsOfBits m * den : Int) - num| := by
  set k := F32.binade num den with hk
  have hd' : 0 < den * 2 ^ k := by positivity
  have hz : ∀ z : Nat, |(F32.unitsOfBits (F32.unboundedBits num den) * den : Int) - num| ≤ |((z * 2 ^ k : Nat) * den : Int) - num| := by
    intro z
    have h := F32.roundToInteger_nearest num hd' z
    rw [F32.unitsOfBits_unboundedBits num hd, ← hk]
    push_cast at h ⊢
    convert h using 2 <;> ring
  rcases F32.unitsOfBits_multiple_or_below m k with ⟨z, hu, -⟩ | ⟨hk0, hu⟩
  · rw [hu]; exact hz z
  · refine (hz (2 ^ 23)).trans ?_
    have hb := F32.binade_bottom_le num hd (hk ▸ hk0)
    rw [← hk] at hb
    have h1 : ((2 ^ 23 * 2 ^ k : Nat) * den : Int) ≤ num := by
      have : 2 ^ 23 * 2 ^ k * den ≤ num := by linarith
      exact_mod_cast this
    have h2 : (F32.unitsOfBits m * den : Int) ≤ (2 ^ 23 * 2 ^ k : Nat) * den := by
      exact_mod_cast Nat.mul_le_mul_right den hu.le
    rw [abs_of_nonpos (by linarith), abs_of_nonpos (by linarith)]
    linarith

/-- Where another magnitude is as near, the rounded bits are even. -/
theorem F32.unboundedBits_tie (num : Nat) {den : Nat} (hd : 0 < den) {m : Nat} (hm : m ≠ F32.unboundedBits num den)
    (he : |(F32.unitsOfBits (F32.unboundedBits num den) * den : Int) - num| = |(F32.unitsOfBits m * den : Int) - num|) :
    F32.unboundedBits num den % 2 = 0 := by
  set k := F32.binade num den with hk
  have hd' : 0 < den * 2 ^ k := by positivity
  have hev : F32.roundToInteger num (den * 2 ^ k) % 2 = 0 → F32.unboundedBits num den % 2 = 0 := by
    intro h
    rw [F32.unboundedBits, ← hk]
    omega
  have hne : F32.unitsOfBits m ≠ F32.unitsOfBits (F32.unboundedBits num den) :=
    fun h => hm (F32.unitsOfBits_strictMono.injective h)
  have hub := F32.unitsOfBits_unboundedBits num hd
  rw [← hk] at hub
  rw [hub] at hne
  rcases F32.unitsOfBits_multiple_or_below m k with ⟨z, hu, -⟩ | ⟨hk0, hu⟩
  · apply hev
    refine F32.roundToInteger_tie num hd' (z := z) ?_ ?_
    · rintro h
      apply hne
      rw [hu]
      congr 1
      exact_mod_cast h
    · rw [hub, hu] at he
      push_cast at he ⊢
      convert he using 2 <;> ring
  · exfalso
    have hb := F32.binade_bottom_le num hd (hk ▸ hk0)
    rw [← hk] at hb
    have h0 := F32.unboundedBits_nearest num hd (k * 2 ^ 23 + 2 ^ 23)
    rw [he, F32.unitsOfBits_significand (.inr le_rfl) (by norm_num)] at h0
    have h1 : ((2 ^ 23 * 2 ^ k : Nat) * den : Int) ≤ num := by
      have : 2 ^ 23 * 2 ^ k * den ≤ num := by linarith
      exact_mod_cast this
    have h2 : (F32.unitsOfBits m * den : Int) < (2 ^ 23 * 2 ^ k : Nat) * den := by
      exact_mod_cast Nat.mul_lt_mul_of_pos_right hu hd
    rw [abs_of_nonpos (by linarith), abs_of_nonpos (by linarith)] at h0
    linarith

/-- A quotient not above a magnitude rounds to bits not above its bits. -/
theorem F32.unboundedBits_le {num den m : Nat} (hd : 0 < den) (h : num ≤ F32.unitsOfBits m * den) :
    F32.unboundedBits num den ≤ m := by
  by_contra hc
  have hn := F32.unboundedBits_nearest num hd m
  have h1 : (F32.unitsOfBits m * den : Int) < F32.unitsOfBits (F32.unboundedBits num den) * den := by
    exact_mod_cast Nat.mul_lt_mul_of_pos_right (F32.unitsOfBits_strictMono (not_le.1 hc)) hd
  have h2 : (num : Int) ≤ F32.unitsOfBits m * den := by exact_mod_cast h
  rw [abs_of_nonneg (by linarith), abs_of_nonneg (by linarith)] at hn
  linarith

/-- A quotient not below a magnitude rounds to bits not below its bits. -/
theorem F32.le_unboundedBits {num den m : Nat} (hd : 0 < den) (h : F32.unitsOfBits m * den ≤ num) :
    m ≤ F32.unboundedBits num den := by
  by_contra hc
  have hn := F32.unboundedBits_nearest num hd m
  have h1 : (F32.unitsOfBits (F32.unboundedBits num den) * den : Int) < F32.unitsOfBits m * den := by
    exact_mod_cast Nat.mul_lt_mul_of_pos_right (F32.unitsOfBits_strictMono (not_le.1 hc)) hd
  have h2 : (F32.unitsOfBits m * den : Int) ≤ num := by exact_mod_cast h
  rw [abs_of_nonpos (by linarith), abs_of_nonpos (by linarith)] at hn
  linarith

/-- Rounding does not pass a binary32 value: from below. -/
theorem F32.roundBits_le_of_le {num den m : Nat} (hd : 0 < den) (h : num ≤ F32.unitsOfBits m * den) :
    F32.roundBits num den ≤ m :=
  (Nat.min_le_left _ _).trans (F32.unboundedBits_le hd h)

/-- Rounding does not pass a binary32 value: from above. -/
theorem F32.le_roundBits_of_le {num den m : Nat} (hd : 0 < den) (hm : m ≤ F32.infBits) (h : F32.unitsOfBits m * den ≤ num) :
    m ≤ F32.roundBits num den :=
  Nat.le_min.2 ⟨F32.le_unboundedBits hd h, hm⟩

/-- A value that is a binary32 value rounds to itself. -/
theorem F32.roundBits_exact {num den m : Nat} (hd : 0 < den) (hm : m ≤ F32.infBits) (h : num = F32.unitsOfBits m * den) :
    F32.roundBits num den = m :=
  le_antisymm (F32.roundBits_le_of_le hd h.le) (F32.le_roundBits_of_le hd hm h.ge)

/-- Of two integers the greater is as near only from the midpoint on. -/
theorem F32.midpoint_le {x y n : Int} (hxy : x < y) (h : |y - n| ≤ |x - n|) : x + y ≤ 2 * n := by
  rcases abs_cases (y - n) with ⟨e, _⟩ | ⟨e, _⟩ <;> rcases abs_cases (x - n) with ⟨e', _⟩ | ⟨e', _⟩ <;> omega

/-- Of two integers the lesser is as near only up to the midpoint. -/
theorem F32.le_midpoint {x y n : Int} (hxy : x < y) (h : |x - n| ≤ |y - n|) : 2 * n ≤ x + y := by
  rcases abs_cases (y - n) with ⟨e, _⟩ | ⟨e, _⟩ <;> rcases abs_cases (x - n) with ⟨e', _⟩ | ⟨e', _⟩ <;> omega

/-- At the midpoint two integers are equally near. -/
theorem F32.abs_eq_of_midpoint {x y n : Int} (hxy : x < y) (h : x + y = 2 * n) : |y - n| = |x - n| := by
  rw [abs_of_nonneg (by omega), abs_of_nonpos (by omega)]
  omega

theorem F32.scaled_lt {i j den : Nat} (hd : 0 < den) (h : i < j) :
    (F32.unitsOfBits i * den : Int) < F32.unitsOfBits j * den := by
  exact_mod_cast Nat.mul_lt_mul_of_pos_right (F32.unitsOfBits_strictMono h) hd

theorem F32.scaled_le {i j : Nat} (den : Nat) (h : i ≤ j) :
    (F32.unitsOfBits i * den : Int) ≤ F32.unitsOfBits j * den := by
  exact_mod_cast Nat.mul_le_mul_right den (F32.unitsOfBits_strictMono.monotone h)

/-- When a quotient rounds above the value of bits `y`: past the midpoint to the next value, or on it with `y` odd. -/
theorem F32.lt_unboundedBits_iff {num den : Nat} (hd : 0 < den) (y : Nat) :
    y < F32.unboundedBits num den ↔
      ((F32.unitsOfBits y + F32.unitsOfBits (y + 1)) * den < 2 * num ∨
        ((F32.unitsOfBits y + F32.unitsOfBits (y + 1)) * den = 2 * num ∧ y % 2 = 1)) := by
  constructor
  · intro h
    have h1 := F32.midpoint_le (F32.scaled_lt hd h) (F32.unboundedBits_nearest num hd y)
    have h2 := F32.scaled_le den (Nat.succ_le_of_lt h)
    have h3 : ((F32.unitsOfBits y + F32.unitsOfBits (y + 1)) * den : Int) ≤ 2 * num := by
      rw [Nat.succ_eq_add_one] at h2
      linarith
    have h4 : (F32.unitsOfBits y + F32.unitsOfBits (y + 1)) * den ≤ 2 * num := by exact_mod_cast h3
    rcases Nat.lt_or_eq_of_le h4 with h5 | h5
    · exact .inl h5
    · right
      refine ⟨h5, ?_⟩
      have h6 : ((F32.unitsOfBits y + F32.unitsOfBits (y + 1)) * den : Int) = 2 * num := by exact_mod_cast h5
      have hB : F32.unboundedBits num den = y + 1 := by
        by_contra hne
        have h7 := F32.scaled_lt hd (show y + 1 < F32.unboundedBits num den by omega)
        linarith
      have ht := F32.unboundedBits_tie num hd (m := y) (by omega) (by
        rw [hB]
        exact F32.abs_eq_of_midpoint (F32.scaled_lt hd (Nat.lt_succ_self y)) (by linarith))
      omega
  · intro h
    by_contra hc
    have hle : F32.unboundedBits num den ≤ y := not_lt.1 hc
    have h1 := F32.le_midpoint (F32.scaled_lt hd (show F32.unboundedBits num den < y + 1 by omega))
      (F32.unboundedBits_nearest num hd (y + 1))
    have h2 := F32.scaled_le den hle
    rcases h with h | ⟨h, hodd⟩
    · have : ((F32.unitsOfBits y + F32.unitsOfBits (y + 1)) * den : Int) < 2 * num := by exact_mod_cast h
      linarith
    · have h6 : ((F32.unitsOfBits y + F32.unitsOfBits (y + 1)) * den : Int) = 2 * num := by exact_mod_cast h
      have hB : F32.unboundedBits num den = y := by
        by_contra hne
        have h7 := F32.scaled_lt hd (show F32.unboundedBits num den < y by omega)
        linarith
      have ht := F32.unboundedBits_tie num hd (m := y + 1) (by omega) (by
        rw [hB]
        exact (F32.abs_eq_of_midpoint (F32.scaled_lt hd (Nat.lt_succ_self y)) (by linarith)).symm)
      omega

theorem F32.unboundedBits_mono {a b c d : Nat} (hb : 0 < b) (hd : 0 < d) (h : a * d ≤ c * b) :
    F32.unboundedBits a b ≤ F32.unboundedBits c d := by
  by_contra hc
  have h1 := (F32.lt_unboundedBits_iff hb (F32.unboundedBits c d)).1 (not_le.1 hc)
  have h2 := mt (F32.lt_unboundedBits_iff hd (F32.unboundedBits c d)).2 (lt_irrefl _)
  generalize F32.unboundedBits c d = y at h1 h2
  generalize F32.unitsOfBits y + F32.unitsOfBits (y + 1) = s at h1 h2
  apply h2
  rcases h1 with h1 | ⟨h1, hodd⟩
  · left
    have e1 : s * b * d < 2 * a * d := Nat.mul_lt_mul_of_pos_right h1 hd
    have e2 : s * d * b < 2 * c * b := by nlinarith
    exact Nat.lt_of_mul_lt_mul_right e2
  · have e1 : s * b * d = 2 * a * d := by rw [h1]
    have e2 : s * d * b ≤ 2 * c * b := by nlinarith
    rcases Nat.lt_or_eq_of_le (Nat.le_of_mul_le_mul_right e2 hb) with h3 | h3
    · exact .inl h3
    · exact .inr ⟨h3, hodd⟩

/-- Rounding is monotone. -/
theorem F32.roundBits_mono {a b c d : Nat} (hb : 0 < b) (hd : 0 < d) (h : a * d ≤ c * b) :
    F32.roundBits a b ≤ F32.roundBits c d := by
  have := F32.unboundedBits_mono hb hd h
  rw [F32.roundBits_eq_min, F32.roundBits_eq_min]
  omega

end Sys2Proof
end

