-- ==== Sys2Proof/Laws/FloatOps.lean ====
section
/-! SUPPORT. What the word-level binary32 operations give on finite words, in units of `2^-149`: comparisons, integers as binary32,
and bounds of a sum. -/

namespace Sys2Proof

/-! ### Finite words and their values -/

theorem F32.isFinite_iff (w : Word) : F32.isFinite w = true ↔ F32.magBits w < F32.infBits := by
  simp [F32.isFinite]

theorem F32.not_isNaN_of_finite {w : Word} (h : F32.isFinite w = true) : F32.isNaN w = false := by
  rw [F32.isFinite_iff] at h
  simp [F32.isNaN]; omega

theorem F32.not_isInf_of_finite {w : Word} (h : F32.isFinite w = true) : F32.isInf w = false := by
  rw [F32.isFinite_iff] at h
  simp [F32.isInf]; omega

theorem F32.infBits_lt : F32.infBits < 2 ^ 31 := by norm_num [F32.infBits]

theorem F32.isFinite_ofBits (neg : Bool) {m : Nat} (h : m < F32.infBits) : F32.isFinite (F32.ofBits neg m) = true := by
  rw [F32.isFinite_iff, F32.magBits_ofBits neg (h.trans F32.infBits_lt)]; exact h

theorem F32.units_ofBits (neg : Bool) {m : Nat} (h : m < 2 ^ 31) :
    F32.units (F32.ofBits neg m) = if neg then -(F32.unitsOfBits m : Int) else F32.unitsOfBits m := by
  rw [F32.units, F32.isNeg_ofBits neg h, F32.magnitude, F32.magBits_ofBits neg h]

theorem F32.units_of_neg {w : Word} (h : F32.isNeg w = true) : F32.units w = -(F32.unitsOfBits (F32.magBits w) : Int) := by
  rw [F32.units, if_pos h, F32.magnitude]

theorem F32.units_of_pos {w : Word} (h : F32.isNeg w = false) : F32.units w = F32.unitsOfBits (F32.magBits w) := by
  rw [F32.units, if_neg (by simp [h]), F32.magnitude]

theorem F32.natAbs_units (w : Word) : (F32.units w).natAbs = F32.magnitude w := by
  unfold F32.units
  split <;> simp

theorem F32.units_eq_zero_iff (w : Word) : F32.units w = 0 ↔ F32.magBits w = 0 := by
  rw [← Int.natAbs_eq_zero, F32.natAbs_units, F32.magnitude]
  constructor
  · intro h
    exact F32.unitsOfBits_strictMono.injective (h.trans F32.unitsOfBits_zero.symm)
  · intro h
    rw [h, F32.unitsOfBits_zero]

/-- The order key orders as the values do. -/
theorem F32.key_lt_iff (a b : Word) : F32.key a < F32.key b ↔ F32.units a < F32.units b := by
  have hm := fun i j : Nat => F32.unitsOfBits_strictMono.lt_iff_lt (a := i) (b := j)
  have hz : ∀ m : Nat, (0 : Int) ≤ F32.unitsOfBits m := fun m => Int.natCast_nonneg _
  have hp : ∀ m : Nat, 0 < m ↔ 0 < F32.unitsOfBits m := by
    intro m
    have := hm 0 m
    rw [F32.unitsOfBits_zero] at this
    exact this.symm
  have h1 := hm (F32.magBits a) (F32.magBits b)
  have h2 := hm (F32.magBits b) (F32.magBits a)
  have h3 := hp (F32.magBits a)
  have h4 := hp (F32.magBits b)
  unfold F32.key F32.units F32.magnitude
  split <;> split <;> constructor <;> intro h <;> omega

theorem F32.key_le_iff (a b : Word) : F32.key a ≤ F32.key b ↔ F32.units a ≤ F32.units b := by
  rw [← not_lt, F32.key_lt_iff, not_lt]

theorem F32.lt_iff {a b : Word} (ha : F32.isFinite a = true) (hb : F32.isFinite b = true) :
    F32.lt a b = true ↔ F32.units a < F32.units b := by
  simp [F32.lt, F32.not_isNaN_of_finite ha, F32.not_isNaN_of_finite hb, F32.key_lt_iff]

theorem F32.le_iff {a b : Word} (ha : F32.isFinite a = true) (hb : F32.isFinite b = true) :
    F32.le a b = true ↔ F32.units a ≤ F32.units b := by
  simp [F32.le, F32.not_isNaN_of_finite ha, F32.not_isNaN_of_finite hb, F32.key_le_iff]

theorem F32.eq_iff {a b : Word} (ha : F32.isFinite a = true) (hb : F32.isFinite b = true) :
    F32.eq a b = true ↔ F32.units a = F32.units b := by
  simp only [F32.eq, F32.not_isNaN_of_finite ha, F32.not_isNaN_of_finite hb, Bool.not_false, Bool.true_and, beq_iff_eq]
  have h1 := F32.key_le_iff a b
  have h2 := F32.key_le_iff b a
  constructor <;> intro h <;> apply le_antisymm <;> omega

/-- A finite word that is not below zero is its magnitude bits, unless it is `-0.0`. -/
theorem F32.eq_of_units_eq {a b : Word} (ha : F32.isNeg a = false) (hb : F32.isNeg b = false) (h : F32.units a = F32.units b) :
    a = b := by
  apply F32.ext_bits (by rw [ha, hb])
  simp only [F32.units, ha, hb, Bool.false_eq_true, if_false] at h
  exact F32.unitsOfBits_strictMono.injective (Int.natCast_inj.1 h)

@[simp] theorem F32.isFinite_zero : F32.isFinite F32.zero = true := by decide
@[simp] theorem F32.isNeg_zero : F32.isNeg F32.zero = false := by decide
@[simp] theorem F32.units_zero : F32.units F32.zero = 0 := by decide
@[simp] theorem F32.isFinite_one : F32.isFinite F32.one = true := by decide
@[simp] theorem F32.isNeg_one : F32.isNeg F32.one = false := by decide
theorem F32.units_one : F32.units F32.one = F32.unitsPerOne := by decide +kernel
theorem F32.unitsPerOne_pos : 0 < F32.unitsPerOne := by norm_num [F32.unitsPerOne]

/-! ### The sign bit -/

/-- The magnitude bits are the word with the sign cleared. -/
theorem F32.magBits_eq_and (w : Word) : F32.magBits w = (w &&& 0x7FFFFFFF#32).toNat := by
  rw [F32.magBits, BitVec.toNat_and]
  exact (Nat.and_two_pow_sub_one_eq_mod w.toNat 31).symm

@[simp] theorem F32.magBits_abs (w : Word) : F32.magBits (F32.abs w) = F32.magBits w := by
  rw [F32.magBits_eq_and, F32.magBits_eq_and, F32.abs, BitVec.and_assoc, BitVec.and_self]

@[simp] theorem F32.isNeg_abs (w : Word) : F32.isNeg (F32.abs w) = false := by
  unfold F32.isNeg F32.abs
  rw [BitVec.msb_and, show (0x7FFFFFFF#32).msb = false by decide, Bool.and_false]

@[simp] theorem F32.isFinite_abs (w : Word) : F32.isFinite (F32.abs w) = F32.isFinite w := by
  unfold F32.isFinite
  rw [F32.magBits_abs]

@[simp] theorem F32.isNaN_abs (w : Word) : F32.isNaN (F32.abs w) = F32.isNaN w := by
  unfold F32.isNaN
  rw [F32.magBits_abs]

theorem F32.units_abs (w : Word) : F32.units (F32.abs w) = |F32.units w| := by
  unfold F32.units F32.magnitude
  rw [F32.isNeg_abs, F32.magBits_abs]
  cases F32.isNeg w <;> simp

@[simp] theorem F32.isNeg_neg (w : Word) : F32.isNeg (F32.neg w) = !F32.isNeg w := by
  unfold F32.isNeg F32.neg
  rw [BitVec.msb_xor, show (0x80000000#32).msb = true by decide, Bool.xor_true]

@[simp] theorem F32.magBits_neg (w : Word) : F32.magBits (F32.neg w) = F32.magBits w := by
  have h : (w ^^^ 0x80000000#32) &&& 0x7FFFFFFF#32 = w &&& 0x7FFFFFFF#32 := by
    apply BitVec.eq_of_getElem_eq
    intro i hi
    interval_cases i <;> simp
  rw [F32.magBits_eq_and, F32.magBits_eq_and, F32.neg, h]

@[simp] theorem F32.isFinite_neg (w : Word) : F32.isFinite (F32.neg w) = F32.isFinite w := by
  unfold F32.isFinite
  rw [F32.magBits_neg]

@[simp] theorem F32.isNaN_neg (w : Word) : F32.isNaN (F32.neg w) = F32.isNaN w := by
  unfold F32.isNaN
  rw [F32.magBits_neg]

@[simp] theorem F32.units_neg (w : Word) : F32.units (F32.neg w) = -F32.units w := by
  unfold F32.units F32.magnitude
  rw [F32.isNeg_neg, F32.magBits_neg]
  cases F32.isNeg w <;> simp

/-! ### Integers as binary32 -/

/-- Up to `2^24` an integer is a binary32 value. -/
theorem F32.exists_bits_of_integer {k : Nat} (h : k ≤ 2 ^ 24) :
    ∃ m, m < F32.infBits ∧ F32.unitsOfBits m = k * F32.unitsPerOne := by
  rcases Nat.eq_zero_or_pos k with rfl | hk
  · exact ⟨0, by norm_num [F32.infBits], by simp⟩
  · have hl : 2 ^ k.log2 ≤ k := Nat.log2_self_le hk.ne'
    have hu : k < 2 ^ (k.log2 + 1) := Nat.lt_log2_self
    have hj : k.log2 ≤ 24 := by
      by_contra hc
      have := Nat.pow_le_pow_right (n := 2) (by norm_num) (show 25 ≤ k.log2 by omega)
      omega
    rcases Nat.eq_or_lt_of_le hj with hj | hj
    · have : k = 2 ^ 24 := by rw [hj] at hl; omega
      subst this
      refine ⟨150 * 2 ^ 23 + 2 ^ 23, by norm_num [F32.infBits], ?_⟩
      rw [F32.unitsOfBits_significand (by omega) (by norm_num)]
      norm_num [F32.unitsPerOne]
    · have he : 2 ^ k.log2 * 2 ^ (23 - k.log2) = 2 ^ 23 := by rw [← pow_add]; congr 1; omega
      have he' : 2 ^ (k.log2 + 1) * 2 ^ (23 - k.log2) = 2 ^ 24 := by rw [← pow_add]; congr 1; omega
      have hlo : 2 ^ 23 ≤ k * 2 ^ (23 - k.log2) := he ▸ Nat.mul_le_mul_right _ hl
      have hhi : k * 2 ^ (23 - k.log2) ≤ 2 ^ 24 := he' ▸ Nat.mul_le_mul_right _ hu.le
      refine ⟨(126 + k.log2) * 2 ^ 23 + k * 2 ^ (23 - k.log2), by norm_num [F32.infBits]; omega, ?_⟩
      rw [F32.unitsOfBits_significand (.inr hlo) hhi, F32.unitsPerOne, mul_assoc, ← pow_add]
      congr 2
      omega

/-- `f32(k) = k` for an integer up to `2^24` (rule R13). -/
theorem F32.ofInteger_spec {k : Nat} (h : k ≤ 2 ^ 24) :
    F32.isFinite (F32.ofInteger k) = true ∧ F32.isNeg (F32.ofInteger k) = false ∧
      F32.units (F32.ofInteger k) = (k * F32.unitsPerOne : Nat) := by
  obtain ⟨m, hm, hu⟩ := F32.exists_bits_of_integer h
  have hr : F32.roundBits (k * F32.unitsPerOne) 1 = m := F32.roundBits_exact Nat.one_pos hm.le (by rw [hu, mul_one])
  rw [F32.ofInteger, if_pos h, F32.round, hr]
  refine ⟨F32.isFinite_ofBits _ hm, F32.isNeg_ofBits _ (hm.trans F32.infBits_lt), ?_⟩
  rw [F32.units_ofBits _ (hm.trans F32.infBits_lt), hu]
  rfl

theorem F32.isFinite_ofInteger {k : Nat} (h : k ≤ 2 ^ 24) : F32.isFinite (F32.ofInteger k) = true :=
  (F32.ofInteger_spec h).1

theorem F32.units_ofInteger {k : Nat} (h : k ≤ 2 ^ 24) : F32.units (F32.ofInteger k) = (k * F32.unitsPerOne : Nat) :=
  (F32.ofInteger_spec h).2.2

/-! ### One rounding -/

/-- A rounded value lies between the binary32 values that the exact one lies between. -/
theorem F32.round_between {num den lo hi : Nat} (neg : Bool) (hd : 0 < den) (hhi : hi < F32.infBits)
    (h1 : F32.unitsOfBits lo * den ≤ num) (h2 : num ≤ F32.unitsOfBits hi * den) :
    F32.isFinite (F32.round neg num den) = true ∧ F32.isNeg (F32.round neg num den) = neg ∧
      F32.unitsOfBits lo ≤ F32.magnitude (F32.round neg num den) ∧ F32.magnitude (F32.round neg num den) ≤ F32.unitsOfBits hi := by
  have hr := F32.roundBits_le_of_le hd h2
  have hl : lo ≤ F32.infBits := by
    by_contra hc
    have := F32.unitsOfBits_strictMono (show hi < lo by omega)
    have := Nat.mul_lt_mul_of_pos_right this hd
    omega
  have hr' := F32.le_roundBits_of_le hd hl h1
  have hlt := F32.roundBits_lt num den
  unfold F32.round
  refine ⟨F32.isFinite_ofBits _ (by omega), F32.isNeg_ofBits _ hlt, ?_, ?_⟩
  · rw [F32.magnitude, F32.magBits_ofBits _ hlt]; exact F32.unitsOfBits_strictMono.monotone hr'
  · rw [F32.magnitude, F32.magBits_ofBits _ hlt]; exact F32.unitsOfBits_strictMono.monotone hr

/-- A signed integer of units, rounded, lies between the finite words that it lies between. -/
theorem F32.round_int_between {x : Int} {lo hi : Word} (hx : x ≠ 0) (hlo : F32.isFinite lo = true) (hhi : F32.isFinite hi = true)
    (h1 : F32.units lo ≤ x) (h2 : x ≤ F32.units hi) :
    F32.isFinite (F32.round (decide (x < 0)) x.natAbs 1) = true ∧ F32.units lo ≤ F32.units (F32.round (decide (x < 0)) x.natAbs 1) ∧
      F32.units (F32.round (decide (x < 0)) x.natAbs 1) ≤ F32.units hi := by
  have hl := (F32.isFinite_iff lo).1 hlo
  have hh := (F32.isFinite_iff hi).1 hhi
  rcases lt_or_gt_of_ne hx with hneg | hpos
  · have hln : F32.isNeg lo = true := by
      by_contra hc
      rw [F32.units_of_pos (by simpa using hc)] at h1
      omega
    rw [F32.units_of_neg hln] at h1 ⊢
    have hlow : ∃ k, (F32.unitsOfBits k : Int) ≤ -x ∧ (-(F32.unitsOfBits k : Int) ≤ F32.units hi) := by
      by_cases hn : F32.isNeg hi = true
      · rw [F32.units_of_neg hn] at h2 ⊢
        exact ⟨F32.magBits hi, by omega, le_refl _⟩
      · rw [F32.units_of_pos (by simpa using hn)] at h2 ⊢
        exact ⟨0, by rw [F32.unitsOfBits_zero]; omega, by rw [F32.unitsOfBits_zero]; omega⟩
    obtain ⟨k, hk1, hk2⟩ := hlow
    obtain ⟨f1, f2, f3, f4⟩ := F32.round_between (num := x.natAbs) (lo := k) (hi := F32.magBits lo)
      (decide (x < 0)) Nat.one_pos hl (by omega) (by omega)
    refine ⟨f1, ?_⟩
    rw [F32.units_of_neg (by rw [f2]; simpa using hneg)]
    rw [F32.magnitude] at f3 f4
    omega
  · have hhn : F32.isNeg hi = false := by
      by_contra hc
      rw [F32.units_of_neg (by simpa using hc)] at h2
      omega
    rw [F32.units_of_pos hhn] at h2 ⊢
    have hlow : ∃ k, (F32.unitsOfBits k : Int) ≤ x ∧ F32.units lo ≤ F32.unitsOfBits k := by
      by_cases hn : F32.isNeg lo = true
      · rw [F32.units_of_neg hn] at h1 ⊢
        exact ⟨0, by rw [F32.unitsOfBits_zero]; omega, by rw [F32.unitsOfBits_zero]; omega⟩
      · rw [F32.units_of_pos (by simpa using hn)] at h1 ⊢
        exact ⟨F32.magBits lo, h1, le_refl _⟩
    obtain ⟨k, hk1, hk2⟩ := hlow
    obtain ⟨f1, f2, f3, f4⟩ := F32.round_between (num := x.natAbs) (lo := k) (hi := F32.magBits hi)
      (decide (x < 0)) Nat.one_pos hh (by omega) (by omega)
    refine ⟨f1, ?_⟩
    rw [F32.units_of_pos (w := F32.round _ _ _) (by rw [f2]; simpa using hpos.le)]
    rw [F32.magnitude] at f3 f4
    omega

/-- A sum of two finite words lies between the finite words that the exact sum lies between. -/
theorem F32.addFinite_between {a b lo hi : Word} (hlo : F32.isFinite lo = true) (hhi : F32.isFinite hi = true)
    (h1 : F32.units lo ≤ F32.units a + F32.units b) (h2 : F32.units a + F32.units b ≤ F32.units hi) :
    F32.isFinite (F32.addFinite a b) = true ∧ F32.units lo ≤ F32.units (F32.addFinite a b) ∧
      F32.units (F32.addFinite a b) ≤ F32.units hi := by
  unfold F32.addFinite
  split
  · rename_i h0
    rw [h0] at h1 h2
    refine ⟨F32.isFinite_ofBits _ (by norm_num [F32.infBits]), ?_⟩
    rw [F32.units_ofBits _ (by norm_num), F32.unitsOfBits_zero]
    simpa using ⟨h1, h2⟩
  · exact F32.round_int_between ‹_› hlo hhi h1 h2

theorem F32.add_of_finite (nan : Word) {a b : Word} (ha : F32.isFinite a = true) (hb : F32.isFinite b = true) :
    F32.add nan a b = F32.addFinite a b := by
  simp [F32.add, F32.not_isNaN_of_finite ha, F32.not_isNaN_of_finite hb, F32.not_isInf_of_finite ha, F32.not_isInf_of_finite hb]

theorem F32.sub_of_finite (nan : Word) {a b : Word} (ha : F32.isFinite a = true) (hb : F32.isFinite b = true) :
    F32.sub nan a b = F32.addFinite a (F32.neg b) :=
  F32.add_of_finite nan ha (by rw [F32.isFinite_neg]; exact hb)

/-- A sum that is a binary32 value is exact. -/
theorem F32.units_addFinite_exact {a b v : Word} (hv : F32.isFinite v = true) (h : F32.units a + F32.units b = F32.units v) :
    F32.isFinite (F32.addFinite a b) = true ∧ F32.units (F32.addFinite a b) = F32.units v :=
  have := F32.addFinite_between hv hv h.ge h.le
  ⟨this.1, le_antisymm this.2.2 this.2.1⟩

/-! ### `wrapN` and `snapTop` -/

/-- `f32` of a remainder below `n`, with `n` snapped to zero, lies in `[0, n)`. -/
theorem Machine.snapTop_round_range {n r : Nat} (hn : n ≤ 2 ^ 24) (h0 : 0 < n) (hr : r < n * F32.unitsPerOne) :
    F32.isFinite (Machine.snapTop n (F32.round false r 1)) = true ∧ F32.isNeg (Machine.snapTop n (F32.round false r 1)) = false ∧
      F32.units (Machine.snapTop n (F32.round false r 1)) < (n * F32.unitsPerOne : Nat) := by
  obtain ⟨m, hm, hu⟩ := F32.exists_bits_of_integer hn
  obtain ⟨f1, f2, -, f4⟩ := F32.round_between (num := r) (lo := 0) (hi := m) false Nat.one_pos hm (by simp) (by rw [hu]; omega)
  unfold Machine.snapTop
  split
  · refine ⟨by decide, by decide, ?_⟩
    have := Nat.mul_pos h0 F32.unitsPerOne_pos
    rw [F32.units_zero]
    exact_mod_cast this
  · rename_i he
    rw [F32.eq_iff f1 (F32.isFinite_ofInteger hn), F32.units_ofInteger hn] at he
    refine ⟨f1, f2, ?_⟩
    rw [F32.units_of_pos f2] at he ⊢
    rw [F32.magnitude] at f4
    omega

/-- `wrapN` of a finite position lies in `[0, N)` (rule R73). -/
theorem Machine.wrapN_range {n : Nat} (hn : n ≤ 2 ^ 24) (h0 : 0 < n) {x : Word} (hx : F32.isFinite x = true) :
    F32.isFinite (Machine.wrapN n x) = true ∧ F32.isNeg (Machine.wrapN n x) = false ∧
      F32.units (Machine.wrapN n x) < (n * F32.unitsPerOne : Nat) := by
  rw [Machine.wrapN, if_pos hx]
  apply Machine.snapTop_round_range hn h0
  have hp : (0 : Int) < (n * F32.unitsPerOne : Nat) := by exact_mod_cast Nat.mul_pos h0 F32.unitsPerOne_pos
  have := Int.emod_lt_of_pos (F32.units x) hp
  have := Int.emod_nonneg (F32.units x) hp.ne'
  omega

end Sys2Proof
end

