-- ==== Sys2Proof/Laws/State.lean ====
section
/-! SUPPORT. What each basic update of the state leaves: one lemma for each field and update, so that no later proof unfolds a
record update; then what the fields it writes hold. -/

namespace Sys2Proof.Machine

variable (s : State)

/-! ### `storeWrite` -/

@[simp] theorem State.storeWrite_cfg (c : Channel) (i : Nat) (w : Word) : (s.storeWrite c i w).cfg = s.cfg := rfl
@[simp] theorem State.storeWrite_host (c : Channel) (i : Nat) (w : Word) : (s.storeWrite c i w).host = s.host := rfl
@[simp] theorem State.storeWrite_arg0 (c : Channel) (i : Nat) (w : Word) : (s.storeWrite c i w).arg0 = s.arg0 := rfl
@[simp] theorem State.storeWrite_arg1 (c : Channel) (i : Nat) (w : Word) : (s.storeWrite c i w).arg1 = s.arg1 := rfl
@[simp] theorem State.storeWrite_arg2 (c : Channel) (i : Nat) (w : Word) : (s.storeWrite c i w).arg2 = s.arg2 := rfl
@[simp] theorem State.storeWrite_res0 (c : Channel) (i : Nat) (w : Word) : (s.storeWrite c i w).res0 = s.res0 := rfl
@[simp] theorem State.storeWrite_res1 (c : Channel) (i : Nat) (w : Word) : (s.storeWrite c i w).res1 = s.res1 := rfl
@[simp] theorem State.storeWrite_speedRaw (c : Channel) (i : Nat) (w : Word) : (s.storeWrite c i w).speedRaw = s.speedRaw := rfl
@[simp] theorem State.storeWrite_startX (c : Channel) (i : Nat) (w : Word) : (s.storeWrite c i w).startX = s.startX := rfl
@[simp] theorem State.storeWrite_lengthX (c : Channel) (i : Nat) (w : Word) : (s.storeWrite c i w).lengthX = s.lengthX := rfl
@[simp] theorem State.storeWrite_recX (c : Channel) (i : Nat) (w : Word) : (s.storeWrite c i w).recX = s.recX := rfl
@[simp] theorem State.storeWrite_sosX (c : Channel) (i : Nat) (w : Word) : (s.storeWrite c i w).sosX = s.sosX := rfl
@[simp] theorem State.storeWrite_filterX (c : Channel) (i : Nat) (w : Word) : (s.storeWrite c i w).filterX = s.filterX := rfl
@[simp] theorem State.storeWrite_spd (c : Channel) (i : Nat) (w : Word) : (s.storeWrite c i w).spd = s.spd := rfl
@[simp] theorem State.storeWrite_vol (c : Channel) (i : Nat) (w : Word) : (s.storeWrite c i w).vol = s.vol := rfl
@[simp] theorem State.storeWrite_sosL (c : Channel) (i : Nat) (w : Word) : (s.storeWrite c i w).sosL = s.sosL := rfl
@[simp] theorem State.storeWrite_filterL (c : Channel) (i : Nat) (w : Word) : (s.storeWrite c i w).filterL = s.filterL := rfl
@[simp] theorem State.storeWrite_start (c : Channel) (i : Nat) (w : Word) : (s.storeWrite c i w).start = s.start := rfl
@[simp] theorem State.storeWrite_length (c : Channel) (i : Nat) (w : Word) : (s.storeWrite c i w).length = s.length := rfl
@[simp] theorem State.storeWrite_phase (c : Channel) (i : Nat) (w : Word) : (s.storeWrite c i w).phase = s.phase := rfl
@[simp] theorem State.storeWrite_nstart (c : Channel) (i : Nat) (w : Word) : (s.storeWrite c i w).nstart = s.nstart := rfl
@[simp] theorem State.storeWrite_nlength (c : Channel) (i : Nat) (w : Word) : (s.storeWrite c i w).nlength = s.nlength := rfl
@[simp] theorem State.storeWrite_nphase (c : Channel) (i : Nat) (w : Word) : (s.storeWrite c i w).nphase = s.nphase := rfl
@[simp] theorem State.storeWrite_xfKind (c : Channel) (i : Nat) (w : Word) : (s.storeWrite c i w).xfKind = s.xfKind := rfl
@[simp] theorem State.storeWrite_xfProg (c : Channel) (i : Nat) (w : Word) : (s.storeWrite c i w).xfProg = s.xfProg := rfl
@[simp] theorem State.storeWrite_xfWin (c : Channel) (i : Nat) (w : Word) : (s.storeWrite c i w).xfWin = s.xfWin := rfl
@[simp] theorem State.storeWrite_xo (c : Channel) (i : Nat) (w : Word) : (s.storeWrite c i w).xo = s.xo := rfl
@[simp] theorem State.storeWrite_wp (c : Channel) (i : Nat) (w : Word) : (s.storeWrite c i w).wp = s.wp := rfl
@[simp] theorem State.storeWrite_headL (c : Channel) (i : Nat) (w : Word) : (s.storeWrite c i w).headL = s.headL := rfl
@[simp] theorem State.storeWrite_headR (c : Channel) (i : Nat) (w : Word) : (s.storeWrite c i w).headR = s.headR := rfl
@[simp] theorem State.storeWrite_clrBusy (c : Channel) (i : Nat) (w : Word) : (s.storeWrite c i w).clrBusy = s.clrBusy := rfl
@[simp] theorem State.storeWrite_clrPtr (c : Channel) (i : Nat) (w : Word) : (s.storeWrite c i w).clrPtr = s.clrPtr := rfl
@[simp] theorem State.storeWrite_clkPrev (c : Channel) (i : Nat) (w : Word) : (s.storeWrite c i w).clkPrev = s.clkPrev := rfl
@[simp] theorem State.storeWrite_clkAge (c : Channel) (i : Nat) (w : Word) : (s.storeWrite c i w).clkAge = s.clkAge := rfl
@[simp] theorem State.storeWrite_synced (c : Channel) (i : Nat) (w : Word) : (s.storeWrite c i w).synced = s.synced := rfl
@[simp] theorem State.storeWrite_trigPend (c : Channel) (i : Nat) (w : Word) : (s.storeWrite c i w).trigPend = s.trigPend := rfl
@[simp] theorem State.storeWrite_errIllegal (c : Channel) (i : Nat) (w : Word) : (s.storeWrite c i w).errIllegal = s.errIllegal := rfl
@[simp] theorem State.storeWrite_errNonfinite (c : Channel) (i : Nat) (w : Word) : (s.storeWrite c i w).errNonfinite = s.errNonfinite := rfl
@[simp] theorem State.storeWrite_errBusy (c : Channel) (i : Nat) (w : Word) : (s.storeWrite c i w).errBusy = s.errBusy := rfl
@[simp] theorem State.storeWrite_draws (c : Channel) (i : Nat) (w : Word) : (s.storeWrite c i w).draws = s.draws := rfl
@[simp] theorem State.storeWrite_errLog (c : Channel) (i : Nat) (w : Word) : (s.storeWrite c i w).errLog = s.errLog := rfl

/-! ### `storeClear` -/

@[simp] theorem State.storeClear_cfg (lo hi : Nat) : (s.storeClear lo hi).cfg = s.cfg := rfl
@[simp] theorem State.storeClear_host (lo hi : Nat) : (s.storeClear lo hi).host = s.host := rfl
@[simp] theorem State.storeClear_arg0 (lo hi : Nat) : (s.storeClear lo hi).arg0 = s.arg0 := rfl
@[simp] theorem State.storeClear_arg1 (lo hi : Nat) : (s.storeClear lo hi).arg1 = s.arg1 := rfl
@[simp] theorem State.storeClear_arg2 (lo hi : Nat) : (s.storeClear lo hi).arg2 = s.arg2 := rfl
@[simp] theorem State.storeClear_res0 (lo hi : Nat) : (s.storeClear lo hi).res0 = s.res0 := rfl
@[simp] theorem State.storeClear_res1 (lo hi : Nat) : (s.storeClear lo hi).res1 = s.res1 := rfl
@[simp] theorem State.storeClear_speedRaw (lo hi : Nat) : (s.storeClear lo hi).speedRaw = s.speedRaw := rfl
@[simp] theorem State.storeClear_startX (lo hi : Nat) : (s.storeClear lo hi).startX = s.startX := rfl
@[simp] theorem State.storeClear_lengthX (lo hi : Nat) : (s.storeClear lo hi).lengthX = s.lengthX := rfl
@[simp] theorem State.storeClear_recX (lo hi : Nat) : (s.storeClear lo hi).recX = s.recX := rfl
@[simp] theorem State.storeClear_sosX (lo hi : Nat) : (s.storeClear lo hi).sosX = s.sosX := rfl
@[simp] theorem State.storeClear_filterX (lo hi : Nat) : (s.storeClear lo hi).filterX = s.filterX := rfl
@[simp] theorem State.storeClear_spd (lo hi : Nat) : (s.storeClear lo hi).spd = s.spd := rfl
@[simp] theorem State.storeClear_vol (lo hi : Nat) : (s.storeClear lo hi).vol = s.vol := rfl
@[simp] theorem State.storeClear_sosL (lo hi : Nat) : (s.storeClear lo hi).sosL = s.sosL := rfl
@[simp] theorem State.storeClear_filterL (lo hi : Nat) : (s.storeClear lo hi).filterL = s.filterL := rfl
@[simp] theorem State.storeClear_start (lo hi : Nat) : (s.storeClear lo hi).start = s.start := rfl
@[simp] theorem State.storeClear_length (lo hi : Nat) : (s.storeClear lo hi).length = s.length := rfl
@[simp] theorem State.storeClear_phase (lo hi : Nat) : (s.storeClear lo hi).phase = s.phase := rfl
@[simp] theorem State.storeClear_nstart (lo hi : Nat) : (s.storeClear lo hi).nstart = s.nstart := rfl
@[simp] theorem State.storeClear_nlength (lo hi : Nat) : (s.storeClear lo hi).nlength = s.nlength := rfl
@[simp] theorem State.storeClear_nphase (lo hi : Nat) : (s.storeClear lo hi).nphase = s.nphase := rfl
@[simp] theorem State.storeClear_xfKind (lo hi : Nat) : (s.storeClear lo hi).xfKind = s.xfKind := rfl
@[simp] theorem State.storeClear_xfProg (lo hi : Nat) : (s.storeClear lo hi).xfProg = s.xfProg := rfl
@[simp] theorem State.storeClear_xfWin (lo hi : Nat) : (s.storeClear lo hi).xfWin = s.xfWin := rfl
@[simp] theorem State.storeClear_xo (lo hi : Nat) : (s.storeClear lo hi).xo = s.xo := rfl
@[simp] theorem State.storeClear_wp (lo hi : Nat) : (s.storeClear lo hi).wp = s.wp := rfl
@[simp] theorem State.storeClear_headL (lo hi : Nat) : (s.storeClear lo hi).headL = s.headL := rfl
@[simp] theorem State.storeClear_headR (lo hi : Nat) : (s.storeClear lo hi).headR = s.headR := rfl
@[simp] theorem State.storeClear_clrBusy (lo hi : Nat) : (s.storeClear lo hi).clrBusy = s.clrBusy := rfl
@[simp] theorem State.storeClear_clrPtr (lo hi : Nat) : (s.storeClear lo hi).clrPtr = s.clrPtr := rfl
@[simp] theorem State.storeClear_clkPrev (lo hi : Nat) : (s.storeClear lo hi).clkPrev = s.clkPrev := rfl
@[simp] theorem State.storeClear_clkAge (lo hi : Nat) : (s.storeClear lo hi).clkAge = s.clkAge := rfl
@[simp] theorem State.storeClear_synced (lo hi : Nat) : (s.storeClear lo hi).synced = s.synced := rfl
@[simp] theorem State.storeClear_trigPend (lo hi : Nat) : (s.storeClear lo hi).trigPend = s.trigPend := rfl
@[simp] theorem State.storeClear_errIllegal (lo hi : Nat) : (s.storeClear lo hi).errIllegal = s.errIllegal := rfl
@[simp] theorem State.storeClear_errNonfinite (lo hi : Nat) : (s.storeClear lo hi).errNonfinite = s.errNonfinite := rfl
@[simp] theorem State.storeClear_errBusy (lo hi : Nat) : (s.storeClear lo hi).errBusy = s.errBusy := rfl
@[simp] theorem State.storeClear_draws (lo hi : Nat) : (s.storeClear lo hi).draws = s.draws := rfl
@[simp] theorem State.storeClear_errLog (lo hi : Nat) : (s.storeClear lo hi).errLog = s.errLog := rfl

/-! ### `setHead` -/

@[simp] theorem State.setHead_cfg (c : Channel) (h : Head) : (s.setHead c h).cfg = s.cfg := by cases c <;> rfl
@[simp] theorem State.setHead_host (c : Channel) (h : Head) : (s.setHead c h).host = s.host := by cases c <;> rfl
@[simp] theorem State.setHead_arg0 (c : Channel) (h : Head) : (s.setHead c h).arg0 = s.arg0 := by cases c <;> rfl
@[simp] theorem State.setHead_arg1 (c : Channel) (h : Head) : (s.setHead c h).arg1 = s.arg1 := by cases c <;> rfl
@[simp] theorem State.setHead_arg2 (c : Channel) (h : Head) : (s.setHead c h).arg2 = s.arg2 := by cases c <;> rfl
@[simp] theorem State.setHead_res0 (c : Channel) (h : Head) : (s.setHead c h).res0 = s.res0 := by cases c <;> rfl
@[simp] theorem State.setHead_res1 (c : Channel) (h : Head) : (s.setHead c h).res1 = s.res1 := by cases c <;> rfl
@[simp] theorem State.setHead_speedRaw (c : Channel) (h : Head) : (s.setHead c h).speedRaw = s.speedRaw := by cases c <;> rfl
@[simp] theorem State.setHead_startX (c : Channel) (h : Head) : (s.setHead c h).startX = s.startX := by cases c <;> rfl
@[simp] theorem State.setHead_lengthX (c : Channel) (h : Head) : (s.setHead c h).lengthX = s.lengthX := by cases c <;> rfl
@[simp] theorem State.setHead_recX (c : Channel) (h : Head) : (s.setHead c h).recX = s.recX := by cases c <;> rfl
@[simp] theorem State.setHead_sosX (c : Channel) (h : Head) : (s.setHead c h).sosX = s.sosX := by cases c <;> rfl
@[simp] theorem State.setHead_filterX (c : Channel) (h : Head) : (s.setHead c h).filterX = s.filterX := by cases c <;> rfl
@[simp] theorem State.setHead_spd (c : Channel) (h : Head) : (s.setHead c h).spd = s.spd := by cases c <;> rfl
@[simp] theorem State.setHead_vol (c : Channel) (h : Head) : (s.setHead c h).vol = s.vol := by cases c <;> rfl
@[simp] theorem State.setHead_sosL (c : Channel) (h : Head) : (s.setHead c h).sosL = s.sosL := by cases c <;> rfl
@[simp] theorem State.setHead_filterL (c : Channel) (h : Head) : (s.setHead c h).filterL = s.filterL := by cases c <;> rfl
@[simp] theorem State.setHead_start (c : Channel) (h : Head) : (s.setHead c h).start = s.start := by cases c <;> rfl
@[simp] theorem State.setHead_length (c : Channel) (h : Head) : (s.setHead c h).length = s.length := by cases c <;> rfl
@[simp] theorem State.setHead_phase (c : Channel) (h : Head) : (s.setHead c h).phase = s.phase := by cases c <;> rfl
@[simp] theorem State.setHead_nstart (c : Channel) (h : Head) : (s.setHead c h).nstart = s.nstart := by cases c <;> rfl
@[simp] theorem State.setHead_nlength (c : Channel) (h : Head) : (s.setHead c h).nlength = s.nlength := by cases c <;> rfl
@[simp] theorem State.setHead_nphase (c : Channel) (h : Head) : (s.setHead c h).nphase = s.nphase := by cases c <;> rfl
@[simp] theorem State.setHead_xfKind (c : Channel) (h : Head) : (s.setHead c h).xfKind = s.xfKind := by cases c <;> rfl
@[simp] theorem State.setHead_xfProg (c : Channel) (h : Head) : (s.setHead c h).xfProg = s.xfProg := by cases c <;> rfl
@[simp] theorem State.setHead_xfWin (c : Channel) (h : Head) : (s.setHead c h).xfWin = s.xfWin := by cases c <;> rfl
@[simp] theorem State.setHead_xo (c : Channel) (h : Head) : (s.setHead c h).xo = s.xo := by cases c <;> rfl
@[simp] theorem State.setHead_wp (c : Channel) (h : Head) : (s.setHead c h).wp = s.wp := by cases c <;> rfl
@[simp] theorem State.setHead_clrBusy (c : Channel) (h : Head) : (s.setHead c h).clrBusy = s.clrBusy := by cases c <;> rfl
@[simp] theorem State.setHead_clrPtr (c : Channel) (h : Head) : (s.setHead c h).clrPtr = s.clrPtr := by cases c <;> rfl
@[simp] theorem State.setHead_clkPrev (c : Channel) (h : Head) : (s.setHead c h).clkPrev = s.clkPrev := by cases c <;> rfl
@[simp] theorem State.setHead_clkAge (c : Channel) (h : Head) : (s.setHead c h).clkAge = s.clkAge := by cases c <;> rfl
@[simp] theorem State.setHead_synced (c : Channel) (h : Head) : (s.setHead c h).synced = s.synced := by cases c <;> rfl
@[simp] theorem State.setHead_trigPend (c : Channel) (h : Head) : (s.setHead c h).trigPend = s.trigPend := by cases c <;> rfl
@[simp] theorem State.setHead_errIllegal (c : Channel) (h : Head) : (s.setHead c h).errIllegal = s.errIllegal := by cases c <;> rfl
@[simp] theorem State.setHead_errNonfinite (c : Channel) (h : Head) : (s.setHead c h).errNonfinite = s.errNonfinite := by cases c <;> rfl
@[simp] theorem State.setHead_errBusy (c : Channel) (h : Head) : (s.setHead c h).errBusy = s.errBusy := by cases c <;> rfl
@[simp] theorem State.setHead_mem (c : Channel) (h : Head) : (s.setHead c h).mem = s.mem := by cases c <;> rfl
@[simp] theorem State.setHead_draws (c : Channel) (h : Head) : (s.setHead c h).draws = s.draws := by cases c <;> rfl
@[simp] theorem State.setHead_errLog (c : Channel) (h : Head) : (s.setHead c h).errLog = s.errLog := by cases c <;> rfl

/-! ### `startHead` -/

@[simp] theorem State.startHead_cfg (c : Channel) : (s.startHead c).cfg = s.cfg := by cases c <;> rfl
@[simp] theorem State.startHead_host (c : Channel) : (s.startHead c).host = s.host := by cases c <;> rfl
@[simp] theorem State.startHead_arg0 (c : Channel) : (s.startHead c).arg0 = s.arg0 := by cases c <;> rfl
@[simp] theorem State.startHead_arg1 (c : Channel) : (s.startHead c).arg1 = s.arg1 := by cases c <;> rfl
@[simp] theorem State.startHead_arg2 (c : Channel) : (s.startHead c).arg2 = s.arg2 := by cases c <;> rfl
@[simp] theorem State.startHead_res0 (c : Channel) : (s.startHead c).res0 = s.res0 := by cases c <;> rfl
@[simp] theorem State.startHead_res1 (c : Channel) : (s.startHead c).res1 = s.res1 := by cases c <;> rfl
@[simp] theorem State.startHead_speedRaw (c : Channel) : (s.startHead c).speedRaw = s.speedRaw := by cases c <;> rfl
@[simp] theorem State.startHead_startX (c : Channel) : (s.startHead c).startX = s.startX := by cases c <;> rfl
@[simp] theorem State.startHead_lengthX (c : Channel) : (s.startHead c).lengthX = s.lengthX := by cases c <;> rfl
@[simp] theorem State.startHead_recX (c : Channel) : (s.startHead c).recX = s.recX := by cases c <;> rfl
@[simp] theorem State.startHead_sosX (c : Channel) : (s.startHead c).sosX = s.sosX := by cases c <;> rfl
@[simp] theorem State.startHead_filterX (c : Channel) : (s.startHead c).filterX = s.filterX := by cases c <;> rfl
@[simp] theorem State.startHead_spd (c : Channel) : (s.startHead c).spd = s.spd := by cases c <;> rfl
@[simp] theorem State.startHead_vol (c : Channel) : (s.startHead c).vol = s.vol := by cases c <;> rfl
@[simp] theorem State.startHead_sosL (c : Channel) : (s.startHead c).sosL = s.sosL := by cases c <;> rfl
@[simp] theorem State.startHead_filterL (c : Channel) : (s.startHead c).filterL = s.filterL := by cases c <;> rfl
@[simp] theorem State.startHead_start (c : Channel) : (s.startHead c).start = s.start := by cases c <;> rfl
@[simp] theorem State.startHead_length (c : Channel) : (s.startHead c).length = s.length := by cases c <;> rfl
@[simp] theorem State.startHead_phase (c : Channel) : (s.startHead c).phase = s.phase := by cases c <;> rfl
@[simp] theorem State.startHead_nstart (c : Channel) : (s.startHead c).nstart = s.nstart := by cases c <;> rfl
@[simp] theorem State.startHead_nlength (c : Channel) : (s.startHead c).nlength = s.nlength := by cases c <;> rfl
@[simp] theorem State.startHead_nphase (c : Channel) : (s.startHead c).nphase = s.nphase := by cases c <;> rfl
@[simp] theorem State.startHead_xfKind (c : Channel) : (s.startHead c).xfKind = s.xfKind := by cases c <;> rfl
@[simp] theorem State.startHead_xfProg (c : Channel) : (s.startHead c).xfProg = s.xfProg := by cases c <;> rfl
@[simp] theorem State.startHead_xfWin (c : Channel) : (s.startHead c).xfWin = s.xfWin := by cases c <;> rfl
@[simp] theorem State.startHead_xo (c : Channel) : (s.startHead c).xo = s.xo := by cases c <;> rfl
@[simp] theorem State.startHead_wp (c : Channel) : (s.startHead c).wp = s.wp := by cases c <;> rfl
@[simp] theorem State.startHead_clrBusy (c : Channel) : (s.startHead c).clrBusy = s.clrBusy := by cases c <;> rfl
@[simp] theorem State.startHead_clrPtr (c : Channel) : (s.startHead c).clrPtr = s.clrPtr := by cases c <;> rfl
@[simp] theorem State.startHead_clkPrev (c : Channel) : (s.startHead c).clkPrev = s.clkPrev := by cases c <;> rfl
@[simp] theorem State.startHead_clkAge (c : Channel) : (s.startHead c).clkAge = s.clkAge := by cases c <;> rfl
@[simp] theorem State.startHead_synced (c : Channel) : (s.startHead c).synced = s.synced := by cases c <;> rfl
@[simp] theorem State.startHead_trigPend (c : Channel) : (s.startHead c).trigPend = s.trigPend := by cases c <;> rfl
@[simp] theorem State.startHead_errIllegal (c : Channel) : (s.startHead c).errIllegal = s.errIllegal := by cases c <;> rfl
@[simp] theorem State.startHead_errNonfinite (c : Channel) : (s.startHead c).errNonfinite = s.errNonfinite := by cases c <;> rfl
@[simp] theorem State.startHead_errBusy (c : Channel) : (s.startHead c).errBusy = s.errBusy := by cases c <;> rfl
@[simp] theorem State.startHead_mem (c : Channel) : (s.startHead c).mem = s.mem := by cases c <;> rfl
@[simp] theorem State.startHead_draws (c : Channel) : (s.startHead c).draws = s.draws := by cases c <;> rfl
@[simp] theorem State.startHead_errLog (c : Channel) : (s.startHead c).errLog = s.errLog := by cases c <;> rfl

/-! ### `stopHead` -/

@[simp] theorem State.stopHead_cfg (c : Channel) : (s.stopHead c).cfg = s.cfg := by cases c <;> rfl
@[simp] theorem State.stopHead_host (c : Channel) : (s.stopHead c).host = s.host := by cases c <;> rfl
@[simp] theorem State.stopHead_arg0 (c : Channel) : (s.stopHead c).arg0 = s.arg0 := by cases c <;> rfl
@[simp] theorem State.stopHead_arg1 (c : Channel) : (s.stopHead c).arg1 = s.arg1 := by cases c <;> rfl
@[simp] theorem State.stopHead_arg2 (c : Channel) : (s.stopHead c).arg2 = s.arg2 := by cases c <;> rfl
@[simp] theorem State.stopHead_res0 (c : Channel) : (s.stopHead c).res0 = s.res0 := by cases c <;> rfl
@[simp] theorem State.stopHead_res1 (c : Channel) : (s.stopHead c).res1 = s.res1 := by cases c <;> rfl
@[simp] theorem State.stopHead_speedRaw (c : Channel) : (s.stopHead c).speedRaw = s.speedRaw := by cases c <;> rfl
@[simp] theorem State.stopHead_startX (c : Channel) : (s.stopHead c).startX = s.startX := by cases c <;> rfl
@[simp] theorem State.stopHead_lengthX (c : Channel) : (s.stopHead c).lengthX = s.lengthX := by cases c <;> rfl
@[simp] theorem State.stopHead_recX (c : Channel) : (s.stopHead c).recX = s.recX := by cases c <;> rfl
@[simp] theorem State.stopHead_sosX (c : Channel) : (s.stopHead c).sosX = s.sosX := by cases c <;> rfl
@[simp] theorem State.stopHead_filterX (c : Channel) : (s.stopHead c).filterX = s.filterX := by cases c <;> rfl
@[simp] theorem State.stopHead_spd (c : Channel) : (s.stopHead c).spd = s.spd := by cases c <;> rfl
@[simp] theorem State.stopHead_vol (c : Channel) : (s.stopHead c).vol = s.vol := by cases c <;> rfl
@[simp] theorem State.stopHead_sosL (c : Channel) : (s.stopHead c).sosL = s.sosL := by cases c <;> rfl
@[simp] theorem State.stopHead_filterL (c : Channel) : (s.stopHead c).filterL = s.filterL := by cases c <;> rfl
@[simp] theorem State.stopHead_start (c : Channel) : (s.stopHead c).start = s.start := by cases c <;> rfl
@[simp] theorem State.stopHead_length (c : Channel) : (s.stopHead c).length = s.length := by cases c <;> rfl
@[simp] theorem State.stopHead_phase (c : Channel) : (s.stopHead c).phase = s.phase := by cases c <;> rfl
@[simp] theorem State.stopHead_nstart (c : Channel) : (s.stopHead c).nstart = s.nstart := by cases c <;> rfl
@[simp] theorem State.stopHead_nlength (c : Channel) : (s.stopHead c).nlength = s.nlength := by cases c <;> rfl
@[simp] theorem State.stopHead_nphase (c : Channel) : (s.stopHead c).nphase = s.nphase := by cases c <;> rfl
@[simp] theorem State.stopHead_xfKind (c : Channel) : (s.stopHead c).xfKind = s.xfKind := by cases c <;> rfl
@[simp] theorem State.stopHead_xfProg (c : Channel) : (s.stopHead c).xfProg = s.xfProg := by cases c <;> rfl
@[simp] theorem State.stopHead_xfWin (c : Channel) : (s.stopHead c).xfWin = s.xfWin := by cases c <;> rfl
@[simp] theorem State.stopHead_xo (c : Channel) : (s.stopHead c).xo = s.xo := by cases c <;> rfl
@[simp] theorem State.stopHead_wp (c : Channel) : (s.stopHead c).wp = s.wp := by cases c <;> rfl
@[simp] theorem State.stopHead_clrBusy (c : Channel) : (s.stopHead c).clrBusy = s.clrBusy := by cases c <;> rfl
@[simp] theorem State.stopHead_clrPtr (c : Channel) : (s.stopHead c).clrPtr = s.clrPtr := by cases c <;> rfl
@[simp] theorem State.stopHead_clkPrev (c : Channel) : (s.stopHead c).clkPrev = s.clkPrev := by cases c <;> rfl
@[simp] theorem State.stopHead_clkAge (c : Channel) : (s.stopHead c).clkAge = s.clkAge := by cases c <;> rfl
@[simp] theorem State.stopHead_synced (c : Channel) : (s.stopHead c).synced = s.synced := by cases c <;> rfl
@[simp] theorem State.stopHead_trigPend (c : Channel) : (s.stopHead c).trigPend = s.trigPend := by cases c <;> rfl
@[simp] theorem State.stopHead_errIllegal (c : Channel) : (s.stopHead c).errIllegal = s.errIllegal := by cases c <;> rfl
@[simp] theorem State.stopHead_errNonfinite (c : Channel) : (s.stopHead c).errNonfinite = s.errNonfinite := by cases c <;> rfl
@[simp] theorem State.stopHead_errBusy (c : Channel) : (s.stopHead c).errBusy = s.errBusy := by cases c <;> rfl
@[simp] theorem State.stopHead_mem (c : Channel) : (s.stopHead c).mem = s.mem := by cases c <;> rfl
@[simp] theorem State.stopHead_draws (c : Channel) : (s.stopHead c).draws = s.draws := by cases c <;> rfl
@[simp] theorem State.stopHead_errLog (c : Channel) : (s.stopHead c).errLog = s.errLog := by cases c <;> rfl

/-! ### `raise` -/

@[simp] theorem State.raise_cfg (e : ErrorCode) : (s.raise e).cfg = s.cfg := by cases e <;> rfl
@[simp] theorem State.raise_host (e : ErrorCode) : (s.raise e).host = s.host := by cases e <;> rfl
@[simp] theorem State.raise_arg0 (e : ErrorCode) : (s.raise e).arg0 = s.arg0 := by cases e <;> rfl
@[simp] theorem State.raise_arg1 (e : ErrorCode) : (s.raise e).arg1 = s.arg1 := by cases e <;> rfl
@[simp] theorem State.raise_arg2 (e : ErrorCode) : (s.raise e).arg2 = s.arg2 := by cases e <;> rfl
@[simp] theorem State.raise_res0 (e : ErrorCode) : (s.raise e).res0 = s.res0 := by cases e <;> rfl
@[simp] theorem State.raise_res1 (e : ErrorCode) : (s.raise e).res1 = s.res1 := by cases e <;> rfl
@[simp] theorem State.raise_speedRaw (e : ErrorCode) : (s.raise e).speedRaw = s.speedRaw := by cases e <;> rfl
@[simp] theorem State.raise_startX (e : ErrorCode) : (s.raise e).startX = s.startX := by cases e <;> rfl
@[simp] theorem State.raise_lengthX (e : ErrorCode) : (s.raise e).lengthX = s.lengthX := by cases e <;> rfl
@[simp] theorem State.raise_recX (e : ErrorCode) : (s.raise e).recX = s.recX := by cases e <;> rfl
@[simp] theorem State.raise_sosX (e : ErrorCode) : (s.raise e).sosX = s.sosX := by cases e <;> rfl
@[simp] theorem State.raise_filterX (e : ErrorCode) : (s.raise e).filterX = s.filterX := by cases e <;> rfl
@[simp] theorem State.raise_spd (e : ErrorCode) : (s.raise e).spd = s.spd := by cases e <;> rfl
@[simp] theorem State.raise_vol (e : ErrorCode) : (s.raise e).vol = s.vol := by cases e <;> rfl
@[simp] theorem State.raise_sosL (e : ErrorCode) : (s.raise e).sosL = s.sosL := by cases e <;> rfl
@[simp] theorem State.raise_filterL (e : ErrorCode) : (s.raise e).filterL = s.filterL := by cases e <;> rfl
@[simp] theorem State.raise_start (e : ErrorCode) : (s.raise e).start = s.start := by cases e <;> rfl
@[simp] theorem State.raise_length (e : ErrorCode) : (s.raise e).length = s.length := by cases e <;> rfl
@[simp] theorem State.raise_phase (e : ErrorCode) : (s.raise e).phase = s.phase := by cases e <;> rfl
@[simp] theorem State.raise_nstart (e : ErrorCode) : (s.raise e).nstart = s.nstart := by cases e <;> rfl
@[simp] theorem State.raise_nlength (e : ErrorCode) : (s.raise e).nlength = s.nlength := by cases e <;> rfl
@[simp] theorem State.raise_nphase (e : ErrorCode) : (s.raise e).nphase = s.nphase := by cases e <;> rfl
@[simp] theorem State.raise_xfKind (e : ErrorCode) : (s.raise e).xfKind = s.xfKind := by cases e <;> rfl
@[simp] theorem State.raise_xfProg (e : ErrorCode) : (s.raise e).xfProg = s.xfProg := by cases e <;> rfl
@[simp] theorem State.raise_xfWin (e : ErrorCode) : (s.raise e).xfWin = s.xfWin := by cases e <;> rfl
@[simp] theorem State.raise_xo (e : ErrorCode) : (s.raise e).xo = s.xo := by cases e <;> rfl
@[simp] theorem State.raise_wp (e : ErrorCode) : (s.raise e).wp = s.wp := by cases e <;> rfl
@[simp] theorem State.raise_headL (e : ErrorCode) : (s.raise e).headL = s.headL := by cases e <;> rfl
@[simp] theorem State.raise_headR (e : ErrorCode) : (s.raise e).headR = s.headR := by cases e <;> rfl
@[simp] theorem State.raise_clrBusy (e : ErrorCode) : (s.raise e).clrBusy = s.clrBusy := by cases e <;> rfl
@[simp] theorem State.raise_clrPtr (e : ErrorCode) : (s.raise e).clrPtr = s.clrPtr := by cases e <;> rfl
@[simp] theorem State.raise_clkPrev (e : ErrorCode) : (s.raise e).clkPrev = s.clkPrev := by cases e <;> rfl
@[simp] theorem State.raise_clkAge (e : ErrorCode) : (s.raise e).clkAge = s.clkAge := by cases e <;> rfl
@[simp] theorem State.raise_synced (e : ErrorCode) : (s.raise e).synced = s.synced := by cases e <;> rfl
@[simp] theorem State.raise_trigPend (e : ErrorCode) : (s.raise e).trigPend = s.trigPend := by cases e <;> rfl
@[simp] theorem State.raise_mem (e : ErrorCode) : (s.raise e).mem = s.mem := by cases e <;> rfl
@[simp] theorem State.raise_draws (e : ErrorCode) : (s.raise e).draws = s.draws := by cases e <;> rfl

/-! ### `clearErrors` -/

@[simp] theorem State.clearErrors_cfg : (s.clearErrors).cfg = s.cfg := rfl
@[simp] theorem State.clearErrors_host : (s.clearErrors).host = s.host := rfl
@[simp] theorem State.clearErrors_arg0 : (s.clearErrors).arg0 = s.arg0 := rfl
@[simp] theorem State.clearErrors_arg1 : (s.clearErrors).arg1 = s.arg1 := rfl
@[simp] theorem State.clearErrors_arg2 : (s.clearErrors).arg2 = s.arg2 := rfl
@[simp] theorem State.clearErrors_res0 : (s.clearErrors).res0 = s.res0 := rfl
@[simp] theorem State.clearErrors_res1 : (s.clearErrors).res1 = s.res1 := rfl
@[simp] theorem State.clearErrors_speedRaw : (s.clearErrors).speedRaw = s.speedRaw := rfl
@[simp] theorem State.clearErrors_startX : (s.clearErrors).startX = s.startX := rfl
@[simp] theorem State.clearErrors_lengthX : (s.clearErrors).lengthX = s.lengthX := rfl
@[simp] theorem State.clearErrors_recX : (s.clearErrors).recX = s.recX := rfl
@[simp] theorem State.clearErrors_sosX : (s.clearErrors).sosX = s.sosX := rfl
@[simp] theorem State.clearErrors_filterX : (s.clearErrors).filterX = s.filterX := rfl
@[simp] theorem State.clearErrors_spd : (s.clearErrors).spd = s.spd := rfl
@[simp] theorem State.clearErrors_vol : (s.clearErrors).vol = s.vol := rfl
@[simp] theorem State.clearErrors_sosL : (s.clearErrors).sosL = s.sosL := rfl
@[simp] theorem State.clearErrors_filterL : (s.clearErrors).filterL = s.filterL := rfl
@[simp] theorem State.clearErrors_start : (s.clearErrors).start = s.start := rfl
@[simp] theorem State.clearErrors_length : (s.clearErrors).length = s.length := rfl
@[simp] theorem State.clearErrors_phase : (s.clearErrors).phase = s.phase := rfl
@[simp] theorem State.clearErrors_nstart : (s.clearErrors).nstart = s.nstart := rfl
@[simp] theorem State.clearErrors_nlength : (s.clearErrors).nlength = s.nlength := rfl
@[simp] theorem State.clearErrors_nphase : (s.clearErrors).nphase = s.nphase := rfl
@[simp] theorem State.clearErrors_xfKind : (s.clearErrors).xfKind = s.xfKind := rfl
@[simp] theorem State.clearErrors_xfProg : (s.clearErrors).xfProg = s.xfProg := rfl
@[simp] theorem State.clearErrors_xfWin : (s.clearErrors).xfWin = s.xfWin := rfl
@[simp] theorem State.clearErrors_xo : (s.clearErrors).xo = s.xo := rfl
@[simp] theorem State.clearErrors_wp : (s.clearErrors).wp = s.wp := rfl
@[simp] theorem State.clearErrors_headL : (s.clearErrors).headL = s.headL := rfl
@[simp] theorem State.clearErrors_headR : (s.clearErrors).headR = s.headR := rfl
@[simp] theorem State.clearErrors_clrBusy : (s.clearErrors).clrBusy = s.clrBusy := rfl
@[simp] theorem State.clearErrors_clrPtr : (s.clearErrors).clrPtr = s.clrPtr := rfl
@[simp] theorem State.clearErrors_clkPrev : (s.clearErrors).clkPrev = s.clkPrev := rfl
@[simp] theorem State.clearErrors_clkAge : (s.clearErrors).clkAge = s.clkAge := rfl
@[simp] theorem State.clearErrors_synced : (s.clearErrors).synced = s.synced := rfl
@[simp] theorem State.clearErrors_trigPend : (s.clearErrors).trigPend = s.trigPend := rfl
@[simp] theorem State.clearErrors_mem : (s.clearErrors).mem = s.mem := rfl
@[simp] theorem State.clearErrors_draws : (s.clearErrors).draws = s.draws := rfl
@[simp] theorem State.clearErrors_errLog : (s.clearErrors).errLog = s.errLog := rfl

/-! ### `drawn` -/

@[simp] theorem State.drawn_cfg : (s.drawn).cfg = s.cfg := rfl
@[simp] theorem State.drawn_host : (s.drawn).host = s.host := rfl
@[simp] theorem State.drawn_arg0 : (s.drawn).arg0 = s.arg0 := rfl
@[simp] theorem State.drawn_arg1 : (s.drawn).arg1 = s.arg1 := rfl
@[simp] theorem State.drawn_arg2 : (s.drawn).arg2 = s.arg2 := rfl
@[simp] theorem State.drawn_res0 : (s.drawn).res0 = s.res0 := rfl
@[simp] theorem State.drawn_res1 : (s.drawn).res1 = s.res1 := rfl
@[simp] theorem State.drawn_speedRaw : (s.drawn).speedRaw = s.speedRaw := rfl
@[simp] theorem State.drawn_startX : (s.drawn).startX = s.startX := rfl
@[simp] theorem State.drawn_lengthX : (s.drawn).lengthX = s.lengthX := rfl
@[simp] theorem State.drawn_recX : (s.drawn).recX = s.recX := rfl
@[simp] theorem State.drawn_sosX : (s.drawn).sosX = s.sosX := rfl
@[simp] theorem State.drawn_filterX : (s.drawn).filterX = s.filterX := rfl
@[simp] theorem State.drawn_spd : (s.drawn).spd = s.spd := rfl
@[simp] theorem State.drawn_vol : (s.drawn).vol = s.vol := rfl
@[simp] theorem State.drawn_sosL : (s.drawn).sosL = s.sosL := rfl
@[simp] theorem State.drawn_filterL : (s.drawn).filterL = s.filterL := rfl
@[simp] theorem State.drawn_start : (s.drawn).start = s.start := rfl
@[simp] theorem State.drawn_length : (s.drawn).length = s.length := rfl
@[simp] theorem State.drawn_phase : (s.drawn).phase = s.phase := rfl
@[simp] theorem State.drawn_nstart : (s.drawn).nstart = s.nstart := rfl
@[simp] theorem State.drawn_nlength : (s.drawn).nlength = s.nlength := rfl
@[simp] theorem State.drawn_nphase : (s.drawn).nphase = s.nphase := rfl
@[simp] theorem State.drawn_xfKind : (s.drawn).xfKind = s.xfKind := rfl
@[simp] theorem State.drawn_xfProg : (s.drawn).xfProg = s.xfProg := rfl
@[simp] theorem State.drawn_xfWin : (s.drawn).xfWin = s.xfWin := rfl
@[simp] theorem State.drawn_xo : (s.drawn).xo = s.xo := rfl
@[simp] theorem State.drawn_wp : (s.drawn).wp = s.wp := rfl
@[simp] theorem State.drawn_headL : (s.drawn).headL = s.headL := rfl
@[simp] theorem State.drawn_headR : (s.drawn).headR = s.headR := rfl
@[simp] theorem State.drawn_clrBusy : (s.drawn).clrBusy = s.clrBusy := rfl
@[simp] theorem State.drawn_clrPtr : (s.drawn).clrPtr = s.clrPtr := rfl
@[simp] theorem State.drawn_clkPrev : (s.drawn).clkPrev = s.clkPrev := rfl
@[simp] theorem State.drawn_clkAge : (s.drawn).clkAge = s.clkAge := rfl
@[simp] theorem State.drawn_synced : (s.drawn).synced = s.synced := rfl
@[simp] theorem State.drawn_trigPend : (s.drawn).trigPend = s.trigPend := rfl
@[simp] theorem State.drawn_errIllegal : (s.drawn).errIllegal = s.errIllegal := rfl
@[simp] theorem State.drawn_errNonfinite : (s.drawn).errNonfinite = s.errNonfinite := rfl
@[simp] theorem State.drawn_errBusy : (s.drawn).errBusy = s.errBusy := rfl
@[simp] theorem State.drawn_mem : (s.drawn).mem = s.mem := rfl
@[simp] theorem State.drawn_errLog : (s.drawn).errLog = s.errLog := rfl

/-! ### `advanceWp` -/

@[simp] theorem State.advanceWp_cfg : (s.advanceWp).cfg = s.cfg := rfl
@[simp] theorem State.advanceWp_host : (s.advanceWp).host = s.host := rfl
@[simp] theorem State.advanceWp_arg0 : (s.advanceWp).arg0 = s.arg0 := rfl
@[simp] theorem State.advanceWp_arg1 : (s.advanceWp).arg1 = s.arg1 := rfl
@[simp] theorem State.advanceWp_arg2 : (s.advanceWp).arg2 = s.arg2 := rfl
@[simp] theorem State.advanceWp_res0 : (s.advanceWp).res0 = s.res0 := rfl
@[simp] theorem State.advanceWp_res1 : (s.advanceWp).res1 = s.res1 := rfl
@[simp] theorem State.advanceWp_speedRaw : (s.advanceWp).speedRaw = s.speedRaw := rfl
@[simp] theorem State.advanceWp_startX : (s.advanceWp).startX = s.startX := rfl
@[simp] theorem State.advanceWp_lengthX : (s.advanceWp).lengthX = s.lengthX := rfl
@[simp] theorem State.advanceWp_recX : (s.advanceWp).recX = s.recX := rfl
@[simp] theorem State.advanceWp_sosX : (s.advanceWp).sosX = s.sosX := rfl
@[simp] theorem State.advanceWp_filterX : (s.advanceWp).filterX = s.filterX := rfl
@[simp] theorem State.advanceWp_spd : (s.advanceWp).spd = s.spd := rfl
@[simp] theorem State.advanceWp_vol : (s.advanceWp).vol = s.vol := rfl
@[simp] theorem State.advanceWp_sosL : (s.advanceWp).sosL = s.sosL := rfl
@[simp] theorem State.advanceWp_filterL : (s.advanceWp).filterL = s.filterL := rfl
@[simp] theorem State.advanceWp_start : (s.advanceWp).start = s.start := rfl
@[simp] theorem State.advanceWp_length : (s.advanceWp).length = s.length := rfl
@[simp] theorem State.advanceWp_phase : (s.advanceWp).phase = s.phase := rfl
@[simp] theorem State.advanceWp_nstart : (s.advanceWp).nstart = s.nstart := rfl
@[simp] theorem State.advanceWp_nlength : (s.advanceWp).nlength = s.nlength := rfl
@[simp] theorem State.advanceWp_nphase : (s.advanceWp).nphase = s.nphase := rfl
@[simp] theorem State.advanceWp_xfKind : (s.advanceWp).xfKind = s.xfKind := rfl
@[simp] theorem State.advanceWp_xfProg : (s.advanceWp).xfProg = s.xfProg := rfl
@[simp] theorem State.advanceWp_xfWin : (s.advanceWp).xfWin = s.xfWin := rfl
@[simp] theorem State.advanceWp_xo : (s.advanceWp).xo = s.xo := rfl
@[simp] theorem State.advanceWp_headL : (s.advanceWp).headL = s.headL := rfl
@[simp] theorem State.advanceWp_headR : (s.advanceWp).headR = s.headR := rfl
@[simp] theorem State.advanceWp_clrBusy : (s.advanceWp).clrBusy = s.clrBusy := rfl
@[simp] theorem State.advanceWp_clrPtr : (s.advanceWp).clrPtr = s.clrPtr := rfl
@[simp] theorem State.advanceWp_clkPrev : (s.advanceWp).clkPrev = s.clkPrev := rfl
@[simp] theorem State.advanceWp_clkAge : (s.advanceWp).clkAge = s.clkAge := rfl
@[simp] theorem State.advanceWp_synced : (s.advanceWp).synced = s.synced := rfl
@[simp] theorem State.advanceWp_trigPend : (s.advanceWp).trigPend = s.trigPend := rfl
@[simp] theorem State.advanceWp_errIllegal : (s.advanceWp).errIllegal = s.errIllegal := rfl
@[simp] theorem State.advanceWp_errNonfinite : (s.advanceWp).errNonfinite = s.errNonfinite := rfl
@[simp] theorem State.advanceWp_errBusy : (s.advanceWp).errBusy = s.errBusy := rfl
@[simp] theorem State.advanceWp_mem : (s.advanceWp).mem = s.mem := rfl
@[simp] theorem State.advanceWp_draws : (s.advanceWp).draws = s.draws := rfl
@[simp] theorem State.advanceWp_errLog : (s.advanceWp).errLog = s.errLog := rfl

/-! ### `sampleClock` -/

@[simp] theorem State.sampleClock_cfg (clk : Bool) : (s.sampleClock clk).cfg = s.cfg := rfl
@[simp] theorem State.sampleClock_host (clk : Bool) : (s.sampleClock clk).host = s.host := rfl
@[simp] theorem State.sampleClock_arg0 (clk : Bool) : (s.sampleClock clk).arg0 = s.arg0 := rfl
@[simp] theorem State.sampleClock_arg1 (clk : Bool) : (s.sampleClock clk).arg1 = s.arg1 := rfl
@[simp] theorem State.sampleClock_arg2 (clk : Bool) : (s.sampleClock clk).arg2 = s.arg2 := rfl
@[simp] theorem State.sampleClock_res0 (clk : Bool) : (s.sampleClock clk).res0 = s.res0 := rfl
@[simp] theorem State.sampleClock_res1 (clk : Bool) : (s.sampleClock clk).res1 = s.res1 := rfl
@[simp] theorem State.sampleClock_speedRaw (clk : Bool) : (s.sampleClock clk).speedRaw = s.speedRaw := rfl
@[simp] theorem State.sampleClock_startX (clk : Bool) : (s.sampleClock clk).startX = s.startX := rfl
@[simp] theorem State.sampleClock_lengthX (clk : Bool) : (s.sampleClock clk).lengthX = s.lengthX := rfl
@[simp] theorem State.sampleClock_recX (clk : Bool) : (s.sampleClock clk).recX = s.recX := rfl
@[simp] theorem State.sampleClock_sosX (clk : Bool) : (s.sampleClock clk).sosX = s.sosX := rfl
@[simp] theorem State.sampleClock_filterX (clk : Bool) : (s.sampleClock clk).filterX = s.filterX := rfl
@[simp] theorem State.sampleClock_spd (clk : Bool) : (s.sampleClock clk).spd = s.spd := rfl
@[simp] theorem State.sampleClock_vol (clk : Bool) : (s.sampleClock clk).vol = s.vol := rfl
@[simp] theorem State.sampleClock_sosL (clk : Bool) : (s.sampleClock clk).sosL = s.sosL := rfl
@[simp] theorem State.sampleClock_filterL (clk : Bool) : (s.sampleClock clk).filterL = s.filterL := rfl
@[simp] theorem State.sampleClock_start (clk : Bool) : (s.sampleClock clk).start = s.start := rfl
@[simp] theorem State.sampleClock_length (clk : Bool) : (s.sampleClock clk).length = s.length := rfl
@[simp] theorem State.sampleClock_phase (clk : Bool) : (s.sampleClock clk).phase = s.phase := rfl
@[simp] theorem State.sampleClock_nstart (clk : Bool) : (s.sampleClock clk).nstart = s.nstart := rfl
@[simp] theorem State.sampleClock_nlength (clk : Bool) : (s.sampleClock clk).nlength = s.nlength := rfl
@[simp] theorem State.sampleClock_nphase (clk : Bool) : (s.sampleClock clk).nphase = s.nphase := rfl
@[simp] theorem State.sampleClock_xfKind (clk : Bool) : (s.sampleClock clk).xfKind = s.xfKind := rfl
@[simp] theorem State.sampleClock_xfProg (clk : Bool) : (s.sampleClock clk).xfProg = s.xfProg := rfl
@[simp] theorem State.sampleClock_xfWin (clk : Bool) : (s.sampleClock clk).xfWin = s.xfWin := rfl
@[simp] theorem State.sampleClock_xo (clk : Bool) : (s.sampleClock clk).xo = s.xo := rfl
@[simp] theorem State.sampleClock_wp (clk : Bool) : (s.sampleClock clk).wp = s.wp := rfl
@[simp] theorem State.sampleClock_headL (clk : Bool) : (s.sampleClock clk).headL = s.headL := rfl
@[simp] theorem State.sampleClock_headR (clk : Bool) : (s.sampleClock clk).headR = s.headR := rfl
@[simp] theorem State.sampleClock_clrBusy (clk : Bool) : (s.sampleClock clk).clrBusy = s.clrBusy := rfl
@[simp] theorem State.sampleClock_clrPtr (clk : Bool) : (s.sampleClock clk).clrPtr = s.clrPtr := rfl
@[simp] theorem State.sampleClock_clkAge (clk : Bool) : (s.sampleClock clk).clkAge = s.clkAge := rfl
@[simp] theorem State.sampleClock_synced (clk : Bool) : (s.sampleClock clk).synced = s.synced := rfl
@[simp] theorem State.sampleClock_trigPend (clk : Bool) : (s.sampleClock clk).trigPend = s.trigPend := rfl
@[simp] theorem State.sampleClock_errIllegal (clk : Bool) : (s.sampleClock clk).errIllegal = s.errIllegal := rfl
@[simp] theorem State.sampleClock_errNonfinite (clk : Bool) : (s.sampleClock clk).errNonfinite = s.errNonfinite := rfl
@[simp] theorem State.sampleClock_errBusy (clk : Bool) : (s.sampleClock clk).errBusy = s.errBusy := rfl
@[simp] theorem State.sampleClock_mem (clk : Bool) : (s.sampleClock clk).mem = s.mem := rfl
@[simp] theorem State.sampleClock_draws (clk : Bool) : (s.sampleClock clk).draws = s.draws := rfl
@[simp] theorem State.sampleClock_errLog (clk : Bool) : (s.sampleClock clk).errLog = s.errLog := rfl

/-! ### `writeArg` -/

@[simp] theorem State.writeArg_cfg (r : ArgReg) (w : Word) : (s.writeArg r w).cfg = s.cfg := by cases r <;> rfl
@[simp] theorem State.writeArg_host (r : ArgReg) (w : Word) : (s.writeArg r w).host = s.host := by cases r <;> rfl
@[simp] theorem State.writeArg_res0 (r : ArgReg) (w : Word) : (s.writeArg r w).res0 = s.res0 := by cases r <;> rfl
@[simp] theorem State.writeArg_res1 (r : ArgReg) (w : Word) : (s.writeArg r w).res1 = s.res1 := by cases r <;> rfl
@[simp] theorem State.writeArg_speedRaw (r : ArgReg) (w : Word) : (s.writeArg r w).speedRaw = s.speedRaw := by cases r <;> rfl
@[simp] theorem State.writeArg_startX (r : ArgReg) (w : Word) : (s.writeArg r w).startX = s.startX := by cases r <;> rfl
@[simp] theorem State.writeArg_lengthX (r : ArgReg) (w : Word) : (s.writeArg r w).lengthX = s.lengthX := by cases r <;> rfl
@[simp] theorem State.writeArg_recX (r : ArgReg) (w : Word) : (s.writeArg r w).recX = s.recX := by cases r <;> rfl
@[simp] theorem State.writeArg_sosX (r : ArgReg) (w : Word) : (s.writeArg r w).sosX = s.sosX := by cases r <;> rfl
@[simp] theorem State.writeArg_filterX (r : ArgReg) (w : Word) : (s.writeArg r w).filterX = s.filterX := by cases r <;> rfl
@[simp] theorem State.writeArg_spd (r : ArgReg) (w : Word) : (s.writeArg r w).spd = s.spd := by cases r <;> rfl
@[simp] theorem State.writeArg_vol (r : ArgReg) (w : Word) : (s.writeArg r w).vol = s.vol := by cases r <;> rfl
@[simp] theorem State.writeArg_sosL (r : ArgReg) (w : Word) : (s.writeArg r w).sosL = s.sosL := by cases r <;> rfl
@[simp] theorem State.writeArg_filterL (r : ArgReg) (w : Word) : (s.writeArg r w).filterL = s.filterL := by cases r <;> rfl
@[simp] theorem State.writeArg_start (r : ArgReg) (w : Word) : (s.writeArg r w).start = s.start := by cases r <;> rfl
@[simp] theorem State.writeArg_length (r : ArgReg) (w : Word) : (s.writeArg r w).length = s.length := by cases r <;> rfl
@[simp] theorem State.writeArg_phase (r : ArgReg) (w : Word) : (s.writeArg r w).phase = s.phase := by cases r <;> rfl
@[simp] theorem State.writeArg_nstart (r : ArgReg) (w : Word) : (s.writeArg r w).nstart = s.nstart := by cases r <;> rfl
@[simp] theorem State.writeArg_nlength (r : ArgReg) (w : Word) : (s.writeArg r w).nlength = s.nlength := by cases r <;> rfl
@[simp] theorem State.writeArg_nphase (r : ArgReg) (w : Word) : (s.writeArg r w).nphase = s.nphase := by cases r <;> rfl
@[simp] theorem State.writeArg_xfKind (r : ArgReg) (w : Word) : (s.writeArg r w).xfKind = s.xfKind := by cases r <;> rfl
@[simp] theorem State.writeArg_xfProg (r : ArgReg) (w : Word) : (s.writeArg r w).xfProg = s.xfProg := by cases r <;> rfl
@[simp] theorem State.writeArg_xfWin (r : ArgReg) (w : Word) : (s.writeArg r w).xfWin = s.xfWin := by cases r <;> rfl
@[simp] theorem State.writeArg_xo (r : ArgReg) (w : Word) : (s.writeArg r w).xo = s.xo := by cases r <;> rfl
@[simp] theorem State.writeArg_wp (r : ArgReg) (w : Word) : (s.writeArg r w).wp = s.wp := by cases r <;> rfl
@[simp] theorem State.writeArg_headL (r : ArgReg) (w : Word) : (s.writeArg r w).headL = s.headL := by cases r <;> rfl
@[simp] theorem State.writeArg_headR (r : ArgReg) (w : Word) : (s.writeArg r w).headR = s.headR := by cases r <;> rfl
@[simp] theorem State.writeArg_clrBusy (r : ArgReg) (w : Word) : (s.writeArg r w).clrBusy = s.clrBusy := by cases r <;> rfl
@[simp] theorem State.writeArg_clrPtr (r : ArgReg) (w : Word) : (s.writeArg r w).clrPtr = s.clrPtr := by cases r <;> rfl
@[simp] theorem State.writeArg_clkPrev (r : ArgReg) (w : Word) : (s.writeArg r w).clkPrev = s.clkPrev := by cases r <;> rfl
@[simp] theorem State.writeArg_clkAge (r : ArgReg) (w : Word) : (s.writeArg r w).clkAge = s.clkAge := by cases r <;> rfl
@[simp] theorem State.writeArg_synced (r : ArgReg) (w : Word) : (s.writeArg r w).synced = s.synced := by cases r <;> rfl
@[simp] theorem State.writeArg_trigPend (r : ArgReg) (w : Word) : (s.writeArg r w).trigPend = s.trigPend := by cases r <;> rfl
@[simp] theorem State.writeArg_errIllegal (r : ArgReg) (w : Word) : (s.writeArg r w).errIllegal = s.errIllegal := by cases r <;> rfl
@[simp] theorem State.writeArg_errNonfinite (r : ArgReg) (w : Word) : (s.writeArg r w).errNonfinite = s.errNonfinite := by cases r <;> rfl
@[simp] theorem State.writeArg_errBusy (r : ArgReg) (w : Word) : (s.writeArg r w).errBusy = s.errBusy := by cases r <;> rfl
@[simp] theorem State.writeArg_mem (r : ArgReg) (w : Word) : (s.writeArg r w).mem = s.mem := by cases r <;> rfl
@[simp] theorem State.writeArg_draws (r : ArgReg) (w : Word) : (s.writeArg r w).draws = s.draws := by cases r <;> rfl
@[simp] theorem State.writeArg_errLog (r : ArgReg) (w : Word) : (s.writeArg r w).errLog = s.errLog := by cases r <;> rfl

/-! ### The fields that an update writes -/

@[simp] theorem State.storeWrite_mem (c : Channel) (i : Nat) (w : Word) :
    (s.storeWrite c i w).mem = s.mem.writeWord (wordAddress c i) w := rfl
@[simp] theorem State.storeClear_mem (lo hi : Nat) : (s.storeClear lo hi).mem = s.mem.zeroBytes (8 * lo) (8 * hi) := rfl
@[simp] theorem State.drawn_draws : s.drawn.draws = s.draws + 1 := rfl
@[simp] theorem State.advanceWp_wp : s.advanceWp.wp = BitVec.ofNat 32 ((s.wp.toNat + 1) % s.cfg.n) := rfl
@[simp] theorem State.sampleClock_clkPrev (clk : Bool) : (s.sampleClock clk).clkPrev = clk := rfl
@[simp] theorem State.clearErrors_errIllegal : s.clearErrors.errIllegal = false := rfl
@[simp] theorem State.clearErrors_errNonfinite : s.clearErrors.errNonfinite = false := rfl
@[simp] theorem State.clearErrors_errBusy : s.clearErrors.errBusy = false := rfl
@[simp] theorem State.raise_errLog (e : ErrorCode) : (s.raise e).errLog = s.errLog ++ [e] := by cases e <;> rfl
@[simp] theorem State.head_left : s.head .left = s.headL := rfl
@[simp] theorem State.head_right : s.head .right = s.headR := rfl
@[simp] theorem State.setHead_left_headL (h : Head) : (s.setHead .left h).headL = h := rfl
@[simp] theorem State.setHead_left_headR (h : Head) : (s.setHead .left h).headR = s.headR := rfl
@[simp] theorem State.setHead_right_headR (h : Head) : (s.setHead .right h).headR = h := rfl
@[simp] theorem State.setHead_right_headL (h : Head) : (s.setHead .right h).headL = s.headL := rfl
@[simp] theorem State.startHead_left_headL : (s.startHead .left).headL = s.headL.start s.cfg.wfade := rfl
@[simp] theorem State.startHead_left_headR : (s.startHead .left).headR = s.headR := rfl
@[simp] theorem State.startHead_right_headR : (s.startHead .right).headR = s.headR.start s.cfg.wfade := rfl
@[simp] theorem State.startHead_right_headL : (s.startHead .right).headL = s.headL := rfl
@[simp] theorem State.stopHead_left_headL : (s.stopHead .left).headL = s.headL.stop s.cfg.wfade := rfl
@[simp] theorem State.stopHead_left_headR : (s.stopHead .left).headR = s.headR := rfl
@[simp] theorem State.stopHead_right_headR : (s.stopHead .right).headR = s.headR.stop s.cfg.wfade := rfl
@[simp] theorem State.stopHead_right_headL : (s.stopHead .right).headL = s.headL := rfl
@[simp] theorem State.head_setHead (c : Channel) (h : Head) : (s.setHead c h).head c = h := by cases c <;> rfl
@[simp] theorem State.head_storeWrite (c d : Channel) (i : Nat) (w : Word) : (s.storeWrite c i w).head d = s.head d := by
  cases d <;> rfl

end Sys2Proof.Machine
end

