-- ==== Sys2Proof/Laws/Frame.lean ====
section
/-! SUPPORT. The frames of the composite operations and of the stages of `TICK` and `LATCH`: one lemma for each field that an
operation leaves unchanged. -/

namespace Sys2Proof.Machine

variable (s : State)

/-! ### `headFade` -/

@[simp] theorem State.headFade_cfg (g : NanSource) (c : Channel) (i : Nat) (v : Word) : (s.headFade g c i v).cfg = s.cfg :=
  by simp [State.headFade]
@[simp] theorem State.headFade_host (g : NanSource) (c : Channel) (i : Nat) (v : Word) : (s.headFade g c i v).host = s.host :=
  by simp [State.headFade]
@[simp] theorem State.headFade_arg0 (g : NanSource) (c : Channel) (i : Nat) (v : Word) : (s.headFade g c i v).arg0 = s.arg0 :=
  by simp [State.headFade]
@[simp] theorem State.headFade_arg1 (g : NanSource) (c : Channel) (i : Nat) (v : Word) : (s.headFade g c i v).arg1 = s.arg1 :=
  by simp [State.headFade]
@[simp] theorem State.headFade_arg2 (g : NanSource) (c : Channel) (i : Nat) (v : Word) : (s.headFade g c i v).arg2 = s.arg2 :=
  by simp [State.headFade]
@[simp] theorem State.headFade_res0 (g : NanSource) (c : Channel) (i : Nat) (v : Word) : (s.headFade g c i v).res0 = s.res0 :=
  by simp [State.headFade]
@[simp] theorem State.headFade_res1 (g : NanSource) (c : Channel) (i : Nat) (v : Word) : (s.headFade g c i v).res1 = s.res1 :=
  by simp [State.headFade]
@[simp] theorem State.headFade_speedRaw (g : NanSource) (c : Channel) (i : Nat) (v : Word) : (s.headFade g c i v).speedRaw = s.speedRaw :=
  by simp [State.headFade]
@[simp] theorem State.headFade_startX (g : NanSource) (c : Channel) (i : Nat) (v : Word) : (s.headFade g c i v).startX = s.startX :=
  by simp [State.headFade]
@[simp] theorem State.headFade_lengthX (g : NanSource) (c : Channel) (i : Nat) (v : Word) : (s.headFade g c i v).lengthX = s.lengthX :=
  by simp [State.headFade]
@[simp] theorem State.headFade_recX (g : NanSource) (c : Channel) (i : Nat) (v : Word) : (s.headFade g c i v).recX = s.recX :=
  by simp [State.headFade]
@[simp] theorem State.headFade_sosX (g : NanSource) (c : Channel) (i : Nat) (v : Word) : (s.headFade g c i v).sosX = s.sosX :=
  by simp [State.headFade]
@[simp] theorem State.headFade_filterX (g : NanSource) (c : Channel) (i : Nat) (v : Word) : (s.headFade g c i v).filterX = s.filterX :=
  by simp [State.headFade]
@[simp] theorem State.headFade_spd (g : NanSource) (c : Channel) (i : Nat) (v : Word) : (s.headFade g c i v).spd = s.spd :=
  by simp [State.headFade]
@[simp] theorem State.headFade_vol (g : NanSource) (c : Channel) (i : Nat) (v : Word) : (s.headFade g c i v).vol = s.vol :=
  by simp [State.headFade]
@[simp] theorem State.headFade_sosL (g : NanSource) (c : Channel) (i : Nat) (v : Word) : (s.headFade g c i v).sosL = s.sosL :=
  by simp [State.headFade]
@[simp] theorem State.headFade_filterL (g : NanSource) (c : Channel) (i : Nat) (v : Word) : (s.headFade g c i v).filterL = s.filterL :=
  by simp [State.headFade]
@[simp] theorem State.headFade_start (g : NanSource) (c : Channel) (i : Nat) (v : Word) : (s.headFade g c i v).start = s.start :=
  by simp [State.headFade]
@[simp] theorem State.headFade_length (g : NanSource) (c : Channel) (i : Nat) (v : Word) : (s.headFade g c i v).length = s.length :=
  by simp [State.headFade]
@[simp] theorem State.headFade_phase (g : NanSource) (c : Channel) (i : Nat) (v : Word) : (s.headFade g c i v).phase = s.phase :=
  by simp [State.headFade]
@[simp] theorem State.headFade_nstart (g : NanSource) (c : Channel) (i : Nat) (v : Word) : (s.headFade g c i v).nstart = s.nstart :=
  by simp [State.headFade]
@[simp] theorem State.headFade_nlength (g : NanSource) (c : Channel) (i : Nat) (v : Word) : (s.headFade g c i v).nlength = s.nlength :=
  by simp [State.headFade]
@[simp] theorem State.headFade_nphase (g : NanSource) (c : Channel) (i : Nat) (v : Word) : (s.headFade g c i v).nphase = s.nphase :=
  by simp [State.headFade]
@[simp] theorem State.headFade_xfKind (g : NanSource) (c : Channel) (i : Nat) (v : Word) : (s.headFade g c i v).xfKind = s.xfKind :=
  by simp [State.headFade]
@[simp] theorem State.headFade_xfProg (g : NanSource) (c : Channel) (i : Nat) (v : Word) : (s.headFade g c i v).xfProg = s.xfProg :=
  by simp [State.headFade]
@[simp] theorem State.headFade_xfWin (g : NanSource) (c : Channel) (i : Nat) (v : Word) : (s.headFade g c i v).xfWin = s.xfWin :=
  by simp [State.headFade]
@[simp] theorem State.headFade_xo (g : NanSource) (c : Channel) (i : Nat) (v : Word) : (s.headFade g c i v).xo = s.xo :=
  by simp [State.headFade]
@[simp] theorem State.headFade_wp (g : NanSource) (c : Channel) (i : Nat) (v : Word) : (s.headFade g c i v).wp = s.wp :=
  by simp [State.headFade]
@[simp] theorem State.headFade_clrBusy (g : NanSource) (c : Channel) (i : Nat) (v : Word) : (s.headFade g c i v).clrBusy = s.clrBusy :=
  by simp [State.headFade]
@[simp] theorem State.headFade_clrPtr (g : NanSource) (c : Channel) (i : Nat) (v : Word) : (s.headFade g c i v).clrPtr = s.clrPtr :=
  by simp [State.headFade]
@[simp] theorem State.headFade_clkPrev (g : NanSource) (c : Channel) (i : Nat) (v : Word) : (s.headFade g c i v).clkPrev = s.clkPrev :=
  by simp [State.headFade]
@[simp] theorem State.headFade_clkAge (g : NanSource) (c : Channel) (i : Nat) (v : Word) : (s.headFade g c i v).clkAge = s.clkAge :=
  by simp [State.headFade]
@[simp] theorem State.headFade_synced (g : NanSource) (c : Channel) (i : Nat) (v : Word) : (s.headFade g c i v).synced = s.synced :=
  by simp [State.headFade]
@[simp] theorem State.headFade_trigPend (g : NanSource) (c : Channel) (i : Nat) (v : Word) : (s.headFade g c i v).trigPend = s.trigPend :=
  by simp [State.headFade]
@[simp] theorem State.headFade_errIllegal (g : NanSource) (c : Channel) (i : Nat) (v : Word) : (s.headFade g c i v).errIllegal = s.errIllegal :=
  by simp [State.headFade]
@[simp] theorem State.headFade_errNonfinite (g : NanSource) (c : Channel) (i : Nat) (v : Word) : (s.headFade g c i v).errNonfinite = s.errNonfinite :=
  by simp [State.headFade]
@[simp] theorem State.headFade_errBusy (g : NanSource) (c : Channel) (i : Nat) (v : Word) : (s.headFade g c i v).errBusy = s.errBusy :=
  by simp [State.headFade]
@[simp] theorem State.headFade_draws (g : NanSource) (c : Channel) (i : Nat) (v : Word) : (s.headFade g c i v).draws = s.draws :=
  by simp [State.headFade]
@[simp] theorem State.headFade_errLog (g : NanSource) (c : Channel) (i : Nat) (v : Word) : (s.headFade g c i v).errLog = s.errLog :=
  by simp [State.headFade]

/-! ### `headWrite` -/

@[simp] theorem State.headWrite_cfg (g : NanSource) (c : Channel) (i : Nat) (v : Word) : (s.headWrite g c i v).cfg = s.cfg :=
  by unfold State.headWrite; split <;> simp
@[simp] theorem State.headWrite_host (g : NanSource) (c : Channel) (i : Nat) (v : Word) : (s.headWrite g c i v).host = s.host :=
  by unfold State.headWrite; split <;> simp
@[simp] theorem State.headWrite_arg0 (g : NanSource) (c : Channel) (i : Nat) (v : Word) : (s.headWrite g c i v).arg0 = s.arg0 :=
  by unfold State.headWrite; split <;> simp
@[simp] theorem State.headWrite_arg1 (g : NanSource) (c : Channel) (i : Nat) (v : Word) : (s.headWrite g c i v).arg1 = s.arg1 :=
  by unfold State.headWrite; split <;> simp
@[simp] theorem State.headWrite_arg2 (g : NanSource) (c : Channel) (i : Nat) (v : Word) : (s.headWrite g c i v).arg2 = s.arg2 :=
  by unfold State.headWrite; split <;> simp
@[simp] theorem State.headWrite_res0 (g : NanSource) (c : Channel) (i : Nat) (v : Word) : (s.headWrite g c i v).res0 = s.res0 :=
  by unfold State.headWrite; split <;> simp
@[simp] theorem State.headWrite_res1 (g : NanSource) (c : Channel) (i : Nat) (v : Word) : (s.headWrite g c i v).res1 = s.res1 :=
  by unfold State.headWrite; split <;> simp
@[simp] theorem State.headWrite_speedRaw (g : NanSource) (c : Channel) (i : Nat) (v : Word) : (s.headWrite g c i v).speedRaw = s.speedRaw :=
  by unfold State.headWrite; split <;> simp
@[simp] theorem State.headWrite_startX (g : NanSource) (c : Channel) (i : Nat) (v : Word) : (s.headWrite g c i v).startX = s.startX :=
  by unfold State.headWrite; split <;> simp
@[simp] theorem State.headWrite_lengthX (g : NanSource) (c : Channel) (i : Nat) (v : Word) : (s.headWrite g c i v).lengthX = s.lengthX :=
  by unfold State.headWrite; split <;> simp
@[simp] theorem State.headWrite_recX (g : NanSource) (c : Channel) (i : Nat) (v : Word) : (s.headWrite g c i v).recX = s.recX :=
  by unfold State.headWrite; split <;> simp
@[simp] theorem State.headWrite_sosX (g : NanSource) (c : Channel) (i : Nat) (v : Word) : (s.headWrite g c i v).sosX = s.sosX :=
  by unfold State.headWrite; split <;> simp
@[simp] theorem State.headWrite_filterX (g : NanSource) (c : Channel) (i : Nat) (v : Word) : (s.headWrite g c i v).filterX = s.filterX :=
  by unfold State.headWrite; split <;> simp
@[simp] theorem State.headWrite_spd (g : NanSource) (c : Channel) (i : Nat) (v : Word) : (s.headWrite g c i v).spd = s.spd :=
  by unfold State.headWrite; split <;> simp
@[simp] theorem State.headWrite_vol (g : NanSource) (c : Channel) (i : Nat) (v : Word) : (s.headWrite g c i v).vol = s.vol :=
  by unfold State.headWrite; split <;> simp
@[simp] theorem State.headWrite_sosL (g : NanSource) (c : Channel) (i : Nat) (v : Word) : (s.headWrite g c i v).sosL = s.sosL :=
  by unfold State.headWrite; split <;> simp
@[simp] theorem State.headWrite_filterL (g : NanSource) (c : Channel) (i : Nat) (v : Word) : (s.headWrite g c i v).filterL = s.filterL :=
  by unfold State.headWrite; split <;> simp
@[simp] theorem State.headWrite_start (g : NanSource) (c : Channel) (i : Nat) (v : Word) : (s.headWrite g c i v).start = s.start :=
  by unfold State.headWrite; split <;> simp
@[simp] theorem State.headWrite_length (g : NanSource) (c : Channel) (i : Nat) (v : Word) : (s.headWrite g c i v).length = s.length :=
  by unfold State.headWrite; split <;> simp
@[simp] theorem State.headWrite_phase (g : NanSource) (c : Channel) (i : Nat) (v : Word) : (s.headWrite g c i v).phase = s.phase :=
  by unfold State.headWrite; split <;> simp
@[simp] theorem State.headWrite_nstart (g : NanSource) (c : Channel) (i : Nat) (v : Word) : (s.headWrite g c i v).nstart = s.nstart :=
  by unfold State.headWrite; split <;> simp
@[simp] theorem State.headWrite_nlength (g : NanSource) (c : Channel) (i : Nat) (v : Word) : (s.headWrite g c i v).nlength = s.nlength :=
  by unfold State.headWrite; split <;> simp
@[simp] theorem State.headWrite_nphase (g : NanSource) (c : Channel) (i : Nat) (v : Word) : (s.headWrite g c i v).nphase = s.nphase :=
  by unfold State.headWrite; split <;> simp
@[simp] theorem State.headWrite_xfKind (g : NanSource) (c : Channel) (i : Nat) (v : Word) : (s.headWrite g c i v).xfKind = s.xfKind :=
  by unfold State.headWrite; split <;> simp
@[simp] theorem State.headWrite_xfProg (g : NanSource) (c : Channel) (i : Nat) (v : Word) : (s.headWrite g c i v).xfProg = s.xfProg :=
  by unfold State.headWrite; split <;> simp
@[simp] theorem State.headWrite_xfWin (g : NanSource) (c : Channel) (i : Nat) (v : Word) : (s.headWrite g c i v).xfWin = s.xfWin :=
  by unfold State.headWrite; split <;> simp
@[simp] theorem State.headWrite_xo (g : NanSource) (c : Channel) (i : Nat) (v : Word) : (s.headWrite g c i v).xo = s.xo :=
  by unfold State.headWrite; split <;> simp
@[simp] theorem State.headWrite_wp (g : NanSource) (c : Channel) (i : Nat) (v : Word) : (s.headWrite g c i v).wp = s.wp :=
  by unfold State.headWrite; split <;> simp
@[simp] theorem State.headWrite_clrBusy (g : NanSource) (c : Channel) (i : Nat) (v : Word) : (s.headWrite g c i v).clrBusy = s.clrBusy :=
  by unfold State.headWrite; split <;> simp
@[simp] theorem State.headWrite_clrPtr (g : NanSource) (c : Channel) (i : Nat) (v : Word) : (s.headWrite g c i v).clrPtr = s.clrPtr :=
  by unfold State.headWrite; split <;> simp
@[simp] theorem State.headWrite_clkPrev (g : NanSource) (c : Channel) (i : Nat) (v : Word) : (s.headWrite g c i v).clkPrev = s.clkPrev :=
  by unfold State.headWrite; split <;> simp
@[simp] theorem State.headWrite_clkAge (g : NanSource) (c : Channel) (i : Nat) (v : Word) : (s.headWrite g c i v).clkAge = s.clkAge :=
  by unfold State.headWrite; split <;> simp
@[simp] theorem State.headWrite_synced (g : NanSource) (c : Channel) (i : Nat) (v : Word) : (s.headWrite g c i v).synced = s.synced :=
  by unfold State.headWrite; split <;> simp
@[simp] theorem State.headWrite_trigPend (g : NanSource) (c : Channel) (i : Nat) (v : Word) : (s.headWrite g c i v).trigPend = s.trigPend :=
  by unfold State.headWrite; split <;> simp
@[simp] theorem State.headWrite_errIllegal (g : NanSource) (c : Channel) (i : Nat) (v : Word) : (s.headWrite g c i v).errIllegal = s.errIllegal :=
  by unfold State.headWrite; split <;> simp
@[simp] theorem State.headWrite_errNonfinite (g : NanSource) (c : Channel) (i : Nat) (v : Word) : (s.headWrite g c i v).errNonfinite = s.errNonfinite :=
  by unfold State.headWrite; split <;> simp
@[simp] theorem State.headWrite_errBusy (g : NanSource) (c : Channel) (i : Nat) (v : Word) : (s.headWrite g c i v).errBusy = s.errBusy :=
  by unfold State.headWrite; split <;> simp
@[simp] theorem State.headWrite_draws (g : NanSource) (c : Channel) (i : Nat) (v : Word) : (s.headWrite g c i v).draws = s.draws :=
  by unfold State.headWrite; split <;> simp
@[simp] theorem State.headWrite_errLog (g : NanSource) (c : Channel) (i : Nat) (v : Word) : (s.headWrite g c i v).errLog = s.errLog :=
  by unfold State.headWrite; split <;> simp

/-! ### `writeChannel` -/

@[simp] theorem State.writeChannel_cfg (g : NanSource) (c : Channel) (v : Word) : (s.writeChannel g c v).cfg = s.cfg :=
  by simp [State.writeChannel]
@[simp] theorem State.writeChannel_host (g : NanSource) (c : Channel) (v : Word) : (s.writeChannel g c v).host = s.host :=
  by simp [State.writeChannel]
@[simp] theorem State.writeChannel_arg0 (g : NanSource) (c : Channel) (v : Word) : (s.writeChannel g c v).arg0 = s.arg0 :=
  by simp [State.writeChannel]
@[simp] theorem State.writeChannel_arg1 (g : NanSource) (c : Channel) (v : Word) : (s.writeChannel g c v).arg1 = s.arg1 :=
  by simp [State.writeChannel]
@[simp] theorem State.writeChannel_arg2 (g : NanSource) (c : Channel) (v : Word) : (s.writeChannel g c v).arg2 = s.arg2 :=
  by simp [State.writeChannel]
@[simp] theorem State.writeChannel_res0 (g : NanSource) (c : Channel) (v : Word) : (s.writeChannel g c v).res0 = s.res0 :=
  by simp [State.writeChannel]
@[simp] theorem State.writeChannel_res1 (g : NanSource) (c : Channel) (v : Word) : (s.writeChannel g c v).res1 = s.res1 :=
  by simp [State.writeChannel]
@[simp] theorem State.writeChannel_speedRaw (g : NanSource) (c : Channel) (v : Word) : (s.writeChannel g c v).speedRaw = s.speedRaw :=
  by simp [State.writeChannel]
@[simp] theorem State.writeChannel_startX (g : NanSource) (c : Channel) (v : Word) : (s.writeChannel g c v).startX = s.startX :=
  by simp [State.writeChannel]
@[simp] theorem State.writeChannel_lengthX (g : NanSource) (c : Channel) (v : Word) : (s.writeChannel g c v).lengthX = s.lengthX :=
  by simp [State.writeChannel]
@[simp] theorem State.writeChannel_recX (g : NanSource) (c : Channel) (v : Word) : (s.writeChannel g c v).recX = s.recX :=
  by simp [State.writeChannel]
@[simp] theorem State.writeChannel_sosX (g : NanSource) (c : Channel) (v : Word) : (s.writeChannel g c v).sosX = s.sosX :=
  by simp [State.writeChannel]
@[simp] theorem State.writeChannel_filterX (g : NanSource) (c : Channel) (v : Word) : (s.writeChannel g c v).filterX = s.filterX :=
  by simp [State.writeChannel]
@[simp] theorem State.writeChannel_spd (g : NanSource) (c : Channel) (v : Word) : (s.writeChannel g c v).spd = s.spd :=
  by simp [State.writeChannel]
@[simp] theorem State.writeChannel_vol (g : NanSource) (c : Channel) (v : Word) : (s.writeChannel g c v).vol = s.vol :=
  by simp [State.writeChannel]
@[simp] theorem State.writeChannel_sosL (g : NanSource) (c : Channel) (v : Word) : (s.writeChannel g c v).sosL = s.sosL :=
  by simp [State.writeChannel]
@[simp] theorem State.writeChannel_filterL (g : NanSource) (c : Channel) (v : Word) : (s.writeChannel g c v).filterL = s.filterL :=
  by simp [State.writeChannel]
@[simp] theorem State.writeChannel_start (g : NanSource) (c : Channel) (v : Word) : (s.writeChannel g c v).start = s.start :=
  by simp [State.writeChannel]
@[simp] theorem State.writeChannel_length (g : NanSource) (c : Channel) (v : Word) : (s.writeChannel g c v).length = s.length :=
  by simp [State.writeChannel]
@[simp] theorem State.writeChannel_phase (g : NanSource) (c : Channel) (v : Word) : (s.writeChannel g c v).phase = s.phase :=
  by simp [State.writeChannel]
@[simp] theorem State.writeChannel_nstart (g : NanSource) (c : Channel) (v : Word) : (s.writeChannel g c v).nstart = s.nstart :=
  by simp [State.writeChannel]
@[simp] theorem State.writeChannel_nlength (g : NanSource) (c : Channel) (v : Word) : (s.writeChannel g c v).nlength = s.nlength :=
  by simp [State.writeChannel]
@[simp] theorem State.writeChannel_nphase (g : NanSource) (c : Channel) (v : Word) : (s.writeChannel g c v).nphase = s.nphase :=
  by simp [State.writeChannel]
@[simp] theorem State.writeChannel_xfKind (g : NanSource) (c : Channel) (v : Word) : (s.writeChannel g c v).xfKind = s.xfKind :=
  by simp [State.writeChannel]
@[simp] theorem State.writeChannel_xfProg (g : NanSource) (c : Channel) (v : Word) : (s.writeChannel g c v).xfProg = s.xfProg :=
  by simp [State.writeChannel]
@[simp] theorem State.writeChannel_xfWin (g : NanSource) (c : Channel) (v : Word) : (s.writeChannel g c v).xfWin = s.xfWin :=
  by simp [State.writeChannel]
@[simp] theorem State.writeChannel_xo (g : NanSource) (c : Channel) (v : Word) : (s.writeChannel g c v).xo = s.xo :=
  by simp [State.writeChannel]
@[simp] theorem State.writeChannel_wp (g : NanSource) (c : Channel) (v : Word) : (s.writeChannel g c v).wp = s.wp :=
  by simp [State.writeChannel]
@[simp] theorem State.writeChannel_clrBusy (g : NanSource) (c : Channel) (v : Word) : (s.writeChannel g c v).clrBusy = s.clrBusy :=
  by simp [State.writeChannel]
@[simp] theorem State.writeChannel_clrPtr (g : NanSource) (c : Channel) (v : Word) : (s.writeChannel g c v).clrPtr = s.clrPtr :=
  by simp [State.writeChannel]
@[simp] theorem State.writeChannel_clkPrev (g : NanSource) (c : Channel) (v : Word) : (s.writeChannel g c v).clkPrev = s.clkPrev :=
  by simp [State.writeChannel]
@[simp] theorem State.writeChannel_clkAge (g : NanSource) (c : Channel) (v : Word) : (s.writeChannel g c v).clkAge = s.clkAge :=
  by simp [State.writeChannel]
@[simp] theorem State.writeChannel_synced (g : NanSource) (c : Channel) (v : Word) : (s.writeChannel g c v).synced = s.synced :=
  by simp [State.writeChannel]
@[simp] theorem State.writeChannel_trigPend (g : NanSource) (c : Channel) (v : Word) : (s.writeChannel g c v).trigPend = s.trigPend :=
  by simp [State.writeChannel]
@[simp] theorem State.writeChannel_errIllegal (g : NanSource) (c : Channel) (v : Word) : (s.writeChannel g c v).errIllegal = s.errIllegal :=
  by simp [State.writeChannel]
@[simp] theorem State.writeChannel_errNonfinite (g : NanSource) (c : Channel) (v : Word) : (s.writeChannel g c v).errNonfinite = s.errNonfinite :=
  by simp [State.writeChannel]
@[simp] theorem State.writeChannel_errBusy (g : NanSource) (c : Channel) (v : Word) : (s.writeChannel g c v).errBusy = s.errBusy :=
  by simp [State.writeChannel]
@[simp] theorem State.writeChannel_draws (g : NanSource) (c : Channel) (v : Word) : (s.writeChannel g c v).draws = s.draws :=
  by simp [State.writeChannel]
@[simp] theorem State.writeChannel_errLog (g : NanSource) (c : Channel) (v : Word) : (s.writeChannel g c v).errLog = s.errLog :=
  by simp [State.writeChannel]

/-! ### `writeStage` -/

@[simp] theorem State.writeStage_cfg (g : NanSource) (a b : Word) : (s.writeStage g a b).cfg = s.cfg :=
  by unfold State.writeStage; split <;> simp
@[simp] theorem State.writeStage_host (g : NanSource) (a b : Word) : (s.writeStage g a b).host = s.host :=
  by unfold State.writeStage; split <;> simp
@[simp] theorem State.writeStage_arg0 (g : NanSource) (a b : Word) : (s.writeStage g a b).arg0 = s.arg0 :=
  by unfold State.writeStage; split <;> simp
@[simp] theorem State.writeStage_arg1 (g : NanSource) (a b : Word) : (s.writeStage g a b).arg1 = s.arg1 :=
  by unfold State.writeStage; split <;> simp
@[simp] theorem State.writeStage_arg2 (g : NanSource) (a b : Word) : (s.writeStage g a b).arg2 = s.arg2 :=
  by unfold State.writeStage; split <;> simp
@[simp] theorem State.writeStage_res0 (g : NanSource) (a b : Word) : (s.writeStage g a b).res0 = s.res0 :=
  by unfold State.writeStage; split <;> simp
@[simp] theorem State.writeStage_res1 (g : NanSource) (a b : Word) : (s.writeStage g a b).res1 = s.res1 :=
  by unfold State.writeStage; split <;> simp
@[simp] theorem State.writeStage_speedRaw (g : NanSource) (a b : Word) : (s.writeStage g a b).speedRaw = s.speedRaw :=
  by unfold State.writeStage; split <;> simp
@[simp] theorem State.writeStage_startX (g : NanSource) (a b : Word) : (s.writeStage g a b).startX = s.startX :=
  by unfold State.writeStage; split <;> simp
@[simp] theorem State.writeStage_lengthX (g : NanSource) (a b : Word) : (s.writeStage g a b).lengthX = s.lengthX :=
  by unfold State.writeStage; split <;> simp
@[simp] theorem State.writeStage_recX (g : NanSource) (a b : Word) : (s.writeStage g a b).recX = s.recX :=
  by unfold State.writeStage; split <;> simp
@[simp] theorem State.writeStage_sosX (g : NanSource) (a b : Word) : (s.writeStage g a b).sosX = s.sosX :=
  by unfold State.writeStage; split <;> simp
@[simp] theorem State.writeStage_filterX (g : NanSource) (a b : Word) : (s.writeStage g a b).filterX = s.filterX :=
  by unfold State.writeStage; split <;> simp
@[simp] theorem State.writeStage_spd (g : NanSource) (a b : Word) : (s.writeStage g a b).spd = s.spd :=
  by unfold State.writeStage; split <;> simp
@[simp] theorem State.writeStage_vol (g : NanSource) (a b : Word) : (s.writeStage g a b).vol = s.vol :=
  by unfold State.writeStage; split <;> simp
@[simp] theorem State.writeStage_sosL (g : NanSource) (a b : Word) : (s.writeStage g a b).sosL = s.sosL :=
  by unfold State.writeStage; split <;> simp
@[simp] theorem State.writeStage_filterL (g : NanSource) (a b : Word) : (s.writeStage g a b).filterL = s.filterL :=
  by unfold State.writeStage; split <;> simp
@[simp] theorem State.writeStage_start (g : NanSource) (a b : Word) : (s.writeStage g a b).start = s.start :=
  by unfold State.writeStage; split <;> simp
@[simp] theorem State.writeStage_length (g : NanSource) (a b : Word) : (s.writeStage g a b).length = s.length :=
  by unfold State.writeStage; split <;> simp
@[simp] theorem State.writeStage_phase (g : NanSource) (a b : Word) : (s.writeStage g a b).phase = s.phase :=
  by unfold State.writeStage; split <;> simp
@[simp] theorem State.writeStage_nstart (g : NanSource) (a b : Word) : (s.writeStage g a b).nstart = s.nstart :=
  by unfold State.writeStage; split <;> simp
@[simp] theorem State.writeStage_nlength (g : NanSource) (a b : Word) : (s.writeStage g a b).nlength = s.nlength :=
  by unfold State.writeStage; split <;> simp
@[simp] theorem State.writeStage_nphase (g : NanSource) (a b : Word) : (s.writeStage g a b).nphase = s.nphase :=
  by unfold State.writeStage; split <;> simp
@[simp] theorem State.writeStage_xfKind (g : NanSource) (a b : Word) : (s.writeStage g a b).xfKind = s.xfKind :=
  by unfold State.writeStage; split <;> simp
@[simp] theorem State.writeStage_xfProg (g : NanSource) (a b : Word) : (s.writeStage g a b).xfProg = s.xfProg :=
  by unfold State.writeStage; split <;> simp
@[simp] theorem State.writeStage_xfWin (g : NanSource) (a b : Word) : (s.writeStage g a b).xfWin = s.xfWin :=
  by unfold State.writeStage; split <;> simp
@[simp] theorem State.writeStage_xo (g : NanSource) (a b : Word) : (s.writeStage g a b).xo = s.xo :=
  by unfold State.writeStage; split <;> simp
@[simp] theorem State.writeStage_clrBusy (g : NanSource) (a b : Word) : (s.writeStage g a b).clrBusy = s.clrBusy :=
  by unfold State.writeStage; split <;> simp
@[simp] theorem State.writeStage_clrPtr (g : NanSource) (a b : Word) : (s.writeStage g a b).clrPtr = s.clrPtr :=
  by unfold State.writeStage; split <;> simp
@[simp] theorem State.writeStage_clkPrev (g : NanSource) (a b : Word) : (s.writeStage g a b).clkPrev = s.clkPrev :=
  by unfold State.writeStage; split <;> simp
@[simp] theorem State.writeStage_clkAge (g : NanSource) (a b : Word) : (s.writeStage g a b).clkAge = s.clkAge :=
  by unfold State.writeStage; split <;> simp
@[simp] theorem State.writeStage_synced (g : NanSource) (a b : Word) : (s.writeStage g a b).synced = s.synced :=
  by unfold State.writeStage; split <;> simp
@[simp] theorem State.writeStage_trigPend (g : NanSource) (a b : Word) : (s.writeStage g a b).trigPend = s.trigPend :=
  by unfold State.writeStage; split <;> simp
@[simp] theorem State.writeStage_errIllegal (g : NanSource) (a b : Word) : (s.writeStage g a b).errIllegal = s.errIllegal :=
  by unfold State.writeStage; split <;> simp
@[simp] theorem State.writeStage_errNonfinite (g : NanSource) (a b : Word) : (s.writeStage g a b).errNonfinite = s.errNonfinite :=
  by unfold State.writeStage; split <;> simp
@[simp] theorem State.writeStage_errBusy (g : NanSource) (a b : Word) : (s.writeStage g a b).errBusy = s.errBusy :=
  by unfold State.writeStage; split <;> simp
@[simp] theorem State.writeStage_draws (g : NanSource) (a b : Word) : (s.writeStage g a b).draws = s.draws :=
  by unfold State.writeStage; split <;> simp
@[simp] theorem State.writeStage_errLog (g : NanSource) (a b : Word) : (s.writeStage g a b).errLog = s.errLog :=
  by unfold State.writeStage; split <;> simp

/-! ### `readStage` -/

@[simp] theorem State.readStage_cfg (g : NanSource) : (s.readStage g).cfg = s.cfg := rfl
@[simp] theorem State.readStage_host (g : NanSource) : (s.readStage g).host = s.host := rfl
@[simp] theorem State.readStage_arg0 (g : NanSource) : (s.readStage g).arg0 = s.arg0 := rfl
@[simp] theorem State.readStage_arg1 (g : NanSource) : (s.readStage g).arg1 = s.arg1 := rfl
@[simp] theorem State.readStage_arg2 (g : NanSource) : (s.readStage g).arg2 = s.arg2 := rfl
@[simp] theorem State.readStage_speedRaw (g : NanSource) : (s.readStage g).speedRaw = s.speedRaw := rfl
@[simp] theorem State.readStage_startX (g : NanSource) : (s.readStage g).startX = s.startX := rfl
@[simp] theorem State.readStage_lengthX (g : NanSource) : (s.readStage g).lengthX = s.lengthX := rfl
@[simp] theorem State.readStage_recX (g : NanSource) : (s.readStage g).recX = s.recX := rfl
@[simp] theorem State.readStage_sosX (g : NanSource) : (s.readStage g).sosX = s.sosX := rfl
@[simp] theorem State.readStage_filterX (g : NanSource) : (s.readStage g).filterX = s.filterX := rfl
@[simp] theorem State.readStage_spd (g : NanSource) : (s.readStage g).spd = s.spd := rfl
@[simp] theorem State.readStage_vol (g : NanSource) : (s.readStage g).vol = s.vol := rfl
@[simp] theorem State.readStage_sosL (g : NanSource) : (s.readStage g).sosL = s.sosL := rfl
@[simp] theorem State.readStage_filterL (g : NanSource) : (s.readStage g).filterL = s.filterL := rfl
@[simp] theorem State.readStage_start (g : NanSource) : (s.readStage g).start = s.start := rfl
@[simp] theorem State.readStage_length (g : NanSource) : (s.readStage g).length = s.length := rfl
@[simp] theorem State.readStage_phase (g : NanSource) : (s.readStage g).phase = s.phase := rfl
@[simp] theorem State.readStage_nstart (g : NanSource) : (s.readStage g).nstart = s.nstart := rfl
@[simp] theorem State.readStage_nlength (g : NanSource) : (s.readStage g).nlength = s.nlength := rfl
@[simp] theorem State.readStage_nphase (g : NanSource) : (s.readStage g).nphase = s.nphase := rfl
@[simp] theorem State.readStage_xfKind (g : NanSource) : (s.readStage g).xfKind = s.xfKind := rfl
@[simp] theorem State.readStage_xfProg (g : NanSource) : (s.readStage g).xfProg = s.xfProg := rfl
@[simp] theorem State.readStage_xfWin (g : NanSource) : (s.readStage g).xfWin = s.xfWin := rfl
@[simp] theorem State.readStage_xo (g : NanSource) : (s.readStage g).xo = s.xo := rfl
@[simp] theorem State.readStage_wp (g : NanSource) : (s.readStage g).wp = s.wp := rfl
@[simp] theorem State.readStage_headL (g : NanSource) : (s.readStage g).headL = s.headL := rfl
@[simp] theorem State.readStage_headR (g : NanSource) : (s.readStage g).headR = s.headR := rfl
@[simp] theorem State.readStage_clrBusy (g : NanSource) : (s.readStage g).clrBusy = s.clrBusy := rfl
@[simp] theorem State.readStage_clrPtr (g : NanSource) : (s.readStage g).clrPtr = s.clrPtr := rfl
@[simp] theorem State.readStage_clkPrev (g : NanSource) : (s.readStage g).clkPrev = s.clkPrev := rfl
@[simp] theorem State.readStage_clkAge (g : NanSource) : (s.readStage g).clkAge = s.clkAge := rfl
@[simp] theorem State.readStage_synced (g : NanSource) : (s.readStage g).synced = s.synced := rfl
@[simp] theorem State.readStage_trigPend (g : NanSource) : (s.readStage g).trigPend = s.trigPend := rfl
@[simp] theorem State.readStage_errIllegal (g : NanSource) : (s.readStage g).errIllegal = s.errIllegal := rfl
@[simp] theorem State.readStage_errNonfinite (g : NanSource) : (s.readStage g).errNonfinite = s.errNonfinite := rfl
@[simp] theorem State.readStage_errBusy (g : NanSource) : (s.readStage g).errBusy = s.errBusy := rfl
@[simp] theorem State.readStage_mem (g : NanSource) : (s.readStage g).mem = s.mem := rfl
@[simp] theorem State.readStage_draws (g : NanSource) : (s.readStage g).draws = s.draws := rfl
@[simp] theorem State.readStage_errLog (g : NanSource) : (s.readStage g).errLog = s.errLog := rfl

/-! ### `advancePhases` -/

@[simp] theorem State.advancePhases_cfg (g : NanSource) : (s.advancePhases g).cfg = s.cfg :=
  by unfold State.advancePhases; split <;> rfl
@[simp] theorem State.advancePhases_host (g : NanSource) : (s.advancePhases g).host = s.host :=
  by unfold State.advancePhases; split <;> rfl
@[simp] theorem State.advancePhases_arg0 (g : NanSource) : (s.advancePhases g).arg0 = s.arg0 :=
  by unfold State.advancePhases; split <;> rfl
@[simp] theorem State.advancePhases_arg1 (g : NanSource) : (s.advancePhases g).arg1 = s.arg1 :=
  by unfold State.advancePhases; split <;> rfl
@[simp] theorem State.advancePhases_arg2 (g : NanSource) : (s.advancePhases g).arg2 = s.arg2 :=
  by unfold State.advancePhases; split <;> rfl
@[simp] theorem State.advancePhases_res0 (g : NanSource) : (s.advancePhases g).res0 = s.res0 :=
  by unfold State.advancePhases; split <;> rfl
@[simp] theorem State.advancePhases_res1 (g : NanSource) : (s.advancePhases g).res1 = s.res1 :=
  by unfold State.advancePhases; split <;> rfl
@[simp] theorem State.advancePhases_speedRaw (g : NanSource) : (s.advancePhases g).speedRaw = s.speedRaw :=
  by unfold State.advancePhases; split <;> rfl
@[simp] theorem State.advancePhases_startX (g : NanSource) : (s.advancePhases g).startX = s.startX :=
  by unfold State.advancePhases; split <;> rfl
@[simp] theorem State.advancePhases_lengthX (g : NanSource) : (s.advancePhases g).lengthX = s.lengthX :=
  by unfold State.advancePhases; split <;> rfl
@[simp] theorem State.advancePhases_recX (g : NanSource) : (s.advancePhases g).recX = s.recX :=
  by unfold State.advancePhases; split <;> rfl
@[simp] theorem State.advancePhases_sosX (g : NanSource) : (s.advancePhases g).sosX = s.sosX :=
  by unfold State.advancePhases; split <;> rfl
@[simp] theorem State.advancePhases_filterX (g : NanSource) : (s.advancePhases g).filterX = s.filterX :=
  by unfold State.advancePhases; split <;> rfl
@[simp] theorem State.advancePhases_spd (g : NanSource) : (s.advancePhases g).spd = s.spd :=
  by unfold State.advancePhases; split <;> rfl
@[simp] theorem State.advancePhases_vol (g : NanSource) : (s.advancePhases g).vol = s.vol :=
  by unfold State.advancePhases; split <;> rfl
@[simp] theorem State.advancePhases_sosL (g : NanSource) : (s.advancePhases g).sosL = s.sosL :=
  by unfold State.advancePhases; split <;> rfl
@[simp] theorem State.advancePhases_filterL (g : NanSource) : (s.advancePhases g).filterL = s.filterL :=
  by unfold State.advancePhases; split <;> rfl
@[simp] theorem State.advancePhases_start (g : NanSource) : (s.advancePhases g).start = s.start :=
  by unfold State.advancePhases; split <;> rfl
@[simp] theorem State.advancePhases_length (g : NanSource) : (s.advancePhases g).length = s.length :=
  by unfold State.advancePhases; split <;> rfl
@[simp] theorem State.advancePhases_nstart (g : NanSource) : (s.advancePhases g).nstart = s.nstart :=
  by unfold State.advancePhases; split <;> rfl
@[simp] theorem State.advancePhases_nlength (g : NanSource) : (s.advancePhases g).nlength = s.nlength :=
  by unfold State.advancePhases; split <;> rfl
@[simp] theorem State.advancePhases_xfKind (g : NanSource) : (s.advancePhases g).xfKind = s.xfKind :=
  by unfold State.advancePhases; split <;> rfl
@[simp] theorem State.advancePhases_xfProg (g : NanSource) : (s.advancePhases g).xfProg = s.xfProg :=
  by unfold State.advancePhases; split <;> rfl
@[simp] theorem State.advancePhases_xfWin (g : NanSource) : (s.advancePhases g).xfWin = s.xfWin :=
  by unfold State.advancePhases; split <;> rfl
@[simp] theorem State.advancePhases_xo (g : NanSource) : (s.advancePhases g).xo = s.xo :=
  by unfold State.advancePhases; split <;> rfl
@[simp] theorem State.advancePhases_wp (g : NanSource) : (s.advancePhases g).wp = s.wp :=
  by unfold State.advancePhases; split <;> rfl
@[simp] theorem State.advancePhases_headL (g : NanSource) : (s.advancePhases g).headL = s.headL :=
  by unfold State.advancePhases; split <;> rfl
@[simp] theorem State.advancePhases_headR (g : NanSource) : (s.advancePhases g).headR = s.headR :=
  by unfold State.advancePhases; split <;> rfl
@[simp] theorem State.advancePhases_clrBusy (g : NanSource) : (s.advancePhases g).clrBusy = s.clrBusy :=
  by unfold State.advancePhases; split <;> rfl
@[simp] theorem State.advancePhases_clrPtr (g : NanSource) : (s.advancePhases g).clrPtr = s.clrPtr :=
  by unfold State.advancePhases; split <;> rfl
@[simp] theorem State.advancePhases_clkPrev (g : NanSource) : (s.advancePhases g).clkPrev = s.clkPrev :=
  by unfold State.advancePhases; split <;> rfl
@[simp] theorem State.advancePhases_clkAge (g : NanSource) : (s.advancePhases g).clkAge = s.clkAge :=
  by unfold State.advancePhases; split <;> rfl
@[simp] theorem State.advancePhases_synced (g : NanSource) : (s.advancePhases g).synced = s.synced :=
  by unfold State.advancePhases; split <;> rfl
@[simp] theorem State.advancePhases_trigPend (g : NanSource) : (s.advancePhases g).trigPend = s.trigPend :=
  by unfold State.advancePhases; split <;> rfl
@[simp] theorem State.advancePhases_errIllegal (g : NanSource) : (s.advancePhases g).errIllegal = s.errIllegal :=
  by unfold State.advancePhases; split <;> rfl
@[simp] theorem State.advancePhases_errNonfinite (g : NanSource) : (s.advancePhases g).errNonfinite = s.errNonfinite :=
  by unfold State.advancePhases; split <;> rfl
@[simp] theorem State.advancePhases_errBusy (g : NanSource) : (s.advancePhases g).errBusy = s.errBusy :=
  by unfold State.advancePhases; split <;> rfl
@[simp] theorem State.advancePhases_mem (g : NanSource) : (s.advancePhases g).mem = s.mem :=
  by unfold State.advancePhases; split <;> rfl
@[simp] theorem State.advancePhases_draws (g : NanSource) : (s.advancePhases g).draws = s.draws :=
  by unfold State.advancePhases; split <;> rfl
@[simp] theorem State.advancePhases_errLog (g : NanSource) : (s.advancePhases g).errLog = s.errLog :=
  by unfold State.advancePhases; split <;> rfl

/-! ### `advanceTail` -/

@[simp] theorem State.advanceTail_cfg (g : NanSource) : (s.advanceTail g).cfg = s.cfg :=
  by unfold State.advanceTail; split <;> rfl
@[simp] theorem State.advanceTail_host (g : NanSource) : (s.advanceTail g).host = s.host :=
  by unfold State.advanceTail; split <;> rfl
@[simp] theorem State.advanceTail_arg0 (g : NanSource) : (s.advanceTail g).arg0 = s.arg0 :=
  by unfold State.advanceTail; split <;> rfl
@[simp] theorem State.advanceTail_arg1 (g : NanSource) : (s.advanceTail g).arg1 = s.arg1 :=
  by unfold State.advanceTail; split <;> rfl
@[simp] theorem State.advanceTail_arg2 (g : NanSource) : (s.advanceTail g).arg2 = s.arg2 :=
  by unfold State.advanceTail; split <;> rfl
@[simp] theorem State.advanceTail_res0 (g : NanSource) : (s.advanceTail g).res0 = s.res0 :=
  by unfold State.advanceTail; split <;> rfl
@[simp] theorem State.advanceTail_res1 (g : NanSource) : (s.advanceTail g).res1 = s.res1 :=
  by unfold State.advanceTail; split <;> rfl
@[simp] theorem State.advanceTail_speedRaw (g : NanSource) : (s.advanceTail g).speedRaw = s.speedRaw :=
  by unfold State.advanceTail; split <;> rfl
@[simp] theorem State.advanceTail_startX (g : NanSource) : (s.advanceTail g).startX = s.startX :=
  by unfold State.advanceTail; split <;> rfl
@[simp] theorem State.advanceTail_lengthX (g : NanSource) : (s.advanceTail g).lengthX = s.lengthX :=
  by unfold State.advanceTail; split <;> rfl
@[simp] theorem State.advanceTail_recX (g : NanSource) : (s.advanceTail g).recX = s.recX :=
  by unfold State.advanceTail; split <;> rfl
@[simp] theorem State.advanceTail_sosX (g : NanSource) : (s.advanceTail g).sosX = s.sosX :=
  by unfold State.advanceTail; split <;> rfl
@[simp] theorem State.advanceTail_filterX (g : NanSource) : (s.advanceTail g).filterX = s.filterX :=
  by unfold State.advanceTail; split <;> rfl
@[simp] theorem State.advanceTail_spd (g : NanSource) : (s.advanceTail g).spd = s.spd :=
  by unfold State.advanceTail; split <;> rfl
@[simp] theorem State.advanceTail_vol (g : NanSource) : (s.advanceTail g).vol = s.vol :=
  by unfold State.advanceTail; split <;> rfl
@[simp] theorem State.advanceTail_sosL (g : NanSource) : (s.advanceTail g).sosL = s.sosL :=
  by unfold State.advanceTail; split <;> rfl
@[simp] theorem State.advanceTail_filterL (g : NanSource) : (s.advanceTail g).filterL = s.filterL :=
  by unfold State.advanceTail; split <;> rfl
@[simp] theorem State.advanceTail_start (g : NanSource) : (s.advanceTail g).start = s.start :=
  by unfold State.advanceTail; split <;> rfl
@[simp] theorem State.advanceTail_length (g : NanSource) : (s.advanceTail g).length = s.length :=
  by unfold State.advanceTail; split <;> rfl
@[simp] theorem State.advanceTail_phase (g : NanSource) : (s.advanceTail g).phase = s.phase :=
  by unfold State.advanceTail; split <;> rfl
@[simp] theorem State.advanceTail_nstart (g : NanSource) : (s.advanceTail g).nstart = s.nstart :=
  by unfold State.advanceTail; split <;> rfl
@[simp] theorem State.advanceTail_nlength (g : NanSource) : (s.advanceTail g).nlength = s.nlength :=
  by unfold State.advanceTail; split <;> rfl
@[simp] theorem State.advanceTail_nphase (g : NanSource) : (s.advanceTail g).nphase = s.nphase :=
  by unfold State.advanceTail; split <;> rfl
@[simp] theorem State.advanceTail_xfKind (g : NanSource) : (s.advanceTail g).xfKind = s.xfKind :=
  by unfold State.advanceTail; split <;> rfl
@[simp] theorem State.advanceTail_xfProg (g : NanSource) : (s.advanceTail g).xfProg = s.xfProg :=
  by unfold State.advanceTail; split <;> rfl
@[simp] theorem State.advanceTail_xfWin (g : NanSource) : (s.advanceTail g).xfWin = s.xfWin :=
  by unfold State.advanceTail; split <;> rfl
@[simp] theorem State.advanceTail_wp (g : NanSource) : (s.advanceTail g).wp = s.wp := by unfold State.advanceTail; split <;> rfl
@[simp] theorem State.advanceTail_headL (g : NanSource) : (s.advanceTail g).headL = s.headL :=
  by unfold State.advanceTail; split <;> rfl
@[simp] theorem State.advanceTail_headR (g : NanSource) : (s.advanceTail g).headR = s.headR :=
  by unfold State.advanceTail; split <;> rfl
@[simp] theorem State.advanceTail_clrBusy (g : NanSource) : (s.advanceTail g).clrBusy = s.clrBusy :=
  by unfold State.advanceTail; split <;> rfl
@[simp] theorem State.advanceTail_clrPtr (g : NanSource) : (s.advanceTail g).clrPtr = s.clrPtr :=
  by unfold State.advanceTail; split <;> rfl
@[simp] theorem State.advanceTail_clkPrev (g : NanSource) : (s.advanceTail g).clkPrev = s.clkPrev :=
  by unfold State.advanceTail; split <;> rfl
@[simp] theorem State.advanceTail_clkAge (g : NanSource) : (s.advanceTail g).clkAge = s.clkAge :=
  by unfold State.advanceTail; split <;> rfl
@[simp] theorem State.advanceTail_synced (g : NanSource) : (s.advanceTail g).synced = s.synced :=
  by unfold State.advanceTail; split <;> rfl
@[simp] theorem State.advanceTail_trigPend (g : NanSource) : (s.advanceTail g).trigPend = s.trigPend :=
  by unfold State.advanceTail; split <;> rfl
@[simp] theorem State.advanceTail_errIllegal (g : NanSource) : (s.advanceTail g).errIllegal = s.errIllegal :=
  by unfold State.advanceTail; split <;> rfl
@[simp] theorem State.advanceTail_errNonfinite (g : NanSource) : (s.advanceTail g).errNonfinite = s.errNonfinite :=
  by unfold State.advanceTail; split <;> rfl
@[simp] theorem State.advanceTail_errBusy (g : NanSource) : (s.advanceTail g).errBusy = s.errBusy :=
  by unfold State.advanceTail; split <;> rfl
@[simp] theorem State.advanceTail_mem (g : NanSource) : (s.advanceTail g).mem = s.mem :=
  by unfold State.advanceTail; split <;> rfl
@[simp] theorem State.advanceTail_draws (g : NanSource) : (s.advanceTail g).draws = s.draws :=
  by unfold State.advanceTail; split <;> rfl
@[simp] theorem State.advanceTail_errLog (g : NanSource) : (s.advanceTail g).errLog = s.errLog :=
  by unfold State.advanceTail; split <;> rfl

/-! ### `advanceProgress` -/

@[simp] theorem State.advanceProgress_cfg (g : NanSource) : (s.advanceProgress g).cfg = s.cfg :=
  by unfold State.advanceProgress; split <;> rfl
@[simp] theorem State.advanceProgress_host (g : NanSource) : (s.advanceProgress g).host = s.host :=
  by unfold State.advanceProgress; split <;> rfl
@[simp] theorem State.advanceProgress_arg0 (g : NanSource) : (s.advanceProgress g).arg0 = s.arg0 :=
  by unfold State.advanceProgress; split <;> rfl
@[simp] theorem State.advanceProgress_arg1 (g : NanSource) : (s.advanceProgress g).arg1 = s.arg1 :=
  by unfold State.advanceProgress; split <;> rfl
@[simp] theorem State.advanceProgress_arg2 (g : NanSource) : (s.advanceProgress g).arg2 = s.arg2 :=
  by unfold State.advanceProgress; split <;> rfl
@[simp] theorem State.advanceProgress_res0 (g : NanSource) : (s.advanceProgress g).res0 = s.res0 :=
  by unfold State.advanceProgress; split <;> rfl
@[simp] theorem State.advanceProgress_res1 (g : NanSource) : (s.advanceProgress g).res1 = s.res1 :=
  by unfold State.advanceProgress; split <;> rfl
@[simp] theorem State.advanceProgress_speedRaw (g : NanSource) : (s.advanceProgress g).speedRaw = s.speedRaw :=
  by unfold State.advanceProgress; split <;> rfl
@[simp] theorem State.advanceProgress_startX (g : NanSource) : (s.advanceProgress g).startX = s.startX :=
  by unfold State.advanceProgress; split <;> rfl
@[simp] theorem State.advanceProgress_lengthX (g : NanSource) : (s.advanceProgress g).lengthX = s.lengthX :=
  by unfold State.advanceProgress; split <;> rfl
@[simp] theorem State.advanceProgress_recX (g : NanSource) : (s.advanceProgress g).recX = s.recX :=
  by unfold State.advanceProgress; split <;> rfl
@[simp] theorem State.advanceProgress_sosX (g : NanSource) : (s.advanceProgress g).sosX = s.sosX :=
  by unfold State.advanceProgress; split <;> rfl
@[simp] theorem State.advanceProgress_filterX (g : NanSource) : (s.advanceProgress g).filterX = s.filterX :=
  by unfold State.advanceProgress; split <;> rfl
@[simp] theorem State.advanceProgress_spd (g : NanSource) : (s.advanceProgress g).spd = s.spd :=
  by unfold State.advanceProgress; split <;> rfl
@[simp] theorem State.advanceProgress_vol (g : NanSource) : (s.advanceProgress g).vol = s.vol :=
  by unfold State.advanceProgress; split <;> rfl
@[simp] theorem State.advanceProgress_sosL (g : NanSource) : (s.advanceProgress g).sosL = s.sosL :=
  by unfold State.advanceProgress; split <;> rfl
@[simp] theorem State.advanceProgress_filterL (g : NanSource) : (s.advanceProgress g).filterL = s.filterL :=
  by unfold State.advanceProgress; split <;> rfl
@[simp] theorem State.advanceProgress_start (g : NanSource) : (s.advanceProgress g).start = s.start :=
  by unfold State.advanceProgress; split <;> rfl
@[simp] theorem State.advanceProgress_length (g : NanSource) : (s.advanceProgress g).length = s.length :=
  by unfold State.advanceProgress; split <;> rfl
@[simp] theorem State.advanceProgress_phase (g : NanSource) : (s.advanceProgress g).phase = s.phase :=
  by unfold State.advanceProgress; split <;> rfl
@[simp] theorem State.advanceProgress_nstart (g : NanSource) : (s.advanceProgress g).nstart = s.nstart :=
  by unfold State.advanceProgress; split <;> rfl
@[simp] theorem State.advanceProgress_nlength (g : NanSource) : (s.advanceProgress g).nlength = s.nlength :=
  by unfold State.advanceProgress; split <;> rfl
@[simp] theorem State.advanceProgress_nphase (g : NanSource) : (s.advanceProgress g).nphase = s.nphase :=
  by unfold State.advanceProgress; split <;> rfl
@[simp] theorem State.advanceProgress_xfKind (g : NanSource) : (s.advanceProgress g).xfKind = s.xfKind :=
  by unfold State.advanceProgress; split <;> rfl
@[simp] theorem State.advanceProgress_xfWin (g : NanSource) : (s.advanceProgress g).xfWin = s.xfWin :=
  by unfold State.advanceProgress; split <;> rfl
@[simp] theorem State.advanceProgress_xo (g : NanSource) : (s.advanceProgress g).xo = s.xo :=
  by unfold State.advanceProgress; split <;> rfl
@[simp] theorem State.advanceProgress_wp (g : NanSource) : (s.advanceProgress g).wp = s.wp :=
  by unfold State.advanceProgress; split <;> rfl
@[simp] theorem State.advanceProgress_headL (g : NanSource) : (s.advanceProgress g).headL = s.headL :=
  by unfold State.advanceProgress; split <;> rfl
@[simp] theorem State.advanceProgress_headR (g : NanSource) : (s.advanceProgress g).headR = s.headR :=
  by unfold State.advanceProgress; split <;> rfl
@[simp] theorem State.advanceProgress_clrBusy (g : NanSource) : (s.advanceProgress g).clrBusy = s.clrBusy :=
  by unfold State.advanceProgress; split <;> rfl
@[simp] theorem State.advanceProgress_clrPtr (g : NanSource) : (s.advanceProgress g).clrPtr = s.clrPtr :=
  by unfold State.advanceProgress; split <;> rfl
@[simp] theorem State.advanceProgress_clkPrev (g : NanSource) : (s.advanceProgress g).clkPrev = s.clkPrev :=
  by unfold State.advanceProgress; split <;> rfl
@[simp] theorem State.advanceProgress_clkAge (g : NanSource) : (s.advanceProgress g).clkAge = s.clkAge :=
  by unfold State.advanceProgress; split <;> rfl
@[simp] theorem State.advanceProgress_synced (g : NanSource) : (s.advanceProgress g).synced = s.synced :=
  by unfold State.advanceProgress; split <;> rfl
@[simp] theorem State.advanceProgress_trigPend (g : NanSource) : (s.advanceProgress g).trigPend = s.trigPend :=
  by unfold State.advanceProgress; split <;> rfl
@[simp] theorem State.advanceProgress_errIllegal (g : NanSource) : (s.advanceProgress g).errIllegal = s.errIllegal :=
  by unfold State.advanceProgress; split <;> rfl
@[simp] theorem State.advanceProgress_errNonfinite (g : NanSource) : (s.advanceProgress g).errNonfinite = s.errNonfinite :=
  by unfold State.advanceProgress; split <;> rfl
@[simp] theorem State.advanceProgress_errBusy (g : NanSource) : (s.advanceProgress g).errBusy = s.errBusy :=
  by unfold State.advanceProgress; split <;> rfl
@[simp] theorem State.advanceProgress_mem (g : NanSource) : (s.advanceProgress g).mem = s.mem :=
  by unfold State.advanceProgress; split <;> rfl
@[simp] theorem State.advanceProgress_draws (g : NanSource) : (s.advanceProgress g).draws = s.draws :=
  by unfold State.advanceProgress; split <;> rfl
@[simp] theorem State.advanceProgress_errLog (g : NanSource) : (s.advanceProgress g).errLog = s.errLog :=
  by unfold State.advanceProgress; split <;> rfl

/-! ### `completeTransition` -/

@[simp] theorem State.completeTransition_cfg : (s.completeTransition).cfg = s.cfg :=
  by unfold State.completeTransition; repeat' (first | rfl | split)
@[simp] theorem State.completeTransition_host : (s.completeTransition).host = s.host :=
  by unfold State.completeTransition; repeat' (first | rfl | split)
@[simp] theorem State.completeTransition_arg0 : (s.completeTransition).arg0 = s.arg0 :=
  by unfold State.completeTransition; repeat' (first | rfl | split)
@[simp] theorem State.completeTransition_arg1 : (s.completeTransition).arg1 = s.arg1 :=
  by unfold State.completeTransition; repeat' (first | rfl | split)
@[simp] theorem State.completeTransition_arg2 : (s.completeTransition).arg2 = s.arg2 :=
  by unfold State.completeTransition; repeat' (first | rfl | split)
@[simp] theorem State.completeTransition_res0 : (s.completeTransition).res0 = s.res0 :=
  by unfold State.completeTransition; repeat' (first | rfl | split)
@[simp] theorem State.completeTransition_res1 : (s.completeTransition).res1 = s.res1 :=
  by unfold State.completeTransition; repeat' (first | rfl | split)
@[simp] theorem State.completeTransition_speedRaw : (s.completeTransition).speedRaw = s.speedRaw :=
  by unfold State.completeTransition; repeat' (first | rfl | split)
@[simp] theorem State.completeTransition_startX : (s.completeTransition).startX = s.startX :=
  by unfold State.completeTransition; repeat' (first | rfl | split)
@[simp] theorem State.completeTransition_lengthX : (s.completeTransition).lengthX = s.lengthX :=
  by unfold State.completeTransition; repeat' (first | rfl | split)
@[simp] theorem State.completeTransition_recX : (s.completeTransition).recX = s.recX :=
  by unfold State.completeTransition; repeat' (first | rfl | split)
@[simp] theorem State.completeTransition_sosX : (s.completeTransition).sosX = s.sosX :=
  by unfold State.completeTransition; repeat' (first | rfl | split)
@[simp] theorem State.completeTransition_filterX : (s.completeTransition).filterX = s.filterX :=
  by unfold State.completeTransition; repeat' (first | rfl | split)
@[simp] theorem State.completeTransition_spd : (s.completeTransition).spd = s.spd :=
  by unfold State.completeTransition; repeat' (first | rfl | split)
@[simp] theorem State.completeTransition_vol : (s.completeTransition).vol = s.vol :=
  by unfold State.completeTransition; repeat' (first | rfl | split)
@[simp] theorem State.completeTransition_sosL : (s.completeTransition).sosL = s.sosL :=
  by unfold State.completeTransition; repeat' (first | rfl | split)
@[simp] theorem State.completeTransition_filterL : (s.completeTransition).filterL = s.filterL :=
  by unfold State.completeTransition; repeat' (first | rfl | split)
@[simp] theorem State.completeTransition_nstart : (s.completeTransition).nstart = s.nstart :=
  by unfold State.completeTransition; repeat' (first | rfl | split)
@[simp] theorem State.completeTransition_nlength : (s.completeTransition).nlength = s.nlength :=
  by unfold State.completeTransition; repeat' (first | rfl | split)
@[simp] theorem State.completeTransition_nphase : (s.completeTransition).nphase = s.nphase :=
  by unfold State.completeTransition; repeat' (first | rfl | split)
@[simp] theorem State.completeTransition_xfProg : (s.completeTransition).xfProg = s.xfProg :=
  by unfold State.completeTransition; repeat' (first | rfl | split)
@[simp] theorem State.completeTransition_xfWin : (s.completeTransition).xfWin = s.xfWin :=
  by unfold State.completeTransition; repeat' (first | rfl | split)
@[simp] theorem State.completeTransition_xo : (s.completeTransition).xo = s.xo :=
  by unfold State.completeTransition; repeat' (first | rfl | split)
@[simp] theorem State.completeTransition_wp : (s.completeTransition).wp = s.wp :=
  by unfold State.completeTransition; repeat' (first | rfl | split)
@[simp] theorem State.completeTransition_headL : (s.completeTransition).headL = s.headL :=
  by unfold State.completeTransition; repeat' (first | rfl | split)
@[simp] theorem State.completeTransition_headR : (s.completeTransition).headR = s.headR :=
  by unfold State.completeTransition; repeat' (first | rfl | split)
@[simp] theorem State.completeTransition_clrBusy : (s.completeTransition).clrBusy = s.clrBusy :=
  by unfold State.completeTransition; repeat' (first | rfl | split)
@[simp] theorem State.completeTransition_clrPtr : (s.completeTransition).clrPtr = s.clrPtr :=
  by unfold State.completeTransition; repeat' (first | rfl | split)
@[simp] theorem State.completeTransition_clkPrev : (s.completeTransition).clkPrev = s.clkPrev :=
  by unfold State.completeTransition; repeat' (first | rfl | split)
@[simp] theorem State.completeTransition_clkAge : (s.completeTransition).clkAge = s.clkAge :=
  by unfold State.completeTransition; repeat' (first | rfl | split)
@[simp] theorem State.completeTransition_synced : (s.completeTransition).synced = s.synced :=
  by unfold State.completeTransition; repeat' (first | rfl | split)
@[simp] theorem State.completeTransition_trigPend : (s.completeTransition).trigPend = s.trigPend :=
  by unfold State.completeTransition; repeat' (first | rfl | split)
@[simp] theorem State.completeTransition_errIllegal : (s.completeTransition).errIllegal = s.errIllegal :=
  by unfold State.completeTransition; repeat' (first | rfl | split)
@[simp] theorem State.completeTransition_errNonfinite : (s.completeTransition).errNonfinite = s.errNonfinite :=
  by unfold State.completeTransition; repeat' (first | rfl | split)
@[simp] theorem State.completeTransition_errBusy : (s.completeTransition).errBusy = s.errBusy :=
  by unfold State.completeTransition; repeat' (first | rfl | split)
@[simp] theorem State.completeTransition_mem : (s.completeTransition).mem = s.mem :=
  by unfold State.completeTransition; repeat' (first | rfl | split)
@[simp] theorem State.completeTransition_draws : (s.completeTransition).draws = s.draws :=
  by unfold State.completeTransition; repeat' (first | rfl | split)
@[simp] theorem State.completeTransition_errLog : (s.completeTransition).errLog = s.errLog :=
  by unfold State.completeTransition; repeat' (first | rfl | split)

/-! ### `fadeAtWrap` -/

@[simp] theorem State.fadeAtWrap_cfg (g : NanSource) (ev : Bool) (p : Word) : (s.fadeAtWrap g ev p).cfg = s.cfg :=
  by unfold State.fadeAtWrap; split <;> rfl
@[simp] theorem State.fadeAtWrap_host (g : NanSource) (ev : Bool) (p : Word) : (s.fadeAtWrap g ev p).host = s.host :=
  by unfold State.fadeAtWrap; split <;> rfl
@[simp] theorem State.fadeAtWrap_arg0 (g : NanSource) (ev : Bool) (p : Word) : (s.fadeAtWrap g ev p).arg0 = s.arg0 :=
  by unfold State.fadeAtWrap; split <;> rfl
@[simp] theorem State.fadeAtWrap_arg1 (g : NanSource) (ev : Bool) (p : Word) : (s.fadeAtWrap g ev p).arg1 = s.arg1 :=
  by unfold State.fadeAtWrap; split <;> rfl
@[simp] theorem State.fadeAtWrap_arg2 (g : NanSource) (ev : Bool) (p : Word) : (s.fadeAtWrap g ev p).arg2 = s.arg2 :=
  by unfold State.fadeAtWrap; split <;> rfl
@[simp] theorem State.fadeAtWrap_res0 (g : NanSource) (ev : Bool) (p : Word) : (s.fadeAtWrap g ev p).res0 = s.res0 :=
  by unfold State.fadeAtWrap; split <;> rfl
@[simp] theorem State.fadeAtWrap_res1 (g : NanSource) (ev : Bool) (p : Word) : (s.fadeAtWrap g ev p).res1 = s.res1 :=
  by unfold State.fadeAtWrap; split <;> rfl
@[simp] theorem State.fadeAtWrap_speedRaw (g : NanSource) (ev : Bool) (p : Word) : (s.fadeAtWrap g ev p).speedRaw = s.speedRaw :=
  by unfold State.fadeAtWrap; split <;> rfl
@[simp] theorem State.fadeAtWrap_startX (g : NanSource) (ev : Bool) (p : Word) : (s.fadeAtWrap g ev p).startX = s.startX :=
  by unfold State.fadeAtWrap; split <;> rfl
@[simp] theorem State.fadeAtWrap_lengthX (g : NanSource) (ev : Bool) (p : Word) : (s.fadeAtWrap g ev p).lengthX = s.lengthX :=
  by unfold State.fadeAtWrap; split <;> rfl
@[simp] theorem State.fadeAtWrap_recX (g : NanSource) (ev : Bool) (p : Word) : (s.fadeAtWrap g ev p).recX = s.recX :=
  by unfold State.fadeAtWrap; split <;> rfl
@[simp] theorem State.fadeAtWrap_sosX (g : NanSource) (ev : Bool) (p : Word) : (s.fadeAtWrap g ev p).sosX = s.sosX :=
  by unfold State.fadeAtWrap; split <;> rfl
@[simp] theorem State.fadeAtWrap_filterX (g : NanSource) (ev : Bool) (p : Word) : (s.fadeAtWrap g ev p).filterX = s.filterX :=
  by unfold State.fadeAtWrap; split <;> rfl
@[simp] theorem State.fadeAtWrap_spd (g : NanSource) (ev : Bool) (p : Word) : (s.fadeAtWrap g ev p).spd = s.spd :=
  by unfold State.fadeAtWrap; split <;> rfl
@[simp] theorem State.fadeAtWrap_vol (g : NanSource) (ev : Bool) (p : Word) : (s.fadeAtWrap g ev p).vol = s.vol :=
  by unfold State.fadeAtWrap; split <;> rfl
@[simp] theorem State.fadeAtWrap_sosL (g : NanSource) (ev : Bool) (p : Word) : (s.fadeAtWrap g ev p).sosL = s.sosL :=
  by unfold State.fadeAtWrap; split <;> rfl
@[simp] theorem State.fadeAtWrap_filterL (g : NanSource) (ev : Bool) (p : Word) : (s.fadeAtWrap g ev p).filterL = s.filterL :=
  by unfold State.fadeAtWrap; split <;> rfl
@[simp] theorem State.fadeAtWrap_start (g : NanSource) (ev : Bool) (p : Word) : (s.fadeAtWrap g ev p).start = s.start :=
  by unfold State.fadeAtWrap; split <;> rfl
@[simp] theorem State.fadeAtWrap_length (g : NanSource) (ev : Bool) (p : Word) : (s.fadeAtWrap g ev p).length = s.length :=
  by unfold State.fadeAtWrap; split <;> rfl
@[simp] theorem State.fadeAtWrap_phase (g : NanSource) (ev : Bool) (p : Word) : (s.fadeAtWrap g ev p).phase = s.phase :=
  by unfold State.fadeAtWrap; split <;> rfl
@[simp] theorem State.fadeAtWrap_nstart (g : NanSource) (ev : Bool) (p : Word) : (s.fadeAtWrap g ev p).nstart = s.nstart :=
  by unfold State.fadeAtWrap; split <;> rfl
@[simp] theorem State.fadeAtWrap_nlength (g : NanSource) (ev : Bool) (p : Word) : (s.fadeAtWrap g ev p).nlength = s.nlength :=
  by unfold State.fadeAtWrap; split <;> rfl
@[simp] theorem State.fadeAtWrap_nphase (g : NanSource) (ev : Bool) (p : Word) : (s.fadeAtWrap g ev p).nphase = s.nphase :=
  by unfold State.fadeAtWrap; split <;> rfl
@[simp] theorem State.fadeAtWrap_wp (g : NanSource) (ev : Bool) (p : Word) : (s.fadeAtWrap g ev p).wp = s.wp :=
  by unfold State.fadeAtWrap; split <;> rfl
@[simp] theorem State.fadeAtWrap_headL (g : NanSource) (ev : Bool) (p : Word) : (s.fadeAtWrap g ev p).headL = s.headL :=
  by unfold State.fadeAtWrap; split <;> rfl
@[simp] theorem State.fadeAtWrap_headR (g : NanSource) (ev : Bool) (p : Word) : (s.fadeAtWrap g ev p).headR = s.headR :=
  by unfold State.fadeAtWrap; split <;> rfl
@[simp] theorem State.fadeAtWrap_clrBusy (g : NanSource) (ev : Bool) (p : Word) : (s.fadeAtWrap g ev p).clrBusy = s.clrBusy :=
  by unfold State.fadeAtWrap; split <;> rfl
@[simp] theorem State.fadeAtWrap_clrPtr (g : NanSource) (ev : Bool) (p : Word) : (s.fadeAtWrap g ev p).clrPtr = s.clrPtr :=
  by unfold State.fadeAtWrap; split <;> rfl
@[simp] theorem State.fadeAtWrap_clkPrev (g : NanSource) (ev : Bool) (p : Word) : (s.fadeAtWrap g ev p).clkPrev = s.clkPrev :=
  by unfold State.fadeAtWrap; split <;> rfl
@[simp] theorem State.fadeAtWrap_clkAge (g : NanSource) (ev : Bool) (p : Word) : (s.fadeAtWrap g ev p).clkAge = s.clkAge :=
  by unfold State.fadeAtWrap; split <;> rfl
@[simp] theorem State.fadeAtWrap_synced (g : NanSource) (ev : Bool) (p : Word) : (s.fadeAtWrap g ev p).synced = s.synced :=
  by unfold State.fadeAtWrap; split <;> rfl
@[simp] theorem State.fadeAtWrap_trigPend (g : NanSource) (ev : Bool) (p : Word) : (s.fadeAtWrap g ev p).trigPend = s.trigPend :=
  by unfold State.fadeAtWrap; split <;> rfl
@[simp] theorem State.fadeAtWrap_errIllegal (g : NanSource) (ev : Bool) (p : Word) : (s.fadeAtWrap g ev p).errIllegal = s.errIllegal :=
  by unfold State.fadeAtWrap; split <;> rfl
@[simp] theorem State.fadeAtWrap_errNonfinite (g : NanSource) (ev : Bool) (p : Word) : (s.fadeAtWrap g ev p).errNonfinite = s.errNonfinite :=
  by unfold State.fadeAtWrap; split <;> rfl
@[simp] theorem State.fadeAtWrap_errBusy (g : NanSource) (ev : Bool) (p : Word) : (s.fadeAtWrap g ev p).errBusy = s.errBusy :=
  by unfold State.fadeAtWrap; split <;> rfl
@[simp] theorem State.fadeAtWrap_mem (g : NanSource) (ev : Bool) (p : Word) : (s.fadeAtWrap g ev p).mem = s.mem :=
  by unfold State.fadeAtWrap; split <;> rfl
@[simp] theorem State.fadeAtWrap_draws (g : NanSource) (ev : Bool) (p : Word) : (s.fadeAtWrap g ev p).draws = s.draws :=
  by unfold State.fadeAtWrap; split <;> rfl
@[simp] theorem State.fadeAtWrap_errLog (g : NanSource) (ev : Bool) (p : Word) : (s.fadeAtWrap g ev p).errLog = s.errLog :=
  by unfold State.fadeAtWrap; split <;> rfl

/-! ### `advanceStage` -/

@[simp] theorem State.advanceStage_cfg (g : NanSource) : (s.advanceStage g).cfg = s.cfg := by simp [State.advanceStage]
@[simp] theorem State.advanceStage_host (g : NanSource) : (s.advanceStage g).host = s.host := by simp [State.advanceStage]
@[simp] theorem State.advanceStage_arg0 (g : NanSource) : (s.advanceStage g).arg0 = s.arg0 := by simp [State.advanceStage]
@[simp] theorem State.advanceStage_arg1 (g : NanSource) : (s.advanceStage g).arg1 = s.arg1 := by simp [State.advanceStage]
@[simp] theorem State.advanceStage_arg2 (g : NanSource) : (s.advanceStage g).arg2 = s.arg2 := by simp [State.advanceStage]
@[simp] theorem State.advanceStage_res0 (g : NanSource) : (s.advanceStage g).res0 = s.res0 := by simp [State.advanceStage]
@[simp] theorem State.advanceStage_res1 (g : NanSource) : (s.advanceStage g).res1 = s.res1 := by simp [State.advanceStage]
@[simp] theorem State.advanceStage_speedRaw (g : NanSource) : (s.advanceStage g).speedRaw = s.speedRaw :=
  by simp [State.advanceStage]
@[simp] theorem State.advanceStage_startX (g : NanSource) : (s.advanceStage g).startX = s.startX := by simp [State.advanceStage]
@[simp] theorem State.advanceStage_lengthX (g : NanSource) : (s.advanceStage g).lengthX = s.lengthX :=
  by simp [State.advanceStage]
@[simp] theorem State.advanceStage_recX (g : NanSource) : (s.advanceStage g).recX = s.recX := by simp [State.advanceStage]
@[simp] theorem State.advanceStage_sosX (g : NanSource) : (s.advanceStage g).sosX = s.sosX := by simp [State.advanceStage]
@[simp] theorem State.advanceStage_filterX (g : NanSource) : (s.advanceStage g).filterX = s.filterX :=
  by simp [State.advanceStage]
@[simp] theorem State.advanceStage_spd (g : NanSource) : (s.advanceStage g).spd = s.spd := by simp [State.advanceStage]
@[simp] theorem State.advanceStage_vol (g : NanSource) : (s.advanceStage g).vol = s.vol := by simp [State.advanceStage]
@[simp] theorem State.advanceStage_sosL (g : NanSource) : (s.advanceStage g).sosL = s.sosL := by simp [State.advanceStage]
@[simp] theorem State.advanceStage_filterL (g : NanSource) : (s.advanceStage g).filterL = s.filterL :=
  by simp [State.advanceStage]
@[simp] theorem State.advanceStage_nstart (g : NanSource) : (s.advanceStage g).nstart = s.nstart := by simp [State.advanceStage]
@[simp] theorem State.advanceStage_nlength (g : NanSource) : (s.advanceStage g).nlength = s.nlength :=
  by simp [State.advanceStage]
@[simp] theorem State.advanceStage_wp (g : NanSource) : (s.advanceStage g).wp = s.wp := by simp [State.advanceStage]
@[simp] theorem State.advanceStage_headL (g : NanSource) : (s.advanceStage g).headL = s.headL := by simp [State.advanceStage]
@[simp] theorem State.advanceStage_headR (g : NanSource) : (s.advanceStage g).headR = s.headR := by simp [State.advanceStage]
@[simp] theorem State.advanceStage_clrBusy (g : NanSource) : (s.advanceStage g).clrBusy = s.clrBusy :=
  by simp [State.advanceStage]
@[simp] theorem State.advanceStage_clrPtr (g : NanSource) : (s.advanceStage g).clrPtr = s.clrPtr := by simp [State.advanceStage]
@[simp] theorem State.advanceStage_clkPrev (g : NanSource) : (s.advanceStage g).clkPrev = s.clkPrev :=
  by simp [State.advanceStage]
@[simp] theorem State.advanceStage_clkAge (g : NanSource) : (s.advanceStage g).clkAge = s.clkAge := by simp [State.advanceStage]
@[simp] theorem State.advanceStage_synced (g : NanSource) : (s.advanceStage g).synced = s.synced := by simp [State.advanceStage]
@[simp] theorem State.advanceStage_trigPend (g : NanSource) : (s.advanceStage g).trigPend = s.trigPend :=
  by simp [State.advanceStage]
@[simp] theorem State.advanceStage_errIllegal (g : NanSource) : (s.advanceStage g).errIllegal = s.errIllegal :=
  by simp [State.advanceStage]
@[simp] theorem State.advanceStage_errNonfinite (g : NanSource) : (s.advanceStage g).errNonfinite = s.errNonfinite :=
  by simp [State.advanceStage]
@[simp] theorem State.advanceStage_errBusy (g : NanSource) : (s.advanceStage g).errBusy = s.errBusy :=
  by simp [State.advanceStage]
@[simp] theorem State.advanceStage_mem (g : NanSource) : (s.advanceStage g).mem = s.mem := by simp [State.advanceStage]
@[simp] theorem State.advanceStage_draws (g : NanSource) : (s.advanceStage g).draws = s.draws := by simp [State.advanceStage]
@[simp] theorem State.advanceStage_errLog (g : NanSource) : (s.advanceStage g).errLog = s.errLog := by simp [State.advanceStage]

/-! ### `beginTrigger` -/

@[simp] theorem State.beginTrigger_cfg (h : Word) : (s.beginTrigger h).cfg = s.cfg := by unfold State.beginTrigger; split <;> rfl
@[simp] theorem State.beginTrigger_host (h : Word) : (s.beginTrigger h).host = s.host :=
  by unfold State.beginTrigger; split <;> rfl
@[simp] theorem State.beginTrigger_arg0 (h : Word) : (s.beginTrigger h).arg0 = s.arg0 :=
  by unfold State.beginTrigger; split <;> rfl
@[simp] theorem State.beginTrigger_arg1 (h : Word) : (s.beginTrigger h).arg1 = s.arg1 :=
  by unfold State.beginTrigger; split <;> rfl
@[simp] theorem State.beginTrigger_arg2 (h : Word) : (s.beginTrigger h).arg2 = s.arg2 :=
  by unfold State.beginTrigger; split <;> rfl
@[simp] theorem State.beginTrigger_res0 (h : Word) : (s.beginTrigger h).res0 = s.res0 :=
  by unfold State.beginTrigger; split <;> rfl
@[simp] theorem State.beginTrigger_res1 (h : Word) : (s.beginTrigger h).res1 = s.res1 :=
  by unfold State.beginTrigger; split <;> rfl
@[simp] theorem State.beginTrigger_speedRaw (h : Word) : (s.beginTrigger h).speedRaw = s.speedRaw :=
  by unfold State.beginTrigger; split <;> rfl
@[simp] theorem State.beginTrigger_startX (h : Word) : (s.beginTrigger h).startX = s.startX :=
  by unfold State.beginTrigger; split <;> rfl
@[simp] theorem State.beginTrigger_lengthX (h : Word) : (s.beginTrigger h).lengthX = s.lengthX :=
  by unfold State.beginTrigger; split <;> rfl
@[simp] theorem State.beginTrigger_recX (h : Word) : (s.beginTrigger h).recX = s.recX :=
  by unfold State.beginTrigger; split <;> rfl
@[simp] theorem State.beginTrigger_sosX (h : Word) : (s.beginTrigger h).sosX = s.sosX :=
  by unfold State.beginTrigger; split <;> rfl
@[simp] theorem State.beginTrigger_filterX (h : Word) : (s.beginTrigger h).filterX = s.filterX :=
  by unfold State.beginTrigger; split <;> rfl
@[simp] theorem State.beginTrigger_spd (h : Word) : (s.beginTrigger h).spd = s.spd := by unfold State.beginTrigger; split <;> rfl
@[simp] theorem State.beginTrigger_vol (h : Word) : (s.beginTrigger h).vol = s.vol := by unfold State.beginTrigger; split <;> rfl
@[simp] theorem State.beginTrigger_sosL (h : Word) : (s.beginTrigger h).sosL = s.sosL :=
  by unfold State.beginTrigger; split <;> rfl
@[simp] theorem State.beginTrigger_filterL (h : Word) : (s.beginTrigger h).filterL = s.filterL :=
  by unfold State.beginTrigger; split <;> rfl
@[simp] theorem State.beginTrigger_start (h : Word) : (s.beginTrigger h).start = s.start :=
  by unfold State.beginTrigger; split <;> rfl
@[simp] theorem State.beginTrigger_length (h : Word) : (s.beginTrigger h).length = s.length :=
  by unfold State.beginTrigger; split <;> rfl
@[simp] theorem State.beginTrigger_phase (h : Word) : (s.beginTrigger h).phase = s.phase :=
  by unfold State.beginTrigger; split <;> rfl
@[simp] theorem State.beginTrigger_nstart (h : Word) : (s.beginTrigger h).nstart = s.nstart :=
  by unfold State.beginTrigger; split <;> rfl
@[simp] theorem State.beginTrigger_nlength (h : Word) : (s.beginTrigger h).nlength = s.nlength :=
  by unfold State.beginTrigger; split <;> rfl
@[simp] theorem State.beginTrigger_nphase (h : Word) : (s.beginTrigger h).nphase = s.nphase :=
  by unfold State.beginTrigger; split <;> rfl
@[simp] theorem State.beginTrigger_wp (h : Word) : (s.beginTrigger h).wp = s.wp := by unfold State.beginTrigger; split <;> rfl
@[simp] theorem State.beginTrigger_headL (h : Word) : (s.beginTrigger h).headL = s.headL :=
  by unfold State.beginTrigger; split <;> rfl
@[simp] theorem State.beginTrigger_headR (h : Word) : (s.beginTrigger h).headR = s.headR :=
  by unfold State.beginTrigger; split <;> rfl
@[simp] theorem State.beginTrigger_clrBusy (h : Word) : (s.beginTrigger h).clrBusy = s.clrBusy :=
  by unfold State.beginTrigger; split <;> rfl
@[simp] theorem State.beginTrigger_clrPtr (h : Word) : (s.beginTrigger h).clrPtr = s.clrPtr :=
  by unfold State.beginTrigger; split <;> rfl
@[simp] theorem State.beginTrigger_clkPrev (h : Word) : (s.beginTrigger h).clkPrev = s.clkPrev :=
  by unfold State.beginTrigger; split <;> rfl
@[simp] theorem State.beginTrigger_clkAge (h : Word) : (s.beginTrigger h).clkAge = s.clkAge :=
  by unfold State.beginTrigger; split <;> rfl
@[simp] theorem State.beginTrigger_synced (h : Word) : (s.beginTrigger h).synced = s.synced :=
  by unfold State.beginTrigger; split <;> rfl
@[simp] theorem State.beginTrigger_trigPend (h : Word) : (s.beginTrigger h).trigPend = s.trigPend :=
  by unfold State.beginTrigger; split <;> rfl
@[simp] theorem State.beginTrigger_errIllegal (h : Word) : (s.beginTrigger h).errIllegal = s.errIllegal :=
  by unfold State.beginTrigger; split <;> rfl
@[simp] theorem State.beginTrigger_errNonfinite (h : Word) : (s.beginTrigger h).errNonfinite = s.errNonfinite :=
  by unfold State.beginTrigger; split <;> rfl
@[simp] theorem State.beginTrigger_errBusy (h : Word) : (s.beginTrigger h).errBusy = s.errBusy :=
  by unfold State.beginTrigger; split <;> rfl
@[simp] theorem State.beginTrigger_mem (h : Word) : (s.beginTrigger h).mem = s.mem := by unfold State.beginTrigger; split <;> rfl
@[simp] theorem State.beginTrigger_draws (h : Word) : (s.beginTrigger h).draws = s.draws :=
  by unfold State.beginTrigger; split <;> rfl
@[simp] theorem State.beginTrigger_errLog (h : Word) : (s.beginTrigger h).errLog = s.errLog :=
  by unfold State.beginTrigger; split <;> rfl

/-! ### `retrigger` -/

@[simp] theorem State.retrigger_cfg (g : NanSource) : (s.retrigger g).cfg = s.cfg :=
  by unfold State.retrigger State.retriggerWindow; split <;> simp
@[simp] theorem State.retrigger_host (g : NanSource) : (s.retrigger g).host = s.host :=
  by unfold State.retrigger State.retriggerWindow; split <;> simp
@[simp] theorem State.retrigger_arg0 (g : NanSource) : (s.retrigger g).arg0 = s.arg0 :=
  by unfold State.retrigger State.retriggerWindow; split <;> simp
@[simp] theorem State.retrigger_arg1 (g : NanSource) : (s.retrigger g).arg1 = s.arg1 :=
  by unfold State.retrigger State.retriggerWindow; split <;> simp
@[simp] theorem State.retrigger_arg2 (g : NanSource) : (s.retrigger g).arg2 = s.arg2 :=
  by unfold State.retrigger State.retriggerWindow; split <;> simp
@[simp] theorem State.retrigger_res0 (g : NanSource) : (s.retrigger g).res0 = s.res0 :=
  by unfold State.retrigger State.retriggerWindow; split <;> simp
@[simp] theorem State.retrigger_res1 (g : NanSource) : (s.retrigger g).res1 = s.res1 :=
  by unfold State.retrigger State.retriggerWindow; split <;> simp
@[simp] theorem State.retrigger_speedRaw (g : NanSource) : (s.retrigger g).speedRaw = s.speedRaw :=
  by unfold State.retrigger State.retriggerWindow; split <;> simp
@[simp] theorem State.retrigger_startX (g : NanSource) : (s.retrigger g).startX = s.startX :=
  by unfold State.retrigger State.retriggerWindow; split <;> simp
@[simp] theorem State.retrigger_lengthX (g : NanSource) : (s.retrigger g).lengthX = s.lengthX :=
  by unfold State.retrigger State.retriggerWindow; split <;> simp
@[simp] theorem State.retrigger_recX (g : NanSource) : (s.retrigger g).recX = s.recX :=
  by unfold State.retrigger State.retriggerWindow; split <;> simp
@[simp] theorem State.retrigger_sosX (g : NanSource) : (s.retrigger g).sosX = s.sosX :=
  by unfold State.retrigger State.retriggerWindow; split <;> simp
@[simp] theorem State.retrigger_filterX (g : NanSource) : (s.retrigger g).filterX = s.filterX :=
  by unfold State.retrigger State.retriggerWindow; split <;> simp
@[simp] theorem State.retrigger_spd (g : NanSource) : (s.retrigger g).spd = s.spd :=
  by unfold State.retrigger State.retriggerWindow; split <;> simp
@[simp] theorem State.retrigger_vol (g : NanSource) : (s.retrigger g).vol = s.vol :=
  by unfold State.retrigger State.retriggerWindow; split <;> simp
@[simp] theorem State.retrigger_sosL (g : NanSource) : (s.retrigger g).sosL = s.sosL :=
  by unfold State.retrigger State.retriggerWindow; split <;> simp
@[simp] theorem State.retrigger_filterL (g : NanSource) : (s.retrigger g).filterL = s.filterL :=
  by unfold State.retrigger State.retriggerWindow; split <;> simp
@[simp] theorem State.retrigger_nstart (g : NanSource) : (s.retrigger g).nstart = s.nstart :=
  by unfold State.retrigger State.retriggerWindow; split <;> simp
@[simp] theorem State.retrigger_nlength (g : NanSource) : (s.retrigger g).nlength = s.nlength :=
  by unfold State.retrigger State.retriggerWindow; split <;> simp
@[simp] theorem State.retrigger_nphase (g : NanSource) : (s.retrigger g).nphase = s.nphase :=
  by unfold State.retrigger State.retriggerWindow; split <;> simp
@[simp] theorem State.retrigger_wp (g : NanSource) : (s.retrigger g).wp = s.wp :=
  by unfold State.retrigger State.retriggerWindow; split <;> simp
@[simp] theorem State.retrigger_headL (g : NanSource) : (s.retrigger g).headL = s.headL :=
  by unfold State.retrigger State.retriggerWindow; split <;> simp
@[simp] theorem State.retrigger_headR (g : NanSource) : (s.retrigger g).headR = s.headR :=
  by unfold State.retrigger State.retriggerWindow; split <;> simp
@[simp] theorem State.retrigger_clrBusy (g : NanSource) : (s.retrigger g).clrBusy = s.clrBusy :=
  by unfold State.retrigger State.retriggerWindow; split <;> simp
@[simp] theorem State.retrigger_clrPtr (g : NanSource) : (s.retrigger g).clrPtr = s.clrPtr :=
  by unfold State.retrigger State.retriggerWindow; split <;> simp
@[simp] theorem State.retrigger_clkPrev (g : NanSource) : (s.retrigger g).clkPrev = s.clkPrev :=
  by unfold State.retrigger State.retriggerWindow; split <;> simp
@[simp] theorem State.retrigger_errIllegal (g : NanSource) : (s.retrigger g).errIllegal = s.errIllegal :=
  by unfold State.retrigger State.retriggerWindow; split <;> simp
@[simp] theorem State.retrigger_errNonfinite (g : NanSource) : (s.retrigger g).errNonfinite = s.errNonfinite :=
  by unfold State.retrigger State.retriggerWindow; split <;> simp
@[simp] theorem State.retrigger_errBusy (g : NanSource) : (s.retrigger g).errBusy = s.errBusy :=
  by unfold State.retrigger State.retriggerWindow; split <;> simp
@[simp] theorem State.retrigger_mem (g : NanSource) : (s.retrigger g).mem = s.mem :=
  by unfold State.retrigger State.retriggerWindow; split <;> simp
@[simp] theorem State.retrigger_draws (g : NanSource) : (s.retrigger g).draws = s.draws :=
  by unfold State.retrigger State.retriggerWindow; split <;> simp
@[simp] theorem State.retrigger_errLog (g : NanSource) : (s.retrigger g).errLog = s.errLog :=
  by unfold State.retrigger State.retriggerWindow; split <;> simp

/-! ### `ageClock` -/

@[simp] theorem State.ageClock_cfg : (s.ageClock).cfg = s.cfg := by unfold State.ageClock; split <;> rfl
@[simp] theorem State.ageClock_host : (s.ageClock).host = s.host := by unfold State.ageClock; split <;> rfl
@[simp] theorem State.ageClock_arg0 : (s.ageClock).arg0 = s.arg0 := by unfold State.ageClock; split <;> rfl
@[simp] theorem State.ageClock_arg1 : (s.ageClock).arg1 = s.arg1 := by unfold State.ageClock; split <;> rfl
@[simp] theorem State.ageClock_arg2 : (s.ageClock).arg2 = s.arg2 := by unfold State.ageClock; split <;> rfl
@[simp] theorem State.ageClock_res0 : (s.ageClock).res0 = s.res0 := by unfold State.ageClock; split <;> rfl
@[simp] theorem State.ageClock_res1 : (s.ageClock).res1 = s.res1 := by unfold State.ageClock; split <;> rfl
@[simp] theorem State.ageClock_speedRaw : (s.ageClock).speedRaw = s.speedRaw := by unfold State.ageClock; split <;> rfl
@[simp] theorem State.ageClock_startX : (s.ageClock).startX = s.startX := by unfold State.ageClock; split <;> rfl
@[simp] theorem State.ageClock_lengthX : (s.ageClock).lengthX = s.lengthX := by unfold State.ageClock; split <;> rfl
@[simp] theorem State.ageClock_recX : (s.ageClock).recX = s.recX := by unfold State.ageClock; split <;> rfl
@[simp] theorem State.ageClock_sosX : (s.ageClock).sosX = s.sosX := by unfold State.ageClock; split <;> rfl
@[simp] theorem State.ageClock_filterX : (s.ageClock).filterX = s.filterX := by unfold State.ageClock; split <;> rfl
@[simp] theorem State.ageClock_spd : (s.ageClock).spd = s.spd := by unfold State.ageClock; split <;> rfl
@[simp] theorem State.ageClock_vol : (s.ageClock).vol = s.vol := by unfold State.ageClock; split <;> rfl
@[simp] theorem State.ageClock_sosL : (s.ageClock).sosL = s.sosL := by unfold State.ageClock; split <;> rfl
@[simp] theorem State.ageClock_filterL : (s.ageClock).filterL = s.filterL := by unfold State.ageClock; split <;> rfl
@[simp] theorem State.ageClock_start : (s.ageClock).start = s.start := by unfold State.ageClock; split <;> rfl
@[simp] theorem State.ageClock_length : (s.ageClock).length = s.length := by unfold State.ageClock; split <;> rfl
@[simp] theorem State.ageClock_phase : (s.ageClock).phase = s.phase := by unfold State.ageClock; split <;> rfl
@[simp] theorem State.ageClock_nstart : (s.ageClock).nstart = s.nstart := by unfold State.ageClock; split <;> rfl
@[simp] theorem State.ageClock_nlength : (s.ageClock).nlength = s.nlength := by unfold State.ageClock; split <;> rfl
@[simp] theorem State.ageClock_nphase : (s.ageClock).nphase = s.nphase := by unfold State.ageClock; split <;> rfl
@[simp] theorem State.ageClock_xfKind : (s.ageClock).xfKind = s.xfKind := by unfold State.ageClock; split <;> rfl
@[simp] theorem State.ageClock_xfProg : (s.ageClock).xfProg = s.xfProg := by unfold State.ageClock; split <;> rfl
@[simp] theorem State.ageClock_xfWin : (s.ageClock).xfWin = s.xfWin := by unfold State.ageClock; split <;> rfl
@[simp] theorem State.ageClock_xo : (s.ageClock).xo = s.xo := by unfold State.ageClock; split <;> rfl
@[simp] theorem State.ageClock_wp : (s.ageClock).wp = s.wp := by unfold State.ageClock; split <;> rfl
@[simp] theorem State.ageClock_headL : (s.ageClock).headL = s.headL := by unfold State.ageClock; split <;> rfl
@[simp] theorem State.ageClock_headR : (s.ageClock).headR = s.headR := by unfold State.ageClock; split <;> rfl
@[simp] theorem State.ageClock_clrBusy : (s.ageClock).clrBusy = s.clrBusy := by unfold State.ageClock; split <;> rfl
@[simp] theorem State.ageClock_clrPtr : (s.ageClock).clrPtr = s.clrPtr := by unfold State.ageClock; split <;> rfl
@[simp] theorem State.ageClock_clkPrev : (s.ageClock).clkPrev = s.clkPrev := by unfold State.ageClock; split <;> rfl
@[simp] theorem State.ageClock_trigPend : (s.ageClock).trigPend = s.trigPend := by unfold State.ageClock; split <;> rfl
@[simp] theorem State.ageClock_errIllegal : (s.ageClock).errIllegal = s.errIllegal := by unfold State.ageClock; split <;> rfl
@[simp] theorem State.ageClock_errNonfinite : (s.ageClock).errNonfinite = s.errNonfinite :=
  by unfold State.ageClock; split <;> rfl
@[simp] theorem State.ageClock_errBusy : (s.ageClock).errBusy = s.errBusy := by unfold State.ageClock; split <;> rfl
@[simp] theorem State.ageClock_mem : (s.ageClock).mem = s.mem := by unfold State.ageClock; split <;> rfl
@[simp] theorem State.ageClock_draws : (s.ageClock).draws = s.draws := by unfold State.ageClock; split <;> rfl
@[simp] theorem State.ageClock_errLog : (s.ageClock).errLog = s.errLog := by unfold State.ageClock; split <;> rfl

/-! ### `triggerStage` -/

@[simp] theorem State.triggerStage_cfg (g : NanSource) (clk : Bool) : (s.triggerStage g clk).cfg = s.cfg :=
  by unfold State.triggerStage; split <;> simp
@[simp] theorem State.triggerStage_host (g : NanSource) (clk : Bool) : (s.triggerStage g clk).host = s.host :=
  by unfold State.triggerStage; split <;> simp
@[simp] theorem State.triggerStage_arg0 (g : NanSource) (clk : Bool) : (s.triggerStage g clk).arg0 = s.arg0 :=
  by unfold State.triggerStage; split <;> simp
@[simp] theorem State.triggerStage_arg1 (g : NanSource) (clk : Bool) : (s.triggerStage g clk).arg1 = s.arg1 :=
  by unfold State.triggerStage; split <;> simp
@[simp] theorem State.triggerStage_arg2 (g : NanSource) (clk : Bool) : (s.triggerStage g clk).arg2 = s.arg2 :=
  by unfold State.triggerStage; split <;> simp
@[simp] theorem State.triggerStage_res0 (g : NanSource) (clk : Bool) : (s.triggerStage g clk).res0 = s.res0 :=
  by unfold State.triggerStage; split <;> simp
@[simp] theorem State.triggerStage_res1 (g : NanSource) (clk : Bool) : (s.triggerStage g clk).res1 = s.res1 :=
  by unfold State.triggerStage; split <;> simp
@[simp] theorem State.triggerStage_speedRaw (g : NanSource) (clk : Bool) : (s.triggerStage g clk).speedRaw = s.speedRaw :=
  by unfold State.triggerStage; split <;> simp
@[simp] theorem State.triggerStage_startX (g : NanSource) (clk : Bool) : (s.triggerStage g clk).startX = s.startX :=
  by unfold State.triggerStage; split <;> simp
@[simp] theorem State.triggerStage_lengthX (g : NanSource) (clk : Bool) : (s.triggerStage g clk).lengthX = s.lengthX :=
  by unfold State.triggerStage; split <;> simp
@[simp] theorem State.triggerStage_recX (g : NanSource) (clk : Bool) : (s.triggerStage g clk).recX = s.recX :=
  by unfold State.triggerStage; split <;> simp
@[simp] theorem State.triggerStage_sosX (g : NanSource) (clk : Bool) : (s.triggerStage g clk).sosX = s.sosX :=
  by unfold State.triggerStage; split <;> simp
@[simp] theorem State.triggerStage_filterX (g : NanSource) (clk : Bool) : (s.triggerStage g clk).filterX = s.filterX :=
  by unfold State.triggerStage; split <;> simp
@[simp] theorem State.triggerStage_spd (g : NanSource) (clk : Bool) : (s.triggerStage g clk).spd = s.spd :=
  by unfold State.triggerStage; split <;> simp
@[simp] theorem State.triggerStage_vol (g : NanSource) (clk : Bool) : (s.triggerStage g clk).vol = s.vol :=
  by unfold State.triggerStage; split <;> simp
@[simp] theorem State.triggerStage_sosL (g : NanSource) (clk : Bool) : (s.triggerStage g clk).sosL = s.sosL :=
  by unfold State.triggerStage; split <;> simp
@[simp] theorem State.triggerStage_filterL (g : NanSource) (clk : Bool) : (s.triggerStage g clk).filterL = s.filterL :=
  by unfold State.triggerStage; split <;> simp
@[simp] theorem State.triggerStage_nstart (g : NanSource) (clk : Bool) : (s.triggerStage g clk).nstart = s.nstart :=
  by unfold State.triggerStage; split <;> simp
@[simp] theorem State.triggerStage_nlength (g : NanSource) (clk : Bool) : (s.triggerStage g clk).nlength = s.nlength :=
  by unfold State.triggerStage; split <;> simp
@[simp] theorem State.triggerStage_nphase (g : NanSource) (clk : Bool) : (s.triggerStage g clk).nphase = s.nphase :=
  by unfold State.triggerStage; split <;> simp
@[simp] theorem State.triggerStage_wp (g : NanSource) (clk : Bool) : (s.triggerStage g clk).wp = s.wp :=
  by unfold State.triggerStage; split <;> simp
@[simp] theorem State.triggerStage_headL (g : NanSource) (clk : Bool) : (s.triggerStage g clk).headL = s.headL :=
  by unfold State.triggerStage; split <;> simp
@[simp] theorem State.triggerStage_headR (g : NanSource) (clk : Bool) : (s.triggerStage g clk).headR = s.headR :=
  by unfold State.triggerStage; split <;> simp
@[simp] theorem State.triggerStage_clrBusy (g : NanSource) (clk : Bool) : (s.triggerStage g clk).clrBusy = s.clrBusy :=
  by unfold State.triggerStage; split <;> simp
@[simp] theorem State.triggerStage_clrPtr (g : NanSource) (clk : Bool) : (s.triggerStage g clk).clrPtr = s.clrPtr :=
  by unfold State.triggerStage; split <;> simp
@[simp] theorem State.triggerStage_errIllegal (g : NanSource) (clk : Bool) : (s.triggerStage g clk).errIllegal = s.errIllegal :=
  by unfold State.triggerStage; split <;> simp
@[simp] theorem State.triggerStage_errNonfinite (g : NanSource) (clk : Bool) : (s.triggerStage g clk).errNonfinite = s.errNonfinite :=
  by unfold State.triggerStage; split <;> simp
@[simp] theorem State.triggerStage_errBusy (g : NanSource) (clk : Bool) : (s.triggerStage g clk).errBusy = s.errBusy :=
  by unfold State.triggerStage; split <;> simp
@[simp] theorem State.triggerStage_mem (g : NanSource) (clk : Bool) : (s.triggerStage g clk).mem = s.mem :=
  by unfold State.triggerStage; split <;> simp
@[simp] theorem State.triggerStage_draws (g : NanSource) (clk : Bool) : (s.triggerStage g clk).draws = s.draws :=
  by unfold State.triggerStage; split <;> simp
@[simp] theorem State.triggerStage_errLog (g : NanSource) (clk : Bool) : (s.triggerStage g clk).errLog = s.errLog :=
  by unfold State.triggerStage; split <;> simp

/-! ### `tick` -/

@[simp] theorem State.tick_cfg (clk : Bool) : (s.tick clk).cfg = s.cfg := by simp [State.tick]
@[simp] theorem State.tick_host (clk : Bool) : (s.tick clk).host = s.host := by simp [State.tick]
@[simp] theorem State.tick_arg0 (clk : Bool) : (s.tick clk).arg0 = s.arg0 := by simp [State.tick]
@[simp] theorem State.tick_arg1 (clk : Bool) : (s.tick clk).arg1 = s.arg1 := by simp [State.tick]
@[simp] theorem State.tick_arg2 (clk : Bool) : (s.tick clk).arg2 = s.arg2 := by simp [State.tick]
@[simp] theorem State.tick_speedRaw (clk : Bool) : (s.tick clk).speedRaw = s.speedRaw := by simp [State.tick]
@[simp] theorem State.tick_startX (clk : Bool) : (s.tick clk).startX = s.startX := by simp [State.tick]
@[simp] theorem State.tick_lengthX (clk : Bool) : (s.tick clk).lengthX = s.lengthX := by simp [State.tick]
@[simp] theorem State.tick_recX (clk : Bool) : (s.tick clk).recX = s.recX := by simp [State.tick]
@[simp] theorem State.tick_sosX (clk : Bool) : (s.tick clk).sosX = s.sosX := by simp [State.tick]
@[simp] theorem State.tick_filterX (clk : Bool) : (s.tick clk).filterX = s.filterX := by simp [State.tick]
@[simp] theorem State.tick_spd (clk : Bool) : (s.tick clk).spd = s.spd := by simp [State.tick]
@[simp] theorem State.tick_vol (clk : Bool) : (s.tick clk).vol = s.vol := by simp [State.tick]
@[simp] theorem State.tick_sosL (clk : Bool) : (s.tick clk).sosL = s.sosL := by simp [State.tick]
@[simp] theorem State.tick_filterL (clk : Bool) : (s.tick clk).filterL = s.filterL := by simp [State.tick]
@[simp] theorem State.tick_nstart (clk : Bool) : (s.tick clk).nstart = s.nstart := by simp [State.tick]
@[simp] theorem State.tick_nlength (clk : Bool) : (s.tick clk).nlength = s.nlength := by simp [State.tick]
@[simp] theorem State.tick_clrBusy (clk : Bool) : (s.tick clk).clrBusy = s.clrBusy := by simp [State.tick]
@[simp] theorem State.tick_clrPtr (clk : Bool) : (s.tick clk).clrPtr = s.clrPtr := by simp [State.tick]
@[simp] theorem State.tick_errIllegal (clk : Bool) : (s.tick clk).errIllegal = s.errIllegal := by simp [State.tick]
@[simp] theorem State.tick_errNonfinite (clk : Bool) : (s.tick clk).errNonfinite = s.errNonfinite := by simp [State.tick]
@[simp] theorem State.tick_errBusy (clk : Bool) : (s.tick clk).errBusy = s.errBusy := by simp [State.tick]
@[simp] theorem State.tick_draws (clk : Bool) : (s.tick clk).draws = s.draws := by simp [State.tick]
@[simp] theorem State.tick_errLog (clk : Bool) : (s.tick clk).errLog = s.errLog := by simp [State.tick]

/-! ### `latchLevels` -/

@[simp] theorem State.latchLevels_cfg (g : NanSource) : (s.latchLevels g).cfg = s.cfg := rfl
@[simp] theorem State.latchLevels_host (g : NanSource) : (s.latchLevels g).host = s.host := rfl
@[simp] theorem State.latchLevels_arg0 (g : NanSource) : (s.latchLevels g).arg0 = s.arg0 := rfl
@[simp] theorem State.latchLevels_arg1 (g : NanSource) : (s.latchLevels g).arg1 = s.arg1 := rfl
@[simp] theorem State.latchLevels_arg2 (g : NanSource) : (s.latchLevels g).arg2 = s.arg2 := rfl
@[simp] theorem State.latchLevels_res0 (g : NanSource) : (s.latchLevels g).res0 = s.res0 := rfl
@[simp] theorem State.latchLevels_res1 (g : NanSource) : (s.latchLevels g).res1 = s.res1 := rfl
@[simp] theorem State.latchLevels_speedRaw (g : NanSource) : (s.latchLevels g).speedRaw = s.speedRaw := rfl
@[simp] theorem State.latchLevels_startX (g : NanSource) : (s.latchLevels g).startX = s.startX := rfl
@[simp] theorem State.latchLevels_lengthX (g : NanSource) : (s.latchLevels g).lengthX = s.lengthX := rfl
@[simp] theorem State.latchLevels_recX (g : NanSource) : (s.latchLevels g).recX = s.recX := rfl
@[simp] theorem State.latchLevels_sosX (g : NanSource) : (s.latchLevels g).sosX = s.sosX := rfl
@[simp] theorem State.latchLevels_filterX (g : NanSource) : (s.latchLevels g).filterX = s.filterX := rfl
@[simp] theorem State.latchLevels_start (g : NanSource) : (s.latchLevels g).start = s.start := rfl
@[simp] theorem State.latchLevels_length (g : NanSource) : (s.latchLevels g).length = s.length := rfl
@[simp] theorem State.latchLevels_phase (g : NanSource) : (s.latchLevels g).phase = s.phase := rfl
@[simp] theorem State.latchLevels_nstart (g : NanSource) : (s.latchLevels g).nstart = s.nstart := rfl
@[simp] theorem State.latchLevels_nlength (g : NanSource) : (s.latchLevels g).nlength = s.nlength := rfl
@[simp] theorem State.latchLevels_nphase (g : NanSource) : (s.latchLevels g).nphase = s.nphase := rfl
@[simp] theorem State.latchLevels_xfKind (g : NanSource) : (s.latchLevels g).xfKind = s.xfKind := rfl
@[simp] theorem State.latchLevels_xfProg (g : NanSource) : (s.latchLevels g).xfProg = s.xfProg := rfl
@[simp] theorem State.latchLevels_xfWin (g : NanSource) : (s.latchLevels g).xfWin = s.xfWin := rfl
@[simp] theorem State.latchLevels_xo (g : NanSource) : (s.latchLevels g).xo = s.xo := rfl
@[simp] theorem State.latchLevels_wp (g : NanSource) : (s.latchLevels g).wp = s.wp := rfl
@[simp] theorem State.latchLevels_headL (g : NanSource) : (s.latchLevels g).headL = s.headL := rfl
@[simp] theorem State.latchLevels_headR (g : NanSource) : (s.latchLevels g).headR = s.headR := rfl
@[simp] theorem State.latchLevels_clrBusy (g : NanSource) : (s.latchLevels g).clrBusy = s.clrBusy := rfl
@[simp] theorem State.latchLevels_clrPtr (g : NanSource) : (s.latchLevels g).clrPtr = s.clrPtr := rfl
@[simp] theorem State.latchLevels_clkPrev (g : NanSource) : (s.latchLevels g).clkPrev = s.clkPrev := rfl
@[simp] theorem State.latchLevels_clkAge (g : NanSource) : (s.latchLevels g).clkAge = s.clkAge := rfl
@[simp] theorem State.latchLevels_synced (g : NanSource) : (s.latchLevels g).synced = s.synced := rfl
@[simp] theorem State.latchLevels_trigPend (g : NanSource) : (s.latchLevels g).trigPend = s.trigPend := rfl
@[simp] theorem State.latchLevels_errIllegal (g : NanSource) : (s.latchLevels g).errIllegal = s.errIllegal := rfl
@[simp] theorem State.latchLevels_errNonfinite (g : NanSource) : (s.latchLevels g).errNonfinite = s.errNonfinite := rfl
@[simp] theorem State.latchLevels_errBusy (g : NanSource) : (s.latchLevels g).errBusy = s.errBusy := rfl
@[simp] theorem State.latchLevels_mem (g : NanSource) : (s.latchLevels g).mem = s.mem := rfl
@[simp] theorem State.latchLevels_draws (g : NanSource) : (s.latchLevels g).draws = s.draws := rfl
@[simp] theorem State.latchLevels_errLog (g : NanSource) : (s.latchLevels g).errLog = s.errLog := rfl

/-! ### `latchHeads` -/

@[simp] theorem State.latchHeads_cfg : (s.latchHeads).cfg = s.cfg := by unfold State.latchHeads; split <;> simp
@[simp] theorem State.latchHeads_host : (s.latchHeads).host = s.host := by unfold State.latchHeads; split <;> simp
@[simp] theorem State.latchHeads_arg0 : (s.latchHeads).arg0 = s.arg0 := by unfold State.latchHeads; split <;> simp
@[simp] theorem State.latchHeads_arg1 : (s.latchHeads).arg1 = s.arg1 := by unfold State.latchHeads; split <;> simp
@[simp] theorem State.latchHeads_arg2 : (s.latchHeads).arg2 = s.arg2 := by unfold State.latchHeads; split <;> simp
@[simp] theorem State.latchHeads_res0 : (s.latchHeads).res0 = s.res0 := by unfold State.latchHeads; split <;> simp
@[simp] theorem State.latchHeads_res1 : (s.latchHeads).res1 = s.res1 := by unfold State.latchHeads; split <;> simp
@[simp] theorem State.latchHeads_speedRaw : (s.latchHeads).speedRaw = s.speedRaw := by unfold State.latchHeads; split <;> simp
@[simp] theorem State.latchHeads_startX : (s.latchHeads).startX = s.startX := by unfold State.latchHeads; split <;> simp
@[simp] theorem State.latchHeads_lengthX : (s.latchHeads).lengthX = s.lengthX := by unfold State.latchHeads; split <;> simp
@[simp] theorem State.latchHeads_recX : (s.latchHeads).recX = s.recX := by unfold State.latchHeads; split <;> simp
@[simp] theorem State.latchHeads_sosX : (s.latchHeads).sosX = s.sosX := by unfold State.latchHeads; split <;> simp
@[simp] theorem State.latchHeads_filterX : (s.latchHeads).filterX = s.filterX := by unfold State.latchHeads; split <;> simp
@[simp] theorem State.latchHeads_spd : (s.latchHeads).spd = s.spd := by unfold State.latchHeads; split <;> simp
@[simp] theorem State.latchHeads_vol : (s.latchHeads).vol = s.vol := by unfold State.latchHeads; split <;> simp
@[simp] theorem State.latchHeads_sosL : (s.latchHeads).sosL = s.sosL := by unfold State.latchHeads; split <;> simp
@[simp] theorem State.latchHeads_filterL : (s.latchHeads).filterL = s.filterL := by unfold State.latchHeads; split <;> simp
@[simp] theorem State.latchHeads_start : (s.latchHeads).start = s.start := by unfold State.latchHeads; split <;> simp
@[simp] theorem State.latchHeads_length : (s.latchHeads).length = s.length := by unfold State.latchHeads; split <;> simp
@[simp] theorem State.latchHeads_phase : (s.latchHeads).phase = s.phase := by unfold State.latchHeads; split <;> simp
@[simp] theorem State.latchHeads_nstart : (s.latchHeads).nstart = s.nstart := by unfold State.latchHeads; split <;> simp
@[simp] theorem State.latchHeads_nlength : (s.latchHeads).nlength = s.nlength := by unfold State.latchHeads; split <;> simp
@[simp] theorem State.latchHeads_nphase : (s.latchHeads).nphase = s.nphase := by unfold State.latchHeads; split <;> simp
@[simp] theorem State.latchHeads_xfKind : (s.latchHeads).xfKind = s.xfKind := by unfold State.latchHeads; split <;> simp
@[simp] theorem State.latchHeads_xfProg : (s.latchHeads).xfProg = s.xfProg := by unfold State.latchHeads; split <;> simp
@[simp] theorem State.latchHeads_xfWin : (s.latchHeads).xfWin = s.xfWin := by unfold State.latchHeads; split <;> simp
@[simp] theorem State.latchHeads_xo : (s.latchHeads).xo = s.xo := by unfold State.latchHeads; split <;> simp
@[simp] theorem State.latchHeads_wp : (s.latchHeads).wp = s.wp := by unfold State.latchHeads; split <;> simp
@[simp] theorem State.latchHeads_clrBusy : (s.latchHeads).clrBusy = s.clrBusy := by unfold State.latchHeads; split <;> simp
@[simp] theorem State.latchHeads_clrPtr : (s.latchHeads).clrPtr = s.clrPtr := by unfold State.latchHeads; split <;> simp
@[simp] theorem State.latchHeads_clkPrev : (s.latchHeads).clkPrev = s.clkPrev := by unfold State.latchHeads; split <;> simp
@[simp] theorem State.latchHeads_clkAge : (s.latchHeads).clkAge = s.clkAge := by unfold State.latchHeads; split <;> simp
@[simp] theorem State.latchHeads_synced : (s.latchHeads).synced = s.synced := by unfold State.latchHeads; split <;> simp
@[simp] theorem State.latchHeads_trigPend : (s.latchHeads).trigPend = s.trigPend := by unfold State.latchHeads; split <;> simp
@[simp] theorem State.latchHeads_errIllegal : (s.latchHeads).errIllegal = s.errIllegal :=
  by unfold State.latchHeads; split <;> simp
@[simp] theorem State.latchHeads_errNonfinite : (s.latchHeads).errNonfinite = s.errNonfinite :=
  by unfold State.latchHeads; split <;> simp
@[simp] theorem State.latchHeads_errBusy : (s.latchHeads).errBusy = s.errBusy := by unfold State.latchHeads; split <;> simp
@[simp] theorem State.latchHeads_mem : (s.latchHeads).mem = s.mem := by unfold State.latchHeads; split <;> simp
@[simp] theorem State.latchHeads_draws : (s.latchHeads).draws = s.draws := by unfold State.latchHeads; split <;> simp
@[simp] theorem State.latchHeads_errLog : (s.latchHeads).errLog = s.errLog := by unfold State.latchHeads; split <;> simp

/-! ### `beginParam` -/

@[simp] theorem State.beginParam_cfg (g : NanSource) (ts tl : Nat) : (s.beginParam g ts tl).cfg = s.cfg :=
  by unfold State.beginParam; split <;> rfl
@[simp] theorem State.beginParam_host (g : NanSource) (ts tl : Nat) : (s.beginParam g ts tl).host = s.host :=
  by unfold State.beginParam; split <;> rfl
@[simp] theorem State.beginParam_arg0 (g : NanSource) (ts tl : Nat) : (s.beginParam g ts tl).arg0 = s.arg0 :=
  by unfold State.beginParam; split <;> rfl
@[simp] theorem State.beginParam_arg1 (g : NanSource) (ts tl : Nat) : (s.beginParam g ts tl).arg1 = s.arg1 :=
  by unfold State.beginParam; split <;> rfl
@[simp] theorem State.beginParam_arg2 (g : NanSource) (ts tl : Nat) : (s.beginParam g ts tl).arg2 = s.arg2 :=
  by unfold State.beginParam; split <;> rfl
@[simp] theorem State.beginParam_res0 (g : NanSource) (ts tl : Nat) : (s.beginParam g ts tl).res0 = s.res0 :=
  by unfold State.beginParam; split <;> rfl
@[simp] theorem State.beginParam_res1 (g : NanSource) (ts tl : Nat) : (s.beginParam g ts tl).res1 = s.res1 :=
  by unfold State.beginParam; split <;> rfl
@[simp] theorem State.beginParam_speedRaw (g : NanSource) (ts tl : Nat) : (s.beginParam g ts tl).speedRaw = s.speedRaw :=
  by unfold State.beginParam; split <;> rfl
@[simp] theorem State.beginParam_startX (g : NanSource) (ts tl : Nat) : (s.beginParam g ts tl).startX = s.startX :=
  by unfold State.beginParam; split <;> rfl
@[simp] theorem State.beginParam_lengthX (g : NanSource) (ts tl : Nat) : (s.beginParam g ts tl).lengthX = s.lengthX :=
  by unfold State.beginParam; split <;> rfl
@[simp] theorem State.beginParam_recX (g : NanSource) (ts tl : Nat) : (s.beginParam g ts tl).recX = s.recX :=
  by unfold State.beginParam; split <;> rfl
@[simp] theorem State.beginParam_sosX (g : NanSource) (ts tl : Nat) : (s.beginParam g ts tl).sosX = s.sosX :=
  by unfold State.beginParam; split <;> rfl
@[simp] theorem State.beginParam_filterX (g : NanSource) (ts tl : Nat) : (s.beginParam g ts tl).filterX = s.filterX :=
  by unfold State.beginParam; split <;> rfl
@[simp] theorem State.beginParam_spd (g : NanSource) (ts tl : Nat) : (s.beginParam g ts tl).spd = s.spd :=
  by unfold State.beginParam; split <;> rfl
@[simp] theorem State.beginParam_vol (g : NanSource) (ts tl : Nat) : (s.beginParam g ts tl).vol = s.vol :=
  by unfold State.beginParam; split <;> rfl
@[simp] theorem State.beginParam_sosL (g : NanSource) (ts tl : Nat) : (s.beginParam g ts tl).sosL = s.sosL :=
  by unfold State.beginParam; split <;> rfl
@[simp] theorem State.beginParam_filterL (g : NanSource) (ts tl : Nat) : (s.beginParam g ts tl).filterL = s.filterL :=
  by unfold State.beginParam; split <;> rfl
@[simp] theorem State.beginParam_start (g : NanSource) (ts tl : Nat) : (s.beginParam g ts tl).start = s.start :=
  by unfold State.beginParam; split <;> rfl
@[simp] theorem State.beginParam_length (g : NanSource) (ts tl : Nat) : (s.beginParam g ts tl).length = s.length :=
  by unfold State.beginParam; split <;> rfl
@[simp] theorem State.beginParam_phase (g : NanSource) (ts tl : Nat) : (s.beginParam g ts tl).phase = s.phase :=
  by unfold State.beginParam; split <;> rfl
@[simp] theorem State.beginParam_wp (g : NanSource) (ts tl : Nat) : (s.beginParam g ts tl).wp = s.wp :=
  by unfold State.beginParam; split <;> rfl
@[simp] theorem State.beginParam_headL (g : NanSource) (ts tl : Nat) : (s.beginParam g ts tl).headL = s.headL :=
  by unfold State.beginParam; split <;> rfl
@[simp] theorem State.beginParam_headR (g : NanSource) (ts tl : Nat) : (s.beginParam g ts tl).headR = s.headR :=
  by unfold State.beginParam; split <;> rfl
@[simp] theorem State.beginParam_clrBusy (g : NanSource) (ts tl : Nat) : (s.beginParam g ts tl).clrBusy = s.clrBusy :=
  by unfold State.beginParam; split <;> rfl
@[simp] theorem State.beginParam_clrPtr (g : NanSource) (ts tl : Nat) : (s.beginParam g ts tl).clrPtr = s.clrPtr :=
  by unfold State.beginParam; split <;> rfl
@[simp] theorem State.beginParam_clkPrev (g : NanSource) (ts tl : Nat) : (s.beginParam g ts tl).clkPrev = s.clkPrev :=
  by unfold State.beginParam; split <;> rfl
@[simp] theorem State.beginParam_clkAge (g : NanSource) (ts tl : Nat) : (s.beginParam g ts tl).clkAge = s.clkAge :=
  by unfold State.beginParam; split <;> rfl
@[simp] theorem State.beginParam_synced (g : NanSource) (ts tl : Nat) : (s.beginParam g ts tl).synced = s.synced :=
  by unfold State.beginParam; split <;> rfl
@[simp] theorem State.beginParam_trigPend (g : NanSource) (ts tl : Nat) : (s.beginParam g ts tl).trigPend = s.trigPend :=
  by unfold State.beginParam; split <;> rfl
@[simp] theorem State.beginParam_errIllegal (g : NanSource) (ts tl : Nat) : (s.beginParam g ts tl).errIllegal = s.errIllegal :=
  by unfold State.beginParam; split <;> rfl
@[simp] theorem State.beginParam_errNonfinite (g : NanSource) (ts tl : Nat) : (s.beginParam g ts tl).errNonfinite = s.errNonfinite :=
  by unfold State.beginParam; split <;> rfl
@[simp] theorem State.beginParam_errBusy (g : NanSource) (ts tl : Nat) : (s.beginParam g ts tl).errBusy = s.errBusy :=
  by unfold State.beginParam; split <;> rfl
@[simp] theorem State.beginParam_mem (g : NanSource) (ts tl : Nat) : (s.beginParam g ts tl).mem = s.mem :=
  by unfold State.beginParam; split <;> rfl
@[simp] theorem State.beginParam_draws (g : NanSource) (ts tl : Nat) : (s.beginParam g ts tl).draws = s.draws :=
  by unfold State.beginParam; split <;> rfl
@[simp] theorem State.beginParam_errLog (g : NanSource) (ts tl : Nat) : (s.beginParam g ts tl).errLog = s.errLog :=
  by unfold State.beginParam; split <;> rfl

/-! ### `latchTargets` -/

@[simp] theorem State.latchTargets_cfg (g : NanSource) : (s.latchTargets g).cfg = s.cfg :=
  by unfold State.latchTargets; split <;> simp
@[simp] theorem State.latchTargets_host (g : NanSource) : (s.latchTargets g).host = s.host :=
  by unfold State.latchTargets; split <;> simp
@[simp] theorem State.latchTargets_arg0 (g : NanSource) : (s.latchTargets g).arg0 = s.arg0 :=
  by unfold State.latchTargets; split <;> simp
@[simp] theorem State.latchTargets_arg1 (g : NanSource) : (s.latchTargets g).arg1 = s.arg1 :=
  by unfold State.latchTargets; split <;> simp
@[simp] theorem State.latchTargets_arg2 (g : NanSource) : (s.latchTargets g).arg2 = s.arg2 :=
  by unfold State.latchTargets; split <;> simp
@[simp] theorem State.latchTargets_res0 (g : NanSource) : (s.latchTargets g).res0 = s.res0 :=
  by unfold State.latchTargets; split <;> simp
@[simp] theorem State.latchTargets_res1 (g : NanSource) : (s.latchTargets g).res1 = s.res1 :=
  by unfold State.latchTargets; split <;> simp
@[simp] theorem State.latchTargets_speedRaw (g : NanSource) : (s.latchTargets g).speedRaw = s.speedRaw :=
  by unfold State.latchTargets; split <;> simp
@[simp] theorem State.latchTargets_startX (g : NanSource) : (s.latchTargets g).startX = s.startX :=
  by unfold State.latchTargets; split <;> simp
@[simp] theorem State.latchTargets_lengthX (g : NanSource) : (s.latchTargets g).lengthX = s.lengthX :=
  by unfold State.latchTargets; split <;> simp
@[simp] theorem State.latchTargets_recX (g : NanSource) : (s.latchTargets g).recX = s.recX :=
  by unfold State.latchTargets; split <;> simp
@[simp] theorem State.latchTargets_sosX (g : NanSource) : (s.latchTargets g).sosX = s.sosX :=
  by unfold State.latchTargets; split <;> simp
@[simp] theorem State.latchTargets_filterX (g : NanSource) : (s.latchTargets g).filterX = s.filterX :=
  by unfold State.latchTargets; split <;> simp
@[simp] theorem State.latchTargets_spd (g : NanSource) : (s.latchTargets g).spd = s.spd :=
  by unfold State.latchTargets; split <;> simp
@[simp] theorem State.latchTargets_vol (g : NanSource) : (s.latchTargets g).vol = s.vol :=
  by unfold State.latchTargets; split <;> simp
@[simp] theorem State.latchTargets_sosL (g : NanSource) : (s.latchTargets g).sosL = s.sosL :=
  by unfold State.latchTargets; split <;> simp
@[simp] theorem State.latchTargets_filterL (g : NanSource) : (s.latchTargets g).filterL = s.filterL :=
  by unfold State.latchTargets; split <;> simp
@[simp] theorem State.latchTargets_start (g : NanSource) : (s.latchTargets g).start = s.start :=
  by unfold State.latchTargets; split <;> simp
@[simp] theorem State.latchTargets_length (g : NanSource) : (s.latchTargets g).length = s.length :=
  by unfold State.latchTargets; split <;> simp
@[simp] theorem State.latchTargets_phase (g : NanSource) : (s.latchTargets g).phase = s.phase :=
  by unfold State.latchTargets; split <;> simp
@[simp] theorem State.latchTargets_wp (g : NanSource) : (s.latchTargets g).wp = s.wp :=
  by unfold State.latchTargets; split <;> simp
@[simp] theorem State.latchTargets_headL (g : NanSource) : (s.latchTargets g).headL = s.headL :=
  by unfold State.latchTargets; split <;> simp
@[simp] theorem State.latchTargets_headR (g : NanSource) : (s.latchTargets g).headR = s.headR :=
  by unfold State.latchTargets; split <;> simp
@[simp] theorem State.latchTargets_clrBusy (g : NanSource) : (s.latchTargets g).clrBusy = s.clrBusy :=
  by unfold State.latchTargets; split <;> simp
@[simp] theorem State.latchTargets_clrPtr (g : NanSource) : (s.latchTargets g).clrPtr = s.clrPtr :=
  by unfold State.latchTargets; split <;> simp
@[simp] theorem State.latchTargets_clkPrev (g : NanSource) : (s.latchTargets g).clkPrev = s.clkPrev :=
  by unfold State.latchTargets; split <;> simp
@[simp] theorem State.latchTargets_clkAge (g : NanSource) : (s.latchTargets g).clkAge = s.clkAge :=
  by unfold State.latchTargets; split <;> simp
@[simp] theorem State.latchTargets_synced (g : NanSource) : (s.latchTargets g).synced = s.synced :=
  by unfold State.latchTargets; split <;> simp
@[simp] theorem State.latchTargets_trigPend (g : NanSource) : (s.latchTargets g).trigPend = s.trigPend :=
  by unfold State.latchTargets; split <;> simp
@[simp] theorem State.latchTargets_errIllegal (g : NanSource) : (s.latchTargets g).errIllegal = s.errIllegal :=
  by unfold State.latchTargets; split <;> simp
@[simp] theorem State.latchTargets_errNonfinite (g : NanSource) : (s.latchTargets g).errNonfinite = s.errNonfinite :=
  by unfold State.latchTargets; split <;> simp
@[simp] theorem State.latchTargets_errBusy (g : NanSource) : (s.latchTargets g).errBusy = s.errBusy :=
  by unfold State.latchTargets; split <;> simp
@[simp] theorem State.latchTargets_mem (g : NanSource) : (s.latchTargets g).mem = s.mem :=
  by unfold State.latchTargets; split <;> simp
@[simp] theorem State.latchTargets_draws (g : NanSource) : (s.latchTargets g).draws = s.draws :=
  by unfold State.latchTargets; split <;> simp
@[simp] theorem State.latchTargets_errLog (g : NanSource) : (s.latchTargets g).errLog = s.errLog :=
  by unfold State.latchTargets; split <;> simp

/-! ### `clearAll` -/

@[simp] theorem State.clearAll_cfg : (s.clearAll).cfg = s.cfg := rfl
@[simp] theorem State.clearAll_host : (s.clearAll).host = s.host := rfl
@[simp] theorem State.clearAll_arg0 : (s.clearAll).arg0 = s.arg0 := rfl
@[simp] theorem State.clearAll_arg1 : (s.clearAll).arg1 = s.arg1 := rfl
@[simp] theorem State.clearAll_arg2 : (s.clearAll).arg2 = s.arg2 := rfl
@[simp] theorem State.clearAll_res1 : (s.clearAll).res1 = s.res1 := rfl
@[simp] theorem State.clearAll_speedRaw : (s.clearAll).speedRaw = s.speedRaw := rfl
@[simp] theorem State.clearAll_startX : (s.clearAll).startX = s.startX := rfl
@[simp] theorem State.clearAll_lengthX : (s.clearAll).lengthX = s.lengthX := rfl
@[simp] theorem State.clearAll_recX : (s.clearAll).recX = s.recX := rfl
@[simp] theorem State.clearAll_sosX : (s.clearAll).sosX = s.sosX := rfl
@[simp] theorem State.clearAll_filterX : (s.clearAll).filterX = s.filterX := rfl
@[simp] theorem State.clearAll_spd : (s.clearAll).spd = s.spd := rfl
@[simp] theorem State.clearAll_vol : (s.clearAll).vol = s.vol := rfl
@[simp] theorem State.clearAll_sosL : (s.clearAll).sosL = s.sosL := rfl
@[simp] theorem State.clearAll_filterL : (s.clearAll).filterL = s.filterL := rfl
@[simp] theorem State.clearAll_start : (s.clearAll).start = s.start := rfl
@[simp] theorem State.clearAll_length : (s.clearAll).length = s.length := rfl
@[simp] theorem State.clearAll_phase : (s.clearAll).phase = s.phase := rfl
@[simp] theorem State.clearAll_nstart : (s.clearAll).nstart = s.nstart := rfl
@[simp] theorem State.clearAll_nlength : (s.clearAll).nlength = s.nlength := rfl
@[simp] theorem State.clearAll_nphase : (s.clearAll).nphase = s.nphase := rfl
@[simp] theorem State.clearAll_xfKind : (s.clearAll).xfKind = s.xfKind := rfl
@[simp] theorem State.clearAll_xfProg : (s.clearAll).xfProg = s.xfProg := rfl
@[simp] theorem State.clearAll_xfWin : (s.clearAll).xfWin = s.xfWin := rfl
@[simp] theorem State.clearAll_xo : (s.clearAll).xo = s.xo := rfl
@[simp] theorem State.clearAll_wp : (s.clearAll).wp = s.wp := rfl
@[simp] theorem State.clearAll_headL : (s.clearAll).headL = s.headL := rfl
@[simp] theorem State.clearAll_headR : (s.clearAll).headR = s.headR := rfl
@[simp] theorem State.clearAll_clkPrev : (s.clearAll).clkPrev = s.clkPrev := rfl
@[simp] theorem State.clearAll_clkAge : (s.clearAll).clkAge = s.clkAge := rfl
@[simp] theorem State.clearAll_synced : (s.clearAll).synced = s.synced := rfl
@[simp] theorem State.clearAll_trigPend : (s.clearAll).trigPend = s.trigPend := rfl
@[simp] theorem State.clearAll_errIllegal : (s.clearAll).errIllegal = s.errIllegal := rfl
@[simp] theorem State.clearAll_errNonfinite : (s.clearAll).errNonfinite = s.errNonfinite := rfl
@[simp] theorem State.clearAll_errBusy : (s.clearAll).errBusy = s.errBusy := rfl
@[simp] theorem State.clearAll_draws : (s.clearAll).draws = s.draws := rfl
@[simp] theorem State.clearAll_errLog : (s.clearAll).errLog = s.errLog := rfl

/-! ### `clearStep` -/

@[simp] theorem State.clearStep_cfg : (s.clearStep).cfg = s.cfg := by unfold State.clearStep; split <;> rfl
@[simp] theorem State.clearStep_host : (s.clearStep).host = s.host := by unfold State.clearStep; split <;> rfl
@[simp] theorem State.clearStep_arg0 : (s.clearStep).arg0 = s.arg0 := by unfold State.clearStep; split <;> rfl
@[simp] theorem State.clearStep_arg1 : (s.clearStep).arg1 = s.arg1 := by unfold State.clearStep; split <;> rfl
@[simp] theorem State.clearStep_arg2 : (s.clearStep).arg2 = s.arg2 := by unfold State.clearStep; split <;> rfl
@[simp] theorem State.clearStep_res1 : (s.clearStep).res1 = s.res1 := by unfold State.clearStep; split <;> rfl
@[simp] theorem State.clearStep_speedRaw : (s.clearStep).speedRaw = s.speedRaw := by unfold State.clearStep; split <;> rfl
@[simp] theorem State.clearStep_startX : (s.clearStep).startX = s.startX := by unfold State.clearStep; split <;> rfl
@[simp] theorem State.clearStep_lengthX : (s.clearStep).lengthX = s.lengthX := by unfold State.clearStep; split <;> rfl
@[simp] theorem State.clearStep_recX : (s.clearStep).recX = s.recX := by unfold State.clearStep; split <;> rfl
@[simp] theorem State.clearStep_sosX : (s.clearStep).sosX = s.sosX := by unfold State.clearStep; split <;> rfl
@[simp] theorem State.clearStep_filterX : (s.clearStep).filterX = s.filterX := by unfold State.clearStep; split <;> rfl
@[simp] theorem State.clearStep_spd : (s.clearStep).spd = s.spd := by unfold State.clearStep; split <;> rfl
@[simp] theorem State.clearStep_vol : (s.clearStep).vol = s.vol := by unfold State.clearStep; split <;> rfl
@[simp] theorem State.clearStep_sosL : (s.clearStep).sosL = s.sosL := by unfold State.clearStep; split <;> rfl
@[simp] theorem State.clearStep_filterL : (s.clearStep).filterL = s.filterL := by unfold State.clearStep; split <;> rfl
@[simp] theorem State.clearStep_start : (s.clearStep).start = s.start := by unfold State.clearStep; split <;> rfl
@[simp] theorem State.clearStep_length : (s.clearStep).length = s.length := by unfold State.clearStep; split <;> rfl
@[simp] theorem State.clearStep_phase : (s.clearStep).phase = s.phase := by unfold State.clearStep; split <;> rfl
@[simp] theorem State.clearStep_nstart : (s.clearStep).nstart = s.nstart := by unfold State.clearStep; split <;> rfl
@[simp] theorem State.clearStep_nlength : (s.clearStep).nlength = s.nlength := by unfold State.clearStep; split <;> rfl
@[simp] theorem State.clearStep_nphase : (s.clearStep).nphase = s.nphase := by unfold State.clearStep; split <;> rfl
@[simp] theorem State.clearStep_xfKind : (s.clearStep).xfKind = s.xfKind := by unfold State.clearStep; split <;> rfl
@[simp] theorem State.clearStep_xfProg : (s.clearStep).xfProg = s.xfProg := by unfold State.clearStep; split <;> rfl
@[simp] theorem State.clearStep_xfWin : (s.clearStep).xfWin = s.xfWin := by unfold State.clearStep; split <;> rfl
@[simp] theorem State.clearStep_xo : (s.clearStep).xo = s.xo := by unfold State.clearStep; split <;> rfl
@[simp] theorem State.clearStep_wp : (s.clearStep).wp = s.wp := by unfold State.clearStep; split <;> rfl
@[simp] theorem State.clearStep_headL : (s.clearStep).headL = s.headL := by unfold State.clearStep; split <;> rfl
@[simp] theorem State.clearStep_headR : (s.clearStep).headR = s.headR := by unfold State.clearStep; split <;> rfl
@[simp] theorem State.clearStep_clkPrev : (s.clearStep).clkPrev = s.clkPrev := by unfold State.clearStep; split <;> rfl
@[simp] theorem State.clearStep_clkAge : (s.clearStep).clkAge = s.clkAge := by unfold State.clearStep; split <;> rfl
@[simp] theorem State.clearStep_synced : (s.clearStep).synced = s.synced := by unfold State.clearStep; split <;> rfl
@[simp] theorem State.clearStep_trigPend : (s.clearStep).trigPend = s.trigPend := by unfold State.clearStep; split <;> rfl
@[simp] theorem State.clearStep_errIllegal : (s.clearStep).errIllegal = s.errIllegal := by unfold State.clearStep; split <;> rfl
@[simp] theorem State.clearStep_errNonfinite : (s.clearStep).errNonfinite = s.errNonfinite :=
  by unfold State.clearStep; split <;> rfl
@[simp] theorem State.clearStep_errBusy : (s.clearStep).errBusy = s.errBusy := by unfold State.clearStep; split <;> rfl
@[simp] theorem State.clearStep_draws : (s.clearStep).draws = s.draws := by unfold State.clearStep; split <;> rfl
@[simp] theorem State.clearStep_errLog : (s.clearStep).errLog = s.errLog := by unfold State.clearStep; split <;> rfl

end Sys2Proof.Machine
end

