-- ==== Sys2Proof/Laws/Memory.lean ====
section
/-! SUPPORT. The laws of the memory: a read after a write, the canonical form kept by every operation, and equal reads making equal
canonical memories. -/

namespace Sys2Proof.Machine

@[simp] theorem Memory.readByte_nil (a : Nat) : Memory.readByte [] a = Memory.unlisted := rfl

theorem Memory.readByte_cons (a : Nat) (b : Byte) (m : Memory) (x : Nat) :
    Memory.readByte ((a, b) :: m) x = if a = x then b else m.readByte x := rfl

theorem Memory.canonicalFrom_cons (a : Nat) (b : Byte) (m : Memory) (lo : Nat) :
    Memory.canonicalFrom ((a, b) :: m) lo = true ↔ lo ≤ a ∧ b ≠ Memory.unlisted ∧ m.canonicalFrom (a + 1) = true := by
  simp [Memory.canonicalFrom, and_assoc]

theorem Memory.canonicalFrom_mono {m : Memory} {lo lo' : Nat} (h : m.canonicalFrom lo' = true) (hl : lo ≤ lo') :
    m.canonicalFrom lo = true := by
  cases m with
  | nil => rfl
  | cons c m =>
    obtain ⟨a, b⟩ := c
    rw [Memory.canonicalFrom_cons] at *
    exact ⟨by omega, h.2⟩

/-- Below its first address a canonical memory lists nothing. -/
theorem Memory.readByte_of_lt {m : Memory} {lo x : Nat} (h : m.canonicalFrom lo = true) (hx : x < lo) :
    m.readByte x = Memory.unlisted := by
  induction m generalizing lo with
  | nil => rfl
  | cons c m ih =>
    obtain ⟨a, b⟩ := c
    rw [Memory.canonicalFrom_cons] at h
    rw [Memory.readByte_cons, if_neg (by omega)]
    exact ih h.2.2 (by omega)

/-! ### One cell put in front -/

theorem Memory.readByte_listCell {m : Memory} {a : Nat} (v : Byte) (h : m.canonicalFrom (a + 1) = true) (x : Nat) :
    (Memory.listCell a v m).readByte x = if x = a then v else m.readByte x := by
  unfold Memory.listCell
  by_cases hv : v = Memory.unlisted
  · rw [if_pos hv]
    by_cases hx : x = a
    · rw [if_pos hx, Memory.readByte_of_lt h (by omega), hv]
    · rw [if_neg hx]
  · rw [if_neg hv, Memory.readByte_cons]
    by_cases hx : x = a
    · rw [if_pos hx, if_pos hx.symm]
    · rw [if_neg hx, if_neg (Ne.symm hx)]

theorem Memory.canonicalFrom_listCell {m : Memory} {a lo : Nat} (v : Byte) (h : m.canonicalFrom (a + 1) = true) (hl : lo ≤ a) :
    (Memory.listCell a v m).canonicalFrom lo = true := by
  unfold Memory.listCell
  by_cases hv : v = Memory.unlisted
  · rw [if_pos hv]; exact Memory.canonicalFrom_mono h (by omega)
  · rw [if_neg hv, Memory.canonicalFrom_cons]; exact ⟨hl, hv, h⟩

/-! ### Writing a byte -/

theorem Memory.canonicalFrom_writeByte {m : Memory} {lo a : Nat} (v : Byte) (h : m.canonicalFrom lo = true) (hl : lo ≤ a) :
    (m.writeByte a v).canonicalFrom lo = true := by
  induction m generalizing lo with
  | nil => exact Memory.canonicalFrom_listCell v rfl hl
  | cons c m ih =>
    obtain ⟨x, b⟩ := c
    rw [Memory.canonicalFrom_cons] at h
    unfold Memory.writeByte
    split_ifs with h1 h2
    · exact Memory.canonicalFrom_listCell v ((Memory.canonicalFrom_cons ..).2 ⟨by omega, h.2⟩) hl
    · exact Memory.canonicalFrom_listCell v (h2 ▸ h.2.2) hl
    · rw [Memory.canonicalFrom_cons]
      exact ⟨h.1, h.2.1, ih h.2.2 (by omega)⟩

/-- A byte read after a write: the byte written at its address, the old byte elsewhere. -/
theorem Memory.readByte_writeByte {m : Memory} {lo : Nat} (h : m.canonicalFrom lo = true) (a : Nat) (v : Byte) (x : Nat) :
    (m.writeByte a v).readByte x = if x = a then v else m.readByte x := by
  induction m generalizing lo with
  | nil => exact Memory.readByte_listCell v rfl x
  | cons c m ih =>
    obtain ⟨y, b⟩ := c
    rw [Memory.canonicalFrom_cons] at h
    unfold Memory.writeByte
    by_cases h1 : a < y
    · rw [if_pos h1, Memory.readByte_listCell v ((Memory.canonicalFrom_cons ..).2 ⟨by omega, h.2⟩)]
    · rw [if_neg h1]
      by_cases h2 : y = a
      · rw [if_pos h2, Memory.readByte_listCell v (h2 ▸ h.2.2), Memory.readByte_cons]
        by_cases hx : x = a
        · rw [if_pos hx, if_pos hx]
        · rw [if_neg hx, if_neg hx, if_neg (by omega)]
      · rw [if_neg h2, Memory.readByte_cons, Memory.readByte_cons, ih h.2.2]
        by_cases hx : y = x
        · rw [if_pos hx, if_neg (by omega), if_pos hx]
        · rw [if_neg hx, if_neg hx]

theorem Memory.wf_writeByte {m : Memory} (h : m.wf = true) (a : Nat) (v : Byte) : (m.writeByte a v).wf = true :=
  Memory.canonicalFrom_writeByte v h (Nat.zero_le _)

theorem Memory.below_cons (c : Host.Cell) (m : Memory) (bound : Nat) :
    Memory.below (c :: m) bound = true ↔ c.1 < bound ∧ m.below bound = true := by
  simp [Memory.below]

theorem Memory.below_listCell {m : Memory} {bound a : Nat} (v : Byte) (h : m.below bound = true) (ha : a < bound) :
    (Memory.listCell a v m).below bound = true := by
  unfold Memory.listCell
  split_ifs
  · exact h
  · exact (Memory.below_cons ..).2 ⟨ha, h⟩

theorem Memory.below_writeByte {m : Memory} {bound a : Nat} (v : Byte) (h : m.below bound = true) (ha : a < bound) :
    (m.writeByte a v).below bound = true := by
  induction m with
  | nil => exact Memory.below_listCell v h ha
  | cons c m ih =>
    have h' := (Memory.below_cons ..).1 h
    unfold Memory.writeByte
    split_ifs
    · exact Memory.below_listCell v h ha
    · exact Memory.below_listCell v h'.2 ha
    · exact (Memory.below_cons ..).2 ⟨h'.1, ih h'.2⟩

/-! ### Words -/

/-- A word is its four bytes. -/
theorem Memory.bytes_join (w : Word) :
    Memory.byteOf w 3 ++ Memory.byteOf w 2 ++ Memory.byteOf w 1 ++ Memory.byteOf w 0 = w := by
  simp only [Memory.byteOf]
  ext i hi
  simp only [BitVec.getElem_append, BitVec.getElem_extractLsb']
  split_ifs <;> (rw [← BitVec.getLsbD_eq_getElem]; congr 1; omega)

theorem Memory.wf_writeWord {m : Memory} (h : m.wf = true) (a : Nat) (w : Word) : (m.writeWord a w).wf = true :=
  Memory.wf_writeByte (Memory.wf_writeByte (Memory.wf_writeByte (Memory.wf_writeByte h _ _) _ _) _ _) _ _

/-- A byte read after a word was written: a byte of the word inside its four addresses, the old byte elsewhere. -/
theorem Memory.readByte_writeWord {m : Memory} (h : m.wf = true) (a : Nat) (w : Word) (x : Nat) :
    (m.writeWord a w).readByte x =
      if 4 * a ≤ x ∧ x < 4 * a + 4 then Memory.byteOf w (x - 4 * a) else m.readByte x := by
  have h0 := Memory.wf_writeByte h (4 * a) (Memory.byteOf w 0)
  have h1 := Memory.wf_writeByte h0 (4 * a + 1) (Memory.byteOf w 1)
  have h2 := Memory.wf_writeByte h1 (4 * a + 2) (Memory.byteOf w 2)
  unfold Memory.writeWord
  rw [Memory.readByte_writeByte h2, Memory.readByte_writeByte h1, Memory.readByte_writeByte h0, Memory.readByte_writeByte h]
  by_cases hx : 4 * a ≤ x ∧ x < 4 * a + 4
  · obtain ⟨d, hd, rfl⟩ : ∃ d, d < 4 ∧ x = 4 * a + d := ⟨x - 4 * a, by omega, by omega⟩
    rw [if_pos hx]
    interval_cases d <;> simp
  · rw [if_neg hx, if_neg (by omega), if_neg (by omega), if_neg (by omega), if_neg (by omega)]

theorem Memory.readWord_congr {m m' : Memory} {a a' : Nat}
    (h : ∀ k, k < 4 → m.readByte (4 * a + k) = m'.readByte (4 * a' + k)) : m.readWord a = m'.readWord a' := by
  have h0 := h 0 (by norm_num)
  rw [Nat.add_zero, Nat.add_zero] at h0
  rw [Memory.readWord, Memory.readWord, h0, h 1 (by norm_num), h 2 (by norm_num), h 3 (by norm_num)]

/-- A word read after a word was written: the word written at its address, the old word elsewhere. -/
theorem Memory.readWord_writeWord {m : Memory} (h : m.wf = true) (a : Nat) (w : Word) (x : Nat) :
    (m.writeWord a w).readWord x = if x = a then w else m.readWord x := by
  by_cases hx : x = a
  · subst hx
    rw [if_pos rfl]
    conv_rhs => rw [← Memory.bytes_join w]
    unfold Memory.readWord
    simp [Memory.readByte_writeWord h]
  · rw [if_neg hx]
    apply Memory.readWord_congr
    intro k hk
    rw [Memory.readByte_writeWord h, if_neg (by omega)]

theorem Memory.below_writeWord {m : Memory} {bound a : Nat} (w : Word) (h : m.below bound = true) (ha : 4 * a + 3 < bound) :
    (m.writeWord a w).below bound = true :=
  Memory.below_writeByte _ (Memory.below_writeByte _ (Memory.below_writeByte _ (Memory.below_writeByte _ h (by omega)) (by omega))
    (by omega)) ha

/-! ### Zeroing a range -/

theorem Memory.canonicalFrom_filter {m : Memory} {lo : Nat} (p : Host.Cell → Bool) (h : m.canonicalFrom lo = true) :
    Memory.canonicalFrom (m.filter p) lo = true := by
  induction m generalizing lo with
  | nil => rfl
  | cons c m ih =>
    obtain ⟨a, b⟩ := c
    rw [Memory.canonicalFrom_cons] at h
    rw [List.filter_cons]
    split_ifs
    · exact (Memory.canonicalFrom_cons ..).2 ⟨h.1, h.2.1, ih h.2.2⟩
    · exact Memory.canonicalFrom_mono (ih h.2.2) (by omega)

theorem Memory.wf_zeroBytes {m : Memory} (h : m.wf = true) (lo hi : Nat) : (m.zeroBytes lo hi).wf = true :=
  Memory.canonicalFrom_filter _ h

/-- A byte read after a range was zeroed. -/
theorem Memory.readByte_zeroBytes {m : Memory} {b : Nat} (h : m.canonicalFrom b = true) (lo hi x : Nat) :
    (m.zeroBytes lo hi).readByte x = if lo ≤ x ∧ x < hi then 0#8 else m.readByte x := by
  induction m generalizing b with
  | nil => simp [Memory.zeroBytes, Memory.unlisted]
  | cons c m ih =>
    obtain ⟨a, v⟩ := c
    rw [Memory.canonicalFrom_cons] at h
    have ih' := ih h.2.2
    unfold Memory.zeroBytes at *
    rw [List.filter_cons]
    by_cases hp : a < lo ∨ hi ≤ a
    · rw [if_pos (by simpa using hp), Memory.readByte_cons, Memory.readByte_cons, ih']
      by_cases hx : a = x
      · rw [if_pos hx, if_neg (by omega), if_pos hx]
      · rw [if_neg hx, if_neg hx]
    · rw [if_neg (by simpa using hp), ih', Memory.readByte_cons]
      by_cases hx : a = x
      · rw [if_pos (by omega), if_pos (by omega)]
      · rw [if_neg hx]

theorem Memory.readWord_zero {m : Memory} {a : Nat} (h : ∀ k, k < 4 → m.readByte (4 * a + k) = 0#8) : m.readWord a = 0#32 := by
  have h0 := h 0 (by norm_num)
  rw [Nat.add_zero] at h0
  rw [Memory.readWord, h0, h 1 (by norm_num), h 2 (by norm_num), h 3 (by norm_num)]
  rfl

/-- A word read after a range of whole words was zeroed. -/
theorem Memory.readWord_zeroBytes {m : Memory} (h : m.wf = true) (lo hi x : Nat) :
    (m.zeroBytes (4 * lo) (4 * hi)).readWord x = if lo ≤ x ∧ x < hi then 0#32 else m.readWord x := by
  by_cases hx : lo ≤ x ∧ x < hi
  · rw [if_pos hx]
    apply Memory.readWord_zero
    intro k hk
    rw [Memory.readByte_zeroBytes h, if_pos (by omega)]
  · rw [if_neg hx]
    apply Memory.readWord_congr
    intro k hk
    rw [Memory.readByte_zeroBytes h, if_neg (by omega)]

theorem Memory.below_zeroBytes {m : Memory} {bound : Nat} (h : m.below bound = true) (lo hi : Nat) :
    (m.zeroBytes lo hi).below bound = true := by
  simp only [Memory.below, Memory.zeroBytes, List.all_eq_true, List.mem_filter] at *
  exact fun c hc => h c hc.1

/-! ### A memory from a list of words -/

theorem Memory.canonicalFrom_ofWords (ws : List Word) (a : Nat) : (Memory.ofWords ws a).canonicalFrom (4 * a) = true := by
  induction ws generalizing a with
  | nil => rfl
  | cons w ws ih =>
    have h := ih (a + 1)
    exact Memory.canonicalFrom_listCell _ (Memory.canonicalFrom_listCell _ (Memory.canonicalFrom_listCell _
      (Memory.canonicalFrom_listCell _ h (by omega)) (by omega)) (by omega)) le_rfl

theorem Memory.wf_ofWords (ws : List Word) : (Memory.ofWords ws 0).wf = true :=
  Memory.canonicalFrom_ofWords ws 0

theorem Memory.readByte_ofWords_cons (w : Word) (ws : List Word) (a x : Nat) :
    (Memory.ofWords (w :: ws) a).readByte x =
      if 4 * a ≤ x ∧ x < 4 * a + 4 then Memory.byteOf w (x - 4 * a) else (Memory.ofWords ws (a + 1)).readByte x := by
  have h : (Memory.ofWords ws (a + 1)).canonicalFrom (4 * a + 3 + 1) = true := Memory.canonicalFrom_ofWords ws (a + 1)
  have h3 := Memory.canonicalFrom_listCell (lo := 4 * a + 2 + 1) (Memory.byteOf w 3) h (by omega)
  have h2 := Memory.canonicalFrom_listCell (lo := 4 * a + 1 + 1) (Memory.byteOf w 2) h3 (by omega)
  have h1 := Memory.canonicalFrom_listCell (lo := 4 * a + 1) (Memory.byteOf w 1) h2 (by omega)
  rw [Memory.ofWords, Memory.readByte_listCell _ h1, Memory.readByte_listCell _ h2, Memory.readByte_listCell _ h3,
    Memory.readByte_listCell _ h]
  by_cases hx : 4 * a ≤ x ∧ x < 4 * a + 4
  · obtain ⟨d, hd, rfl⟩ : ∃ d, d < 4 ∧ x = 4 * a + d := ⟨x - 4 * a, by omega, by omega⟩
    rw [if_pos hx]
    interval_cases d <;> simp
  · rw [if_neg hx, if_neg (by omega), if_neg (by omega), if_neg (by omega), if_neg (by omega)]

/-- The words of a list stand at their addresses, zero everywhere else. -/
theorem Memory.readWord_ofWords (ws : List Word) (a x : Nat) :
    (Memory.ofWords ws a).readWord x = if a ≤ x then ws.getD (x - a) 0#32 else 0#32 := by
  induction ws generalizing a with
  | nil =>
    have : Memory.readWord [] x = 0#32 := Memory.readWord_zero (by intros; rfl)
    simp [Memory.ofWords, this]
  | cons w ws ih =>
    by_cases hx : x = a
    · subst hx
      rw [if_pos le_rfl, Nat.sub_self, List.getD_cons_zero]
      conv_rhs => rw [← Memory.bytes_join w]
      unfold Memory.readWord
      simp [Memory.readByte_ofWords_cons]
    · have : (Memory.ofWords (w :: ws) a).readWord x = (Memory.ofWords ws (a + 1)).readWord x := by
        apply Memory.readWord_congr
        intro k hk
        rw [Memory.readByte_ofWords_cons, if_neg (by omega)]
      rw [this, ih]
      by_cases h : a ≤ x
      · rw [if_pos (by omega), if_pos h, show x - a = (x - (a + 1)) + 1 by omega, List.getD_cons_succ]
      · rw [if_neg (by omega), if_neg h]

theorem Memory.below_ofWords (ws : List Word) (a : Nat) : (Memory.ofWords ws a).below (4 * (a + ws.length)) = true := by
  induction ws generalizing a with
  | nil => rfl
  | cons w ws ih =>
    have h := ih (a + 1)
    rw [show 4 * (a + 1 + ws.length) = 4 * (a + (w :: ws).length) by rw [List.length_cons]; ring] at h
    have hl : 4 * a + 3 < 4 * (a + (w :: ws).length) := by rw [List.length_cons]; omega
    exact Memory.below_listCell _ (Memory.below_listCell _ (Memory.below_listCell _ (Memory.below_listCell _ h hl) (by omega))
      (by omega)) (by omega)

/-! ### Equal reads -/

/-- Canonical memories that read alike are equal. -/
theorem Memory.ext_of_canonical {m m' : Memory} {lo : Nat} (h : m.canonicalFrom lo = true) (h' : m'.canonicalFrom lo = true)
    (he : ∀ x, m.readByte x = m'.readByte x) : m = m' := by
  induction m generalizing m' lo with
  | nil =>
    cases m' with
    | nil => rfl
    | cons c m' =>
      obtain ⟨a, b⟩ := c
      have := he a
      rw [Memory.canonicalFrom_cons] at h'
      rw [Memory.readByte_cons, if_pos rfl] at this
      exact absurd this.symm h'.2.1
  | cons c m ih =>
    obtain ⟨a, b⟩ := c
    rw [Memory.canonicalFrom_cons] at h
    cases m' with
    | nil =>
      have := he a
      rw [Memory.readByte_cons, if_pos rfl] at this
      exact absurd this h.2.1
    | cons c' m' =>
      obtain ⟨a', b'⟩ := c'
      rw [Memory.canonicalFrom_cons] at h'
      have hlow : ∀ {p q : Nat} {v : Byte} {r : Memory}, v ≠ Memory.unlisted → r.canonicalFrom (p + 1) = true → q < p →
          Memory.readByte ((p, v) :: r) q = Memory.unlisted := by
        intro p q v r _ hr hq
        rw [Memory.readByte_cons, if_neg (by omega), Memory.readByte_of_lt hr (by omega)]
      rcases Nat.lt_trichotomy a a' with hlt | heq | hgt
      · have := he a
        rw [hlow h'.2.1 h'.2.2 hlt, Memory.readByte_cons, if_pos rfl] at this
        exact absurd this h.2.1
      · subst heq
        have hb := he a
        rw [Memory.readByte_cons, if_pos rfl, Memory.readByte_cons, if_pos rfl] at hb
        subst hb
        congr 1
        refine ih h.2.2 h'.2.2 fun x => ?_
        have := he x
        rw [Memory.readByte_cons, Memory.readByte_cons] at this
        by_cases hx : a = x
        · rw [Memory.readByte_of_lt h.2.2 (by omega), Memory.readByte_of_lt h'.2.2 (by omega)]
        · rwa [if_neg hx, if_neg hx] at this
      · have := he a'
        rw [hlow h.2.1 h.2.2 hgt, Memory.readByte_cons, if_pos rfl] at this
        exact absurd this.symm h'.2.1

end Sys2Proof.Machine
end

