-- ==== Sys2Proof/Laws/Ops.lean ====
section
/-! SUPPORT. One lemma for each shared operation that says all it can do to the state, and the store reads after a store write. -/

namespace Sys2Proof.Machine

/-! ### NaN sources -/

@[simp] theorem NanSource.shift_shift (g : NanSource) (a b : Nat) : (g.shift a).shift b = g.shift (a + b) := by
  funext k
  simp only [NanSource.shift, Nat.add_assoc]

theorem NanSource.shift_apply (g : NanSource) (a b : Nat) : (g.shift a) b = g (a + b) := rfl

/-! ### The store -/

theorem wordAddress_inj {c d : Channel} {i j : Nat} (h : wordAddress c i = wordAddress d j) : c = d ∧ i = j := by
  cases c <;> cases d <;> simp [wordAddress, channelBit] at h ⊢ <;> omega

/-- `S[d][j]` after `S[c][i] <- w`. -/
theorem State.storeRead_storeWrite {s : State} (h : s.mem.wf = true) (c d : Channel) (i j : Nat) (w : Word) :
    (s.storeWrite c i w).storeRead d j = if d = c ∧ j = i then w else s.storeRead d j := by
  unfold State.storeRead
  rw [State.storeWrite_mem, Memory.readWord_writeWord h]
  by_cases hx : wordAddress d j = wordAddress c i
  · rw [if_pos hx, if_pos (wordAddress_inj hx)]
  · rw [if_neg hx, if_neg]
    rintro ⟨rfl, rfl⟩
    exact hx rfl

theorem State.wf_storeWrite {s : State} (h : s.mem.wf = true) (c : Channel) (i : Nat) (w : Word) :
    (s.storeWrite c i w).mem.wf = true :=
  Memory.wf_writeWord h _ _

theorem State.below_storeWrite {s : State} {n : Nat} (h : s.mem.below (8 * n) = true) (c : Channel) {i : Nat} (hi : i < n) (w : Word) :
    (s.storeWrite c i w).mem.below (8 * n) = true :=
  Memory.below_writeWord w h (by cases c <;> simp [wordAddress, channelBit] <;> omega)

/-- `S[c][i]` after a range of samples was zeroed. -/
theorem State.storeRead_storeClear {s : State} (h : s.mem.wf = true) (lo hi : Nat) (c : Channel) (i : Nat) :
    (s.storeClear lo hi).storeRead c i = if lo ≤ i ∧ i < hi then 0#32 else s.storeRead c i := by
  unfold State.storeRead
  rw [State.storeClear_mem, show 8 * lo = 4 * (2 * lo) by ring, show 8 * hi = 4 * (2 * hi) by ring, Memory.readWord_zeroBytes h]
  congr 1
  cases c
  · simp [wordAddress, channelBit]
  · simp [wordAddress, channelBit]; omega

/-! ### What the composite operations can change -/

/-- `WHCore` leaves every byte outside the addressed word, and every byte if the head is INACTIVE. -/
theorem State.headWrite_readByte {s : State} (h : s.mem.wf = true) (g : NanSource) (c : Channel) (i : Nat) (v : Word) (x : Nat)
    (hx : (s.head c).state = .inactive ∨ x < 4 * wordAddress c i ∨ 4 * wordAddress c i + 4 ≤ x) :
    (s.headWrite g c i v).mem.readByte x = s.mem.readByte x := by
  unfold State.headWrite State.headFade
  split
  · rfl
  · rw [State.storeWrite_mem, Memory.readByte_writeWord h, if_neg (by rcases hx with hx | hx <;> [simp_all; omega])]
  · rw [State.setHead_mem, State.storeWrite_mem, Memory.readByte_writeWord h,
      if_neg (by rcases hx with hx | hx <;> [simp_all; omega])]
  · rw [State.setHead_mem, State.storeWrite_mem, Memory.readByte_writeWord h,
      if_neg (by rcases hx with hx | hx <;> [simp_all; omega])]

theorem State.headWrite_wf {s : State} (h : s.mem.wf = true) (g : NanSource) (c : Channel) (i : Nat) (v : Word) :
    (s.headWrite g c i v).mem.wf = true := by
  unfold State.headWrite State.headFade
  split
  · exact h
  · exact State.wf_storeWrite h ..
  · rw [State.setHead_mem]; exact State.wf_storeWrite h ..
  · rw [State.setHead_mem]; exact State.wf_storeWrite h ..

theorem State.headWrite_below {s : State} {n : Nat} (h : s.mem.below (8 * n) = true) (g : NanSource) (c : Channel) {i : Nat}
    (hi : i < n) (v : Word) : (s.headWrite g c i v).mem.below (8 * n) = true := by
  unfold State.headWrite State.headFade
  split
  · exact h
  · exact State.below_storeWrite h c hi _
  · rw [State.setHead_mem]; exact State.below_storeWrite h c hi _
  · rw [State.setHead_mem]; exact State.below_storeWrite h c hi _

/-- The head after `WHCore` on its channel: one that is fading advances. -/
theorem State.headWrite_head (s : State) (g : NanSource) (c : Channel) (i : Nat) (v : Word) :
    (s.headWrite g c i v).head c =
      if (s.head c).state = .fadingIn ∨ (s.head c).state = .fadingOut then (s.head c).advance s.cfg.wfade else s.head c := by
  unfold State.headWrite State.headFade
  split <;> simp_all

/-- `WHCore` leaves the head of the other channel. -/
theorem State.headWrite_head_other (s : State) (g : NanSource) {c d : Channel} (hd : d ≠ c) (i : Nat) (v : Word) :
    (s.headWrite g c i v).head d = s.head d := by
  unfold State.headWrite State.headFade
  cases c <;> cases d <;> first | exact absurd rfl hd | (split <;> rfl)

/-! ### The write stage -/

theorem State.writeChannel_wf {s : State} (h : s.mem.wf = true) (g : NanSource) (c : Channel) (v : Word) :
    (s.writeChannel g c v).mem.wf = true :=
  State.headWrite_wf h ..

/-- While a clear is in progress the write stage moves `WP` only. -/
theorem State.writeStage_busy {s : State} (h : s.clrBusy = true) (g : NanSource) (a b : Word) : s.writeStage g a b = s.advanceWp := by
  rw [State.writeStage, if_pos h]

theorem State.writeStage_idle {s : State} (h : s.clrBusy = false) (g : NanSource) (a b : Word) :
    s.writeStage g a b = ((s.writeChannel g .left a).writeChannel (g.shift 8) .right b).advanceWp := by
  rw [State.writeStage, if_neg (by simp [h])]

theorem State.writeStage_wf {s : State} (h : s.mem.wf = true) (g : NanSource) (a b : Word) :
    (s.writeStage g a b).mem.wf = true := by
  unfold State.writeStage
  split
  · exact h
  · exact State.writeChannel_wf (State.writeChannel_wf h ..) ..

@[simp] theorem State.writeStage_wp (s : State) (g : NanSource) (a b : Word) :
    (s.writeStage g a b).wp = BitVec.ofNat 32 ((s.wp.toNat + 1) % s.cfg.n) := by
  unfold State.writeStage
  split <;> simp

/-- The write stage leaves every byte outside the two words at `WP`. -/
theorem State.writeStage_readByte {s : State} (h : s.mem.wf = true) (g : NanSource) (a b : Word) (x : Nat)
    (hx : x < 8 * s.wp.toNat ∨ 8 * s.wp.toNat + 8 ≤ x) : (s.writeStage g a b).mem.readByte x = s.mem.readByte x := by
  unfold State.writeStage
  split
  · rfl
  · have h1 : ∀ c : Channel, x < 4 * wordAddress c s.wp.toNat ∨ 4 * wordAddress c s.wp.toNat + 4 ≤ x := by
      intro c; cases c <;> simp [wordAddress, channelBit] <;> omega
    rw [State.advanceWp_mem, State.writeChannel, State.headWrite_readByte (State.writeChannel_wf h ..) _ _ _ _ _ (.inr (by simpa using h1 _)),
      State.writeChannel, State.headWrite_readByte h _ _ _ _ _ (.inr (h1 _))]

theorem State.writeStage_below {s : State} {n : Nat} (h : s.mem.below (8 * n) = true) (hw : s.wp.toNat < n) (g : NanSource)
    (a b : Word) : (s.writeStage g a b).mem.below (8 * n) = true := by
  unfold State.writeStage
  split
  · exact h
  · refine State.headWrite_below (State.headWrite_below h _ _ hw _) _ _ ?_ _
    simpa using hw

/-- The heads after the write stage: each that is fading advances, unless a clear is in progress. -/
theorem State.writeStage_head (s : State) (g : NanSource) (a b : Word) (c : Channel) :
    (s.writeStage g a b).head c =
      if s.clrBusy = false ∧ ((s.head c).state = .fadingIn ∨ (s.head c).state = .fadingOut) then (s.head c).advance s.cfg.wfade
      else s.head c := by
  cases hb : s.clrBusy
  · rw [State.writeStage_idle hb]
    have hadv : ∀ t : State, t.advanceWp.head c = t.head c := by intro t; cases c <;> rfl
    rw [hadv, State.writeChannel]
    cases c
    · rw [State.headWrite_head_other _ _ (by decide), State.writeChannel, State.headWrite_head]
      simp only [true_and]
    · rw [State.headWrite_head, State.writeChannel, State.headWrite_head_other _ _ (by decide)]
      simp only [State.headWrite_cfg, true_and]
  · rw [State.writeStage_busy hb]
    cases c <;> simp

/-! ### The head stage of `LATCH` -/

theorem State.latchHeads_headL (s : State) :
    s.latchHeads.headL = if s.recX then s.headL.start s.cfg.wfade else s.headL.stop s.cfg.wfade := by
  unfold State.latchHeads
  split <;> simp

theorem State.latchHeads_headR (s : State) :
    s.latchHeads.headR = if s.recX then s.headR.start s.cfg.wfade else s.headR.stop s.cfg.wfade := by
  unfold State.latchHeads
  split <;> simp

end Sys2Proof.Machine
end

