-- ==== Sys2Proof/Laws/PerInstr.lean ====
section
/-! SUPPORT. Statements made for each command, one lemma per constructor of `Instr`. -/

namespace Sys2Proof.Laws.EncodeFields

/-- The command word holds the opcode and the `sub` of the command in their fields, and a zero `z` (rule R91). -/
def Statement (i : Instr) : Prop :=
  opField (encode i) = i.opcode ∧ subField (encode i) = i.sub ∧ zField (encode i) = 0#16

/-- The fields of a word put together from its fields. -/
theorem of_fields (i : Instr) : Statement i := by
  unfold Statement opField subField zField encode
  generalize i.opcode = op
  generalize i.sub = sub
  refine ⟨?_, ?_, BitVec.extractLsb'_append_eq_right⟩ <;>
    (apply BitVec.eq_of_getElem_eq
     intro i hi
     rw [BitVec.getElem_extractLsb']
     erw [BitVec.getLsbD_append, BitVec.getLsbD_append])
  · rw [if_neg (by omega), if_neg (by omega), show 24 + i - 16 - 8 = i by omega, BitVec.getLsbD_eq_getElem hi]
  · rw [if_neg (by omega), if_pos (by omega), show 16 + i - 16 = i by omega, BitVec.getLsbD_eq_getElem hi]

theorem nop : Statement .nop :=
  of_fields _

theorem tick (clk : Bool) : Statement (.tick clk) :=
  of_fields _

theorem latch : Statement .latch :=
  of_fields _

theorem setspeed : Statement .setspeed :=
  of_fields _

theorem setstart : Statement .setstart :=
  of_fields _

theorem setlength : Statement .setlength :=
  of_fields _

theorem setrec (on : Bool) : Statement (.setrec on) :=
  of_fields _

theorem setsos : Statement .setsos :=
  of_fields _

theorem setfilter : Statement .setfilter :=
  of_fields _

theorem trig : Statement .trig :=
  of_fields _

theorem clear (mode : ClearMode) : Statement (.clear mode) :=
  of_fields _

theorem whstart (mask : ChannelMask) : Statement (.whstart mask) :=
  of_fields _

theorem whstop (mask : ChannelMask) : Statement (.whstop mask) :=
  of_fields _

theorem whwrite (c : Channel) : Statement (.whwrite c) :=
  of_fields _

theorem stwrite : Statement .stwrite :=
  of_fields _

theorem stread (dir : Direction) : Statement (.stread dir) :=
  of_fields _

theorem status (clr : Bool) : Statement (.status clr) :=
  of_fields _

theorem rdreg (r : Reg) : Statement (.rdreg r) :=
  of_fields _

end Sys2Proof.Laws.EncodeFields
end

