-- ==== Sys2Proof/Laws/Quiet.lean ====
section
/-! SUPPORT. The words that answer a NaN are quiet NaNs, whatever their draw. -/

namespace Sys2Proof

theorem F32.isQuietNaN_quietNaN (d : BitVec 23) : F32.isQuietNaN (F32.quietNaN d) = true := by
  simp only [F32.isQuietNaN, F32.quietNaN, beq_iff_eq]
  ext i hi
  simp only [BitVec.getElem_extractLsb', BitVec.getLsbD_append, BitVec.getLsbD_extractLsb']
  interval_cases i <;> simp

namespace Machine

theorem State.nanSource_quiet (s : State) : s.nanSource.Quiet :=
  fun _ => F32.isQuietNaN_quietNaN _

theorem NanSource.Quiet.shift {g : NanSource} (h : g.Quiet) (k : Nat) : (g.shift k).Quiet :=
  fun j => h (k + j)

theorem State.readSource_quiet (s : State) (dir : Direction) : (s.readSource dir).Quiet :=
  s.nanSource_quiet.shift _

end Machine

end Sys2Proof
end

