-- ==== Sys2Proof/Laws/Tick.lean ====
section
/-! SUPPORT. What the stages of `TICK` answer, by the kind of the transition in flight. -/

namespace Sys2Proof.Machine

/-- The state of a tick after its write and read stages. -/
def State.afterRead (s : State) : State :=
  (s.writeStage s.nanSource s.arg0 s.arg1).readStage (s.nanSource.shift 16)

theorem State.tick_eq (s : State) (clk : Bool) :
    s.tick clk = (s.afterRead.advanceStage (s.nanSource.shift 60)).triggerStage (s.nanSource.shift 67) clk := rfl

/-! The write and read stages leave every register but `WP`, the heads and the results. -/

@[simp] theorem State.afterRead_cfg (s : State) : s.afterRead.cfg = s.cfg := by simp [State.afterRead]
@[simp] theorem State.afterRead_host (s : State) : s.afterRead.host = s.host := by simp [State.afterRead]
@[simp] theorem State.afterRead_arg0 (s : State) : s.afterRead.arg0 = s.arg0 := by simp [State.afterRead]
@[simp] theorem State.afterRead_arg1 (s : State) : s.afterRead.arg1 = s.arg1 := by simp [State.afterRead]
@[simp] theorem State.afterRead_arg2 (s : State) : s.afterRead.arg2 = s.arg2 := by simp [State.afterRead]
@[simp] theorem State.afterRead_speedRaw (s : State) : s.afterRead.speedRaw = s.speedRaw := by simp [State.afterRead]
@[simp] theorem State.afterRead_startX (s : State) : s.afterRead.startX = s.startX := by simp [State.afterRead]
@[simp] theorem State.afterRead_lengthX (s : State) : s.afterRead.lengthX = s.lengthX := by simp [State.afterRead]
@[simp] theorem State.afterRead_recX (s : State) : s.afterRead.recX = s.recX := by simp [State.afterRead]
@[simp] theorem State.afterRead_sosX (s : State) : s.afterRead.sosX = s.sosX := by simp [State.afterRead]
@[simp] theorem State.afterRead_filterX (s : State) : s.afterRead.filterX = s.filterX := by simp [State.afterRead]
@[simp] theorem State.afterRead_spd (s : State) : s.afterRead.spd = s.spd := by simp [State.afterRead]
@[simp] theorem State.afterRead_vol (s : State) : s.afterRead.vol = s.vol := by simp [State.afterRead]
@[simp] theorem State.afterRead_sosL (s : State) : s.afterRead.sosL = s.sosL := by simp [State.afterRead]
@[simp] theorem State.afterRead_filterL (s : State) : s.afterRead.filterL = s.filterL := by simp [State.afterRead]
@[simp] theorem State.afterRead_start (s : State) : s.afterRead.start = s.start := by simp [State.afterRead]
@[simp] theorem State.afterRead_length (s : State) : s.afterRead.length = s.length := by simp [State.afterRead]
@[simp] theorem State.afterRead_phase (s : State) : s.afterRead.phase = s.phase := by simp [State.afterRead]
@[simp] theorem State.afterRead_nstart (s : State) : s.afterRead.nstart = s.nstart := by simp [State.afterRead]
@[simp] theorem State.afterRead_nlength (s : State) : s.afterRead.nlength = s.nlength := by simp [State.afterRead]
@[simp] theorem State.afterRead_nphase (s : State) : s.afterRead.nphase = s.nphase := by simp [State.afterRead]
@[simp] theorem State.afterRead_xfKind (s : State) : s.afterRead.xfKind = s.xfKind := by simp [State.afterRead]
@[simp] theorem State.afterRead_xfProg (s : State) : s.afterRead.xfProg = s.xfProg := by simp [State.afterRead]
@[simp] theorem State.afterRead_xfWin (s : State) : s.afterRead.xfWin = s.xfWin := by simp [State.afterRead]
@[simp] theorem State.afterRead_xo (s : State) : s.afterRead.xo = s.xo := by simp [State.afterRead]
@[simp] theorem State.afterRead_clrBusy (s : State) : s.afterRead.clrBusy = s.clrBusy := by simp [State.afterRead]
@[simp] theorem State.afterRead_clrPtr (s : State) : s.afterRead.clrPtr = s.clrPtr := by simp [State.afterRead]
@[simp] theorem State.afterRead_clkPrev (s : State) : s.afterRead.clkPrev = s.clkPrev := by simp [State.afterRead]
@[simp] theorem State.afterRead_clkAge (s : State) : s.afterRead.clkAge = s.clkAge := by simp [State.afterRead]
@[simp] theorem State.afterRead_synced (s : State) : s.afterRead.synced = s.synced := by simp [State.afterRead]
@[simp] theorem State.afterRead_trigPend (s : State) : s.afterRead.trigPend = s.trigPend := by simp [State.afterRead]
@[simp] theorem State.afterRead_errIllegal (s : State) : s.afterRead.errIllegal = s.errIllegal := by simp [State.afterRead]
@[simp] theorem State.afterRead_errNonfinite (s : State) : s.afterRead.errNonfinite = s.errNonfinite := by simp [State.afterRead]
@[simp] theorem State.afterRead_errBusy (s : State) : s.afterRead.errBusy = s.errBusy := by simp [State.afterRead]
@[simp] theorem State.afterRead_draws (s : State) : s.afterRead.draws = s.draws := by simp [State.afterRead]
@[simp] theorem State.afterRead_errLog (s : State) : s.afterRead.errLog = s.errLog := by simp [State.afterRead]

/-- With no transition in flight: the phase moves, and a wrap begins a fade. -/
theorem State.advanceStage_none {s : State} (h : s.xfKind = .none) (g : NanSource) :
    s.advanceStage g =
      ({ s with phase := (wrapPhase (g.shift 1) (s.unwrappedPhase g) s.length.toNat).1 } : State).fadeAtWrap g
        (wrapPhase (g.shift 1) (s.unwrappedPhase g) s.length.toNat).2 (s.unwrappedPhase g) := by
  simp [State.advanceStage, State.advancePhases, State.advanceTail, State.advanceProgress, State.completeTransition,
    State.phaseWraps, h]

/-- During a PARAM transition: the new stream and the tail move, and the transition may complete; no fade begins. -/
theorem State.advanceStage_param {s : State} (h : s.xfKind = .param) (g : NanSource) :
    s.advanceStage g =
      ({ s with
        nphase := (wrapPhase (g.shift 1) (F32.add (g 0) s.nphase s.spd) s.nlength.toNat).1
        xo := wrapN s.cfg.n (F32.add (g 3) s.xo s.spd)
        xfProg := F32.add (g 4) s.xfProg (F32.abs s.spd) } : State).completeTransition := by
  simp [State.advanceStage, State.advancePhases, State.advanceTail, State.advanceProgress, State.fadeAtWrap,
    State.phaseWraps, h]

/-- During a BOUNDARY transition. -/
theorem State.advanceStage_boundary {s : State} (h : s.xfKind = .boundary) (g : NanSource) :
    s.advanceStage g =
      (({ s with
        phase := (wrapPhase (g.shift 1) (s.unwrappedPhase g) s.length.toNat).1
        xo := wrapN s.cfg.n (F32.add (g 3) s.xo s.spd)
        xfProg := F32.add (g 4) s.xfProg (F32.abs s.spd) } : State).completeTransition).fadeAtWrap g
        (wrapPhase (g.shift 1) (s.unwrappedPhase g) s.length.toNat).2 (s.unwrappedPhase g) := by
  simp [State.advanceStage, State.advancePhases, State.advanceTail, State.advanceProgress, State.phaseWraps, h]

/-- During a TRIGGER transition. -/
theorem State.advanceStage_trigger {s : State} (h : s.xfKind = .trigger) (g : NanSource) :
    s.advanceStage g =
      (({ s with
        phase := (wrapPhase (g.shift 1) (s.unwrappedPhase g) s.length.toNat).1
        xo := wrapN s.cfg.n (F32.add (g 3) s.xo s.spd)
        xfProg := F32.add (g 4) s.xfProg F32.one } : State).completeTransition).fadeAtWrap g
        (wrapPhase (g.shift 1) (s.unwrappedPhase g) s.length.toNat).2 (s.unwrappedPhase g) := by
  simp [State.advanceStage, State.advancePhases, State.advanceTail, State.advanceProgress, State.phaseWraps, h]

/-- Without a trigger, a tick ages the clock and otherwise leaves what the advance stage gave. -/
theorem State.tick_of_not_triggered {s : State} {clk : Bool} (h : s.triggered clk = false) :
    s.tick clk = ((s.afterRead.advanceStage (s.nanSource.shift 60)).sampleClock clk).ageClock := by
  rw [State.tick_eq, State.triggerStage, if_neg]
  simp only [State.triggered] at h
  simp [State.clockEdge, State.afterRead, h]

/-- With a trigger, a tick retriggers what the advance stage gave. -/
theorem State.tick_of_triggered {s : State} {clk : Bool} (h : s.triggered clk = true) :
    s.tick clk =
      ((s.afterRead.advanceStage (s.nanSource.shift 60)).sampleClock clk).retrigger (s.nanSource.shift 67) := by
  rw [State.tick_eq, State.triggerStage, if_pos]
  simp only [State.triggered] at h
  simp [State.clockEdge, State.afterRead, h]

end Sys2Proof.Machine
end

