-- ==== Sys2Proof/Tests/Slice0.lean ====
section
/-! SUPPORT. Tests: the smoke test of WellFormed, the decoding of words written out from rule R93, one or two steps of each command
with the results that the spec works out, and for each statement with hypotheses a witness that meets them. -/

namespace Sys2Proof.Tests

open Sys2Proof Sys2Proof.Machine

/-! One proof after the other: each evaluation in the kernel takes memory of its own. -/
set_option Elab.async false

/-! ### WellFormed: the empty channel mask (rule R191) is the only ill-formed operand -/

theorem test_wellFormed_refuses_whstart_of_no_channel : (Instr.whstart ⟨false, false⟩).wellFormed = false := by decide

theorem test_wellFormed_refuses_whstop_of_no_channel : (Instr.whstop ⟨false, false⟩).wellFormed = false := by decide

theorem test_wellFormed_admits_one_channel :
    (Instr.whstart ⟨true, false⟩).wellFormed = true ∧ (Instr.whstop ⟨false, true⟩).wellFormed = true := by decide

/-! ### Decode: words written out as op, sub, z from rules R91 and R93 -/

theorem test_decode_nop : decode (0x00#8 ++ 0x00#8 ++ 0x0000#16) = .ok .nop := rfl
theorem test_decode_tick : decode (0x01#8 ++ 0x00#8 ++ 0x0000#16) = .ok (.tick false) := rfl
theorem test_decode_tick_clk : decode (0x01#8 ++ 0x01#8 ++ 0x0000#16) = .ok (.tick true) := rfl
theorem test_decode_latch : decode (0x02#8 ++ 0x00#8 ++ 0x0000#16) = .ok .latch := rfl
theorem test_decode_setspeed : decode (0x03#8 ++ 0x00#8 ++ 0x0000#16) = .ok .setspeed := rfl
theorem test_decode_setstart : decode (0x04#8 ++ 0x00#8 ++ 0x0000#16) = .ok .setstart := rfl
theorem test_decode_setlength : decode (0x05#8 ++ 0x00#8 ++ 0x0000#16) = .ok .setlength := rfl
theorem test_decode_setrec : decode (0x06#8 ++ 0x01#8 ++ 0x0000#16) = .ok (.setrec true) := rfl
theorem test_decode_setsos : decode (0x07#8 ++ 0x00#8 ++ 0x0000#16) = .ok .setsos := rfl
theorem test_decode_setfilter : decode (0x08#8 ++ 0x00#8 ++ 0x0000#16) = .ok .setfilter := rfl
theorem test_decode_trig : decode (0x09#8 ++ 0x00#8 ++ 0x0000#16) = .ok .trig := rfl
theorem test_decode_clear : decode (0x0A#8 ++ 0x01#8 ++ 0x0000#16) = .ok (.clear .step) := rfl
theorem test_decode_whstart : decode (0x0B#8 ++ 0x01#8 ++ 0x0000#16) = .ok (.whstart ⟨true, false⟩) := rfl
theorem test_decode_whstop : decode (0x0C#8 ++ 0x02#8 ++ 0x0000#16) = .ok (.whstop ⟨false, true⟩) := rfl
theorem test_decode_whwrite : decode (0x0D#8 ++ 0x01#8 ++ 0x0000#16) = .ok (.whwrite .left) := rfl
theorem test_decode_stwrite : decode (0x0E#8 ++ 0x00#8 ++ 0x0000#16) = .ok .stwrite := rfl
theorem test_decode_stread : decode (0x0F#8 ++ 0xFF#8 ++ 0x0000#16) = .ok (.stread .backward) := rfl
theorem test_decode_status : decode (0x10#8 ++ 0x01#8 ++ 0x0000#16) = .ok (.status true) := rfl
theorem test_decode_rdreg : decode (0x11#8 ++ 0x3F#8 ++ 0x0000#16) = .ok (.rdreg .statusWord) := rfl

/-! ### One step of each command -/

/-- The state after a command, for a command that has a next state. -/
def after (i : Instr) (s : State) : State :=
  (nextState (exec i s)).getD s

/-- The reset state under `TC` with an operand. -/
def withArg (w : Word) : State :=
  { State.reset with arg0 := w }

/-- The ramp store played forward at speed 1 from a phase of the whole buffer. -/
def playing (phase : Word) : State :=
  { rampState with spd := F32.one, vol := F32.one, phase := phase }

/-- Rule R255 after tick 8: a BOUNDARY fade half way. -/
def seam : State :=
  { playing 0x3F800000#32 with
    start := 2#32, length := 8#32, xfKind := .boundary, xfProg := 0x3F800000#32, xfWin := 0x40000000#32, xo := 0x41300000#32 }

theorem test_nop_changes_nothing : after .nop (withArg 5#32) = withArg 5#32 := rfl

/-- Rule R255, tick 9: `Lin(11, 3, 0.5) = 7`, then the fade is complete. -/
theorem test_tick_blends_the_seam :
    (after (.tick false) seam).res0 = 0x40E00000#32 ∧ (after (.tick false) seam).res1 = 0x42D60000#32 ∧
      (after (.tick false) seam).xfKind = .none ∧ (after (.tick false) seam).phase = 0x40000000#32 := by decide +kernel

/-- Rule R251: a `TICK CLK` at phase 5 outputs 5, then `PHASE = 0`, `XO = 6` and TRIGGER. -/
theorem test_tick_retriggers :
    (after (.tick true) (playing 0x40A00000#32)).res0 = 0x40A00000#32 ∧
      (after (.tick true) (playing 0x40A00000#32)).phase = 0#32 ∧
      (after (.tick true) (playing 0x40A00000#32)).xo = 0x40C00000#32 ∧
      (after (.tick true) (playing 0x40A00000#32)).xfKind = .trigger := by decide +kernel

/-- The controls of the example of rule R130. -/
def controlled : State :=
  { State.reset with speedRaw := 0x3F800000#32, startX := 0x3E800000#32, lengthX := 0x3F000000#32 }

/-- Rule R130: speed 1, start 0.25, length 0.5. -/
theorem test_latch_begins_a_param_transition :
    (after .latch controlled).xfKind = .param ∧ (after .latch controlled).nstart = 2#32 ∧
      (after .latch controlled).nlength = 8#32 ∧ (after .latch controlled).xfWin = 0x40000000#32 := by decide +kernel

/-- Rule R135: phase 10, the new length 4, so a window of `clamp(6, 1, 4) = 4`. -/
theorem test_latch_edge_case :
    (after .latch { playing 0x41200000#32 with lengthX := 0#32 }).nlength = 4#32 ∧
      (after .latch { playing 0x41200000#32 with lengthX := 0#32 }).nphase = 0#32 ∧
      (after .latch { playing 0x41200000#32 with lengthX := 0#32 }).xfWin = 0x40800000#32 ∧
      (after .latch { playing 0x41200000#32 with lengthX := 0#32 }).xo = 0x41200000#32 := by decide +kernel

theorem test_setspeed_holds_the_word : (after .setspeed (withArg 0x40A00000#32)).speedRaw = 0x40A00000#32 := by decide +kernel

theorem test_setspeed_refuses_nan :
    (after .setspeed (withArg 0x7FC00000#32)).speedRaw = 0#32 ∧ (after .setspeed (withArg 0x7FC00000#32)).errNonfinite = true := by
  decide +kernel

theorem test_setstart_holds_the_word : (after .setstart (withArg 0x3E800000#32)).startX = 0x3E800000#32 := by decide +kernel

theorem test_setlength_refuses_infinity :
    (after .setlength (withArg 0x7F800000#32)).lengthX = 0x3F800000#32 ∧
      (after .setlength (withArg 0x7F800000#32)).errNonfinite = true := by decide +kernel

theorem test_setrec_sets_the_flag : (after (.setrec true) State.reset).statusWord = 0x00000200#32 := by decide +kernel

theorem test_setsos_holds_a_subnormal : (after .setsos (withArg 0x00000001#32)).sosX = 0x00000001#32 := by decide +kernel

theorem test_setfilter_holds_minus_zero : (after .setfilter (withArg 0x80000000#32)).filterX = 0x80000000#32 := by decide +kernel

theorem test_trig_pends : (after .trig State.reset).statusWord = 0x00000100#32 := by decide +kernel

theorem test_clear_all_zeroes_both_channels :
    (after (.clear .all) rampState).storeRead .left 7 = 0#32 ∧ (after (.clear .all) rampState).storeRead .right 15 = 0#32 ∧
      (after (.clear .all) rampState).res0 = 1#32 := by decide +kernel

/-- Rule R165 under `TC`: the first call ends at index 4. -/
theorem test_clear_step_zeroes_one_slice :
    (after (.clear .step) rampState).storeRead .left 3 = 0#32 ∧
      (after (.clear .step) rampState).storeRead .left 4 = 0x40800000#32 ∧ (after (.clear .step) rampState).clrPtr = 4#32 ∧
      (after (.clear .step) rampState).clrBusy = true := by decide +kernel

/-- Rule R191 with `WFADE = 4`. -/
theorem test_whstart_reverses_a_fade_out :
    (after (.whstart ⟨true, false⟩) { State.reset with headL := ⟨.fadingOut, 1#32⟩ }).headL = ⟨.fadingIn, 3#32⟩ := by
  decide +kernel

/-- Rule R192 with `WFADE = 4`. -/
theorem test_whstop_reverses_a_fade_in :
    (after (.whstop ⟨true, false⟩) { State.reset with headL := ⟨.fadingIn, 2#32⟩ }).headL = ⟨.fadingOut, 2#32⟩ := by
  decide +kernel

/-- Rule R193: the head ACTIVE, 0.5 at position 5. -/
theorem test_whwrite_through_an_active_head :
    (after (.whwrite .left) { withArg 5#32 with arg1 := 0x3F000000#32, headL := ⟨.active, 0#32⟩ }).storeRead .left 5 =
      0x3F000000#32 := by decide +kernel

/-- Section 9, program P2: the second write of a fade-in of 1.0 over silence is at level 0.25. -/
theorem test_whwrite_fades_in :
    (after (.whwrite .left) { withArg 1#32 with arg1 := 0x3F800000#32, headL := ⟨.fadingIn, 1#32⟩ }).storeRead .left 1 =
        0x3E800000#32 ∧
      (after (.whwrite .left) { withArg 1#32 with arg1 := 0x3F800000#32, headL := ⟨.fadingIn, 1#32⟩ }).headL =
        ⟨.fadingIn, 2#32⟩ := by decide +kernel

/-- Rule R161: position -1 is index 15. -/
theorem test_stwrite_wraps_the_position :
    (after .stwrite { withArg 0xFFFFFFFF#32 with arg1 := 0x3F800000#32, arg2 := 0xBF800000#32 }).storeRead .left 15 =
        0x3F800000#32 ∧
      (after .stwrite { withArg 0xFFFFFFFF#32 with arg1 := 0x3F800000#32, arg2 := 0xBF800000#32 }).storeRead .right 15 =
        0xBF800000#32 := by decide +kernel

/-- Rule R162: position 3.25 read backward. -/
theorem test_stread_backward :
    (after (.stread .backward) { rampState with arg0 := 0x40500000#32 }).res0 = 0x40300000#32 ∧
      (after (.stread .backward) { rampState with arg0 := 0x40500000#32 }).res1 = 0x42CD8000#32 := by decide +kernel

/-- Section 9, program P3, step 20: the three errors are read and then cleared. -/
theorem test_status_clr_reads_before_clearing :
    (after (.status true) { State.reset with clrBusy := true, errIllegal := true, errNonfinite := true, errBusy := true }).res0 =
        0x00070040#32 ∧
      (after (.status true)
        { State.reset with clrBusy := true, errIllegal := true, errNonfinite := true, errBusy := true }).statusWord =
        0x00000040#32 := by decide +kernel

/-- Section 7: `RDREG LENGTH` and `RDREG WH_STATE[L]`. -/
theorem test_rdreg_reads :
    (after (.rdreg .length) State.reset).res0 = 16#32 ∧
      (after (.rdreg .whStateL) { State.reset with headL := ⟨.fadingIn, 0#32⟩ }).res0 = 1#32 := by decide +kernel

/-- The next step after `withFetchWord` runs the word: `TRIG`. -/
theorem test_step_runs_the_fetched_word :
    (nextState (step (State.reset.withFetchWord 32 0x09000000))).map (fun t => (t.trigPend, t.host)) = some (true, []) := by
  decide +kernel

/-! ### Witnesses: for each statement with hypotheses, a state and operands that meet them, clause by clause at a boundary -/

/-- A command has a next state. -/
def completes (i : Instr) (s : State) : Prop :=
  ∃ t, exec i s = .next t

theorem witness_DecodeAndEncodeAgree :
    (Instr.stread .backward).wellFormed = true ∧ decode 0x0FFF0000#32 = .ok (.stread .backward) := ⟨rfl, rfl⟩

theorem witness_DecodeFollowsOpcodeMap : decode 0x00000000#32 = .ok .nop ∧ decode 0x113F0000#32 = .ok (.rdreg .statusWord) :=
  ⟨rfl, rfl⟩

theorem witness_DecodingIsTotal :
    zField 0x00000001#32 ≠ 0#16 ∧ (∀ r ∈ opcodeMap, opField r.pattern ≠ opField 0x12000000#32) ∧
      (∀ r ∈ opcodeMap, opField r.pattern = opField 0x01020000#32 → subField 0x01020000#32 ∉ r.legalSub) ∧
      (zField 0x01010000#32 = 0#16 ∧
        ∃ r ∈ opcodeMap, opField r.pattern = opField 0x01010000#32 ∧ subField 0x01010000#32 ∈ r.legalSub) := by decide +kernel

theorem witness_StepRunsTheDecodedCommand :
    configAdmitted (State.reset.withFetchWord 32 0x09000000).cfg = true ∧
      (State.reset.withFetchWord 32 0x09000000).host = .command 0x09000000#32 :: [] ∧ decode 0x09000000#32 = .ok .trig :=
  ⟨by decide +kernel, rfl, rfl⟩

theorem witness_StepTakesHostActionsInOrder :
    configAdmitted { Config.tc with minLoop := 3 } = false ∧ configAdmitted State.reset.cfg = true ∧ State.reset.host = [] ∧
      ({ State.reset with host := [.readCommandPort] } : State).host = .readCommandPort :: [] := by decide +kernel

/-- Rule R337: `CLEAR ALL` writes `RES0` only, and an operand write after the last command does not show. -/
theorem test_observe_ends_with_the_last_command :
    ((observe [.command 0x0A000000#32, .writeArg .arg0 7#32] rampState).map fun o => (o.results, o.filterOuts, o.final.arg0)) =
      some ([⟨some 1#32, none⟩], [], 0#32) := by decide +kernel

theorem witness_RunIsStepsOverTheActions :
    (configAdmitted State.reset.cfg = true ∧ State.reset.host = [] ∧
        ∃ t, runHost [.command 0x09000000#32, .writeArg .arg1 7#32] State.reset = some t) ∧
      (∃ t o u, runHost [.writeArg .arg0 7#32] rampState = some t ∧ observe [.writeArg .arg0 7#32] rampState = some o ∧
        commandStep 0x0A000000#32 t = .next u) ∧
      configAdmitted Config.tc = true ∧ drawAdmitted Config.tc (List.replicate 32 0#32) = true :=
  ⟨⟨by decide +kernel, rfl, _, rfl⟩, ⟨_, _, _, rfl, rfl, rfl⟩, by decide +kernel, by decide +kernel⟩

theorem witness_ErrorsFollowTheTable :
    commandError 0x00000001#32 State.reset = some .illegal ∧
      commandError 0x03000000#32 (withArg 0x7F800000#32) = some .nonfinite ∧
      commandError 0x0E000000#32 { State.reset with clrBusy := true } = some .busy ∧
      commandError 0x03000000#32 (withArg 0x7F7FFFFF#32) = none ∧ commandError 0x10010000#32 State.reset = none := by
  decide +kernel

/-- A state in which all three errors have been raised. -/
def erred : State :=
  { State.reset with
    errIllegal := true, errNonfinite := true, errBusy := true, errLog := [.illegal, .nonfinite, .busy] }

theorem witness_ErrorsAreStickyAndLogged :
    (∃ t, hostStep (.command 0x09000000#32) erred = .next t) ∧ erred.LogCovers ∧
      HostAction.command 0x09000000#32 ≠ .command 0x10010000#32 ∧ (∀ d, HostAction.command 0x09000000#32 ≠ .reset d) ∧
      erred.errIllegal = true ∧ erred.errNonfinite = true ∧ erred.errBusy = true :=
  ⟨⟨_, rfl⟩, ⟨by decide, by decide, by decide⟩, by decide, by simp, rfl, rfl, rfl⟩

theorem witness_OnlyTheHostWritesOperands :
    completes .trig (withArg 5#32) ∧ ∃ t, commandStep 0x12000000#32 (withArg 5#32) = .next t := ⟨⟨_, rfl⟩, _, rfl⟩

theorem witness_ConfigurationIsFixed : (nextState (step (State.reset.withFetchWord 32 0x09000000))).isSome = true := by
  decide +kernel

theorem witness_OnlyResultCommandsWriteResults :
    (∃ t, commandStep 0x09000000#32 State.reset = .next t) ∧ decode 0x09000000#32 = .ok .trig ∧
      Instr.trig.writesResults = false ∧ (∃ t, commandStep 0x0F010000#32 (withArg 0x7FC00000#32) = .next t) ∧
      commandError 0x0F010000#32 (withArg 0x7FC00000#32) ≠ none := ⟨⟨_, rfl⟩, rfl, rfl, ⟨_, rfl⟩, by decide +kernel⟩

/-- `NOP` meets the hypothesis of every clause at once. -/
theorem witness_RegistersAreWrittenByTheirColumns :
    completes .nop seam ∧ Instr.nop ≠ .setspeed ∧ Instr.nop ≠ .latch ∧ (∀ clk, Instr.nop ≠ .tick clk) ∧
      (∀ mask, Instr.nop ≠ .whstart mask ∧ Instr.nop ≠ .whstop mask) ∧ (∀ c, Instr.nop ≠ .whwrite c) ∧
      (∀ mode, Instr.nop ≠ .clear mode) ∧ (∀ on, Instr.nop ≠ .setrec on) ∧ Instr.nop ≠ .stwrite ∧ Instr.nop ≠ .trig := by
  refine ⟨⟨_, rfl⟩, ?_⟩
  simp

theorem witness_SetCommandsCheckTheirOperand :
    (withArg 0x7F7FFFFF#32).arg0.extractLsb' 23 8 ≠ 0xFF#8 ∧ (withArg 0x80000000#32).arg0.extractLsb' 23 8 ≠ 0xFF#8 ∧
      (withArg 0x7F800000#32).arg0.extractLsb' 23 8 = 0xFF#8 ∧ (withArg 0xFFFFFFFF#32).arg0.extractLsb' 23 8 = 0xFF#8 := by
  decide +kernel

theorem witness_SpeedResolution : F32.isFinite 0x7F7FFFFF#32 = true ∧ F32.isFinite 0x80000000#32 = true := by decide +kernel

theorem witness_StallVolume :
    F32.isFinite 0x3DCCCCCD#32 = true ∧ F32.units volKnee ≤ |F32.units (clampSpeed 0x3DCCCCCD#32)| ∧
      F32.isFinite 0x3DCCCCCC#32 = true ∧ |F32.units (clampSpeed 0x3DCCCCCC#32)| < F32.units volKnee := by decide +kernel

theorem witness_QuantRoundsToTheTable :
    (2 ≤ 2 ∧ 2 ≤ 2 ^ 24 + 1) ∧ (2 ≤ 2 ^ 24 + 1 ∧ 2 ^ 24 + 1 ≤ 2 ^ 24 + 1) ∧ F32.isFinite 0x3F800000#32 = true := by
  decide +kernel

theorem witness_LatchAdoptsTheControls :
    ({ controlled with recX := true } : State).recX = true ∧ controlled.recX = false ∧
      (controlled.xfKind = .none ∧ controlled.cfg.lengthLut.getD 2 0 ≠ controlled.length.toNat) ∧
      F32.lt (playing 0x40400000#32).phase (F32.ofInteger 4) = true ∧
      F32.lt (playing 0x40800000#32).phase (F32.ofInteger 4) = false ∧ seam.xfKind ≠ .none := by decide +kernel

theorem witness_TransitionsBeginOnlyWhereAllowed :
    ((after .latch controlled).xfKind = .param ∧ controlled.xfKind ≠ .param) ∧
      ((after (.tick false) (playing 0x41700000#32)).xfKind = .boundary ∧ (playing 0x41700000#32).xfKind ≠ .boundary) ∧
      ((after (.tick true) (playing 0x40A00000#32)).xfKind = .trigger ∧ (playing 0x40A00000#32).xfKind ≠ .trigger) := by
  decide +kernel

/-- A TRIGGER fade in its last tick, at the end of the buffer. -/
def lastTriggerTick : State :=
  { playing 0x41700000#32 with xfKind := .trigger, xfProg := 0x40400000#32, xfWin := 0x40000000#32, xo := 0x40C00000#32 }

theorem witness_TransitionsBeginOnlyWhereAllowed_after_a_trigger :
    (after (.tick false) lastTriggerTick).xfKind = .boundary ∧ lastTriggerTick.xfKind = .trigger := by decide +kernel

theorem witness_FirstLatchAfterReset : configAdmitted Config.tc = true ∧ Config.tc.q ≤ 2 ^ 24 + 1 := by decide +kernel

theorem witness_StwriteStoresOneFrame :
    (rampState.clrBusy = false ∧ rampState.mem.wf = true ∧ 0 < rampState.cfg.n) ∧
      ({ rampState with clrBusy := true } : State).clrBusy = true := by decide +kernel

theorem witness_StreadInterpolates :
    (0 < ({ State.reset with cfg := { Config.tc with n := 1 } } : State).cfg.n ∧
        ({ State.reset with cfg := { Config.tc with n := 2 ^ 24 } } : State).cfg.n ≤ 2 ^ 24) ∧
      F32.isFinite (withArg 0x7F7FFFFF#32).arg0 = true ∧ F32.isFinite (withArg 0x7F800000#32).arg0 = false := by decide +kernel

theorem witness_WrapIsTheExactRemainder :
    0 < 16 ∧ 16 ≤ 2 ^ 24 ∧ F32.isFinite 0x417FFFFF#32 = true ∧ F32.isNeg 0x417FFFFF#32 = false ∧
      F32.units 0x417FFFFF#32 < ((16 * F32.unitsPerOne : Nat) : Int) := by decide +kernel

theorem witness_PositionsAreUsedModuloN :
    (0x0000000F#32).toInt = (0xFFFFFFFF#32).toInt + 1 * (State.reset.cfg.n : Int) ∧ 0 < State.reset.cfg.n ∧
      State.reset.cfg.n ≤ 2 ^ 24 ∧ F32.isFinite 0xBE800000#32 = true := by decide +kernel

theorem witness_StoreRoundTrip :
    (rampState.clrBusy = false ∧ rampState.mem.wf = true ∧ 0 < rampState.cfg.n ∧ rampState.cfg.n ≤ 2 ^ 24) ∧
      (F32.isFinite 0x40E00000#32 = true ∧ 0x40E00000#32 ≠ 0x80000000#32 ∧ F32.isFinite (rampState.storeRead .left 1) = true ∧
        F32.isFinite (F32.sub F32.zero (rampState.storeRead .left 1) 0x40E00000#32) = true) ∧
      F32.isNeg (rampState.storeRead .left 1) = false ∧ F32.isFinite 0x7F800000#32 = false := by decide +kernel

theorem witness_ClearAllZeroesTheStore :
    rampState.mem.wf = true ∧ 0 < rampState.cfg.n ∧ rampState.cfg.n ≤ 2 ^ 24 ∧ F32.isFinite 0x41700000#32 = true := by
  decide +kernel

theorem witness_ClearStepsZeroTheStore :
    (rampState.mem.wf = true ∧ 0 < rampState.cfg.n ∧ rampState.cfg.n ≤ 2 ^ 24 ∧ 0 < rampState.cfg.clearSlice ∧
        rampState.clrBusy = false) ∧
      (min (0 + rampState.cfg.clearSlice) rampState.cfg.n ≠ rampState.cfg.n ∧
        min (12 + rampState.cfg.clearSlice) rampState.cfg.n = rampState.cfg.n) ∧
      1 ≤ 4 ∧ 4 = (rampState.cfg.n + rampState.cfg.clearSlice - 1) / rampState.cfg.clearSlice := by decide +kernel

theorem witness_ClearIsALoopOfStores : rampState.mem.wf = true := by decide +kernel

theorem witness_ClearSuppressesWrites : ({ rampState with clrBusy := true, clrPtr := 4#32 } : State).clrBusy = true := rfl

theorem witness_StartAndStopTables :
    4 ≤ 2 ^ 32 ∧ (⟨.inactive, 0#32⟩ : Head).state = .inactive ∧ (⟨.active, 0#32⟩ : Head).state = .active ∧
      (⟨.fadingIn, 0#32⟩ : Head).count = 0#32 ∧ (0 < (⟨.fadingIn, 3#32⟩ : Head).count.toNat ∧
        (⟨.fadingIn, 3#32⟩ : Head).count.toNat < 4) ∧ (0 < (⟨.fadingOut, 1#32⟩ : Head).count.toNat ∧
        (⟨.fadingOut, 1#32⟩ : Head).count.toNat < 4) ∧ (ChannelMask.mk true false).left = true ∧
      (ChannelMask.mk false false).right = false := by decide

theorem witness_FadeLevelsAreContinuous :
    4 ≤ 2 ^ 32 ∧ (⟨.fadingIn, 3#32⟩ : Head).Legal 4 ∧ (⟨.fadingOut, 0#32⟩ : Head).Legal 4 ∧ (⟨.active, 0#32⟩ : Head).Legal 4 :=
  ⟨by decide, ⟨by decide, by decide⟩, ⟨by decide, by decide⟩, ⟨by decide, by decide⟩⟩

/-- The last write of a fade-in, of an operand 1.0 at position 5. -/
def lastFadeWrite : State :=
  { rampState with arg0 := 5#32, arg1 := 0x3F800000#32, headL := ⟨.fadingIn, 3#32⟩, headR := ⟨.active, 0#32⟩ }

theorem witness_WhwriteWritesThroughItsHead :
    (lastFadeWrite.clrBusy = false ∧ lastFadeWrite.mem.wf = true ∧ 0 < lastFadeWrite.cfg.n) ∧
      ((lastFadeWrite.head .left).isFading = true ∧ (lastFadeWrite.head .left).count.toNat + 1 = lastFadeWrite.cfg.wfade) ∧
      (lastFadeWrite.head .right).state = .active ∧ (rampState.head .left).state = .inactive ∧
      ((⟨.fadingOut, 0#32⟩ : Head).isFading = true ∧ (0 : Nat) + 1 ≠ rampState.cfg.wfade) ∧
      ({ rampState with clrBusy := true } : State).clrBusy = true := by decide +kernel

theorem witness_FadesTakeWfadeWrites :
    ({ rampState with headL := ⟨.fadingIn, 0#32⟩ } : State).head .left = ⟨.fadingIn, 0#32⟩ ∧
      ({ rampState with headR := ⟨.fadingOut, 0#32⟩ } : State).head .right = ⟨.fadingOut, 0#32⟩ ∧ rampState.clrBusy = false ∧
      1 ≤ rampState.cfg.wfade ∧ rampState.cfg.wfade ≤ 2 ^ 32 ∧ 0 ≤ rampState.cfg.wfade ∧ 4 = rampState.cfg.wfade := by
  decide +kernel

theorem witness_HeadsStayInLockstep :
    (∀ a ∈ [HostAction.command 0x0B030000#32, .command 0x09000000#32], a.separatesHeads = false) ∧
      rampState.headL = rampState.headR ∧ ∃ t, runHost [.command 0x0B030000#32, .command 0x09000000#32] rampState = some t :=
  ⟨by decide, rfl, _, rfl⟩

theorem witness_SilenceBeforeRecording :
    decode 0x01000000#32 = .ok (.tick false) ∧ decode 0x0D010000#32 = .ok (.whwrite .left) ∧
      rampState.headL.state = .inactive ∧ rampState.headR.state = .inactive ∧
      ∃ t, runHost [.writeArg .arg0 7#32, .command 0x0D010000#32, .command 0x01000000#32] rampState = some t :=
  ⟨rfl, rfl, rfl, rfl, _, rfl⟩

theorem witness_TickWritesAtTheWritePhase :
    (lastFadeWrite.clrBusy = false ∧ lastFadeWrite.mem.wf = true) ∧ (lastFadeWrite.head .left).isFading = true ∧
      (lastFadeWrite.head .right).state = .active ∧ (rampState.head .left).state = .inactive := by decide +kernel

/-- A TRIGGER fade under `TC` with a given progress. -/
def triggerFade (prog : Word) : State :=
  { playing 0#32 with xfKind := .trigger, xfProg := prog, xfWin := 0x40000000#32, xo := 0x40C00000#32 }

/-- A PARAM transition under `TC` with a given progress. -/
def paramFade (prog : Word) : State :=
  { playing 0#32 with
    xfKind := .param, xfProg := prog, xfWin := 0x40000000#32, nstart := 2#32, nlength := 8#32 }

theorem witness_OutputSampleByKind :
    rampState.xfKind = .none ∧ seam.xfKind = .boundary ∧ (paramFade 0#32).xfKind = .param ∧
      ((triggerFade 0x3F800000#32).xfKind = .trigger ∧
        F32.lt (triggerFade 0x3F800000#32).xfProg (F32.ofInteger rampState.cfg.trigFade) = true) ∧
      F32.lt (triggerFade 0x40000000#32).xfProg (F32.ofInteger rampState.cfg.trigFade) = false := by decide +kernel

theorem witness_FadeWindowBounds :
    configAdmitted Config.tc = true ∧ (Config.tc.minLoop ≤ 4 ∧ 4 ≤ Config.tc.n) ∧ (Config.tc.minLoop ≤ 16 ∧ 16 ≤ Config.tc.n) := by
  decide +kernel

/-- `L = 8`: the lowest phase -4, the highest below 12, the wrap points 8 and the binary32 next below 0, and 0 itself. -/
theorem witness_PhaseWrapsOnce :
    (F32.isFinite 0xC0800000#32 = true ∧ -(8 * F32.unitsPerOne : Int) ≤ 2 * F32.units 0xC0800000#32 ∧
        F32.units 0xC0800000#32 < 0) ∧
      (F32.isFinite 0x413FFFFF#32 = true ∧ 2 * F32.units 0x413FFFFF#32 < 3 * (8 * F32.unitsPerOne : Int) ∧
        (8 * F32.unitsPerOne : Int) ≤ F32.units 0x413FFFFF#32) ∧
      (8 * F32.unitsPerOne : Int) ≤ F32.units 0x41000000#32 ∧ F32.units 0x80000001#32 < 0 ∧
      (0 ≤ F32.units 0x00000000#32 ∧ F32.units 0x00000000#32 < (8 * F32.unitsPerOne : Int)) := by decide +kernel

theorem witness_TickAdvancesThePhase :
    ((playing 0x41700000#32).xfKind = .none ∧ (playing 0x41700000#32).triggered false = false) ∧
      (∀ g : NanSource, (wrapPhase g 0x41800000#32 16).2 = true) ∧ ∀ g : NanSource, (wrapPhase g 0x41700000#32 16).2 = false := by
  refine ⟨by decide +kernel, fun g => ?_, fun g => ?_⟩ <;> simp only [wrapPhase]
  · rw [if_pos (by decide +kernel)]
  · rw [if_neg (by decide +kernel), if_neg (by decide +kernel)]

theorem witness_ParamTransitionProgress :
    ((paramFade 0x3F800000#32).xfKind = .param ∧ (paramFade 0x3F800000#32).triggered false = false) ∧
      F32.le 0x40000000#32 (F32.add 0#32 0x3F800000#32 (F32.abs 0x3F800000#32)) = true ∧
      F32.le 0x40000000#32 (F32.add 0#32 0#32 (F32.abs 0x3F800000#32)) = false := by decide +kernel

theorem witness_FadeTransitionProgress :
    (seam.xfKind = .boundary ∧ seam.triggered false = false) ∧
      ((triggerFade 0x40400000#32).xfKind = .trigger ∧ (triggerFade 0x40400000#32).triggered false = false) ∧
      F32.le (F32.ofInteger (2 * rampState.cfg.trigFade)) (F32.add 0#32 0x40400000#32 F32.one) = true ∧
      F32.le (F32.ofInteger (2 * rampState.cfg.trigFade)) (F32.add 0#32 0x40000000#32 F32.one) = false := by decide +kernel

/-- A stalled block in a BOUNDARY fade, with a host action pending. -/
def stalled : State :=
  { State.reset with
    host := [.command 0x01000000#32], phase := 0x40600000#32, xfKind := .boundary, xfProg := 0x3F800000#32,
    xfWin := 0x40000000#32, xo := 0x41600000#32 }

theorem stalled_store : stalled.StoreLegal := ⟨by decide +kernel, by decide +kernel⟩

theorem stalled_counters : stalled.CountersLegal :=
  ⟨by decide +kernel, ⟨by decide +kernel, by decide +kernel⟩, ⟨by decide +kernel, by decide +kernel⟩, by decide +kernel,
    by decide +kernel, by decide +kernel⟩

theorem stalled_legal : stalled.Legal where
  admitted := by decide +kernel
  store := stalled_store
  counters := stalled_counters
  shadows := ⟨by decide +kernel, by decide +kernel, by decide +kernel, by decide +kernel, by decide +kernel⟩
  levels := ⟨.inl rfl, ⟨by decide +kernel, by decide +kernel⟩, ⟨by decide +kernel, by decide +kernel⟩,
    ⟨by decide +kernel, by decide +kernel⟩⟩
  window := ⟨by decide +kernel, by decide +kernel, by decide +kernel, ⟨by decide +kernel, by decide +kernel⟩, by decide +kernel,
    by decide +kernel, by decide +kernel, ⟨by decide +kernel, by decide +kernel⟩, ⟨by decide +kernel, by decide +kernel⟩⟩
  transition := ⟨by decide +kernel, by decide +kernel, fun _ => ⟨by decide +kernel, by decide +kernel, by decide +kernel⟩,
    by decide +kernel⟩

theorem witness_StallHoldsThePosition :
    stalled.Legal ∧ stalled.spd = F32.zero ∧ stalled.triggered false = false ∧ stalled.xfKind ≠ .trigger :=
  ⟨stalled_legal, rfl, rfl, by decide⟩

/-- A stalled block in a TRIGGER fade. -/
def stalledTrigger : State :=
  { stalled with xfKind := .trigger }

theorem stalledTrigger_legal : stalledTrigger.Legal where
  admitted := stalled_legal.admitted
  store := ⟨stalled_store.canonical, stalled_store.inStore⟩
  counters := ⟨stalled_counters.wp, stalled_counters.headL, stalled_counters.headR, stalled_counters.clrIdle,
    stalled_counters.clrPtr, stalled_counters.clkAge⟩
  shadows := ⟨by decide +kernel, by decide +kernel, by decide +kernel, by decide +kernel, by decide +kernel⟩
  levels := ⟨.inl rfl, stalled_legal.levels.vol, stalled_legal.levels.sosL, stalled_legal.levels.filterL⟩
  window := ⟨stalled_legal.window.startLt, stalled_legal.window.lengthGe, stalled_legal.window.lengthLe, stalled_legal.window.phase,
    stalled_legal.window.nstartLt, stalled_legal.window.nlengthGe, stalled_legal.window.nlengthLe, stalled_legal.window.nphase,
    stalled_legal.window.xo⟩
  transition := ⟨by decide +kernel, by decide +kernel, fun h => absurd h (by decide), fun _ => ⟨by decide +kernel, by decide +kernel⟩⟩

theorem witness_StallHoldsThePosition_in_a_trigger_fade :
    stalledTrigger.Legal ∧ stalledTrigger.spd = F32.zero ∧ stalledTrigger.triggered false = false ∧
      stalledTrigger.xfKind = .trigger := ⟨stalledTrigger_legal, rfl, rfl, rfl⟩

theorem witness_RetriggerRestartsThePhase :
    (playing 0x40A00000#32).triggered true = true ∧ ({ paramFade 0#32 with trigPend := true } : State).triggered false = true ∧
      (2 * rampState.cfg.trigFade < 5 ∧ 4 ≤ 2 * rampState.cfg.trigFade) := by decide +kernel

theorem witness_ClockAgesOut :
    (({ State.reset with clkAge := 7#32, synced := true } : State).triggered false = false ∧ State.reset.cfg.clockTimeout < 2 ^ 32 ∧
        (7#32).toNat + 1 = State.reset.cfg.clockTimeout ∧ State.reset.cfg.clockTimeout ≤ (8#32).toNat) ∧
      (1 ≤ State.reset.cfg.clockTimeout ∧ State.reset.trigPend = false ∧ State.reset.clkAge = 0#32 ∧
        ({ State.reset with synced := true } : State).synced = true) := by decide +kernel

theorem witness_TriggerFadeLastsTwoHalves :
    configAdmitted (triggerFade 0#32).cfg = true ∧ (triggerFade 0#32).xfKind = .trigger ∧ (triggerFade 0#32).xfProg = F32.zero ∧
      (triggerFade 0#32).trigPend = false ∧ 3 < 2 * (triggerFade 0#32).cfg.trigFade := by decide +kernel

/-- A draw under `TC` in which every word has the greatest magnitude that the noise bound allows. -/
def loudestDraw : List Word :=
  List.replicate 32 0xBA83126F#32

theorem loudestDraw_words : ∀ w ∈ loudestDraw, F32.isFinite w = true ∧ F32.le (F32.abs w) State.reset.cfg.noiseAmp = true := by
  intro w hw
  rw [List.eq_of_mem_replicate hw]
  decide +kernel

theorem witness_ResetTakesAnyAdmittedDraw :
    (loudestDraw.length = 2 * State.reset.cfg.n ∧
        ∀ w ∈ loudestDraw, F32.isFinite w = true ∧ F32.le (F32.abs w) State.reset.cfg.noiseAmp = true) ∧
      ([] : List Word).length ≠ 2 * State.reset.cfg.n ∧ F32.isFinite 0x7F800000#32 = false ∧
      F32.le (F32.abs 0xBA831270#32) State.reset.cfg.noiseAmp = false :=
  ⟨⟨rfl, loudestDraw_words⟩, by decide +kernel, by decide +kernel, by decide +kernel⟩

theorem witness_ResetIsLegal :
    configAdmitted Config.tc = true ∧ (Memory.ofWords rampWords 0).wf = true ∧
      (Memory.ofWords rampWords 0).below (8 * Config.tc.n) = true := by decide +kernel

theorem witness_StoreStaysCanonical :
    stalled.StoreLegal ∧ stalled.wp.toNat < stalled.cfg.n ∧ (nextState (step stalled)).isSome = true :=
  ⟨stalled_store, by decide +kernel, by decide +kernel⟩

theorem witness_CountersStayLegal : stalled.CountersLegal ∧ (nextState (step stalled)).isSome = true :=
  ⟨stalled_counters, by decide +kernel⟩

theorem witness_EveryStepKeepsTheStateLegal : stalled.Legal ∧ (nextState (step stalled)).isSome = true :=
  ⟨stalled_legal, by decide +kernel⟩

theorem witness_ArithmeticRoundsOnce :
    (F32.isFinite 0x7F7FFFFF#32 = true ∧ F32.isFinite 0x00000001#32 = true ∧ F32.units 0x00000001#32 ≠ 0) ∧
      F32.units 0x3F800000#32 + F32.units 0xBF800000#32 = 0 ∧ F32.units 0x80000000#32 - F32.units 0x00000000#32 = 0 := by
  decide +kernel

/-- Both infinities, a NaN, both zeros and a finite word, for the clauses on special operands and on the order. -/
theorem witness_ArithmeticRoundsOnce_special_operands :
    (F32.isNaN 0x7F800001#32 = true ∧ F32.isNaN 0x7F800000#32 = false ∧ F32.isInf 0x7F800000#32 = true ∧
        F32.isInf 0xFF800000#32 = true) ∧
      (F32.isNeg 0x7F800000#32 = false ∧ F32.isNeg 0xFF800000#32 = true) ∧
      (F32.isFinite 0x80000000#32 = true ∧ F32.units 0x80000000#32 = 0) ∧
      (F32.isFinite 0x7F7FFFFF#32 = true ∧ F32.units 0x7F7FFFFF#32 ≠ 0) ∧ F32.le 0x80000000#32 0x00000000#32 = true ∧
      F32.lt 0xFF800000#32 0x7F800000#32 = true := by decide +kernel

end Sys2Proof.Tests
end

section
/-! SUPPORT. Correct rounding of the word-level operations (rule R13): `F32.round` is the nearest binary32 with ties to even, or an
infinity from `F32.overflowUnits` on. -/

namespace Sys2Proof

/-! ### The overflow bound -/

theorem F32.unitsOfBits_infBits : F32.unitsOfBits F32.infBits = 2 ^ 24 * 2 ^ 253 :=
  F32.unitsOfBits_significand (k := 253) (r := 2 ^ 24) (.inr (by norm_num)) le_rfl

theorem F32.unitsOfBits_infBits_pred : F32.unitsOfBits (F32.infBits - 1) = (2 ^ 24 - 1) * 2 ^ 253 :=
  F32.unitsOfBits_significand (k := 253) (r := 2 ^ 24 - 1) (.inr (by norm_num)) (by norm_num)

/-- `overflowUnits` is the midpoint between the greatest finite magnitude and the next value of its binade. -/
theorem F32.overflow_midpoint :
    F32.unitsOfBits (F32.infBits - 1) + F32.unitsOfBits (F32.infBits - 1 + 1) = 2 * F32.overflowUnits := by
  rw [show F32.infBits - 1 + 1 = F32.infBits from rfl, F32.unitsOfBits_infBits_pred, F32.unitsOfBits_infBits]
  norm_num [F32.overflowUnits]

/-- The bits before the overflow are finite exactly below `overflowUnits`: the midpoint itself goes up, to the even neighbour. -/
theorem F32.unboundedBits_lt_infBits_iff (num : Nat) {den : Nat} (hd : 0 < den) :
    F32.unboundedBits num den < F32.infBits ↔ num < F32.overflowUnits * den := by
  have hmid := F32.lt_unboundedBits_iff (num := num) hd (F32.infBits - 1)
  rw [F32.overflow_midpoint, mul_assoc] at hmid
  have hodd : (F32.infBits - 1) % 2 = 1 := rfl
  have hpos : 0 < F32.infBits := by norm_num [F32.infBits]
  omega

theorem F32.roundBits_of_lt {num den : Nat} (hd : 0 < den) (h : num < F32.overflowUnits * den) :
    F32.roundBits num den = F32.unboundedBits num den := by
  rw [F32.roundBits_eq_min]
  exact Nat.min_eq_left ((F32.unboundedBits_lt_infBits_iff num hd).2 h).le

theorem F32.roundBits_of_overflow {num den : Nat} (hd : 0 < den) (h : F32.overflowUnits * den ≤ num) :
    F32.roundBits num den = F32.infBits := by
  rw [F32.roundBits_eq_min]
  exact Nat.min_eq_right (not_lt.1 (mt (F32.unboundedBits_lt_infBits_iff num hd).1 (not_lt.2 h)))

/-! ### The rounded word -/

@[simp] theorem F32.isNeg_round (neg : Bool) (num den : Nat) : F32.isNeg (F32.round neg num den) = neg :=
  F32.isNeg_ofBits neg (F32.roundBits_lt num den)

@[simp] theorem F32.magBits_round (neg : Bool) (num den : Nat) : F32.magBits (F32.round neg num den) = F32.roundBits num den :=
  F32.magBits_ofBits neg (F32.roundBits_lt num den)

theorem F32.neg_round (num den : Nat) : F32.neg (F32.round false num den) = F32.round true num den :=
  F32.ext_bits (by simp) (by simp)

@[simp] theorem F32.neg_neg (w : Word) : F32.neg (F32.neg w) = w :=
  F32.ext_bits (by simp) (by simp)

theorem F32.round_zero (neg : Bool) : F32.round neg 0 1 = F32.ofBits neg 0 := by
  rw [F32.round, F32.roundBits_exact (m := 0) Nat.one_pos (Nat.zero_le _) (by simp)]

/-- Against a value that is not below zero, a negative word is no nearer than `+0.0`: some word without a sign is as near. -/
theorem F32.exists_bits_as_near (v : Word) (num den : Nat) :
    ∃ m, (m = 0 ∨ F32.units v = F32.unitsOfBits m) ∧ |(F32.unitsOfBits m * den : Int) - num| ≤ |F32.units v * den - num| := by
  cases hv : F32.isNeg v with
  | false => exact ⟨F32.magBits v, .inr (F32.units_of_pos hv), by rw [F32.units_of_pos hv]⟩
  | true =>
    refine ⟨0, .inl rfl, ?_⟩
    have h0 : (0 : Int) ≤ F32.unitsOfBits (F32.magBits v) * den := by positivity
    have hn : (0 : Int) ≤ num := Int.natCast_nonneg num
    rw [F32.units_of_neg hv, F32.unitsOfBits_zero, Nat.cast_zero, abs_of_nonpos (by linarith), abs_of_nonpos (by linarith)]
    linarith

/-- Below the overflow, the rounded word of a value that is not below zero is a nearest one, ties to even. -/
theorem F32.round_nearestEven {num den : Nat} (hd : 0 < den) (h : num < F32.overflowUnits * den) :
    F32.NearestEven num den (F32.round false num den) := by
  have hbits : F32.magBits (F32.round false num den) = F32.unboundedBits num den := by
    rw [F32.magBits_round, F32.roundBits_of_lt hd h]
  have hunits : F32.units (F32.round false num den) = F32.unitsOfBits (F32.unboundedBits num den) := by
    rw [F32.units_of_pos (F32.isNeg_round _ _ _), hbits]
  refine ⟨(F32.isFinite_iff _).2 (hbits ▸ (F32.unboundedBits_lt_infBits_iff num hd).2 h), fun v _ => ?_⟩
  obtain ⟨m, hm, hnear⟩ := F32.exists_bits_as_near v num den
  have hmin := F32.unboundedBits_nearest num hd m
  rw [hunits, hbits]
  refine ⟨hmin.trans hnear, fun hne htie => ?_⟩
  by_cases hmU : m = F32.unboundedBits num den
  · rcases hm with h0 | hv
    · rw [← hmU, h0]
    · exact absurd (hmU ▸ hv) hne
  · exact F32.unboundedBits_tie num hd hmU (le_antisymm hmin (hnear.trans htie.ge))

/-- Turning both signs keeps a word nearest. -/
theorem F32.NearestEven.neg {num : Int} {den : Nat} {w : Word} (h : F32.NearestEven num den w) :
    F32.NearestEven (-num) den (F32.neg w) := by
  have hdist (x : Word) : |F32.units (F32.neg x) * den - -num| = |F32.units x * den - num| := by
    rw [F32.units_neg, ← abs_neg]
    congr 1
    ring
  refine ⟨by rw [F32.isFinite_neg]; exact h.1, fun v hv => ?_⟩
  obtain ⟨hle, htie⟩ := h.2 (F32.neg v) (by rw [F32.isFinite_neg]; exact hv)
  have hv' := hdist (F32.neg v)
  rw [F32.neg_neg] at hv'
  rw [hdist, hv', F32.magBits_neg]
  refine ⟨hle, fun hne => htie fun he => hne ?_⟩
  rw [F32.units_neg, ← he, F32.units_neg, Int.neg_neg]

/-- `F32.round` is `f32` of rule R13 for the value with that sign and magnitude. -/
theorem F32.round_correctlyRounded (neg : Bool) (num : Nat) {den : Nat} (hd : 0 < den) :
    F32.CorrectlyRounded (if neg then -(num : Int) else num) den (F32.round neg num den) := by
  have habs : (if neg then -(num : Int) else num).natAbs = num := by cases neg <;> simp
  unfold F32.CorrectlyRounded
  rw [habs, F32.isNeg_round]
  constructor
  · split
    next hlt =>
      cases neg with
      | false => exact F32.round_nearestEven hd hlt
      | true => simpa [F32.neg_round] using (F32.round_nearestEven hd hlt).neg
    next hge => simp [F32.isInf, F32.roundBits_of_overflow hd (not_lt.1 hge)]
  · cases neg with
    | false => intro _; simp
    | true =>
      intro hne
      rw [if_pos rfl] at hne ⊢
      exact (decide_eq_true (by omega)).symm

/-! ### The four operations on finite words -/

/-- The exact sum, rounded once. -/
theorem F32.addFinite_correctlyRounded (a b : Word) :
    F32.CorrectlyRounded (F32.units a + F32.units b) 1 (F32.addFinite a b) := by
  unfold F32.addFinite
  split
  next h0 =>
    rw [h0, ← F32.round_zero]
    simpa using F32.round_correctlyRounded (F32.isNeg a && F32.isNeg b) 0 Nat.one_pos
  next h0 =>
    generalize F32.units a + F32.units b = x at h0 ⊢
    have hx : (if decide (x < 0) = true then -(x.natAbs : Int) else x.natAbs) = x := by
      by_cases hneg : x < 0
      · simp only [hneg, decide_true, if_true]; omega
      · simp only [hneg, decide_false, Bool.false_eq_true, if_false]; omega
    have h := F32.round_correctlyRounded (decide (x < 0)) x.natAbs Nat.one_pos
    rwa [hx] at h

/-- An exact zero sum is `+0.0` unless both operands are negative. -/
theorem F32.isNeg_addFinite_of_sum_zero {a b : Word} (h : F32.units a + F32.units b = 0) :
    F32.isNeg (F32.addFinite a b) = (F32.isNeg a && F32.isNeg b) := by
  rw [F32.addFinite, if_pos h, F32.isNeg_ofBits _ (by norm_num)]

theorem F32.mul_of_finite (nan : Word) {a b : Word} (ha : F32.isFinite a = true) (hb : F32.isFinite b = true) :
    F32.mul nan a b = F32.round (F32.isNeg a != F32.isNeg b) (F32.magnitude a * F32.magnitude b) F32.unitsPerOne := by
  simp [F32.mul, F32.not_isNaN_of_finite ha, F32.not_isNaN_of_finite hb, F32.not_isInf_of_finite ha, F32.not_isInf_of_finite hb]

theorem F32.div_of_finite (nan : Word) {a b : Word} (ha : F32.isFinite a = true) (hb : F32.isFinite b = true)
    (h0 : F32.units b ≠ 0) :
    F32.div nan a b = F32.round (F32.isNeg a != F32.isNeg b) (F32.magnitude a * F32.unitsPerOne) (F32.magnitude b) := by
  simp [F32.div, F32.not_isNaN_of_finite ha, F32.not_isNaN_of_finite hb, F32.not_isInf_of_finite ha, F32.not_isInf_of_finite hb,
    mt (F32.units_eq_zero_iff b).2 h0]

/-- A product of values has the exclusive or of the signs and the product of the magnitudes. -/
theorem F32.units_mul_units (a b : Word) :
    F32.units a * F32.units b =
      if (F32.isNeg a != F32.isNeg b) = true then -((F32.magnitude a * F32.magnitude b : Nat) : Int)
      else (F32.magnitude a * F32.magnitude b : Nat) := by
  unfold F32.units
  cases F32.isNeg a <;> cases F32.isNeg b <;> simp

theorem F32.magnitude_pos {b : Word} (h0 : F32.units b ≠ 0) : 0 < F32.magnitude b := by
  rw [← F32.natAbs_units]
  exact Int.natAbs_pos.2 h0

theorem F32.sign_units {b : Word} (h0 : F32.units b ≠ 0) : (F32.units b).sign = if F32.isNeg b then -1 else 1 := by
  have hpos : (0 : Int) < F32.magnitude b := by exact_mod_cast F32.magnitude_pos h0
  unfold F32.units
  cases F32.isNeg b with
  | false => simpa using Int.sign_eq_one_of_pos hpos
  | true => simpa using Int.sign_eq_one_of_pos hpos

/-- A dividend in units, with the divisor's sign moved to it. -/
theorem F32.units_mul_sign (a : Word) {b : Word} (h0 : F32.units b ≠ 0) :
    F32.units a * F32.unitsPerOne * (F32.units b).sign =
      if (F32.isNeg a != F32.isNeg b) = true then -((F32.magnitude a * F32.unitsPerOne : Nat) : Int)
      else (F32.magnitude a * F32.unitsPerOne : Nat) := by
  rw [F32.sign_units h0, F32.units]
  cases F32.isNeg a <;> cases F32.isNeg b <;> simp

theorem F32.mul_correctlyRounded (nan : Word) {a b : Word} (ha : F32.isFinite a = true) (hb : F32.isFinite b = true) :
    F32.CorrectlyRounded (F32.units a * F32.units b) F32.unitsPerOne (F32.mul nan a b) := by
  rw [F32.mul_of_finite nan ha hb, F32.units_mul_units]
  exact F32.round_correctlyRounded _ _ F32.unitsPerOne_pos

theorem F32.div_correctlyRounded (nan : Word) {a b : Word} (ha : F32.isFinite a = true) (hb : F32.isFinite b = true)
    (h0 : F32.units b ≠ 0) :
    F32.CorrectlyRounded (F32.units a * F32.unitsPerOne * (F32.units b).sign) (F32.magnitude b) (F32.div nan a b) := by
  rw [F32.div_of_finite nan ha hb h0, F32.units_mul_sign a h0]
  exact F32.round_correctlyRounded _ _ (F32.magnitude_pos h0)

end Sys2Proof
end

section
/-! SUPPORT. NaNs, infinities and zeros in the four operations (log 13), and the order of the words that are not NaNs. -/

namespace Sys2Proof

/-! ### The classes of words -/

theorem F32.isInf_iff (w : Word) : F32.isInf w = true ↔ F32.magBits w = F32.infBits := by
  simp [F32.isInf]

theorem F32.not_isNaN_of_isInf {w : Word} (h : F32.isInf w = true) : F32.isNaN w = false := by
  simp [F32.isNaN, (F32.isInf_iff w).1 h]

theorem F32.magBits_ne_zero_of_isInf {w : Word} (h : F32.isInf w = true) : F32.magBits w ≠ 0 := by
  rw [(F32.isInf_iff w).1 h]
  norm_num [F32.infBits]

@[simp] theorem F32.isInf_neg (w : Word) : F32.isInf (F32.neg w) = F32.isInf w := by
  unfold F32.isInf
  rw [F32.magBits_neg]

/-- A word that is no NaN is finite or infinite. -/
theorem F32.isFinite_or_isInf {w : Word} (h : F32.isNaN w = false) : F32.isFinite w = true ∨ F32.isInf w = true := by
  have hle : F32.magBits w ≤ F32.infBits := by simpa [F32.isNaN] using h
  rw [F32.isFinite_iff, F32.isInf_iff]
  exact Nat.lt_or_eq_of_le hle

theorem F32.isInf_ofBits_infBits (neg : Bool) : F32.isInf (F32.ofBits neg F32.infBits) = true :=
  (F32.isInf_iff _).2 (F32.magBits_ofBits neg F32.infBits_lt)

theorem F32.isNeg_ofBits_infBits (neg : Bool) : F32.isNeg (F32.ofBits neg F32.infBits) = neg :=
  F32.isNeg_ofBits neg F32.infBits_lt

/-! ### Addition -/

theorem F32.add_of_isNaN (nan : Word) {a b : Word} (h : F32.isNaN a = true ∨ F32.isNaN b = true) : F32.add nan a b = nan := by
  rcases h with h | h <;> simp [F32.add, h]

theorem F32.add_of_isInf_same (nan : Word) {a b : Word} (ha : F32.isInf a = true) (hb : F32.isInf b = true)
    (hs : F32.isNeg a = F32.isNeg b) : F32.add nan a b = a := by
  simp [F32.add, F32.not_isNaN_of_isInf ha, F32.not_isNaN_of_isInf hb, ha, hs]

theorem F32.add_of_isInf_opposite (nan : Word) {a b : Word} (ha : F32.isInf a = true) (hb : F32.isInf b = true)
    (hs : F32.isNeg a ≠ F32.isNeg b) : F32.add nan a b = nan := by
  simp [F32.add, F32.not_isNaN_of_isInf ha, F32.not_isNaN_of_isInf hb, ha, hb, hs]

theorem F32.add_of_isInf_left (nan : Word) {a b : Word} (ha : F32.isInf a = true) (hb : F32.isFinite b = true) :
    F32.add nan a b = a := by
  simp [F32.add, F32.not_isNaN_of_isInf ha, F32.not_isNaN_of_finite hb, ha, F32.not_isInf_of_finite hb]

theorem F32.add_of_isInf_right (nan : Word) {a b : Word} (ha : F32.isFinite a = true) (hb : F32.isInf b = true) :
    F32.add nan a b = b := by
  simp [F32.add, F32.not_isNaN_of_finite ha, F32.not_isNaN_of_isInf hb, F32.not_isInf_of_finite ha, hb]

/-! ### Multiplication -/

theorem F32.mul_of_isNaN (nan : Word) {a b : Word} (h : F32.isNaN a = true ∨ F32.isNaN b = true) : F32.mul nan a b = nan := by
  rcases h with h | h <;> simp [F32.mul, h]

theorem F32.mul_comm (nan a b : Word) : F32.mul nan a b = F32.mul nan b a := by
  unfold F32.mul
  rw [Bool.or_comm (F32.isNaN a), Bool.or_comm (F32.isInf a), Bool.or_comm (decide (F32.magBits a = 0)),
    bne_comm (a := F32.isNeg a), Nat.mul_comm]

theorem F32.mul_of_isInf_zero (nan : Word) {a b : Word} (ha : F32.isInf a = true) (hb : F32.magBits b = 0) :
    F32.mul nan a b = nan := by
  have hnan : F32.isNaN b = false := by simp [F32.isNaN, hb]
  simp [F32.mul, F32.not_isNaN_of_isInf ha, hnan, ha, hb]

theorem F32.mul_of_isInf (nan : Word) {a b : Word} (ha : F32.isInf a = true) (hb : F32.isNaN b = false)
    (h0 : F32.magBits b ≠ 0) : F32.mul nan a b = F32.ofBits (F32.isNeg a != F32.isNeg b) F32.infBits := by
  simp [F32.mul, F32.not_isNaN_of_isInf ha, hb, ha, F32.magBits_ne_zero_of_isInf ha, h0]

/-! ### Division -/

theorem F32.div_of_isNaN (nan : Word) {a b : Word} (h : F32.isNaN a = true ∨ F32.isNaN b = true) : F32.div nan a b = nan := by
  rcases h with h | h <;> simp [F32.div, h]

theorem F32.div_of_isInf_both (nan : Word) {a b : Word} (ha : F32.isInf a = true) (hb : F32.isInf b = true) :
    F32.div nan a b = nan := by
  simp [F32.div, F32.not_isNaN_of_isInf ha, F32.not_isNaN_of_isInf hb, ha, hb]

theorem F32.div_of_isInf_left (nan : Word) {a b : Word} (ha : F32.isInf a = true) (hb : F32.isFinite b = true) :
    F32.div nan a b = F32.ofBits (F32.isNeg a != F32.isNeg b) F32.infBits := by
  simp [F32.div, F32.not_isNaN_of_isInf ha, F32.not_isNaN_of_finite hb, ha, F32.not_isInf_of_finite hb]

theorem F32.div_of_isInf_right (nan : Word) {a b : Word} (ha : F32.isFinite a = true) (hb : F32.isInf b = true) :
    F32.div nan a b = F32.ofBits (F32.isNeg a != F32.isNeg b) 0 := by
  simp [F32.div, F32.not_isNaN_of_finite ha, F32.not_isNaN_of_isInf hb, F32.not_isInf_of_finite ha, hb]

theorem F32.div_zero_of_zero (nan : Word) {a b : Word} (ha : F32.magBits a = 0) (hb : F32.magBits b = 0) :
    F32.div nan a b = nan := by
  have hinf {w : Word} (h : F32.magBits w = 0) : F32.isInf w = false :=
    Bool.eq_false_iff.2 fun hw => F32.magBits_ne_zero_of_isInf hw h
  simp [F32.div, ha, hb, hinf ha, hinf hb]

theorem F32.div_zero_of_ne_zero (nan : Word) {a b : Word} (ha : F32.isFinite a = true) (h0 : F32.magBits a ≠ 0)
    (hb : F32.isFinite b = true) (hb0 : F32.magBits b = 0) :
    F32.div nan a b = F32.ofBits (F32.isNeg a != F32.isNeg b) F32.infBits := by
  simp [F32.div, F32.not_isNaN_of_finite ha, F32.not_isNaN_of_finite hb, F32.not_isInf_of_finite ha, F32.not_isInf_of_finite hb,
    h0, hb0]

/-- The special operands of the four operations are answered as the standard says (log 13). -/
theorem F32.specialOperands (nan a b : Word) : F32.SpecialOperands nan a b where
  nanOperand h := ⟨F32.add_of_isNaN nan h, F32.add_of_isNaN nan (by rwa [F32.isNaN_neg]), F32.mul_of_isNaN nan h,
    F32.div_of_isNaN nan h⟩
  addBothInfinite ha hb := by
    have hb' : F32.isInf (F32.neg b) = true := by rw [F32.isInf_neg, hb]
    refine ⟨fun hs => ⟨F32.add_of_isInf_same nan ha hb hs, F32.add_of_isInf_opposite nan ha hb' (by simp [hs])⟩,
      fun hs => ⟨F32.add_of_isInf_opposite nan ha hb hs, F32.add_of_isInf_same nan ha hb' ?_⟩⟩
    rw [F32.isNeg_neg]
    exact Bool.eq_not.2 hs
  addLeftInfinite ha hb := ⟨F32.add_of_isInf_left nan ha hb, F32.add_of_isInf_left nan ha (by rwa [F32.isFinite_neg])⟩
  addRightInfinite ha hb := ⟨F32.add_of_isInf_right nan ha hb, F32.add_of_isInf_right nan ha (by rwa [F32.isInf_neg])⟩
  mulInfiniteZero ha _ h0 := by
    have hmul := F32.mul_of_isInf_zero nan ha ((F32.units_eq_zero_iff b).1 h0)
    exact ⟨hmul, (F32.mul_comm nan b a).trans hmul⟩
  mulInfinite ha hb hne := by
    have h0 : F32.magBits b ≠ 0 := by
      rcases F32.isFinite_or_isInf hb with hfin | hinf
      · exact mt (F32.units_eq_zero_iff b).2 (hne hfin)
      · exact F32.magBits_ne_zero_of_isInf hinf
    have hmul := F32.mul_of_isInf nan ha hb h0
    exact ⟨hmul ▸ F32.isInf_ofBits_infBits _, hmul ▸ F32.isNeg_ofBits_infBits _, F32.mul_comm nan b a⟩
  divBothInfinite ha hb := F32.div_of_isInf_both nan ha hb
  divLeftInfinite ha hb := by
    rw [F32.div_of_isInf_left nan ha hb]
    exact ⟨F32.isInf_ofBits_infBits _, F32.isNeg_ofBits_infBits _⟩
  divRightInfinite ha hb := by
    rw [F32.div_of_isInf_right nan ha hb, F32.units_eq_zero_iff]
    exact ⟨F32.isFinite_ofBits _ (by norm_num [F32.infBits]), F32.magBits_ofBits _ (by norm_num), F32.isNeg_ofBits _ (by norm_num)⟩
  divZeroByZero _ _ ha0 hb0 := F32.div_zero_of_zero nan ((F32.units_eq_zero_iff a).1 ha0) ((F32.units_eq_zero_iff b).1 hb0)
  divByZero ha hb ha0 hb0 := by
    rw [F32.div_zero_of_ne_zero nan ha (mt (F32.units_eq_zero_iff a).2 ha0) hb ((F32.units_eq_zero_iff b).1 hb0)]
    exact ⟨F32.isInf_ofBits_infBits _, F32.isNeg_ofBits_infBits _⟩

/-! ### The order -/

theorem F32.lt_eq_key {a b : Word} (ha : F32.isNaN a = false) (hb : F32.isNaN b = false) :
    F32.lt a b = decide (F32.key a < F32.key b) := by
  simp [F32.lt, ha, hb]

theorem F32.le_eq_key {a b : Word} (ha : F32.isNaN a = false) (hb : F32.isNaN b = false) :
    F32.le a b = decide (F32.key a ≤ F32.key b) := by
  simp [F32.le, ha, hb]

theorem F32.eq_eq_key {a b : Word} (ha : F32.isNaN a = false) (hb : F32.isNaN b = false) :
    F32.eq a b = decide (F32.key a = F32.key b) := by
  simp only [F32.eq, ha, hb, Bool.not_false, Bool.true_and, beq_eq_decide]

/-- `<` is the contrary of the reversed `≤`. -/
theorem F32.lt_eq_not_le {a b : Word} (ha : F32.isNaN a = false) (hb : F32.isNaN b = false) :
    F32.lt a b = !F32.le b a := by
  rw [F32.lt_eq_key ha hb, F32.le_eq_key hb ha, ← decide_not]
  exact decide_eq_decide.2 not_le.symm

theorem F32.natAbs_key (w : Word) : (F32.key w).natAbs = F32.magBits w := by
  unfold F32.key
  split <;> simp

theorem F32.isNeg_eq_of_key_ne_zero {w : Word} (h0 : F32.key w ≠ 0) : F32.isNeg w = decide (F32.key w < 0) := by
  unfold F32.key at h0 ⊢
  cases hw : F32.isNeg w with
  | false => simp
  | true => simp only [hw, if_true] at h0 ⊢; exact (decide_eq_true (by omega)).symm

/-- Only the zeros share a key. -/
theorem F32.eq_of_key_eq {a b : Word} (h0 : F32.key b ≠ 0) (h : F32.key a = F32.key b) : a = b := by
  refine F32.ext_bits ?_ ?_
  · rw [F32.isNeg_eq_of_key_ne_zero h0, F32.isNeg_eq_of_key_ne_zero (h ▸ h0), h]
  · rw [← F32.natAbs_key a, ← F32.natAbs_key b, h]

theorem F32.key_of_isInf {w : Word} (h : F32.isInf w = true) :
    F32.key w = if F32.isNeg w then -(F32.infBits : Int) else F32.infBits := by
  rw [F32.key, (F32.isInf_iff w).1 h]

theorem F32.key_ne_zero_of_isInf {w : Word} (h : F32.isInf w = true) : F32.key w ≠ 0 := by
  rw [F32.key_of_isInf h]
  split <;> norm_num [F32.infBits]

/-- The keys of the infinities are the ends of the order. -/
theorem F32.key_bounds {w : Word} (h : F32.isNaN w = false) : -(F32.infBits : Int) ≤ F32.key w ∧ F32.key w ≤ F32.infBits := by
  have hle : F32.magBits w ≤ F32.infBits := by simpa [F32.isNaN] using h
  unfold F32.key
  split <;> omega

/-- Where `≤` holds, `<` says that the words differ, if one of them has no equal but itself. -/
theorem F32.le_lt_of_key_le {a b : Word} (ha : F32.isNaN a = false) (hb : F32.isNaN b = false)
    (hle : F32.key a ≤ F32.key b) (huniq : F32.key a = F32.key b → a = b) :
    F32.le a b = true ∧ F32.lt a b = decide (a ≠ b) := by
  rw [F32.le_eq_key ha hb, F32.lt_eq_key ha hb]
  refine ⟨decide_eq_true hle, decide_eq_decide.2 ⟨fun hlt he => ?_, fun hne => lt_of_le_of_ne hle (mt huniq hne)⟩⟩
  rw [he] at hlt
  exact lt_irrefl _ hlt

theorem F32.min_of_not_lt {a b : Word} (h : F32.lt b a = false) : F32.min a b = a := by
  simp [F32.min, h]

theorem F32.min_of_lt {a b : Word} (h : F32.lt b a = true) : F32.min a b = b := by
  simp [F32.min, h]

theorem F32.max_of_not_lt {a b : Word} (h : F32.lt a b = false) : F32.max a b = a := by
  simp [F32.max, h]

theorem F32.max_of_lt {a b : Word} (h : F32.lt a b = true) : F32.max a b = b := by
  simp [F32.max, h]

theorem F32.lt_of_isNaN {a b : Word} (h : F32.isNaN a = true ∨ F32.isNaN b = true) : F32.lt a b = false := by
  rcases h with h | h <;> simp [F32.lt, h]

theorem F32.le_of_isNaN {a b : Word} (h : F32.isNaN a = true ∨ F32.isNaN b = true) : F32.le a b = false := by
  rcases h with h | h <;> simp [F32.le, h]

theorem F32.eq_of_isNaN {a b : Word} (h : F32.isNaN a = true ∨ F32.isNaN b = true) : F32.eq a b = false := by
  rcases h with h | h <;> simp [F32.eq, h]

/-- The comparisons, `min` and `max` go by value (rules R12, R13; on a NaN log 12). -/
theorem F32.comparedByValue (a b : Word) : F32.ComparedByValue a b where
  nanOperand h := ⟨F32.lt_of_isNaN h, F32.le_of_isNaN h, F32.eq_of_isNaN h, F32.min_of_not_lt (F32.lt_of_isNaN h.symm),
    F32.max_of_not_lt (F32.lt_of_isNaN h)⟩
  finite ha hb :=
    ⟨Bool.eq_iff_iff.2 ((F32.lt_iff ha hb).trans decide_eq_true_iff.symm),
      Bool.eq_iff_iff.2 ((F32.le_iff ha hb).trans decide_eq_true_iff.symm)⟩
  belowTop ha hb hpos := by
    refine F32.le_lt_of_key_le ha (F32.not_isNaN_of_isInf hb) ?_ (F32.eq_of_key_eq (F32.key_ne_zero_of_isInf hb))
    rw [F32.key_of_isInf hb, if_neg (by simp [hpos])]
    exact (F32.key_bounds ha).2
  aboveBottom ha hneg hb := by
    refine F32.le_lt_of_key_le (F32.not_isNaN_of_isInf ha) hb ?_
      fun h => (F32.eq_of_key_eq (F32.key_ne_zero_of_isInf ha) h.symm).symm
    rw [F32.key_of_isInf ha, if_pos hneg]
    exact (F32.key_bounds hb).1
  total ha hb := by
    refine ⟨F32.lt_eq_not_le ha hb, ?_⟩
    rw [F32.eq_eq_key ha hb, F32.le_eq_key ha hb, F32.le_eq_key hb ha, ← Bool.decide_and]
    exact decide_eq_decide.2 le_antisymm_iff
  chosen ha hb := by
    have hab := F32.lt_eq_not_le ha hb
    have hba := F32.lt_eq_not_le hb ha
    exact ⟨fun h => F32.min_of_not_lt (by rw [hba, h]; rfl), F32.min_of_lt, fun h => F32.max_of_not_lt (by rw [hab, h]; rfl),
      F32.max_of_lt⟩

/-- Settles O60: rounding once (`F32.round_correctlyRounded`), the special operands, and the order. -/
theorem arithmeticRoundsOnce : Obligations.ArithmeticRoundsOnce := by
  refine ⟨fun nan a b ha hb => ⟨?_, ?_, ?_, fun h0 => ?_⟩, F32.specialOperands, F32.comparedByValue, by decide,
    fun _ _ _ => rfl, by decide⟩
  · rw [F32.add_of_finite nan ha hb]
    exact ⟨F32.addFinite_correctlyRounded a b, F32.isNeg_addFinite_of_sum_zero⟩
  · rw [F32.sub_of_finite nan ha hb, sub_eq_add_neg, ← F32.units_neg, ← F32.isNeg_neg]
    exact ⟨F32.addFinite_correctlyRounded a (F32.neg b), F32.isNeg_addFinite_of_sum_zero⟩
  · refine ⟨F32.mul_correctlyRounded nan ha hb, ?_⟩
    rw [F32.mul_of_finite nan ha hb, F32.isNeg_round]
  · refine ⟨F32.div_correctlyRounded nan ha hb h0, ?_⟩
    rw [F32.div_of_finite nan ha hb h0, F32.isNeg_round]

end Sys2Proof
end

section
/-! SUPPORT. What one step can do: a command raises an error and changes nothing else, or it acts; what each command leaves
unchanged; and the rule by which a property is kept by every step. -/

namespace Sys2Proof.Machine

/-! ### The effect of a command -/

/-- What a command does when it raises no error. -/
@[simp] def State.acted (s : State) : Instr → State
  | .nop => s
  | .tick clk => (s.tick clk).drawn
  | .latch => (((s.latchLevels s.nanSource).latchHeads).latchTargets (s.nanSource.shift 1)).drawn
  | .setspeed => { s with speedRaw := s.arg0 }
  | .setstart => { s with startX := s.arg0 }
  | .setlength => { s with lengthX := s.arg0 }
  | .setrec on => { s with recX := on }
  | .setsos => { s with sosX := s.arg0 }
  | .setfilter => { s with filterX := s.arg0 }
  | .trig => { s with trigPend := true }
  | .clear .all => s.clearAll
  | .clear .step => s.clearStep
  | .whstart mask => forMask mask State.startHead s
  | .whstop mask => forMask mask State.stopHead s
  | .whwrite c => (s.headWrite s.nanSource c (integerPosition s.cfg.n s.arg0) s.arg1).drawn
  | .stwrite =>
    (s.storeWrite .left (integerPosition s.cfg.n s.arg0) s.arg1).storeWrite .right (integerPosition s.cfg.n s.arg0) s.arg2
  | .stread dir =>
    { s with
      res0 := s.interp (s.readSource dir) .left s.arg0 dir
      res1 := s.interp ((s.readSource dir).shift 4) .right s.arg0 dir }
  | .status false => { s with res0 := s.statusWord }
  | .status true => ({ s with res0 := s.statusWord } : State).clearErrors
  | .rdreg r => { s with res0 := s.registerWord r }

/-- A command raises an error and does nothing else (rule R290), or it passes its checks (rule R291) and acts. -/
inductive CommandEffect (i : Instr) (s : State) : State → Prop where
  | raised (e : ErrorCode) : CommandEffect i s (s.raise e)
  | acted (idle : i.checksBusy = true → s.clrBusy = false) (finite : i.checksFinite = true → F32.isFinite s.arg0 = true) :
    CommandEffect i s (s.acted i)

/-- A command without checks acts. -/
theorem CommandEffect.of_unchecked {i : Instr} {s t : State} (hb : i.checksBusy = false) (hf : i.checksFinite = false)
    (h : Host.Outcome.next (s.acted i) = (.next t : Result)) : CommandEffect i s t := by
  cases h
  exact .acted (by simp [hb]) (by simp [hf])

/-- The shape of the binary32 `SET` commands (rule R121). -/
theorem CommandEffect.of_setShadow {i : Instr} {s t : State} {write : Word → State} (hb : i.checksBusy = false)
    (ha : write s.arg0 = s.acted i) (h : setShadow write s = .next t) : CommandEffect i s t := by
  unfold setShadow at h
  split at h <;> cases h
  · rw [ha]
    exact .acted (by simp [hb]) fun _ => ‹_›
  · exact .raised .nonfinite

/-- What a command can do: the one place where the arms of `exec` are opened. -/
theorem exec_effect {i : Instr} {s t : State} (h : exec i s = .next t) : CommandEffect i s t := by
  cases i with
  | setspeed => exact .of_setShadow (write := fun v => { s with speedRaw := v }) rfl rfl h
  | setstart => exact .of_setShadow (write := fun v => { s with startX := v }) rfl rfl h
  | setlength => exact .of_setShadow (write := fun v => { s with lengthX := v }) rfl rfl h
  | setsos => exact .of_setShadow (write := fun v => { s with sosX := v }) rfl rfl h
  | setfilter => exact .of_setShadow (write := fun v => { s with filterX := v }) rfl rfl h
  | stread dir =>
    simp only [exec, execStread] at h
    split at h <;> cases h
    · exact .acted (by simp [Instr.checksBusy]) fun _ => ‹_›
    · exact .raised .nonfinite
  | stwrite =>
    simp only [exec, execStwrite] at h
    split at h
    next => cases h; exact .raised .busy
    next hb => cases h; exact .acted (fun _ => by simpa using hb) (by simp [Instr.checksFinite])
  | whwrite c =>
    simp only [exec, execWhwrite] at h
    split at h
    next => cases h; exact .raised .busy
    next hb => cases h; exact .acted (fun _ => by simpa using hb) (by simp [Instr.checksFinite])
  | whstart mask =>
    simp only [exec, execWhstart] at h
    split at h
    · exact .of_unchecked rfl rfl h
    · cases h; exact .raised .illegal
  | whstop mask =>
    simp only [exec, execWhstop] at h
    split at h
    · exact .of_unchecked rfl rfl h
    · cases h; exact .raised .illegal
  | clear mode => cases mode <;> exact .of_unchecked rfl rfl h
  | status clr => cases clr <;> exact .of_unchecked rfl rfl h
  | _ => exact .of_unchecked rfl rfl h

/-- What a command word can do (rules R95, R290): the errors of the table are raised, and only then can a command act. -/
theorem commandStep_effect {w : Word} {s t : State} (h : commandStep w s = .next t) :
    (∃ e, t = s.raise e) ∨ ∃ i, decode w = .ok i ∧ commandError w s = none ∧ t = s.acted i := by
  unfold commandStep at h
  split at h
  next i hi =>
    cases exec_effect h with
    | raised e => exact .inl ⟨e, rfl⟩
    | acted hb hf =>
      have hbusy : (i.checksBusy && s.clrBusy) = false := by
        cases hc : i.checksBusy
        · rfl
        · exact hb hc
      have hfinite : (i.checksFinite && !F32.isFinite s.arg0) = false := by
        cases hc : i.checksFinite
        · rfl
        · rw [hf hc]; rfl
      exact .inr ⟨i, hi, by simp [commandError, hi, hbusy, hfinite], rfl⟩
  next => cases h; exact .inl ⟨.illegal, rfl⟩

/-! ### The effect of a host action -/

/-- What a host action can do: an operand write, a command word, or a reset with an admitted draw. -/
inductive HostEffect (s : State) : HostAction → State → Prop where
  | writeArg (r : ArgReg) (w : Word) : HostEffect s (.writeArg r w) (s.writeArg r w)
  | command {w : Word} {t : State} (h : commandStep w s = .next t) : HostEffect s (.command w) t
  | reset {draw : List Word} (h : drawAdmitted s.cfg draw = true) : HostEffect s (.reset draw) (s.resetEvent draw)

theorem hostStep_effect {a : HostAction} {s t : State} (h : hostStep a s = .next t) : HostEffect s a t := by
  cases a with
  | writeArg r w => cases h; exact .writeArg r w
  | command w => exact .command h
  | readCommandPort => cases h
  | reset draw =>
    simp only [hostStep] at h
    split at h <;> cases h
    exact .reset ‹_›

/-- A step is taken under an admitted configuration; it holds the state or performs the next host action. -/
theorem step_effect {s t : State} (h : step s = .next t) :
    configAdmitted s.cfg = true ∧ (t = s ∨ ∃ a rest, hostStep a { s with host := rest } = .next t) := by
  unfold step at h
  split at h
  · refine ⟨‹_›, ?_⟩
    unfold fetchStep at h
    split at h
    · cases h; exact .inl rfl
    · exact .inr ⟨_, _, h⟩
  · cases h

/-- A property is kept by every step if the four things that a host action can do keep it. -/
theorem step_keeps {P : State → Prop} (host : ∀ s rest, P s → P { s with host := rest })
    (writeArg : ∀ s r w, P s → P (s.writeArg r w)) (raise : ∀ s e, P s → P (s.raise e))
    (acted : ∀ s i, configAdmitted s.cfg = true → (i.checksFinite = true → F32.isFinite s.arg0 = true) → P s → P (s.acted i))
    (reset : ∀ (s : State) draw, configAdmitted s.cfg = true → drawAdmitted s.cfg draw = true → P (s.resetEvent draw))
    {s t : State} (hs : P s) (h : step s = .next t) : P t := by
  obtain ⟨hc, rfl | ⟨a, rest, ha⟩⟩ := step_effect h
  · exact hs
  · have hs' := host s rest hs
    cases hostStep_effect ha with
    | writeArg r w => exact writeArg _ r w hs'
    | reset hd => exact reset _ _ hc hd
    | command hw =>
      unfold commandStep at hw
      split at hw
      · cases exec_effect hw with
        | raised e => exact raise _ e hs'
        | acted hb hf => exact acted _ _ hc hf hs'
      · cases hw; exact raise _ .illegal hs'

/-! ### The frame of a command -/

theorem forMask_startHead (mask : ChannelMask) (s : State) :
    forMask mask State.startHead s =
      { s with
        headL := if mask.left then s.headL.start s.cfg.wfade else s.headL
        headR := if mask.right then s.headR.start s.cfg.wfade else s.headR } := by
  obtain ⟨l, r⟩ := mask
  cases l <;> cases r <;> rfl

theorem forMask_stopHead (mask : ChannelMask) (s : State) :
    forMask mask State.stopHead s =
      { s with
        headL := if mask.left then s.headL.stop s.cfg.wfade else s.headL
        headR := if mask.right then s.headR.stop s.cfg.wfade else s.headR } := by
  obtain ⟨l, r⟩ := mask
  cases l <;> cases r <;> rfl

/-- What a command leaves unchanged: the "written by" columns of rules R32, R33, R35 to R43 and R46, read as a frame. -/
structure CommandFrame (i : Instr) (s t : State) : Prop where
  cfg : t.cfg = s.cfg
  operands : t.arg0 = s.arg0 ∧ t.arg1 = s.arg1 ∧ t.arg2 = s.arg2
  results : i.writesResults = false → t.res0 = s.res0 ∧ t.res1 = s.res1
  res1 : (∀ clk, i ≠ .tick clk) → (∀ dir, i ≠ .stread dir) → t.res1 = s.res1
  speedRaw : i ≠ .setspeed → t.speedRaw = s.speedRaw
  startX : i ≠ .setstart → t.startX = s.startX
  lengthX : i ≠ .setlength → t.lengthX = s.lengthX
  recX : (∀ on, i ≠ .setrec on) → t.recX = s.recX
  sosX : i ≠ .setsos → t.sosX = s.sosX
  filterX : i ≠ .setfilter → t.filterX = s.filterX
  latched : i ≠ .latch → t.spd = s.spd ∧ t.vol = s.vol ∧ t.sosL = s.sosL ∧ t.filterL = s.filterL ∧ t.nstart = s.nstart ∧
    t.nlength = s.nlength
  ticked : (∀ clk, i ≠ .tick clk) → t.start = s.start ∧ t.length = s.length ∧ t.phase = s.phase ∧ t.wp = s.wp ∧
    t.clkPrev = s.clkPrev ∧ t.clkAge = s.clkAge ∧ t.synced = s.synced
  transition : i ≠ .latch → (∀ clk, i ≠ .tick clk) → t.nphase = s.nphase ∧ t.xfKind = s.xfKind ∧ t.xfProg = s.xfProg ∧
    t.xfWin = s.xfWin ∧ t.xo = s.xo
  trigPend : i ≠ .trig → (∀ clk, i ≠ .tick clk) → t.trigPend = s.trigPend
  clear : (∀ mode, i ≠ .clear mode) → t.clrBusy = s.clrBusy ∧ t.clrPtr = s.clrPtr
  heads : (∀ mask, i ≠ .whstart mask ∧ i ≠ .whstop mask) → (∀ c, i ≠ .whwrite c) → i ≠ .latch → (∀ clk, i ≠ .tick clk) →
    t.headL = s.headL ∧ t.headR = s.headR
  mem : i ≠ .stwrite → (∀ c, i ≠ .whwrite c) → (∀ clk, i ≠ .tick clk) → (∀ mode, i ≠ .clear mode) → t.mem = s.mem

/-- An error changes its sticky bit and the log, and no register of the frame (rule R290). -/
theorem raise_frame (i : Instr) (s : State) (e : ErrorCode) : CommandFrame i s (s.raise e) := by
  constructor <;> simp

/-- Read off the record update of each command, and the frames of `TICK`, `LATCH`, `CLEAR` and `WHCore`. -/
theorem acted_frame (i : Instr) (s : State) : CommandFrame i s (s.acted i) := by
  cases i with
  | whstart mask => rw [State.acted, forMask_startHead]; constructor <;> simp
  | whstop mask => rw [State.acted, forMask_stopHead]; constructor <;> simp
  | clear mode => cases mode <;> constructor <;> simp [Instr.writesResults]
  | status clr => cases clr <;> constructor <;> simp [Instr.writesResults]
  | _ => constructor <;> simp [Instr.writesResults]

theorem exec_frame {i : Instr} {s t : State} (h : exec i s = .next t) : CommandFrame i s t := by
  cases exec_effect h with
  | raised e => exact raise_frame i s e
  | acted => exact acted_frame i s

end Sys2Proof.Machine
end

section
/-! SUPPORT. The decoder answers only commands whose fields are those of the word (rules R91, R93). -/

namespace Sys2Proof

theorem flagOfSub_eq_some {sub : BitVec 8} {b : Bool} (h : flagOfSub sub = some b) : sub = subOfFlag b := by
  unfold flagOfSub at h
  split_ifs at h with h0 h1 <;> cases h
  · exact h0
  · exact h1

theorem maskOfSub_eq_some {sub : BitVec 8} {m : ChannelMask} (h : maskOfSub sub = some m) : sub = subOfMask m := by
  unfold maskOfSub at h
  split_ifs at h with h1 h2 h3 <;> cases h
  · exact h1
  · exact h2
  · exact h3

theorem channelOfSub_eq_some {sub : BitVec 8} {c : Channel} (h : channelOfSub sub = some c) : sub = (Instr.whwrite c).sub := by
  unfold channelOfSub at h
  split_ifs at h with h1 h2 <;> cases h
  · exact h1
  · exact h2

theorem directionOfSub_eq_some {sub : BitVec 8} {d : Direction} (h : directionOfSub sub = some d) : sub = (Instr.stread d).sub := by
  unfold directionOfSub at h
  split_ifs at h with h1 h2 <;> cases h
  · exact h1
  · exact h2

theorem plainOfSub_eq_some {i j : Instr} {sub : BitVec 8} (h : plainOfSub i sub = some j) : i = j ∧ sub = 0x00#8 := by
  unfold plainOfSub at h
  split_ifs at h with h0
  exact ⟨Option.some.inj h, h0⟩

theorem Reg.ofIndex_eq_some {sub : BitVec 8} {r : Reg} (h : Reg.ofIndex sub = some r) : sub = r.index := by
  have := List.find?_some h
  exact (eq_of_beq this).symm

theorem ClearMode.sub_ofFlag (b : Bool) : (Instr.clear (ClearMode.ofFlag b)).sub = subOfFlag b := by
  cases b <;> rfl

/-- The row of the opcode `op` answers only commands whose opcode and `sub` it was given. -/
def RowFields (op : BitVec 8) (row : BitVec 8 → Option Instr) : Prop :=
  ∀ (sub : BitVec 8) (i : Instr), row sub = some i → op = i.opcode ∧ sub = i.sub

theorem RowFields.plain {op : BitVec 8} {j : Instr} (hop : op = j.opcode) (hsub : j.sub = 0x00#8) :
    RowFields op (plainOfSub j) := by
  intro sub i h
  obtain ⟨rfl, h0⟩ := plainOfSub_eq_some h
  exact ⟨hop, h0.trans hsub.symm⟩

theorem RowFields.map {op : BitVec 8} {α : Type} {read : BitVec 8 → Option α} {f : α → Instr} (hop : ∀ x, op = (f x).opcode)
    (hsub : ∀ sub x, read sub = some x → sub = (f x).sub) : RowFields op fun sub => (read sub).map f := by
  intro sub i h
  obtain ⟨x, hx, rfl⟩ := Option.map_eq_some_iff.1 h
  exact ⟨hop x, hsub sub x hx⟩

/-- The map is tried row by row. -/
theorem RowFields.ite {op : BitVec 8} {c : Prop} [Decidable c] {a : BitVec 8 → Option Instr}
    {rest : Option (BitVec 8 → Option Instr)} (ha : c → RowFields op a) (hr : ∀ row, rest = some row → RowFields op row) :
    ∀ row, (if c then some a else rest) = some row → RowFields op row := by
  intro row h
  split at h
  · cases h; exact ha ‹_›
  · exact hr row h

/-- A row of the opcode map answers only commands with the fields it was given (rule R93), in the order of the map. -/
theorem rowOfOp_fields (op : BitVec 8) : ∀ row, rowOfOp op = some row → RowFields op row := by
  unfold rowOfOp
  refine .ite (fun h => .plain h rfl) ?_
  refine .ite (fun h => .map (fun _ => h) fun _ _ => flagOfSub_eq_some) ?_
  refine .ite (fun h => .plain h rfl) <| .ite (fun h => .plain h rfl) <| .ite (fun h => .plain h rfl) <|
    .ite (fun h => .plain h rfl) ?_
  refine .ite (fun h => .map (fun _ => h) fun _ _ => flagOfSub_eq_some) ?_
  refine .ite (fun h => .plain h rfl) <| .ite (fun h => .plain h rfl) <| .ite (fun h => .plain h rfl) ?_
  refine .ite (fun h => .map (fun _ => h) fun _ x hx => (flagOfSub_eq_some hx).trans (ClearMode.sub_ofFlag x).symm) ?_
  refine .ite (fun h => .map (fun _ => h) fun _ _ => maskOfSub_eq_some) ?_
  refine .ite (fun h => .map (fun _ => h) fun _ _ => maskOfSub_eq_some) ?_
  refine .ite (fun h => .map (fun _ => h) fun _ _ => channelOfSub_eq_some) ?_
  refine .ite (fun h => .plain h rfl) ?_
  refine .ite (fun h => .map (fun _ => h) fun _ _ => directionOfSub_eq_some) ?_
  refine .ite (fun h => .map (fun _ => h) fun _ _ => flagOfSub_eq_some) ?_
  exact .ite (fun h => .map (fun _ => h) fun _ _ => Reg.ofIndex_eq_some) nofun

theorem decode_fields {w : Word} {i : Instr} (h : decode w = .ok i) :
    opField w = i.opcode ∧ subField w = i.sub ∧ zField w = 0#16 := by
  unfold decode at h
  split at h
  next => cases h
  next hz =>
    split at h
    next => cases h
    next row hr =>
      split at h
      next => cases h
      next j hj =>
        cases h
        obtain ⟨hop, hsub⟩ := rowOfOp_fields _ row hr _ _ hj
        exact ⟨hop, hsub, not_not.1 hz⟩

/-- A word is its three fields (rule R91). -/
theorem fields_append (w : Word) : opField w ++ subField w ++ zField w = w := by
  ext i hi
  simp only [opField, subField, zField, BitVec.getElem_append, BitVec.getElem_extractLsb']
  split_ifs <;> (rw [← BitVec.getLsbD_eq_getElem]; congr 1; omega)

/-- Every word that decodes is the word of its command (rule R95). -/
theorem encode_of_decode {w : Word} {i : Instr} (h : decode w = .ok i) : encode i = w := by
  obtain ⟨hop, hsub, hz⟩ := decode_fields h
  rw [encode, ← hop, ← hsub, ← hz, fields_append]

end Sys2Proof
end

section
/-! SUPPORT. The statements on operands, results, errors, the "written by" columns and the status word. -/

namespace Sys2Proof

open Machine

/-- Settles O13: every clause is a field of the frame of the command. -/
theorem registersAreWrittenByTheirColumns : Obligations.RegistersAreWrittenByTheirColumns := by
  intro i s t h
  have f := exec_frame h
  exact ⟨f.speedRaw, f.startX, f.lengthX, f.recX, f.sosX, f.filterX, f.latched, f.ticked, f.transition, f.trigPend, f.clear,
    f.heads, f.res1, f.mem⟩

/-- A command word leaves the operand registers (rule R32). -/
theorem Machine.commandStep_operands {w : Word} {s t : State} (h : commandStep w s = .next t) :
    t.arg0 = s.arg0 ∧ t.arg1 = s.arg1 ∧ t.arg2 = s.arg2 := by
  obtain ⟨e, rfl⟩ | ⟨i, -, -, rfl⟩ := commandStep_effect h
  · exact (raise_frame .nop s e).operands
  · exact (acted_frame i s).operands

/-- Settles O10: from the frame of the commands and the equation of each operand write. -/
theorem onlyTheHostWritesOperands : Obligations.OnlyTheHostWritesOperands := by
  refine ⟨fun i s t h => (exec_frame h).operands, fun w s t h => commandStep_operands h, ?_, rfl, rfl, rfl⟩
  intro r w s
  cases r <;> rfl

/-- Settles O12: an error changes no result, and a command that acts raised none. -/
theorem onlyResultCommandsWriteResults : Obligations.OnlyResultCommandsWriteResults := by
  refine ⟨fun w s t h hw => ?_, rfl, rfl⟩
  obtain ⟨e, rfl⟩ | ⟨i, hi, hnone, rfl⟩ := commandStep_effect h
  · exact (raise_frame .nop s e).results rfl
  · obtain hres | herr := hw
    · exact (acted_frame i s).results (hres i hi)
    · exact absurd hnone herr

/-! ### The sticky bits -/

namespace Machine

/-- An error sets its own bit and clears none (rule R290). -/
theorem State.raise_keeps_errors (s : State) (e : ErrorCode) :
    (s.errIllegal = true → (s.raise e).errIllegal = true) ∧ (s.errNonfinite = true → (s.raise e).errNonfinite = true) ∧
      (s.errBusy = true → (s.raise e).errBusy = true) := by
  cases e <;> simp [State.raise]

theorem State.LogCovers.raise {s : State} (h : s.LogCovers) (e : ErrorCode) : (s.raise e).LogCovers := by
  obtain ⟨hi, hn, hb⟩ := h
  cases e <;> constructor <;> simp_all [State.raise]

/-- A command that acts adds nothing to the log. -/
theorem State.acted_errLog (s : State) (i : Instr) : (s.acted i).errLog = s.errLog := by
  cases i with
  | whstart mask => rw [State.acted, forMask_startHead]
  | whstop mask => rw [State.acted, forMask_stopHead]
  | clear mode => cases mode <;> simp
  | status clr => cases clr <;> simp
  | _ => simp

/-- A command that acts leaves the sticky bits, unless it is `STATUS CLR` (rule R270). -/
theorem State.acted_errors (s : State) {i : Instr} (hi : i ≠ .status true) :
    (s.acted i).errIllegal = s.errIllegal ∧ (s.acted i).errNonfinite = s.errNonfinite ∧ (s.acted i).errBusy = s.errBusy := by
  cases i with
  | whstart mask => rw [State.acted, forMask_startHead]; simp
  | whstop mask => rw [State.acted, forMask_stopHead]; simp
  | clear mode => cases mode <;> simp
  | status clr =>
    cases clr
    · simp
    · exact absurd rfl hi
  | _ => simp

theorem State.LogCovers.acted {s : State} (h : s.LogCovers) (i : Instr) : (s.acted i).LogCovers := by
  by_cases hi : i = .status true
  · subst hi
    constructor <;> simp
  · obtain ⟨hill, hnon, hbusy⟩ := s.acted_errors hi
    exact ⟨by rw [hill, s.acted_errLog]; exact h.illegal, by rw [hnon, s.acted_errLog]; exact h.nonfinite,
      by rw [hbusy, s.acted_errLog]; exact h.busy⟩

end Machine

/-- Settles O9: by what a host action can do; the one command word that clears a bit is that of `STATUS CLR`. -/
theorem errorsAreStickyAndLogged : Obligations.ErrorsAreStickyAndLogged := by
  intro a s t h
  cases hostStep_effect h with
  | writeArg r w =>
    refine ⟨⟨[], by simp⟩, fun hl => ⟨?_, ?_, ?_⟩, fun _ _ => by simp⟩
    · simpa using hl.illegal
    · simpa using hl.nonfinite
    · simpa using hl.busy
  | reset hd =>
    exact ⟨⟨[], (List.append_nil _).symm⟩, fun _ => ⟨nofun, nofun, nofun⟩, fun _ hr => absurd rfl (hr _)⟩
  | @command w _ hw =>
    obtain ⟨e, rfl⟩ | ⟨i, hi, -, rfl⟩ := commandStep_effect hw
    · exact ⟨⟨[e], s.raise_errLog e⟩, fun hl => hl.raise e, fun _ _ => s.raise_keeps_errors e⟩
    · refine ⟨⟨[], by rw [s.acted_errLog, List.append_nil]⟩, fun hl => hl.acted i, fun hclr _ => ?_⟩
      have hne : i ≠ .status true := by
        rintro rfl
        exact hclr (congrArg HostAction.command (encode_of_decode hi).symm)
      obtain ⟨hill, hnon, hbusy⟩ := s.acted_errors hne
      exact ⟨hill.trans, hnon.trans, hbusy.trans⟩

/-! ### The status word -/

namespace Machine

@[simp] theorem bit_getElem_zero (b : Bool) : (bit b)[0] = b := by
  cases b <;> rfl

/-- The bit `k` of the status word: the bit of the field that `k` lies in, from bit 0 up (rule R45). -/
theorem State.statusWord_getLsbD (s : State) (k : Nat) :
    s.statusWord.getLsbD k =
      if k < 2 then s.headL.state.code.getLsbD k
      else if k - 2 < 2 then s.headR.state.code.getLsbD (k - 2)
      else if k - 4 < 2 then s.xfKind.code.getLsbD (k - 4)
      else if k - 6 < 1 then (bit s.clrBusy).getLsbD (k - 6)
      else if k - 7 < 1 then (bit s.synced).getLsbD (k - 7)
      else if k - 8 < 1 then (bit s.trigPend).getLsbD (k - 8)
      else if k - 9 < 1 then (bit s.recX).getLsbD (k - 9)
      else if k - 10 < 1 then (bit s.headL.isWriting).getLsbD (k - 10)
      else if k - 11 < 1 then (bit s.headR.isWriting).getLsbD (k - 11)
      else if k - 12 < 4 then (0#4).getLsbD (k - 12)
      else if k - 16 < 1 then (bit s.errIllegal).getLsbD (k - 16)
      else if k - 17 < 1 then (bit s.errNonfinite).getLsbD (k - 17)
      else if k - 18 < 1 then (bit s.errBusy).getLsbD (k - 18)
      else (0#13).getLsbD (k - 19) := by
  unfold State.statusWord
  simp only [BitVec.getLsbD_append]
  simp only [Nat.sub_sub, Nat.reduceAdd]

/-- A word has a field at `lo` if its bits are there. -/
theorem extractLsb'_of_getLsbD {v : Word} {w lo : Nat} {x : BitVec w} (h : ∀ k < w, v.getLsbD (lo + k) = x.getLsbD k) :
    v.extractLsb' lo w = x := by
  refine BitVec.eq_of_getLsbD_eq fun k hk => ?_
  rw [BitVec.getLsbD_extractLsb', decide_eq_true hk, Bool.true_and, h k hk]

end Machine

/-- Settles O51: each field and bit by `State.statusWord_getLsbD`. -/
theorem statusWordFields : Obligations.StatusWordFields := by
  refine ⟨fun s => ?_, rfl, rfl, rfl, rfl, rfl, rfl, rfl, rfl, fun cfg mem => ?reset⟩
  case reset =>
    have : (State.resetWith cfg mem).statusWord = State.reset.statusWord := rfl
    rw [this]
    decide +kernel
  refine ⟨extractLsb'_of_getLsbD ?headL, extractLsb'_of_getLsbD ?headR, extractLsb'_of_getLsbD ?kind, ?_, ?_, ?_, ?_, ?_, ?_,
    extractLsb'_of_getLsbD ?reserved, ?_, ?_, ?_, extractLsb'_of_getLsbD ?reservedTop⟩
  case headL | headR | kind | reserved | reservedTop =>
    intro k hk
    rw [State.statusWord_getLsbD]
    interval_cases k <;> simp
  all_goals
    rw [State.statusWord_getLsbD]
    simp [Head.isWriting]

end Sys2Proof
end

section
/-! SUPPORT. The bounds that an admitted configuration gives (rule R9), and the counters under every command (rule R49 (e) to (h)). -/

namespace Sys2Proof

namespace Machine

/-! ### The bounds of an admitted configuration -/

/-- What the proofs about the state use of rule R9: sizes, fade windows, counts and tables. -/
structure ConfigBounds (c : Config) : Prop where
  minLoop_ge : 4 ≤ c.minLoop
  minLoop_le : c.minLoop ≤ c.n
  n_le : c.n ≤ 2 ^ 24
  xfMax_finite : F32.isFinite c.xfMax = true
  xfMin_pos : F32.lt F32.zero c.xfMin = true
  xfMin_le : F32.le c.xfMin c.xfMax = true
  xfMax_le : 2 * F32.magnitude c.xfMax ≤ c.n * F32.unitsPerOne
  trigFade_pos : 1 ≤ c.trigFade
  trigFade_lt : 2 * c.trigFade < c.n
  wfade_pos : 1 ≤ c.wfade
  wfade_le : c.wfade ≤ 2 ^ 32
  clockTimeout_lt : c.clockTimeout < 2 ^ 32
  q_ge : 2 ≤ c.q
  startLut_lt : ∀ x ∈ c.startLut, x < c.n
  lengthLut_length : c.lengthLut.length = c.q
  lengthLut_mem : ∀ x ∈ c.lengthLut, c.minLoop ≤ x ∧ x ≤ c.n

/-- `MIN_LOOP ≥ 2 × SPEED_MAX = 4` (rule R9 (b)). -/
theorem four_le_of_speedMax_le {m : Nat} (h : 2 * F32.magnitude speedMax ≤ m * F32.unitsPerOne) : 4 ≤ m := by
  have hs : F32.magnitude speedMax = 2 * F32.unitsPerOne := by decide +kernel
  rw [hs, ← mul_assoc] at h
  exact Nat.le_of_mul_le_mul_right h F32.unitsPerOne_pos

theorem configBounds_of_admitted {c : Config} (h : configAdmitted c = true) : ConfigBounds c := by
  simp only [configAdmitted, sizesAdmitted, fadesAdmitted, countsAdmitted, startLutAdmitted, lengthLutAdmitted, Bool.and_eq_true,
    decide_eq_true_eq, List.all_eq_true, beq_iff_eq] at h
  obtain ⟨⟨⟨⟨⟨hsizes, hfades⟩, hcounts⟩, -⟩, hstart⟩, hlength⟩ := h
  obtain ⟨⟨⟨⟨⟨-, hmin⟩, hn⟩, hspeed⟩, -⟩, -⟩ := hsizes
  obtain ⟨⟨⟨⟨⟨⟨⟨⟨-, hmaxf⟩, -⟩, hpos⟩, hle⟩, -⟩, -⟩, -⟩, hmax⟩ := hfades
  obtain ⟨⟨⟨⟨⟨⟨⟨htf, htfn⟩, hwf⟩, -⟩, -⟩, hq⟩, hwfle⟩, htimeout⟩ := hcounts
  obtain ⟨⟨⟨-, hstartlt⟩, -⟩, -⟩ := hstart
  obtain ⟨⟨⟨⟨hlen, hlenmem⟩, -⟩, -⟩, -⟩ := hlength
  exact ⟨four_le_of_speedMax_le hspeed, hmin, hn, hmaxf, hpos, hle, hmax, htf, htfn, hwf, hwfle, htimeout, hq, hstartlt, hlen,
    hlenmem⟩

theorem ConfigBounds.n_pos {c : Config} (h : ConfigBounds c) : 0 < c.n := by
  have := h.minLoop_ge
  have := h.minLoop_le
  omega

/-- A number that fits a register is what the register holds. -/
theorem toNat_ofNat_of_lt {k : Nat} (h : k < 2 ^ 32) : (BitVec.ofNat 32 k).toNat = k := by
  rw [BitVec.toNat_ofNat, Nat.mod_eq_of_lt h]

/-! ### The write heads -/

theorem Head.Legal.of_count_zero {wfade : Nat} {h : Head} (hw : 0 < wfade) (hc : h.count = 0#32) : h.Legal wfade :=
  ⟨by rw [hc]; exact hw, fun _ => hc⟩

theorem Head.Legal.of_fading {wfade k : Nat} {st : HeadState} (hw : wfade ≤ 2 ^ 32) (hk : k < wfade)
    (hst : st = .fadingIn ∨ st = .fadingOut) : Head.Legal wfade { state := st, count := BitVec.ofNat 32 k } :=
  ⟨by rw [toNat_ofNat_of_lt (by omega)]; exact hk, fun h => by simp [Head.isFading, hst] at h⟩

/-- The count of a reversed fade, `WFADE - WH_CNT`, is below `WFADE` unless the fade had not begun (rules R191, R192). -/
theorem Head.Legal.reversed_count_lt {wfade : Nat} {h : Head} (hl : h.Legal wfade) (hc : ¬wfade - h.count.toNat = wfade) :
    wfade - h.count.toNat < wfade := by
  have := hl.below
  omega

theorem Head.Legal.start {wfade : Nat} {h : Head} (hl : h.Legal wfade) (hw : wfade ≤ 2 ^ 32) : (h.start wfade).Legal wfade := by
  have hpos : 0 < wfade := Nat.zero_lt_of_lt hl.below
  unfold Head.start
  split
  case h_1 => exact .of_count_zero hpos rfl
  case h_2 =>
    split_ifs with hc
    · exact .of_count_zero hpos rfl
    · exact .of_fading hw (hl.reversed_count_lt hc) (.inl rfl)
  case h_3 => exact hl
  case h_4 => exact hl

theorem Head.Legal.stop {wfade : Nat} {h : Head} (hl : h.Legal wfade) (hw : wfade ≤ 2 ^ 32) : (h.stop wfade).Legal wfade := by
  have hpos : 0 < wfade := Nat.zero_lt_of_lt hl.below
  unfold Head.stop
  split
  case h_1 => exact .of_count_zero hpos rfl
  case h_2 =>
    split_ifs with hc
    · exact .of_count_zero hpos rfl
    · exact .of_fading hw (hl.reversed_count_lt hc) (.inr rfl)
  case h_3 => exact hl
  case h_4 => exact hl

theorem Head.Legal.advance {wfade : Nat} {h : Head} (hl : h.Legal wfade) (hw : wfade ≤ 2 ^ 32)
    (hf : h.state = .fadingIn ∨ h.state = .fadingOut) : (h.advance wfade).Legal wfade := by
  have hlt := hl.below
  unfold Head.advance
  split
  next => exact .of_count_zero (by omega) rfl
  next hc => exact .of_fading hw (by omega) hf

/-- A head after a write through it, or untouched. -/
theorem Head.Legal.written {wfade : Nat} {h : Head} (hl : h.Legal wfade) (hw : wfade ≤ 2 ^ 32) {p : Prop} [Decidable p]
    (hp : p → h.state = .fadingIn ∨ h.state = .fadingOut) : (if p then h.advance wfade else h).Legal wfade := by
  split_ifs with hc
  · exact hl.advance hw (hp hc)
  · exact hl

theorem State.latched_head (s : State) (c : Channel) :
    (s.acted .latch).head c = if s.recX then (s.head c).start s.cfg.wfade else (s.head c).stop s.cfg.wfade := by
  cases c <;> simp [State.latchHeads_headL, State.latchHeads_headR] <;> rfl

/-- After the write stage a tick leaves the heads. -/
theorem State.tick_head (s : State) (clk : Bool) (c : Channel) :
    (s.tick clk).head c = (s.writeStage s.nanSource s.arg0 s.arg1).head c := by
  cases c <;> simp [State.tick_eq, State.afterRead]

/-- A command that neither starts, stops nor writes through a head leaves both (rule R41). -/
theorem State.acted_head (s : State) {i : Instr} (hset : ∀ mask, i ≠ .whstart mask ∧ i ≠ .whstop mask) (hwrite : ∀ c, i ≠ .whwrite c)
    (hlatch : i ≠ .latch) (htick : ∀ clk, i ≠ .tick clk) (c : Channel) : (s.acted i).head c = s.head c := by
  obtain ⟨hl, hr⟩ := (acted_frame i s).heads hset hwrite hlatch htick
  cases c
  · exact hl
  · exact hr

/-- Both heads are legal after every command, in the form that R49 (f) states for each channel. -/
theorem State.acted_head_legal {s : State} (hw : s.cfg.wfade ≤ 2 ^ 32) (hs : ∀ c, (s.head c).Legal s.cfg.wfade) (i : Instr)
    (c : Channel) : ((s.acted i).head c).Legal s.cfg.wfade := by
  cases i with
  | latch =>
    rw [State.latched_head]
    split_ifs
    · exact (hs c).start hw
    · exact (hs c).stop hw
  | tick clk =>
    have hd : (s.acted (.tick clk)).head c = (s.tick clk).head c := by cases c <;> rfl
    rw [hd, State.tick_head, State.writeStage_head]
    exact (hs c).written hw And.right
  | whstart mask =>
    rw [State.acted, forMask_startHead]
    cases c <;> simp only [State.head_left, State.head_right] <;> split_ifs
    · exact (hs .left).start hw
    · exact hs .left
    · exact (hs .right).start hw
    · exact hs .right
  | whstop mask =>
    rw [State.acted, forMask_stopHead]
    cases c <;> simp only [State.head_left, State.head_right] <;> split_ifs
    · exact (hs .left).stop hw
    · exact hs .left
    · exact (hs .right).stop hw
    · exact hs .right
  | whwrite d =>
    have hd : (s.acted (.whwrite d)).head c = (s.headWrite s.nanSource d (integerPosition s.cfg.n s.arg0) s.arg1).head c := by
      cases c <;> rfl
    rw [hd]
    by_cases hc : c = d
    · subst hc
      rw [State.headWrite_head]
      exact (hs c).written hw id
    · rw [State.headWrite_head_other _ _ hc]
      exact hs c
  | _ =>
    rw [State.acted_head s (by simp) (by simp) (by simp) (by simp)]
    exact hs c

/-! ### The other counters -/

theorem State.ageClock_clkAge_le {s : State} (ht : s.cfg.clockTimeout < 2 ^ 32) (hs : s.clkAge.toNat ≤ s.cfg.clockTimeout) :
    s.ageClock.clkAge.toNat ≤ s.cfg.clockTimeout := by
  unfold State.ageClock
  split
  next hlt =>
    change (BitVec.ofNat 32 (s.clkAge.toNat + 1)).toNat ≤ s.cfg.clockTimeout
    rw [toNat_ofNat_of_lt (by omega)]
    exact hlt
  next => exact hs

/-- `CLK_AGE` after a tick: 0 after a trigger, else one more up to `CLOCK_TIMEOUT` (rules R251, R252). -/
theorem State.tick_clkAge_le {s : State} (ht : s.cfg.clockTimeout < 2 ^ 32) (hs : s.clkAge.toNat ≤ s.cfg.clockTimeout) (clk : Bool) :
    (s.tick clk).clkAge.toNat ≤ s.cfg.clockTimeout := by
  cases htr : s.triggered clk
  · rw [State.tick_of_not_triggered htr]
    simpa using State.ageClock_clkAge_le
      (s := (s.afterRead.advanceStage (s.nanSource.shift 60)).sampleClock clk) (by simpa using ht) (by simpa using hs)
  · rw [State.tick_of_triggered htr]
    exact Nat.zero_le _

theorem State.tick_wp (s : State) (clk : Bool) : (s.tick clk).wp = BitVec.ofNat 32 ((s.wp.toNat + 1) % s.cfg.n) := by
  simp [State.tick_eq, State.afterRead]

theorem State.tick_wp_lt {s : State} (hb : ConfigBounds s.cfg) (clk : Bool) : (s.tick clk).wp.toNat < s.cfg.n := by
  have hlt := Nat.mod_lt (s.wp.toNat + 1) hb.n_pos
  have := hb.n_le
  rw [State.tick_wp, toNat_ofNat_of_lt (by omega)]
  exact hlt

/-- `CLR_PTR` lies in the store, and is 0 with no clear in progress (rules R42, R49 (g)). -/
def State.ClearLegal (s : State) : Prop :=
  (s.clrBusy = false → s.clrPtr = 0#32) ∧ s.clrPtr.toNat < s.cfg.n

theorem State.clearStep_legal {s : State} (hb : ConfigBounds s.cfg) : s.clearStep.ClearLegal := by
  unfold State.clearStep
  split_ifs with hend
  · exact ⟨fun _ => rfl, hb.n_pos⟩
  · have hle : s.clearTo ≤ s.cfg.n := Nat.min_le_right _ _
    have := hb.n_le
    refine ⟨nofun, ?_⟩
    change (BitVec.ofNat 32 s.clearTo).toNat < s.cfg.n
    rw [toNat_ofNat_of_lt (by omega)]
    omega

theorem State.acted_clear_legal {s : State} (hb : ConfigBounds s.cfg) (hs : s.ClearLegal) (i : Instr) : (s.acted i).ClearLegal := by
  by_cases hi : ∃ mode, i = .clear mode
  · obtain ⟨mode, rfl⟩ := hi
    cases mode
    · exact ⟨fun _ => rfl, hb.n_pos⟩
    · exact State.clearStep_legal hb
  · obtain ⟨hbusy, hptr⟩ := (acted_frame i s).clear (not_exists.1 hi)
    unfold State.ClearLegal
    rw [hbusy, hptr, (acted_frame i s).cfg]
    exact hs

theorem State.countersLegal_iff (s : State) :
    s.CountersLegal ↔ s.wp.toNat < s.cfg.n ∧ (∀ c, (s.head c).Legal s.cfg.wfade) ∧ s.ClearLegal ∧
      s.clkAge.toNat ≤ s.cfg.clockTimeout := by
  constructor
  · rintro ⟨hwp, hl, hr, hidle, hptr, hage⟩
    exact ⟨hwp, fun c => by cases c <;> assumption, ⟨hidle, hptr⟩, hage⟩
  · rintro ⟨hwp, hh, ⟨hidle, hptr⟩, hage⟩
    exact ⟨hwp, hh .left, hh .right, hidle, hptr, hage⟩

theorem State.CountersLegal.acted {s : State} (hb : ConfigBounds s.cfg) (hs : s.CountersLegal) (i : Instr) :
    (s.acted i).CountersLegal := by
  rw [State.countersLegal_iff] at hs ⊢
  obtain ⟨hwp, hheads, hclear, hage⟩ := hs
  have f := acted_frame i s
  rw [f.cfg]
  refine ⟨?_, State.acted_head_legal hb.wfade_le hheads i, State.acted_clear_legal hb hclear i, ?_⟩
  all_goals
    by_cases hi : ∃ clk, i = .tick clk
  · obtain ⟨clk, rfl⟩ := hi
    exact State.tick_wp_lt hb clk
  · obtain ⟨-, -, -, hwp', -⟩ := f.ticked (not_exists.1 hi)
    rwa [hwp']
  · obtain ⟨clk, rfl⟩ := hi
    exact State.tick_clkAge_le hb.clockTimeout_lt hage clk
  · obtain ⟨-, -, -, -, -, hage', -⟩ := f.ticked (not_exists.1 hi)
    rwa [hage']

theorem State.CountersLegal.resetWith {cfg : Config} (hb : ConfigBounds cfg) (mem : Memory) :
    (State.resetWith cfg mem).CountersLegal :=
  ⟨hb.n_pos, .of_count_zero hb.wfade_pos rfl, .of_count_zero hb.wfade_pos rfl, fun _ => rfl, hb.n_pos, Nat.zero_le _⟩

theorem State.CountersLegal.congr {s t : State} (hs : s.CountersLegal) (hcfg : t.cfg = s.cfg) (hwp : t.wp = s.wp)
    (hl : t.headL = s.headL) (hr : t.headR = s.headR) (hbusy : t.clrBusy = s.clrBusy) (hptr : t.clrPtr = s.clrPtr)
    (hage : t.clkAge = s.clkAge) : t.CountersLegal := by
  constructor
  · rw [hcfg, hwp]; exact hs.wp
  · rw [hcfg, hl]; exact hs.headL
  · rw [hcfg, hr]; exact hs.headR
  · rw [hbusy, hptr]; exact hs.clrIdle
  · rw [hcfg, hptr]; exact hs.clrPtr
  · rw [hcfg, hage]; exact hs.clkAge

end Machine

open Machine in
/-- Settles O58: by the rule for every step, with the counters under each command. -/
theorem countersStayLegal : Obligations.CountersStayLegal := by
  intro s t hs h
  refine step_keeps (P := State.CountersLegal) ?host ?writeArg ?raise ?acted ?reset hs h
  case host => exact fun s rest hs => hs.congr rfl rfl rfl rfl rfl rfl rfl
  case writeArg => exact fun s r w hs => hs.congr (by simp) (by simp) (by simp) (by simp) (by simp) (by simp) (by simp)
  case raise => exact fun s e hs => hs.congr (by simp) (by simp) (by simp) (by simp) (by simp) (by simp) (by simp)
  case acted => exact fun s i hc _ hs => hs.acted (configBounds_of_admitted hc) i
  case reset =>
    exact fun s draw hc _ =>
      (State.CountersLegal.resetWith (configBounds_of_admitted hc) (Memory.ofWords draw 0)).congr rfl rfl rfl rfl rfl rfl rfl

end Sys2Proof
end

section
/-! SUPPORT. The order of binary32 words in the form the legal ranges need: transitivity, clamping, and what lies between finite
words. Then the ranges of rules R36 and R37, in units of `2^-149`. -/

namespace Sys2Proof

/-! ### The order -/

theorem F32.le_iff_key (a b : Word) : F32.le a b = true ↔ F32.isNaN a = false ∧ F32.isNaN b = false ∧ F32.key a ≤ F32.key b := by
  simp [F32.le, and_assoc]

theorem F32.lt_iff_key (a b : Word) : F32.lt a b = true ↔ F32.isNaN a = false ∧ F32.isNaN b = false ∧ F32.key a < F32.key b := by
  simp [F32.lt, and_assoc]

theorem F32.le_of_lt {a b : Word} (h : F32.lt a b = true) : F32.le a b = true := by
  rw [F32.lt_iff_key] at h
  rw [F32.le_iff_key]
  exact ⟨h.1, h.2.1, h.2.2.le⟩

theorem F32.le_trans {a b c : Word} (hab : F32.le a b = true) (hbc : F32.le b c = true) : F32.le a c = true := by
  rw [F32.le_iff_key] at *
  exact ⟨hab.1, hbc.2.1, hab.2.2.trans hbc.2.2⟩

theorem F32.lt_of_lt_of_le {a b c : Word} (hab : F32.lt a b = true) (hbc : F32.le b c = true) : F32.lt a c = true := by
  rw [F32.le_iff_key] at hbc
  rw [F32.lt_iff_key] at *
  exact ⟨hab.1, hbc.2.1, hab.2.2.trans_le hbc.2.2⟩

theorem F32.lt_of_not_le {a b : Word} (ha : F32.isNaN a = false) (hb : F32.isNaN b = false) (h : ¬F32.le a b = true) :
    F32.lt b a = true := by
  rw [F32.le_iff_key] at h
  rw [F32.lt_iff_key]
  exact ⟨hb, ha, not_le.1 fun hk => h ⟨ha, hb, hk⟩⟩

theorem F32.le_of_not_lt {a b : Word} (ha : F32.isNaN a = false) (hb : F32.isNaN b = false) (h : ¬F32.lt a b = true) :
    F32.le b a = true := by
  rw [F32.lt_iff_key] at h
  rw [F32.le_iff_key]
  exact ⟨hb, ha, not_lt.1 fun hk => h ⟨ha, hb, hk⟩⟩

theorem F32.le_refl {a : Word} (ha : F32.isNaN a = false) : F32.le a a = true :=
  (F32.le_iff_key a a).2 ⟨ha, ha, le_rfl⟩

theorem F32.not_isNaN_left {a b : Word} (h : F32.le a b = true) : F32.isNaN a = false :=
  ((F32.le_iff_key a b).1 h).1

theorem F32.not_isNaN_right {a b : Word} (h : F32.le a b = true) : F32.isNaN b = false :=
  ((F32.le_iff_key a b).1 h).2.1

theorem F32.zero_le_of_not_neg {w : Word} (hn : F32.isNaN w = false) (hs : F32.isNeg w = false) : F32.le F32.zero w = true := by
  rw [F32.le_iff_key]
  refine ⟨by decide, hn, ?_⟩
  have hz : F32.key F32.zero = 0 := by decide
  have hw : F32.key w = F32.magBits w := by rw [F32.key, if_neg (by simp [hs])]
  omega

/-- Between finite words there are finite words only. -/
theorem F32.isFinite_of_between {lo w hi : Word} (hlo : F32.isFinite lo = true) (hhi : F32.isFinite hi = true)
    (h1 : F32.le lo w = true) (h2 : F32.le w hi = true) : F32.isFinite w = true := by
  rw [F32.isFinite_iff] at *
  have k1 := ((F32.le_iff_key lo w).1 h1).2.2
  have k2 := ((F32.le_iff_key w hi).1 h2).2.2
  have := F32.natAbs_key lo
  have := F32.natAbs_key w
  have := F32.natAbs_key hi
  omega

/-! ### Clamping -/

/-- `clamp(x, lo, hi)` lies in `[lo, hi]`, if `x` is no NaN. -/
theorem F32.clamp_between {x lo hi : Word} (hx : F32.isNaN x = false) (h : F32.le lo hi = true) :
    F32.le lo (F32.clamp x lo hi) = true ∧ F32.le (F32.clamp x lo hi) hi = true := by
  have hlo := F32.not_isNaN_left h
  have hhi := F32.not_isNaN_right h
  have hmax : F32.le lo (F32.max x lo) = true := by
    unfold F32.max
    split
    · exact F32.le_refl hlo
    · exact F32.le_of_not_lt hx hlo ‹_›
  unfold F32.clamp F32.min
  split
  · exact ⟨h, F32.le_refl hhi⟩
  · exact ⟨hmax, F32.le_of_not_lt hhi (F32.not_isNaN_right hmax) ‹_›⟩

/-- `max(lo, min(x, hi))` lies in `[lo, hi]` for every `x`: a NaN falls back to `lo`. -/
theorem F32.max_min_between {x lo hi : Word} (h : F32.le lo hi = true) :
    F32.le lo (F32.max lo (F32.min x hi)) = true ∧ F32.le (F32.max lo (F32.min x hi)) hi = true := by
  have hlo := F32.not_isNaN_left h
  unfold F32.max
  split
  next hlt =>
    have hle := F32.le_of_lt hlt
    refine ⟨hle, ?_⟩
    have hnan := F32.not_isNaN_right hle
    unfold F32.min at hnan ⊢
    split
    · exact F32.le_refl (F32.not_isNaN_right h)
    next hge =>
      rw [if_neg hge] at hnan
      exact F32.le_of_not_lt (F32.not_isNaN_right h) hnan hge
  next => exact ⟨F32.le_refl hlo, h⟩

/-! ### Sums -/

/-- The words whose value lies in `[-k, k]`. -/
def F32.Within (k : Nat) (w : Word) : Prop :=
  F32.isFinite w = true ∧ |F32.units w| ≤ k * F32.unitsPerOne

theorem F32.within_ofInteger {k : Nat} (h : k ≤ 2 ^ 24) : F32.Within k (F32.ofInteger k) := by
  refine ⟨F32.isFinite_ofInteger h, ?_⟩
  rw [F32.units_ofInteger h, Nat.abs_cast, Nat.cast_mul]

theorem F32.Within.abs {k : Nat} {w : Word} (h : F32.Within k w) : F32.Within k (F32.abs w) := by
  rw [F32.Within, F32.isFinite_abs, F32.units_abs, abs_abs]
  exact h

theorem F32.Within.neg {k : Nat} {w : Word} (h : F32.Within k w) : F32.Within k (F32.neg w) := by
  rw [F32.Within, F32.isFinite_neg, F32.units_neg, abs_neg]
  exact h

theorem F32.within_one : F32.Within 1 F32.one := by
  rw [F32.Within, F32.units_one, Nat.abs_cast, Nat.cast_one, one_mul]
  exact ⟨F32.isFinite_one, le_rfl⟩

theorem F32.units_pow26 : F32.units 0x4C800000#32 = 2 ^ 26 * F32.unitsPerOne := by decide +kernel

theorem F32.Within.abs_sum_le {i j : Nat} {a b : Word} (ha : F32.Within i a) (hb : F32.Within j b) (hij : i + j ≤ 2 ^ 26) :
    |F32.units a + F32.units b| ≤ F32.units 0x4C800000#32 := by
  rw [F32.units_pow26]
  calc |F32.units a + F32.units b| ≤ |F32.units a| + |F32.units b| := abs_add_le _ _
    _ ≤ i * F32.unitsPerOne + j * F32.unitsPerOne := add_le_add ha.2 hb.2
    _ = ((i + j : Nat) : Int) * F32.unitsPerOne := by rw [Nat.cast_add, add_mul]
    _ ≤ 2 ^ 26 * F32.unitsPerOne := mul_le_mul_of_nonneg_right (by exact_mod_cast hij) (Int.natCast_nonneg _)

/-- A sum far below the greatest finite value does not overflow. -/
theorem F32.isFinite_add {i j : Nat} (nan : Word) {a b : Word} (ha : F32.Within i a) (hb : F32.Within j b) (hij : i + j ≤ 2 ^ 26) :
    F32.isFinite (F32.add nan a b) = true := by
  obtain ⟨hl, hr⟩ := abs_le.1 (ha.abs_sum_le hb hij)
  rw [F32.add_of_finite nan ha.1 hb.1]
  exact (F32.addFinite_between (lo := F32.neg 0x4C800000#32) (by decide) (by decide) (by rw [F32.units_neg]; exact hl) hr).1

/-- A sum of two words that are not below zero is not below zero. -/
theorem F32.zero_le_add {i j : Nat} (nan : Word) {a b : Word} (ha : F32.Within i a) (hb : F32.Within j b) (hij : i + j ≤ 2 ^ 26)
    (ha0 : 0 ≤ F32.units a) (hb0 : 0 ≤ F32.units b) : F32.le F32.zero (F32.add nan a b) = true := by
  have hsum := (abs_le.1 (ha.abs_sum_le hb hij)).2
  rw [F32.add_of_finite nan ha.1 hb.1]
  obtain ⟨hf, h0, -⟩ := F32.addFinite_between (lo := F32.zero) F32.isFinite_zero (by decide)
    (by rw [F32.units_zero]; exact add_nonneg ha0 hb0) hsum
  exact (F32.le_iff F32.isFinite_zero hf).2 h0

namespace Machine

/-! ### The window -/

/-- A word in `[0, n)`, by its value. -/
theorem inWindow_iff {n : Nat} (hn : n ≤ 2 ^ 24) (w : Word) :
    InWindow n w ↔ F32.isFinite w = true ∧ 0 ≤ F32.units w ∧ F32.units w < n * F32.unitsPerOne := by
  have hi := F32.isFinite_ofInteger hn
  have hu := F32.units_ofInteger hn
  rw [Nat.cast_mul] at hu
  constructor
  · rintro ⟨h0, h1⟩
    have hw := F32.isFinite_of_between F32.isFinite_zero hi h0 (F32.le_of_lt h1)
    rw [F32.le_iff F32.isFinite_zero hw, F32.units_zero] at h0
    rw [F32.lt_iff hw hi, hu] at h1
    exact ⟨hw, h0, h1⟩
  · rintro ⟨hw, h0, h1⟩
    rw [InWindow, F32.le_iff F32.isFinite_zero hw, F32.units_zero, F32.lt_iff hw hi, hu]
    exact ⟨h0, h1⟩

theorem InWindow.within {n : Nat} (hn : n ≤ 2 ^ 24) {w : Word} (h : InWindow n w) : F32.Within n w := by
  obtain ⟨hf, h0, h1⟩ := (inWindow_iff hn w).1 h
  exact ⟨hf, by rw [abs_of_nonneg h0]; exact h1.le⟩

theorem inWindow_zero {n : Nat} (hn : n ≤ 2 ^ 24) (h0 : 0 < n) : InWindow n F32.zero := by
  rw [inWindow_iff hn]
  refine ⟨F32.isFinite_zero, le_rfl, ?_⟩
  rw [F32.units_zero]
  exact_mod_cast Nat.mul_pos h0 F32.unitsPerOne_pos

/-- `wrapN` of a finite position is a position in the store (rules R73, R74). -/
theorem inWindow_wrapN {n : Nat} (hn : n ≤ 2 ^ 24) (h0 : 0 < n) {x : Word} (hx : F32.isFinite x = true) : InWindow n (wrapN n x) := by
  obtain ⟨hf, hs, hlt⟩ := wrapN_range hn h0 hx
  refine (inWindow_iff hn _).2 ⟨hf, ?_, by exact_mod_cast hlt⟩
  rw [F32.units_of_pos hs]
  exact Int.natCast_nonneg _

theorem within_floatOfRegister {w : Word} (h : w.toNat ≤ 2 ^ 24) : F32.Within w.toNat (floatOfRegister w) :=
  F32.within_ofInteger h

/-! ### The speed -/

theorem units_speedMax : F32.units speedMax = 2 * F32.unitsPerOne := by decide +kernel

theorem LegalSpeed.abs_le {v : Word} (h : LegalSpeed v) : F32.le (F32.abs v) speedMax = true := by
  rcases h with rfl | rfl | rfl | ⟨-, h⟩ | ⟨-, h⟩
  · decide
  · decide
  · decide
  · exact F32.le_trans (F32.le_of_lt h) (by decide)
  · exact h

theorem within_of_abs_le_speedMax {v : Word} (h : F32.le (F32.abs v) speedMax = true) : F32.Within 2 v := by
  have hf : F32.isFinite (F32.abs v) = true :=
    F32.isFinite_of_between F32.isFinite_zero (by decide) (F32.zero_le_of_not_neg (F32.not_isNaN_left h) (F32.isNeg_abs v)) h
  rw [F32.le_iff hf (by decide), F32.units_abs, units_speedMax] at h
  rw [F32.isFinite_abs] at hf
  exact ⟨hf, h⟩

theorem LegalSpeed.within {v : Word} (h : LegalSpeed v) : F32.Within 2 v :=
  within_of_abs_le_speedMax h.abs_le

theorem clampSpeed_abs_le {raw : Word} (h : F32.isFinite raw = true) : F32.le (F32.abs (clampSpeed raw)) speedMax = true := by
  obtain ⟨h1, h2⟩ := F32.clamp_between (lo := F32.neg speedMax) (hi := speedMax) (F32.not_isNaN_of_finite h) (by decide)
  have hf := F32.isFinite_of_between (by decide) (by decide) h1 h2
  rw [F32.le_iff (by decide) hf, F32.units_neg] at h1
  rw [F32.le_iff hf (by decide)] at h2
  rw [F32.le_iff (by rw [F32.isFinite_abs]; exact hf) (by decide), F32.units_abs]
  exact abs_le.2 ⟨h1, h2⟩

/-- `ResolveSpeed` answers a legal speed (rules R36, R131). -/
theorem legalSpeed_resolveSpeed {raw : Word} (h : F32.isFinite raw = true) : LegalSpeed (resolveSpeed raw) := by
  have hle := clampSpeed_abs_le h
  have hnan := F32.not_isNaN_left hle
  unfold resolveSpeed
  split_ifs with hzero hunity hneg
  · exact .inl rfl
  · exact .inr (.inr (.inl rfl))
  · exact .inr (.inl rfl)
  · have habove := F32.lt_of_not_le hnan (by decide) hzero
    rw [Bool.and_eq_true, not_and_or] at hunity
    rcases hunity with hlow | hhigh
    · exact .inr (.inr (.inr (.inl ⟨habove, F32.lt_of_not_le (by decide) hnan hlow⟩)))
    · exact .inr (.inr (.inr (.inr ⟨F32.lt_of_not_le hnan (by decide) hhigh, hle⟩)))

/-- The stall volume lies in `[0, 1]` (rules R36, R132). -/
theorem inUnitRange_resolveVolume (g : NanSource) {raw : Word} (h : F32.isFinite raw = true) : InUnitRange (resolveVolume g raw) := by
  have hf : F32.isFinite (F32.abs (clampSpeed raw)) = true := by
    rw [F32.isFinite_abs]; exact (within_of_abs_le_speedMax (clampSpeed_abs_le h)).1
  unfold resolveVolume F32.min
  split
  next hlt =>
    have hle := F32.le_of_lt hlt
    refine ⟨F32.zero_le_of_not_neg (F32.not_isNaN_left hle) ?_, hle⟩
    rw [F32.div_of_finite _ hf (by decide) (by decide), F32.isNeg_round, F32.isNeg_abs]
    decide
  next => exact ⟨by decide, by decide⟩

theorem inUnitRange_clamp {x : Word} (h : F32.isFinite x = true) : InUnitRange (F32.clamp x F32.zero F32.one) :=
  F32.clamp_between (F32.not_isNaN_of_finite h) (by decide)

/-! ### A phase after one step -/

/-- A binary32 value from `len + 2` on, up to `len + 3`. -/
theorem exists_bound_above {len : Nat} (h : len ≤ 2 ^ 24) :
    ∃ hi : Word, F32.isFinite hi = true ∧ (len + 2) * (F32.unitsPerOne : Int) ≤ F32.units hi ∧
      F32.units hi ≤ (len + 3) * F32.unitsPerOne := by
  have hU : (0 : Int) < F32.unitsPerOne := by exact_mod_cast F32.unitsPerOne_pos
  by_cases hl : len + 2 ≤ 2 ^ 24
  · refine ⟨F32.ofInteger (len + 2), F32.isFinite_ofInteger hl, ?_⟩
    rw [F32.units_ofInteger hl]
    push_cast
    constructor <;> linarith
  · have hu : F32.units 0x4B800001#32 = (2 ^ 24 + 2) * F32.unitsPerOne := by decide +kernel
    refine ⟨0x4B800001#32, by decide, ?_⟩
    rw [hu]
    constructor <;> exact mul_le_mul_of_nonneg_right (by omega) hU.le

/-- The phase after a step of a legal speed, before it wraps (rule R240). -/
structure Stepped (len : Nat) (p : Word) : Prop where
  finite : F32.isFinite p = true
  lower : -2 * (F32.unitsPerOne : Int) ≤ F32.units p
  upper : F32.units p ≤ (len + 3) * F32.unitsPerOne

theorem Stepped.of_add {len : Nat} (hl : len ≤ 2 ^ 24) (nan : Word) {p v : Word} (hp : InWindow len p) (hv : LegalSpeed v) :
    Stepped len (F32.add nan p v) := by
  obtain ⟨hpf, hp0, hp1⟩ := (inWindow_iff hl p).1 hp
  obtain ⟨hvf, hvu⟩ := hv.within
  obtain ⟨hv0, hv1⟩ := abs_le.1 hvu
  obtain ⟨hi, hif, hi0, hi1⟩ := exists_bound_above hl
  push_cast at hv0 hv1
  rw [F32.add_of_finite nan hpf hvf]
  obtain ⟨hf, h0, h1⟩ := F32.addFinite_between (a := p) (b := v) (lo := F32.neg speedMax) (hi := hi) (by decide) hif
    (by rw [F32.units_neg, units_speedMax]; linarith) (by linarith)
  rw [F32.units_neg, units_speedMax] at h0
  exact ⟨hf, by linarith, by linarith⟩

theorem Stepped.within {len : Nat} {p : Word} (h : Stepped len p) : F32.Within (len + 3) p := by
  have hU : (0 : Int) < F32.unitsPerOne := by exact_mod_cast F32.unitsPerOne_pos
  have hlen : (0 : Int) ≤ len * F32.unitsPerOne := by positivity
  refine ⟨h.finite, abs_le.2 ⟨?_, by exact_mod_cast h.upper⟩⟩
  push_cast
  linarith [h.lower]

/-- A step past the top, taken back by the length, lands below 3 and so in the window. -/
theorem Stepped.inWindow_sub {len : Nat} (h4 : 4 ≤ len) (hl : len ≤ 2 ^ 24) (nan : Word) {p : Word} (h : Stepped len p)
    (htop : len * F32.unitsPerOne ≤ F32.units p) : InWindow len (F32.sub nan p (F32.ofInteger len)) := by
  have hif := F32.isFinite_ofInteger hl
  have hiu := F32.units_ofInteger hl
  rw [Nat.cast_mul] at hiu
  have hU : (0 : Int) < F32.unitsPerOne := by exact_mod_cast F32.unitsPerOne_pos
  have h4U : 4 * (F32.unitsPerOne : Int) ≤ len * F32.unitsPerOne := mul_le_mul_of_nonneg_right (by exact_mod_cast h4) hU.le
  have h3 : F32.units 0x40400000#32 = 3 * F32.unitsPerOne := by decide +kernel
  obtain ⟨hf, h0, h1⟩ := F32.addFinite_between (a := p) (b := F32.neg (F32.ofInteger len)) (lo := F32.zero) (hi := 0x40400000#32)
    (by decide) (by decide) (by rw [F32.units_neg, hiu, F32.units_zero]; linarith)
    (by rw [F32.units_neg, hiu, h3]; linarith [h.upper])
  rw [F32.units_zero] at h0
  rw [h3] at h1
  rw [F32.sub_of_finite _ h.finite hif, inWindow_iff hl]
  exact ⟨hf, h0, by linarith⟩

/-- A step below zero, taken up by the length, may round to the length, which `snapTop` sends to `+0.0`. -/
theorem Stepped.inWindow_snapTop {len : Nat} (h4 : 4 ≤ len) (hl : len ≤ 2 ^ 24) (nan : Word) {p : Word} (h : Stepped len p)
    (hneg : F32.units p < 0) : InWindow len (snapTop len (F32.add nan p (F32.ofInteger len))) := by
  have hif := F32.isFinite_ofInteger hl
  have hiu := F32.units_ofInteger hl
  rw [Nat.cast_mul] at hiu
  have hU : (0 : Int) < F32.unitsPerOne := by exact_mod_cast F32.unitsPerOne_pos
  have h4U : 4 * (F32.unitsPerOne : Int) ≤ len * F32.unitsPerOne := mul_le_mul_of_nonneg_right (by exact_mod_cast h4) hU.le
  obtain ⟨hf, h0, h1⟩ := F32.addFinite_between (a := p) (b := F32.ofInteger len) (lo := F32.zero) (hi := F32.ofInteger len)
    (by decide) hif (by rw [hiu, F32.units_zero]; linarith [h.lower]) (by linarith)
  rw [F32.units_zero] at h0
  rw [F32.add_of_finite _ h.finite hif, snapTop]
  split
  next => exact inWindow_zero hl (by omega)
  next htop =>
    rw [F32.eq_iff hf hif] at htop
    rw [inWindow_iff hl, ← hiu]
    exact ⟨hf, h0, lt_of_le_of_ne h1 htop⟩

/-- `WrapPhase` puts a phase that left its window by one step back into it (rule R241). -/
theorem Stepped.inWindow_wrapPhase {len : Nat} (h4 : 4 ≤ len) (hl : len ≤ 2 ^ 24) (g : NanSource) {p : Word} (h : Stepped len p) :
    InWindow len (wrapPhase g p len).1 := by
  have hhigh := F32.le_iff (F32.isFinite_ofInteger hl) h.finite
  have hlow := F32.lt_iff h.finite F32.isFinite_zero
  rw [F32.units_ofInteger hl, Nat.cast_mul] at hhigh
  rw [F32.units_zero] at hlow
  unfold wrapPhase
  split
  next htop => exact h.inWindow_sub h4 hl (g 0) (hhigh.1 htop)
  next hnottop =>
    split
    next hneg => exact h.inWindow_snapTop h4 hl (g 1) (hlow.1 hneg)
    next hnotneg =>
      exact (inWindow_iff hl p).2 ⟨h.finite, not_lt.1 (mt hlow.2 hnotneg), not_le.1 (mt hhigh.2 hnottop)⟩

end Machine

end Sys2Proof
end

section
/-! SUPPORT. The playback registers under the stages of `LATCH` and `TICK`: the window (rules R37, R38) and the transition (rule R39)
stay legal. -/

namespace Sys2Proof.Machine

/-! ### Values that begin a transition -/

/-- `W(L)` lies between `XF_MIN` and `XF_MAX` (rule R244). -/
theorem fadeWindow_between {c : Config} (hb : ConfigBounds c) (g : NanSource) (len : Nat) :
    F32.le c.xfMin (fadeWindow g c len) = true ∧ F32.le (fadeWindow g c len) c.xfMax = true :=
  F32.max_min_between hb.xfMin_le

/-- The store position of a stream, from its start register and its phase (rules R231, R245, R251). -/
theorem inWindow_position {n k : Nat} (hn : n ≤ 2 ^ 24) (nan : Word) {start phase : Word} (hs : start.toNat < n)
    (hp : F32.Within k phase) (hk : k ≤ 2 ^ 25) : InWindow n (wrapN n (F32.add nan (floatOfRegister start) phase)) :=
  inWindow_wrapN hn (Nat.zero_lt_of_lt hs)
    (F32.isFinite_add nan (within_floatOfRegister (hs.le.trans hn)) hp (by omega))

theorem quant_lt (g : NanSource) {q : Nat} (hq : 0 < q) (x : Word) : quant g q x < q := by
  have : quant g q x ≤ q - 1 := Nat.min_le_right _ _
  omega

theorem State.targetStart_lt {s : State} (hb : ConfigBounds s.cfg) (g : NanSource) : s.targetStart g < s.cfg.n := by
  unfold State.targetStart
  rw [List.getD_eq_getElem?_getD]
  cases h : s.cfg.startLut[quant g s.cfg.q s.startX]? with
  | none => exact hb.n_pos
  | some x => exact hb.startLut_lt x (List.mem_of_getElem? h)

theorem State.targetLength_between {s : State} (hb : ConfigBounds s.cfg) (g : NanSource) :
    s.cfg.minLoop ≤ s.targetLength g ∧ s.targetLength g ≤ s.cfg.n := by
  have hq : quant g s.cfg.q s.lengthX < s.cfg.lengthLut.length := by
    rw [hb.lengthLut_length]
    exact quant_lt g (Nat.zero_lt_of_lt hb.q_ge) _
  unfold State.targetLength
  rw [List.getD_eq_getElem _ _ hq]
  exact hb.lengthLut_mem _ (List.getElem_mem hq)

/-! ### The window -/

theorem State.WindowLegal.length_le {s : State} (hb : ConfigBounds s.cfg) (hs : s.WindowLegal) : s.length.toNat ≤ 2 ^ 24 :=
  hs.lengthLe.trans hb.n_le

theorem State.WindowLegal.nlength_le {s : State} (hb : ConfigBounds s.cfg) (hs : s.WindowLegal) : s.nlength.toNat ≤ 2 ^ 24 :=
  hs.nlengthLe.trans hb.n_le

/-- The head stream is at a position of the store. -/
theorem State.WindowLegal.headPosition {s : State} (hb : ConfigBounds s.cfg) (hs : s.WindowLegal) (g : NanSource) :
    InWindow s.cfg.n (s.headPosition g) :=
  inWindow_position hb.n_le (g 0) hs.startLt (hs.phase.within (hs.length_le hb)) ((hs.length_le hb).trans (by norm_num))

/-- The window depends on its own registers and the configuration only. -/
theorem State.WindowLegal.congr {s t : State} (hs : s.WindowLegal) (hcfg : t.cfg = s.cfg)
    (hwindow : t.start = s.start ∧ t.length = s.length ∧ t.phase = s.phase)
    (hpending : t.nstart = s.nstart ∧ t.nlength = s.nlength ∧ t.nphase = s.nphase) (hxo : t.xo = s.xo) : t.WindowLegal := by
  obtain ⟨hstart, hlength, hphase⟩ := hwindow
  obtain ⟨hnstart, hnlength, hnphase⟩ := hpending
  exact
    { startLt := by rw [hstart, hcfg]; exact hs.startLt
      lengthGe := by rw [hlength, hcfg]; exact hs.lengthGe
      lengthLe := by rw [hlength, hcfg]; exact hs.lengthLe
      phase := by rw [hlength, hphase]; exact hs.phase
      nstartLt := by rw [hnstart, hcfg]; exact hs.nstartLt
      nlengthGe := by rw [hnlength, hcfg]; exact hs.nlengthGe
      nlengthLe := by rw [hnlength, hcfg]; exact hs.nlengthLe
      nphase := by rw [hnlength, hnphase]; exact hs.nphase
      xo := by rw [hxo, hcfg]; exact hs.xo }

/-- The phases move inside their windows (rules R240, R241). -/
theorem State.WindowLegal.advancePhases {s : State} (hs : s.WindowLegal) (hb : ConfigBounds s.cfg) (hv : LegalSpeed s.spd)
    (g : NanSource) : (s.advancePhases g).WindowLegal := by
  unfold State.advancePhases
  split
  · exact { hs with
      nphase := (Stepped.of_add (hs.nlength_le hb) (g 0) hs.nphase hv).inWindow_wrapPhase (hb.minLoop_ge.trans hs.nlengthGe)
        (hs.nlength_le hb) (g.shift 1) }
  · exact { hs with
      phase := (Stepped.of_add (hs.length_le hb) (g 0) hs.phase hv).inWindow_wrapPhase (hb.minLoop_ge.trans hs.lengthGe)
        (hs.length_le hb) (g.shift 1) }

/-- The tail moves modulo `N` (rule R242). -/
theorem State.WindowLegal.advanceTail {s : State} (hs : s.WindowLegal) (hb : ConfigBounds s.cfg) (hv : LegalSpeed s.spd)
    (g : NanSource) : (s.advanceTail g).WindowLegal := by
  have hn := hb.n_le
  unfold State.advanceTail
  split
  · exact hs
  · exact { hs with
      xo := inWindow_wrapN hn hb.n_pos (F32.isFinite_add (g 3) (hs.xo.within hn) hv.within (by omega)) }

theorem State.WindowLegal.advanceProgress {s : State} (hs : s.WindowLegal) (g : NanSource) : (s.advanceProgress g).WindowLegal :=
  hs.congr (by simp) (by simp) (by simp) (by simp)

/-- The completion of a PARAM transition adopts the pending stream, which is a legal window (rule R247). -/
theorem State.WindowLegal.completeTransition {s : State} (hs : s.WindowLegal) : s.completeTransition.WindowLegal := by
  unfold State.completeTransition
  split
  case h_1 => exact hs
  case h_2 => split <;> exact { hs with }
  case h_3 =>
    split
    · exact { hs with startLt := hs.nstartLt, lengthGe := hs.nlengthGe, lengthLe := hs.nlengthLe, phase := hs.nphase }
    · exact hs
  case h_4 => split <;> exact { hs with }

theorem State.WindowLegal.fadeAtWrap {s : State} (hs : s.WindowLegal) (hb : ConfigBounds s.cfg) (g : NanSource) (ev : Bool)
    {k : Nat} {pun : Word} (hp : F32.Within k pun) (hk : k ≤ 2 ^ 25) : (s.fadeAtWrap g ev pun).WindowLegal := by
  unfold State.fadeAtWrap
  split
  · exact { hs with xo := inWindow_position hb.n_le (g 5) hs.startLt hp hk }
  · exact hs

/-- The unwrapped phase is close to its window. -/
theorem State.WindowLegal.unwrappedPhase {s : State} (hs : s.WindowLegal) (hb : ConfigBounds s.cfg) (hv : LegalSpeed s.spd)
    (g : NanSource) : F32.Within (s.length.toNat + 3) (s.unwrappedPhase g) :=
  (Stepped.of_add (hs.length_le hb) (g 0) hs.phase hv).within

theorem State.WindowLegal.advanceStage {s : State} (hs : s.WindowLegal) (hb : ConfigBounds s.cfg) (hv : LegalSpeed s.spd)
    (g : NanSource) : (s.advanceStage g).WindowLegal := by
  have hphases := hs.advancePhases hb hv g
  have htail := hphases.advanceTail (by simpa using hb) (by simpa using hv) g
  have hk := hs.length_le hb
  exact (htail.advanceProgress g).completeTransition.fadeAtWrap (by simpa using hb) g _ (hs.unwrappedPhase hb hv g) (by omega)

/-- A re-trigger puts the phase back to 0, in the pending window if a PARAM transition is in flight (rule R251). -/
theorem State.WindowLegal.retriggerWindow {s : State} (hs : s.WindowLegal) (hb : ConfigBounds s.cfg) (g : NanSource) :
    InWindow s.cfg.n (s.retriggerWindow g).1 ∧ (s.retriggerWindow g).2.WindowLegal := by
  have hlen := hs.length_le hb
  have hnlen := hs.nlength_le hb
  have hpos : 0 < s.length.toNat := by have := hb.minLoop_ge; have := hs.lengthGe; omega
  have hnpos : 0 < s.nlength.toNat := by have := hb.minLoop_ge; have := hs.nlengthGe; omega
  unfold State.retriggerWindow
  split
  · refine ⟨inWindow_position hb.n_le (g 0) hs.nstartLt (hs.nphase.within hnlen) (by omega), ?_⟩
    exact { hs with
      startLt := hs.nstartLt
      lengthGe := hs.nlengthGe
      lengthLe := hs.nlengthLe
      phase := inWindow_zero hnlen hnpos }
  · exact ⟨hs.headPosition hb g, { hs with phase := inWindow_zero hlen hpos }⟩

theorem State.WindowLegal.beginTrigger {s : State} (hs : s.WindowLegal) {pos : Word} (hp : InWindow s.cfg.n pos) :
    (s.beginTrigger pos).WindowLegal := by
  unfold State.beginTrigger
  split
  · exact { hs with xo := hp }
  · exact { hs with }

theorem State.retriggerWindow_cfg (s : State) (g : NanSource) : (s.retriggerWindow g).2.cfg = s.cfg := by
  unfold State.retriggerWindow
  split <;> rfl

theorem State.WindowLegal.retrigger {s : State} (hs : s.WindowLegal) (hb : ConfigBounds s.cfg) (g : NanSource) :
    (s.retrigger g).WindowLegal := by
  obtain ⟨hpos, hwindow⟩ := hs.retriggerWindow hb g
  rw [← s.retriggerWindow_cfg g] at hpos
  exact { hwindow.beginTrigger hpos with }

/-- A PARAM transition begins towards a legal window (rules R134, R135). -/
theorem State.WindowLegal.beginParam {s : State} (hs : s.WindowLegal) (hb : ConfigBounds s.cfg) (g : NanSource) {ts tl : Nat}
    (hts : ts < s.cfg.n) (htl : s.cfg.minLoop ≤ tl ∧ tl ≤ s.cfg.n) : (s.beginParam g ts tl).WindowLegal := by
  obtain ⟨hge, hle⟩ := htl
  have hn := hb.n_le
  have h4 := hb.minLoop_ge
  have ets := toNat_ofNat_of_lt (k := ts) (by omega)
  have etl := toNat_ofNat_of_lt (k := tl) (by omega)
  have hnew : ∀ p, InWindow tl p → ({ s with
      xo := s.headPosition g, nstart := BitVec.ofNat 32 ts, nlength := BitVec.ofNat 32 tl, nphase := p } : State).WindowLegal :=
    fun p hp => { hs with
      nstartLt := ets.symm ▸ hts
      nlengthGe := etl.symm ▸ hge
      nlengthLe := etl.symm ▸ hle
      nphase := etl.symm ▸ hp
      xo := hs.headPosition hb g }
  unfold State.beginParam
  split
  next hlt => exact { hnew s.phase ⟨hs.phase.1, hlt⟩ with }
  next => exact { hnew F32.zero (inWindow_zero (by omega) (by omega)) with }

theorem State.WindowLegal.latchTargets {s : State} (hs : s.WindowLegal) (hb : ConfigBounds s.cfg) (g : NanSource) :
    (s.latchTargets g).WindowLegal := by
  unfold State.latchTargets
  split
  · exact hs.beginParam hb (g.shift 2) (State.targetStart_lt hb g) (State.targetLength_between hb (g.shift 1))
  · exact hs

/-! ### The transition -/

/-- The transition after its progress moved and before it may complete: the progress may have reached the end. -/
structure State.TransitionMoved (s : State) : Prop where
  progFinite : F32.isFinite s.xfProg = true
  progNonneg : F32.le F32.zero s.xfProg = true
  windowed : s.xfKind = .boundary ∨ s.xfKind = .param →
    F32.le s.cfg.xfMin s.xfWin = true ∧ F32.le s.xfWin s.cfg.xfMax = true
  trigger : s.xfKind = .trigger → s.xfWin = F32.ofInteger s.cfg.trigFade

theorem State.TransitionLegal.congr {s t : State} (hs : s.TransitionLegal) (hcfg : t.cfg = s.cfg) (hkind : t.xfKind = s.xfKind)
    (hprog : t.xfProg = s.xfProg) (hwin : t.xfWin = s.xfWin) : t.TransitionLegal where
  progFinite := by rw [hprog]; exact hs.progFinite
  progNonneg := by rw [hprog]; exact hs.progNonneg
  windowed := by rw [hkind, hprog, hwin, hcfg]; exact hs.windowed
  trigger := by rw [hkind, hprog, hwin, hcfg]; exact hs.trigger

/-- With no transition in flight only the progress is bound. -/
theorem State.TransitionLegal.of_none {s : State} (hk : s.xfKind = .none) (hf : F32.isFinite s.xfProg = true)
    (h0 : F32.le F32.zero s.xfProg = true) : s.TransitionLegal :=
  ⟨hf, h0, by simp [hk], by simp [hk]⟩

/-- A BOUNDARY or PARAM transition that begins has run no part of its window, which is longer than 0. -/
theorem State.TransitionLegal.of_begun {s : State} (hb : ConfigBounds s.cfg) (hk : s.xfKind ≠ .trigger) (hp : s.xfProg = F32.zero)
    (hw : F32.le s.cfg.xfMin s.xfWin = true ∧ F32.le s.xfWin s.cfg.xfMax = true) : s.TransitionLegal where
  progFinite := by rw [hp]; exact F32.isFinite_zero
  progNonneg := by rw [hp]; decide
  windowed _ := ⟨hw.1, hw.2, by rw [hp]; exact F32.lt_of_lt_of_le hb.xfMin_pos hw.1⟩
  trigger h := absurd h hk

theorem ConfigBounds.within_xfMax {c : Config} (hb : ConfigBounds c) : F32.units c.xfMax ≤ c.n * F32.unitsPerOne := by
  have h := hb.xfMax_le
  have := F32.natAbs_units c.xfMax
  have hc : ((c.n * F32.unitsPerOne : Nat) : Int) = c.n * F32.unitsPerOne := Nat.cast_mul _ _
  omega

/-- The progress of a transition in flight stays below the end, so below `N`. -/
theorem State.TransitionLegal.prog_within {s : State} (hs : s.TransitionLegal) (hb : ConfigBounds s.cfg) (hk : s.xfKind ≠ .none) :
    F32.Within s.cfg.n s.xfProg := by
  have hf := hs.progFinite
  have h0 := (F32.le_iff F32.isFinite_zero hf).1 hs.progNonneg
  rw [F32.units_zero] at h0
  refine ⟨hf, ?_⟩
  rw [abs_of_nonneg h0]
  have hwin : ∀ hi, F32.isFinite hi = true → F32.units hi ≤ s.cfg.n * F32.unitsPerOne → F32.le s.xfProg hi = true →
      F32.units s.xfProg ≤ s.cfg.n * F32.unitsPerOne :=
    fun hi hhf hhu hle => ((F32.le_iff hf hhf).1 hle).trans hhu
  have hfade : s.xfKind = .boundary ∨ s.xfKind = .param → F32.units s.xfProg ≤ s.cfg.n * F32.unitsPerOne := by
    intro h
    obtain ⟨-, hmax, hlt⟩ := hs.windowed h
    exact hwin s.cfg.xfMax hb.xfMax_finite hb.within_xfMax (F32.le_trans (F32.le_of_lt hlt) hmax)
  cases hkind : s.xfKind with
  | none => exact absurd hkind hk
  | boundary => exact hfade (.inl hkind)
  | param => exact hfade (.inr hkind)
  | trigger =>
    have htf : 2 * s.cfg.trigFade ≤ 2 ^ 24 := hb.trigFade_lt.le.trans hb.n_le
    refine hwin _ (F32.isFinite_ofInteger htf) ?_ (F32.le_of_lt (hs.trigger hkind).2)
    rw [F32.units_ofInteger htf]
    exact_mod_cast Nat.mul_le_mul_right _ hb.trigFade_lt.le

/-- One step of the progress, by a speed or by 1 (rule R243). -/
theorem State.TransitionLegal.prog_add {s : State} (hs : s.TransitionLegal) (hb : ConfigBounds s.cfg) (hk : s.xfKind ≠ .none)
    (nan : Word) {k : Nat} {v : Word} (hv : F32.Within k v) (hk2 : k ≤ 2) (hv0 : 0 ≤ F32.units v) :
    F32.isFinite (F32.add nan s.xfProg v) = true ∧ F32.le F32.zero (F32.add nan s.xfProg v) = true := by
  have hp := hs.prog_within hb hk
  have h0 := (F32.le_iff F32.isFinite_zero hp.1).1 hs.progNonneg
  rw [F32.units_zero] at h0
  have hn := hb.n_le
  exact ⟨F32.isFinite_add nan hp hv (by omega), F32.zero_le_add nan hp hv (by omega) h0 hv0⟩

theorem State.TransitionLegal.advanceProgress {s : State} (hs : s.TransitionLegal) (hb : ConfigBounds s.cfg) (hv : LegalSpeed s.spd)
    (g : NanSource) : (s.advanceProgress g).TransitionMoved := by
  have hspd := hv.within.abs
  have hspd0 : 0 ≤ F32.units (F32.abs s.spd) := by rw [F32.units_abs]; exact abs_nonneg _
  have hone0 : 0 ≤ F32.units F32.one := by rw [F32.units_one]; exact Int.natCast_nonneg _
  have hwin : s.xfKind = .boundary ∨ s.xfKind = .param →
      F32.le s.cfg.xfMin s.xfWin = true ∧ F32.le s.xfWin s.cfg.xfMax = true :=
    fun h => ⟨(hs.windowed h).1, (hs.windowed h).2.1⟩
  have htrig := fun h => (hs.trigger h).1
  unfold State.advanceProgress
  split
  next hk => exact ⟨hs.progFinite, hs.progNonneg, hwin, htrig⟩
  next hk =>
    obtain ⟨hf, h0⟩ := hs.prog_add hb (by simp [hk]) (g 4) hspd le_rfl hspd0
    exact ⟨hf, h0, hwin, htrig⟩
  next hk =>
    obtain ⟨hf, h0⟩ := hs.prog_add hb (by simp [hk]) (g 4) hspd le_rfl hspd0
    exact ⟨hf, h0, hwin, htrig⟩
  next hk =>
    obtain ⟨hf, h0⟩ := hs.prog_add hb (by simp [hk]) (g 4) F32.within_one (by norm_num) hone0
    exact ⟨hf, h0, hwin, htrig⟩

/-- A transition that does not complete has not reached its end (rules R246, R247, R248). -/
theorem State.TransitionMoved.completeTransition {s : State} (hs : s.TransitionMoved) (hb : ConfigBounds s.cfg) :
    s.completeTransition.TransitionLegal := by
  have hf := hs.progFinite
  have h0 := hs.progNonneg
  have hfading : s.xfKind = .boundary ∨ s.xfKind = .param → ¬F32.le s.xfWin s.xfProg = true → s.TransitionLegal := by
    intro hk hend
    obtain ⟨hlo, hhi⟩ := hs.windowed hk
    have hlt := F32.lt_of_not_le (F32.not_isNaN_left hhi) (F32.not_isNaN_of_finite hf) hend
    exact ⟨hf, h0, fun _ => ⟨hlo, hhi, hlt⟩, fun ht => by simp [ht] at hk⟩
  unfold State.completeTransition
  split
  next hk => exact .of_none hk hf h0
  next hk =>
    split
    next => exact .of_none rfl hf h0
    next hend => exact hfading (.inl hk) hend
  next hk =>
    split
    next => exact .of_none rfl hf h0
    next hend => exact hfading (.inr hk) hend
  next hk =>
    split
    next => exact .of_none rfl hf h0
    next hend =>
      have htf : 2 * s.cfg.trigFade ≤ 2 ^ 24 := hb.trigFade_lt.le.trans hb.n_le
      have hlt := F32.lt_of_not_le (F32.not_isNaN_of_finite (F32.isFinite_ofInteger htf)) (F32.not_isNaN_of_finite hf) hend
      exact ⟨hf, h0, by simp [hk], fun _ => ⟨hs.trigger hk, hlt⟩⟩

theorem State.TransitionLegal.fadeAtWrap {s : State} (hs : s.TransitionLegal) (hb : ConfigBounds s.cfg) (g : NanSource) (ev : Bool)
    (pun : Word) : (s.fadeAtWrap g ev pun).TransitionLegal := by
  unfold State.fadeAtWrap
  split
  · exact .of_begun hb nofun rfl (fadeWindow_between hb (g.shift 6) s.length.toNat)
  · exact hs

theorem State.TransitionLegal.advanceStage {s : State} (hs : s.TransitionLegal) (hb : ConfigBounds s.cfg) (hv : LegalSpeed s.spd)
    (g : NanSource) : (s.advanceStage g).TransitionLegal := by
  have htail : ((s.advancePhases g).advanceTail g).TransitionLegal := hs.congr (by simp) (by simp) (by simp) (by simp)
  have hmoved := htail.advanceProgress (by simpa using hb) (by simpa using hv) g
  exact (hmoved.completeTransition (by simpa using hb)).fadeAtWrap (by simpa using hb) g _ _

/-- The trigger fade begins with `2·TRIG_FADE` ticks before it (rule R251). -/
theorem State.TransitionLegal.beginTrigger {s : State} (hs : s.TransitionLegal) (hb : ConfigBounds s.cfg) (pos : Word) :
    (s.beginTrigger pos).TransitionLegal := by
  unfold State.beginTrigger
  split
  · have htf : 2 * s.cfg.trigFade ≤ 2 ^ 24 := hb.trigFade_lt.le.trans hb.n_le
    have hpos := hb.trigFade_pos
    exact ⟨F32.isFinite_zero, F32.le_refl (a := F32.zero) (by decide), by simp, fun _ => ⟨rfl, (inWindow_zero htf (by omega)).2⟩⟩
  · exact .of_none rfl hs.progFinite hs.progNonneg

theorem State.TransitionLegal.retriggerWindow {s : State} (hs : s.TransitionLegal) (g : NanSource) :
    (s.retriggerWindow g).2.TransitionLegal := by
  unfold State.retriggerWindow
  split <;> exact { hs with }

theorem State.TransitionLegal.retrigger {s : State} (hs : s.TransitionLegal) (hb : ConfigBounds s.cfg) (g : NanSource) :
    (s.retrigger g).TransitionLegal := by
  rw [← s.retriggerWindow_cfg g] at hb
  exact { (hs.retriggerWindow g).beginTrigger hb (s.retriggerWindow g).1 with }

/-- In the edge case the window is the clamped distance past the new length (rule R135). -/
theorem State.beginParam_transitionLegal {s : State} (hs : s.WindowLegal) (hb : ConfigBounds s.cfg) (g : NanSource) (ts : Nat)
    {tl : Nat} (htl : tl ≤ s.cfg.n) : (s.beginParam g ts tl).TransitionLegal := by
  have hn := hb.n_le
  have hlen := hs.length_le hb
  unfold State.beginParam
  split
  · exact .of_begun hb nofun rfl (fadeWindow_between hb (g.shift 1) tl)
  · have hdiff : F32.isFinite (F32.sub (g 2) s.phase (F32.ofInteger tl)) = true :=
      F32.isFinite_add (g 2) (hs.phase.within hlen) (F32.within_ofInteger (k := tl) (by omega)).neg (by omega)
    exact .of_begun hb nofun rfl (F32.clamp_between (F32.not_isNaN_of_finite hdiff) hb.xfMin_le)

theorem State.TransitionLegal.latchTargets {s : State} (hs : s.TransitionLegal) (hw : s.WindowLegal) (hb : ConfigBounds s.cfg)
    (g : NanSource) : (s.latchTargets g).TransitionLegal := by
  unfold State.latchTargets
  split
  · exact State.beginParam_transitionLegal hw hb _ _ (State.targetLength_between hb (g.shift 1)).2
  · exact hs

end Sys2Proof.Machine
end

section
/-! SUPPORT. The whole invariant (rule R49): each part under every command, and under what else a host action can do. -/

namespace Sys2Proof

namespace Machine

/-! ### The playback registers under the commands -/

theorem State.WindowLegal.tick {s : State} (hs : s.WindowLegal) (hb : ConfigBounds s.cfg) (hv : LegalSpeed s.spd) (clk : Bool) :
    (s.tick clk).WindowLegal := by
  have hread : s.afterRead.WindowLegal := hs.congr (by simp) (by simp) (by simp) (by simp)
  have hadv := hread.advanceStage (by simpa using hb) (by simpa using hv) (s.nanSource.shift 60)
  have hclk : ((s.afterRead.advanceStage (s.nanSource.shift 60)).sampleClock clk).WindowLegal := { hadv with }
  rw [State.tick_eq, State.triggerStage]
  split
  · exact hclk.retrigger (by simpa using hb) _
  · exact hclk.congr (by simp) (by simp) (by simp) (by simp)

theorem State.TransitionLegal.tick {s : State} (hs : s.TransitionLegal) (hb : ConfigBounds s.cfg) (hv : LegalSpeed s.spd)
    (clk : Bool) : (s.tick clk).TransitionLegal := by
  have hread : s.afterRead.TransitionLegal := hs.congr (by simp) (by simp) (by simp) (by simp)
  have hadv := hread.advanceStage (by simpa using hb) (by simpa using hv) (s.nanSource.shift 60)
  have hclk : ((s.afterRead.advanceStage (s.nanSource.shift 60)).sampleClock clk).TransitionLegal := { hadv with }
  rw [State.tick_eq, State.triggerStage]
  split
  · exact hclk.retrigger (by simpa using hb) _
  · exact hclk.congr (by simp) (by simp) (by simp) (by simp)

theorem State.WindowLegal.acted {s : State} (hs : s.WindowLegal) (hb : ConfigBounds s.cfg) (hv : LegalSpeed s.spd) (i : Instr) :
    (s.acted i).WindowLegal := by
  by_cases hlatch : i = .latch
  · subst hlatch
    have hheads : ((s.latchLevels s.nanSource).latchHeads).WindowLegal := hs.congr (by simp) (by simp) (by simp) (by simp)
    exact { hheads.latchTargets (by simpa using hb) (s.nanSource.shift 1) with }
  · by_cases htick : ∃ clk, i = .tick clk
    · obtain ⟨clk, rfl⟩ := htick
      exact { hs.tick hb hv clk with }
    · have f := acted_frame i s
      obtain ⟨-, -, -, -, hnstart, hnlength⟩ := f.latched hlatch
      obtain ⟨hstart, hlength, hphase, -⟩ := f.ticked (not_exists.1 htick)
      obtain ⟨hnphase, -, -, -, hxo⟩ := f.transition hlatch (not_exists.1 htick)
      exact hs.congr f.cfg ⟨hstart, hlength, hphase⟩ ⟨hnstart, hnlength, hnphase⟩ hxo

theorem State.TransitionLegal.acted {s : State} (hs : s.TransitionLegal) (hw : s.WindowLegal) (hb : ConfigBounds s.cfg)
    (hv : LegalSpeed s.spd) (i : Instr) : (s.acted i).TransitionLegal := by
  by_cases hlatch : i = .latch
  · subst hlatch
    have hheads : ((s.latchLevels s.nanSource).latchHeads).TransitionLegal := hs.congr (by simp) (by simp) (by simp) (by simp)
    have hwheads : ((s.latchLevels s.nanSource).latchHeads).WindowLegal := hw.congr (by simp) (by simp) (by simp) (by simp)
    exact { hheads.latchTargets hwheads (by simpa using hb) (s.nanSource.shift 1) with }
  · by_cases htick : ∃ clk, i = .tick clk
    · obtain ⟨clk, rfl⟩ := htick
      exact { hs.tick hb hv clk with }
    · have f := acted_frame i s
      obtain ⟨-, hkind, hprog, hwin, -⟩ := f.transition hlatch (not_exists.1 htick)
      exact hs.congr f.cfg hkind hprog hwin

/-! ### The store -/

theorem integerPosition_lt {n : Nat} (h : 0 < n) (w : Word) : integerPosition n w < n := by
  have hn : (0 : Int) < n := by exact_mod_cast h
  have := Int.emod_lt_of_pos w.toInt hn
  have := Int.emod_nonneg w.toInt hn.ne'
  unfold integerPosition
  omega

theorem State.StoreLegal.congr {s t : State} (hs : s.StoreLegal) (hcfg : t.cfg = s.cfg) (hmem : t.mem = s.mem) : t.StoreLegal :=
  ⟨by rw [hmem]; exact hs.canonical, by rw [hmem, hcfg]; exact hs.inStore⟩

theorem State.StoreLegal.clear {s t : State} (hs : s.StoreLegal) (hcfg : t.cfg = s.cfg) {lo hi : Nat}
    (hmem : t.mem = s.mem.zeroBytes lo hi) : t.StoreLegal :=
  ⟨by rw [hmem]; exact Memory.wf_zeroBytes hs.canonical lo hi, by rw [hmem, hcfg]; exact Memory.below_zeroBytes hs.inStore lo hi⟩

theorem State.clearStep_mem (s : State) : s.clearStep.mem = s.mem.zeroBytes (8 * s.clearFrom) (8 * s.clearTo) := by
  unfold State.clearStep
  split <;> rfl

theorem State.tick_mem (s : State) (clk : Bool) : (s.tick clk).mem = (s.writeStage s.nanSource s.arg0 s.arg1).mem := by
  simp [State.tick_eq, State.afterRead]

/-- The writers of the store (rule R46) write in canonical form and inside its `2N` words (rules R70, R71). -/
theorem State.StoreLegal.acted {s : State} (hs : s.StoreLegal) (hn : 0 < s.cfg.n) (hwp : s.wp.toNat < s.cfg.n) (i : Instr) :
    (s.acted i).StoreLegal := by
  have hpos := integerPosition_lt hn s.arg0
  cases i with
  | stwrite =>
    exact ⟨State.wf_storeWrite (State.wf_storeWrite hs.canonical ..) ..,
      State.below_storeWrite (State.below_storeWrite hs.inStore .left hpos _) .right hpos _⟩
  | whwrite c =>
    refine ⟨State.headWrite_wf hs.canonical .., ?_⟩
    rw [(acted_frame (.whwrite c) s).cfg]
    exact State.headWrite_below hs.inStore _ c hpos _
  | tick clk =>
    have htick : (s.tick clk).StoreLegal := by
      constructor
      · rw [State.tick_mem]; exact State.writeStage_wf hs.canonical ..
      · rw [State.tick_mem, State.tick_cfg]; exact State.writeStage_below hs.inStore hwp ..
    exact htick.congr rfl rfl
  | clear mode =>
    cases mode
    · exact hs.clear rfl rfl
    · exact hs.clear (acted_frame (.clear .step) s).cfg s.clearStep_mem
  | _ => exact hs.congr (acted_frame _ s).cfg ((acted_frame _ s).mem (by simp) (by simp) (by simp) (by simp))

/-! ### The controls -/

theorem State.ShadowsLegal.congr {s t : State} (hs : s.ShadowsLegal) (hspeed : t.speedRaw = s.speedRaw) (hstart : t.startX = s.startX)
    (hlength : t.lengthX = s.lengthX) (hsos : t.sosX = s.sosX) (hfilter : t.filterX = s.filterX) : t.ShadowsLegal :=
  ⟨by rw [hspeed]; exact hs.speedRaw, by rw [hstart]; exact hs.startX, by rw [hlength]; exact hs.lengthX,
    by rw [hsos]; exact hs.sosX, by rw [hfilter]; exact hs.filterX⟩

/-- Only finite operands reach the shadow registers (rules R35, R121). -/
theorem State.ShadowsLegal.acted {s : State} (hs : s.ShadowsLegal) {i : Instr}
    (hf : i.checksFinite = true → F32.isFinite s.arg0 = true) : (s.acted i).ShadowsLegal := by
  cases i with
  | setspeed => exact { hs with speedRaw := hf rfl }
  | setstart => exact { hs with startX := hf rfl }
  | setlength => exact { hs with lengthX := hf rfl }
  | setsos => exact { hs with sosX := hf rfl }
  | setfilter => exact { hs with filterX := hf rfl }
  | _ =>
    exact hs.congr ((acted_frame _ s).speedRaw nofun) ((acted_frame _ s).startX nofun) ((acted_frame _ s).lengthX nofun)
      ((acted_frame _ s).sosX nofun) ((acted_frame _ s).filterX nofun)

/-- `LATCH` resolves finite controls to legal levels (rules R36, R130). -/
theorem State.latchLevels_legal {s : State} (hs : s.ShadowsLegal) (g : NanSource) : (s.latchLevels g).LevelsLegal :=
  ⟨legalSpeed_resolveSpeed hs.speedRaw, inUnitRange_resolveVolume g hs.speedRaw, inUnitRange_clamp hs.sosX,
    inUnitRange_clamp hs.filterX⟩

theorem State.LevelsLegal.congr {s t : State} (hs : s.LevelsLegal) (hspd : t.spd = s.spd) (hvol : t.vol = s.vol)
    (hsos : t.sosL = s.sosL) (hfilter : t.filterL = s.filterL) : t.LevelsLegal :=
  ⟨by rw [hspd]; exact hs.spd, by rw [hvol]; exact hs.vol, by rw [hsos]; exact hs.sosL, by rw [hfilter]; exact hs.filterL⟩

theorem State.LevelsLegal.acted {s : State} (hs : s.LevelsLegal) (hshadows : s.ShadowsLegal) (i : Instr) :
    (s.acted i).LevelsLegal := by
  by_cases hlatch : i = .latch
  · subst hlatch
    exact (State.latchLevels_legal hshadows s.nanSource).congr (by simp) (by simp) (by simp) (by simp)
  · obtain ⟨hspd, hvol, hsos, hfilter, -⟩ := (acted_frame i s).latched hlatch
    exact hs.congr hspd hvol hsos hfilter

/-! ### The invariant -/

theorem State.Legal.acted {s : State} (hs : s.Legal) {i : Instr} (hf : i.checksFinite = true → F32.isFinite s.arg0 = true) :
    (s.acted i).Legal := by
  have hb := configBounds_of_admitted hs.admitted
  exact
    { admitted := by rw [(acted_frame i s).cfg]; exact hs.admitted
      store := hs.store.acted hb.n_pos hs.counters.wp i
      counters := hs.counters.acted hb i
      shadows := hs.shadows.acted hf
      levels := hs.levels.acted hs.shadows i
      window := hs.window.acted hb hs.levels.spd i
      transition := hs.transition.acted hs.window hb hs.levels.spd i }

/-- The invariant does not read the pending actions, the operands, the error bits, the draw counter and the log. -/
theorem State.Legal.of_unread {s t : State} (hs : s.Legal)
    (h : t = { s with
      host := t.host, arg0 := t.arg0, arg1 := t.arg1, arg2 := t.arg2, errIllegal := t.errIllegal, errNonfinite := t.errNonfinite,
      errBusy := t.errBusy, draws := t.draws, errLog := t.errLog }) : t.Legal := by
  rw [h]
  exact
    { admitted := hs.admitted
      store := { hs.store with }
      counters := { hs.counters with }
      shadows := { hs.shadows with }
      levels := { hs.levels with }
      window := { hs.window with }
      transition := { hs.transition with } }

/-- The reset values are legal under every admitted configuration (rules R50, R321). -/
theorem State.Legal.resetWith {cfg : Config} (hc : configAdmitted cfg = true) {mem : Memory} (hwf : mem.wf = true)
    (hbelow : mem.below (8 * cfg.n) = true) : (State.resetWith cfg mem).Legal := by
  have hb := configBounds_of_admitted hc
  have hn := hb.n_le
  have hlen : (BitVec.ofNat 32 cfg.n).toNat = cfg.n := toNat_ofNat_of_lt (by omega)
  have hzero := inWindow_zero hn hb.n_pos
  have hunit : InUnitRange F32.zero := ⟨by decide, by decide⟩
  exact
    { admitted := hc
      store := ⟨hwf, hbelow⟩
      counters := .resetWith hb mem
      shadows := ⟨F32.isFinite_zero, F32.isFinite_zero, F32.isFinite_one, F32.isFinite_zero, F32.isFinite_zero⟩
      levels := ⟨.inl rfl, hunit, hunit, hunit⟩
      window :=
        { startLt := hb.n_pos
          lengthGe := hlen.symm ▸ hb.minLoop_le
          lengthLe := hlen.le
          phase := hlen.symm ▸ hzero
          nstartLt := hb.n_pos
          nlengthGe := hlen.symm ▸ hb.minLoop_le
          nlengthLe := hlen.le
          nphase := hlen.symm ▸ hzero
          xo := hzero }
      transition := .of_none rfl F32.isFinite_zero hunit.1 }

/-- A draw fills the `2N` words of the store and no byte beyond (rules R70, R322). -/
theorem State.Legal.resetEvent {s : State} (hc : configAdmitted s.cfg = true) {draw : List Word}
    (hd : drawAdmitted s.cfg draw = true) : (s.resetEvent draw).Legal := by
  have hlen : draw.length = 2 * s.cfg.n := by
    rw [drawAdmitted, Bool.and_eq_true, beq_iff_eq] at hd
    exact hd.1
  have hbelow := Memory.below_ofWords draw 0
  rw [hlen, show 4 * (0 + 2 * s.cfg.n) = 8 * s.cfg.n by ring] at hbelow
  exact (State.Legal.resetWith hc (Memory.wf_ofWords draw) hbelow).of_unread rfl

end Machine

open Machine in
/-- Settles O56: the reset state of every admitted configuration, of which `TC` is one. -/
theorem resetIsLegal : Obligations.ResetIsLegal :=
  ⟨.resetWith (by decide +kernel) rfl rfl, fun _ _ hc hwf hbelow => .resetWith hc hwf hbelow⟩

open Machine in
/-- Settles O59: by the rule for every step; a command that acts keeps each part of the invariant. -/
theorem everyStepKeepsTheStateLegal : Obligations.EveryStepKeepsTheStateLegal := by
  intro s t hs h
  refine step_keeps (P := State.Legal) ?host ?writeArg ?raise ?acted ?reset hs h
  case host => exact fun s rest hs => hs.of_unread rfl
  case writeArg => exact fun s r w hs => hs.of_unread (by cases r <;> rfl)
  case raise => exact fun s e hs => hs.of_unread (by cases e <;> rfl)
  case acted => exact fun s i _ hf hs => hs.acted hf
  case reset => exact fun s draw hc hd => .resetEvent hc hd

end Sys2Proof
end

section
/-! SUPPORT. `wrapN` as one rounding of the exact remainder (rule R73). -/

namespace Sys2Proof

/-- A finite word without a sign is the rounding of its own value. -/
theorem F32.round_units {x : Word} (hx : F32.isFinite x = true) (hs : F32.isNeg x = false) :
    F32.round false (F32.units x).toNat 1 = x := by
  have hmag : (F32.units x).toNat = F32.unitsOfBits (F32.magBits x) * 1 := by
    rw [F32.units_of_pos hs, Int.toNat_natCast, mul_one]
  rw [F32.round, F32.roundBits_exact Nat.one_pos ((F32.isFinite_iff x).1 hx).le hmag, ← hs, F32.ofBits_isNeg_magBits]

/-- A position in a store of at most `2^24` samples is far below the overflow. -/
theorem F32.position_lt_overflow {n : Nat} (hn : n ≤ 2 ^ 24) : n * F32.unitsPerOne < F32.overflowUnits :=
  calc n * F32.unitsPerOne ≤ 2 ^ 24 * F32.unitsPerOne := Nat.mul_le_mul_right _ hn
    _ < F32.overflowUnits := by norm_num [F32.unitsPerOne, F32.overflowUnits]

namespace Machine

/-- The exact remainder of a position modulo `n`, in units of `2^-149`. -/
def positionRemainder (n : Nat) (x : Word) : Nat :=
  (F32.units x % ((n * F32.unitsPerOne : Nat) : Int)).toNat

theorem wrapN_of_isFinite (n : Nat) {x : Word} (hx : F32.isFinite x = true) :
    wrapN n x = snapTop n (F32.round false (positionRemainder n x) 1) :=
  if_pos hx

theorem modulus_pos {n : Nat} (h0 : 0 < n) : (0 : Int) < (n * F32.unitsPerOne : Nat) := by
  exact_mod_cast Nat.mul_pos h0 F32.unitsPerOne_pos

theorem cast_positionRemainder {n : Nat} (h0 : 0 < n) (x : Word) :
    (positionRemainder n x : Int) = F32.units x % ((n * F32.unitsPerOne : Nat) : Int) :=
  Int.toNat_of_nonneg (Int.emod_nonneg _ (modulus_pos h0).ne')

theorem positionRemainder_lt {n : Nat} (h0 : 0 < n) (x : Word) : positionRemainder n x < n * F32.unitsPerOne := by
  have hlt := Int.emod_lt_of_pos (F32.units x) (modulus_pos h0)
  rw [← cast_positionRemainder h0] at hlt
  exact_mod_cast hlt

/-- The remainder is rounded once, to nearest-even (rule R73). -/
theorem positionRemainder_round {n : Nat} (hn : n ≤ 2 ^ 24) (h0 : 0 < n) (x : Word) :
    F32.NearestEven (F32.units x % ((n * F32.unitsPerOne : Nat) : Int)) 1 (F32.round false (positionRemainder n x) 1) := by
  rw [← cast_positionRemainder h0]
  refine F32.round_nearestEven Nat.one_pos ?_
  rw [mul_one]
  exact (positionRemainder_lt h0 x).trans (F32.position_lt_overflow hn)

/-- The top of the window is told by its value. -/
theorem snapTop_of_isFinite {n : Nat} (hn : n ≤ 2 ^ 24) {y : Word} (hy : F32.isFinite y = true) :
    snapTop n y = if F32.units y = ((n * F32.unitsPerOne : Nat) : Int) then F32.zero else y := by
  simp only [snapTop, F32.eq_iff hy (F32.isFinite_ofInteger hn), F32.units_ofInteger hn]

/-- A position in `[0, n)` is its own `wrapN` (rule R73). -/
theorem wrapN_of_inside {n : Nat} (hn : n ≤ 2 ^ 24) {x : Word} (hx : F32.isFinite x = true) (hs : F32.isNeg x = false)
    (hlt : F32.units x < ((n * F32.unitsPerOne : Nat) : Int)) : wrapN n x = x := by
  have hnonneg : 0 ≤ F32.units x := by rw [F32.units_of_pos hs]; exact Int.natCast_nonneg _
  have hrem : positionRemainder n x = (F32.units x).toNat := by rw [positionRemainder, Int.emod_eq_of_lt hnonneg hlt]
  rw [wrapN_of_isFinite n hx, hrem, F32.round_units hx hs, snapTop_of_isFinite hn hx, if_neg hlt.ne]

/-- `-0.0` has the remainder 0, which rounds to `+0.0` (rule R73). -/
theorem wrapN_negZero (n : Nat) : wrapN n 0x80000000#32 = F32.zero := by
  have hrem : positionRemainder n 0x80000000#32 = 0 := by
    rw [positionRemainder, show F32.units 0x80000000#32 = 0 by decide, Int.zero_emod, Int.toNat_zero]
  rw [wrapN_of_isFinite n (by decide), hrem, F32.round_zero, show F32.ofBits false 0 = F32.zero by decide, snapTop, ite_self]

end Machine

open Machine in
/-- Settles O24: `wrapN` rounds the remainder once and snaps the top; the worked values are evaluated. -/
theorem wrapIsTheExactRemainder : Obligations.WrapIsTheExactRemainder := by
  refine ⟨fun n x h0 hn hx => ?_, by decide +kernel, by decide +kernel, by decide +kernel, by decide +kernel⟩
  have hround := positionRemainder_round hn h0 x
  obtain ⟨-, hsign, hlt⟩ := wrapN_range hn h0 hx
  refine ⟨⟨F32.round false (positionRemainder n x) 1, hround, F32.isNeg_round .., ?_⟩, ?_, hlt, wrapN_of_inside hn hx,
    wrapN_negZero n⟩
  · rw [wrapN_of_isFinite n hx, snapTop_of_isFinite hn hround.1]
  · rw [F32.units_of_pos hsign]
    exact Int.natCast_nonneg _

end Sys2Proof
end

section
/-! SUPPORT. The read stage of `TICK` sees the store that the write stage of the same tick leaves (rules R82, R222). -/

namespace Sys2Proof

namespace Machine

/-- The output sample reads neither `WP` nor the write heads. -/
theorem State.outputSample_of_written {s t : State}
    (h : t = { s with mem := t.mem, wp := t.wp, headL := t.headL, headR := t.headR }) (g : NanSource) (c : Channel) :
    t.outputSample g c = ({ s with mem := t.mem } : State).outputSample g c := by
  rw [h]
  rfl

/-- The write stage changes the store, `WP` and the heads only (rule R221). -/
theorem State.writeStage_written (s : State) (g : NanSource) (a b : Word) :
    s.writeStage g a b =
      { s with
        mem := (s.writeStage g a b).mem, wp := (s.writeStage g a b).wp
        headL := (s.writeStage g a b).headL, headR := (s.writeStage g a b).headR } := by
  apply State.ext <;> simp

theorem State.readStage_res0 (s : State) (g : NanSource) : (s.readStage g).res0 = s.outputSample g .left := rfl

theorem State.readStage_res1 (s : State) (g : NanSource) : (s.readStage g).res1 = s.outputSample (g.shift 22) .right := rfl

theorem State.tick_res0 (s : State) (clk : Bool) :
    (s.tick clk).res0 = ({ s with mem := (s.tick clk).mem } : State).outputSample (s.nanSource.shift 16) .left :=
  calc (s.tick clk).res0
      = (s.writeStage s.nanSource s.arg0 s.arg1).outputSample (s.nanSource.shift 16) .left := by
        simp [State.tick_eq, State.afterRead, State.readStage_res0]
    _ = _ := by rw [State.tick_mem, State.outputSample_of_written (s.writeStage_written ..)]

theorem State.tick_res1 (s : State) (clk : Bool) :
    (s.tick clk).res1 =
      ({ s with mem := (s.tick clk).mem } : State).outputSample ((s.nanSource.shift 16).shift 22) .right :=
  calc (s.tick clk).res1
      = (s.writeStage s.nanSource s.arg0 s.arg1).outputSample ((s.nanSource.shift 16).shift 22) .right := by
        simp [State.tick_eq, State.afterRead, State.readStage_res1]
    _ = _ := by rw [State.tick_mem, State.outputSample_of_written (s.writeStage_written ..)]

end Machine

open Machine in
/-- Settles O38: with the draws of the read stage, the results are the output samples of the state with the store written. -/
theorem tickReadsAfterWriting : Obligations.TickReadsAfterWriting :=
  fun s clk => ⟨(s.tick clk).drawn, s.nanSource.shift 16, s.nanSource_quiet.shift 16, rfl, s.tick_res0 clk, s.tick_res1 clk⟩

end Sys2Proof
end

section
/-! SUPPORT. The store and the write phase under every step (rules R46, R70). -/

namespace Sys2Proof

namespace Machine

/-- The store is canonical and inside its `2N` words, and `WP` is an index of it: what the writers need to stay inside. -/
def State.StoreWritable (s : State) : Prop :=
  s.StoreLegal ∧ s.wp.toNat < s.cfg.n

theorem State.StoreWritable.congr {s t : State} (hs : s.StoreWritable) (hcfg : t.cfg = s.cfg) (hmem : t.mem = s.mem)
    (hwp : t.wp = s.wp) : t.StoreWritable :=
  ⟨hs.1.congr hcfg hmem, by rw [hwp, hcfg]; exact hs.2⟩

/-- Only `TICK` moves `WP`, and it wraps it at `N` (rules R40, R221). -/
theorem State.acted_wp_lt {s : State} (hb : ConfigBounds s.cfg) (hwp : s.wp.toNat < s.cfg.n) (i : Instr) :
    (s.acted i).wp.toNat < s.cfg.n := by
  by_cases htick : ∃ clk, i = .tick clk
  · obtain ⟨clk, rfl⟩ := htick
    exact State.tick_wp_lt hb clk
  · obtain ⟨-, -, -, hsame, -⟩ := (acted_frame i s).ticked (not_exists.1 htick)
    rwa [hsame]

theorem State.StoreWritable.acted {s : State} (hs : s.StoreWritable) (hb : ConfigBounds s.cfg) (i : Instr) :
    (s.acted i).StoreWritable := by
  obtain ⟨hstore, hwp⟩ := hs
  refine ⟨hstore.acted hb.n_pos hwp i, ?_⟩
  rw [(acted_frame i s).cfg]
  exact State.acted_wp_lt hb hwp i

theorem State.StoreWritable.resetEvent {s : State} (hc : configAdmitted s.cfg = true) {draw : List Word}
    (hd : drawAdmitted s.cfg draw = true) : (s.resetEvent draw).StoreWritable :=
  have h := State.Legal.resetEvent hc hd
  ⟨h.store, h.counters.wp⟩

end Machine

open Machine in
/-- Settles O57: by the rule for every step, with the write phase kept in the store besides. -/
theorem storeStaysCanonical : Obligations.StoreStaysCanonical := by
  intro s t hstore hwp h
  refine (step_keeps (P := State.StoreWritable) ?host ?writeArg ?raise ?acted ?reset ⟨hstore, hwp⟩ h).1
  case host => exact fun s rest hs => hs.congr rfl rfl rfl
  case writeArg => exact fun s r w hs => hs.congr (by simp) (by simp) (by simp)
  case raise => exact fun s e hs => hs.congr (by simp) (by simp) (by simp)
  case acted => exact fun s i hc _ hs => hs.acted (configBounds_of_admitted hc) i
  case reset => exact fun s draw hc hd => .resetEvent hc hd

end Sys2Proof
end

section
/-! SUPPORT. The decoder read by fields (rules R91, R95): which command the `op` and `sub` fields stand for, and what a command word
does when it decodes and when it does not. -/

namespace Sys2Proof

/-! ### The fields of a word -/

/-- Two words with the same fields are the same word (rule R91). -/
theorem word_eq_iff_fields {v w : Word} :
    v = w ↔ opField v = opField w ∧ subField v = subField w ∧ zField v = zField w := by
  refine ⟨fun h => h ▸ ⟨rfl, rfl, rfl⟩, fun ⟨hop, hsub, hz⟩ => ?_⟩
  rw [← fields_append v, hop, hsub, hz, fields_append]

theorem opField_and (v w : Word) : opField (v &&& w) = opField v &&& opField w :=
  BitVec.extractLsb'_and

theorem subField_and (v w : Word) : subField (v &&& w) = subField v &&& subField w :=
  BitVec.extractLsb'_and

theorem zField_and (v w : Word) : zField (v &&& w) = zField v &&& zField w :=
  BitVec.extractLsb'_and

/-! ### The readers of `sub` undo the writers -/

theorem flagOfSub_subOfFlag (b : Bool) : flagOfSub (subOfFlag b) = some b := by
  cases b <;> rfl

theorem Reg.ofIndex_index (r : Reg) : Reg.ofIndex r.index = some r := by
  cases r <;> rfl

/-- Bit 0 is L and bit 1 is R, and no bit set is no mask (rule R191). -/
theorem maskOfSub_subOfMask (m : ChannelMask) : maskOfSub (subOfMask m) = if m.nonempty then some m else none := by
  obtain ⟨l, r⟩ := m
  cases l <;> cases r <;> rfl

/-! ### The command of an `op` and a `sub` -/

/-- The command that the fields `op` and `sub` stand for: the row of `op`, given `sub`. -/
def commandOfFields (op sub : BitVec 8) : Option Instr :=
  (rowOfOp op).bind fun row => row sub

/-- `Decode` answers a command exactly when `z` is zero and the other two fields stand for it (rule R95). -/
theorem decode_eq_ok_iff {w : Word} {i : Instr} :
    decode w = .ok i ↔ zField w = 0#16 ∧ commandOfFields (opField w) (subField w) = some i := by
  unfold decode commandOfFields
  by_cases hz : zField w = 0#16
  · cases hrow : rowOfOp (opField w) with
    | none => simp [hz]
    | some row => cases hcmd : row (subField w) <;> simp [hz, hcmd]
  · simp [hz]

/-- The fields of a command stand for that command, except for the empty channel mask (rules R93, R191, R192). -/
theorem commandOfFields_opcode_sub (i : Instr) :
    commandOfFields i.opcode i.sub = if i.wellFormed then some i else none := by
  have read_mask (m : ChannelMask) (f : ChannelMask → Instr) :
      (maskOfSub (subOfMask m)).map f = if m.nonempty then some (f m) else none := by
    rw [maskOfSub_subOfMask, apply_ite (Option.map f)]; rfl
  cases i with
  | tick clk => exact congrArg (Option.map Instr.tick) (flagOfSub_subOfFlag clk)
  | setrec on => exact congrArg (Option.map Instr.setrec) (flagOfSub_subOfFlag on)
  | status clr => exact congrArg (Option.map Instr.status) (flagOfSub_subOfFlag clr)
  | rdreg r => exact congrArg (Option.map Instr.rdreg) (Reg.ofIndex_index r)
  | whstart m => exact read_mask m .whstart
  | whstop m => exact read_mask m .whstop
  | clear mode => cases mode <;> rfl
  | whwrite c => cases c <;> rfl
  | stread dir => cases dir <;> rfl
  | _ => rfl

/-- A word that decodes holds the fields of a command with legal operands (rule R93). -/
theorem wellFormed_of_decode {w : Word} {i : Instr} (h : decode w = .ok i) : i.wellFormed = true := by
  obtain ⟨hop, hsub, -⟩ := decode_fields h
  have hread := (decode_eq_ok_iff.1 h).2
  rw [hop, hsub, commandOfFields_opcode_sub] at hread
  by_contra hwf
  rw [if_neg hwf] at hread
  cases hread

theorem decode_encode {i : Instr} (hwf : i.wellFormed = true) : decode (encode i) = .ok i := by
  obtain ⟨hop, hsub, hz⟩ := Laws.EncodeFields.of_fields i
  rw [decode_eq_ok_iff, hop, hsub, commandOfFields_opcode_sub, if_pos hwf]
  exact ⟨hz, rfl⟩

/-! ### The rows of the printed map -/

/-- A row of the printed map tests the whole of `op` and `z`, and the part of `sub` that it tests is zero in every legal `sub`. -/
structure OpcodeRow.TestsFields (r : OpcodeRow) : Prop where
  mask_op : opField r.mask = 0xFF#8
  mask_z : zField r.mask = 0xFFFF#16
  pattern_sub : subField r.pattern = 0x00#8
  pattern_z : zField r.pattern = 0#16
  legal : ∀ sub ∈ r.legalSub, sub &&& subField r.mask = 0x00#8

/-- `sub` is not tested, or all its bits but bit 0 are, in the rows whose operand is a flag (rule R93). -/
theorem testsFields_of_mem : ∀ r ∈ opcodeMap, r.TestsFields := by
  have hfields : ∀ r ∈ opcodeMap, opField r.mask = 0xFF#8 ∧ zField r.mask = 0xFFFF#16 ∧ subField r.pattern = 0x00#8 ∧
      zField r.pattern = 0#16 := by decide
  have hsub : ∀ r ∈ opcodeMap, subField r.mask = 0x00#8 ∨ subField r.mask = 0xFE#8 ∧ r.legalSub = [0x00#8, 0x01#8] := by
    decide
  intro r hr
  obtain ⟨hop, hz, hpsub, hpz⟩ := hfields r hr
  refine ⟨hop, hz, hpsub, hpz, fun sub hlegal => ?_⟩
  obtain hmask | ⟨hmask, hflag⟩ := hsub r hr
  · rw [hmask]; exact BitVec.and_zero
  · rw [hflag] at hlegal
    rw [hmask]
    revert sub
    decide

/-- The match of rule R93 over the whole word, by fields. -/
theorem OpcodeRow.TestsFields.selects_iff {r : OpcodeRow} (h : r.TestsFields) (w : Word) :
    r.selects w = true ↔ zField w = 0#16 ∧ opField r.pattern = opField w ∧ subField w ∈ r.legalSub := by
  have hop : opField w &&& 0xFF#8 = opField w := BitVec.and_allOnes
  have hz : zField w &&& 0xFFFF#16 = zField w := BitVec.and_allOnes
  have hmatch : w &&& r.mask = r.pattern ↔
      opField w = opField r.pattern ∧ subField w &&& subField r.mask = 0x00#8 ∧ zField w = 0#16 := by
    rw [word_eq_iff_fields, opField_and, subField_and, zField_and, h.mask_op, h.mask_z, h.pattern_sub, h.pattern_z, hop, hz]
  rw [OpcodeRow.selects, Bool.and_eq_true, beq_iff_eq, List.contains_iff_mem, hmatch]
  constructor
  · rintro ⟨⟨hwop, -, hwz⟩, hsub⟩
    exact ⟨hwz, hwop.symm, hsub⟩
  · rintro ⟨hwz, hwop, hsub⟩
    exact ⟨⟨hwop.symm, h.legal _ hsub, hwz⟩, hsub⟩

/-- The opcodes of the map are distinct (rule R93). -/
theorem opcodeMap_opcodes_distinct : opcodeMap.Pairwise fun r r' => opField r.pattern ≠ opField r'.pattern := by
  decide

/-- The commands with legal operands, in the order of the printed map (rule R93). -/
def legalCommands : List Instr :=
  ([.nop, .tick false, .tick true, .latch, .setspeed, .setstart, .setlength, .setrec false, .setrec true, .setsos, .setfilter,
    .trig, .clear .all, .clear .step, .whstart ⟨true, false⟩, .whstart ⟨false, true⟩, .whstart ⟨true, true⟩,
    .whstop ⟨true, false⟩, .whstop ⟨false, true⟩, .whstop ⟨true, true⟩, .whwrite .left, .whwrite .right, .stwrite,
    .stread .forward, .stread .backward, .status false, .status true] : List Instr) ++
  Reg.all.map .rdreg

theorem Reg.mem_all (r : Reg) : r ∈ Reg.all := by
  cases r <;> decide

theorem ChannelMask.nonempty_cases {m : ChannelMask} (h : m.nonempty = true) :
    m = ⟨true, false⟩ ∨ m = ⟨false, true⟩ ∨ m = ⟨true, true⟩ := by
  obtain ⟨l, r⟩ := m
  revert h
  cases l <;> cases r <;> decide

theorem mem_legalCommands_of_wellFormed {i : Instr} (hwf : i.wellFormed = true) : i ∈ legalCommands := by
  cases i with
  | rdreg r => exact List.mem_append_right _ (List.mem_map_of_mem (Reg.mem_all r))
  | tick clk => cases clk <;> decide
  | setrec on => cases on <;> decide
  | status clr => cases clr <;> decide
  | clear mode => cases mode <;> decide
  | whwrite c => cases c <;> decide
  | stread dir => cases dir <;> decide
  | whstart m => obtain rfl | rfl | rfl := ChannelMask.nonempty_cases hwf <;> decide
  | whstop m => obtain rfl | rfl | rfl := ChannelMask.nonempty_cases hwf <;> decide
  | _ => decide

theorem wellFormed_of_mem_legalCommands : ∀ i ∈ legalCommands, i.wellFormed = true := by
  decide

/-- Row by row, the `op` and the legal `sub`s of the printed map are the fields of the legal commands. -/
theorem opcodeMap_fields :
    (opcodeMap.flatMap fun r => r.legalSub.map fun sub => (opField r.pattern, sub)) =
      legalCommands.map fun i => (i.opcode, i.sub) := by
  decide

/-- A row of the printed map has the fields `op` and `sub` exactly when they are those of a well-formed command. -/
theorem exists_row_iff {op sub : BitVec 8} :
    (∃ r ∈ opcodeMap, opField r.pattern = op ∧ sub ∈ r.legalSub) ↔
      ∃ i : Instr, i.wellFormed = true ∧ i.opcode = op ∧ i.sub = sub := by
  have hmem := congrArg (fun fields => (op, sub) ∈ fields) opcodeMap_fields
  simp only [List.mem_flatMap, List.mem_map, Prod.mk.injEq, eq_iff_iff] at hmem
  constructor
  · rintro ⟨r, hr, hop, hsub⟩
    obtain ⟨i, hi, hiop, hisub⟩ := hmem.1 ⟨r, hr, sub, hsub, hop, rfl⟩
    exact ⟨i, wellFormed_of_mem_legalCommands i hi, hiop, hisub⟩
  · rintro ⟨i, hwf, hiop, hisub⟩
    obtain ⟨r, hr, sub', hsub, hop, rfl⟩ := hmem.2 ⟨i, mem_legalCommands_of_wellFormed hwf, hiop, hisub⟩
    exact ⟨r, hr, hop, hsub⟩

/-- A word decodes exactly when its `z` is zero and a row of the printed map has its `op` and lists its `sub` (rules R93, R95). -/
theorem decodes_iff_row (w : Word) :
    (∃ i, decode w = .ok i) ↔
      zField w = 0#16 ∧ ∃ r ∈ opcodeMap, opField r.pattern = opField w ∧ subField w ∈ r.legalSub := by
  rw [exists_row_iff]
  constructor
  · rintro ⟨i, hi⟩
    obtain ⟨hop, hsub, hz⟩ := decode_fields hi
    exact ⟨hz, i, wellFormed_of_decode hi, hop.symm, hsub.symm⟩
  · rintro ⟨hz, i, hwf, hop, hsub⟩
    refine ⟨i, decode_eq_ok_iff.2 ⟨hz, ?_⟩⟩
    rw [← hop, ← hsub, commandOfFields_opcode_sub, if_pos hwf]

/-! ### Command words and steps -/

namespace Machine

theorem State.raise_eq_withError (s : State) (e : ErrorCode) : s.raise e = s.withError e := by
  cases e <;> simp [State.raise, State.withError]

theorem commandStep_of_decode {w : Word} {i : Instr} (h : decode w = .ok i) (s : State) : commandStep w s = exec i s := by
  rw [commandStep, h]

/-- A word that is no command raises `ILLEGAL`, whichever test it fails (rule R95). -/
theorem commandStep_of_error {w : Word} {e : DecodeError} (h : decode w = .error e) (s : State) :
    commandStep w s = .next (s.withError .illegal) := by
  rw [commandStep, h, ← State.raise_eq_withError]

theorem step_of_host {s : State} {a : HostAction} {rest : List HostAction} (hc : configAdmitted s.cfg = true)
    (hhost : s.host = a :: rest) : step s = hostStep a { s with host := rest } := by
  rw [step, if_pos hc, fetchStep, hhost]

end Machine

end Sys2Proof
end

section
/-! SUPPORT. The statements on the encoding (rules R91 to R100). -/

namespace Sys2Proof

open Machine

/-- Settles O2: the fields of a well-formed command stand for it, and a word that decodes holds the fields of its command. -/
theorem decodeAndEncodeAgree : Obligations.DecodeAndEncodeAgree :=
  ⟨fun _ => decode_encode, fun _ _ h => ⟨wellFormed_of_decode h, encode_of_decode h⟩⟩

/-- Settles O3: the printed match is a test of the fields, and the rows differ in `op`. -/
theorem decodeFollowsOpcodeMap : Obligations.DecodeFollowsOpcodeMap := by
  refine ⟨fun w => ?rows, ?disjoint, fun _ _ => decode_fields, rfl⟩
  case rows =>
    rw [decodes_iff_row]
    constructor
    · rintro ⟨hz, r, hr, hop, hsub⟩
      exact ⟨r, hr, ((testsFields_of_mem r hr).selects_iff w).2 ⟨hz, hop, hsub⟩⟩
    · rintro ⟨r, hr, hsel⟩
      obtain ⟨hz, hop, hsub⟩ := ((testsFields_of_mem r hr).selects_iff w).1 hsel
      exact ⟨hz, r, hr, hop, hsub⟩
  case disjoint =>
    refine opcodeMap_opcodes_distinct.imp_of_mem fun {r r'} hr hr' hne w ⟨hsel, hsel'⟩ => hne ?_
    obtain ⟨-, hop, -⟩ := ((testsFields_of_mem r hr).selects_iff w).1 hsel
    obtain ⟨-, hop', -⟩ := ((testsFields_of_mem r' hr').selects_iff w).1 hsel'
    exact hop.trans hop'.symm

/-- Settles O4: each of the three tests of rule R95 is the failure of one clause of `decodes_iff_row`. -/
theorem decodingIsTotal : Obligations.DecodingIsTotal := by
  intro w s
  constructor
  · intro hillegal
    cases hdec : decode w with
    | error e => exact commandStep_of_error hdec s
    | ok i =>
      obtain ⟨hz, r, hr, hop, hsub⟩ := (decodes_iff_row w).1 ⟨i, hdec⟩
      obtain hres | hunknown | hbad := hillegal
      · exact absurd hz hres
      · exact absurd hop (hunknown r hr)
      · exact absurd hsub (hbad r hr hop)
  · intro hz r hr hop hsub
    obtain ⟨i, hi⟩ := (decodes_iff_row w).2 ⟨hz, r, hr, hop, hsub⟩
    obtain ⟨hiop, hisub, -⟩ := decode_fields hi
    exact ⟨i, hiop.symm, hisub.symm, commandStep_of_decode hi s⟩

/-- Settles O1: the twelve words are evaluated one way, and the round trip gives the other; each of the five words fails a
named test of rule R95. -/
theorem workedCommandWords : Obligations.WorkedCommandWords := by
  constructor
  · intro p hp
    obtain ⟨hwf, henc⟩ : p.1.wellFormed = true ∧ encode p.1 = p.2 := by
      revert p
      decide
    exact ⟨henc, henc ▸ decode_encode hwf⟩
  · intro s w hw
    obtain ⟨e, he⟩ : ∃ e, decode w = .error e := by
      simp only [List.mem_cons, List.not_mem_nil, or_false] at hw
      obtain rfl | rfl | rfl | rfl | rfl := hw
      · exact ⟨.reservedBits, rfl⟩
      · exact ⟨.unknownOpcode, rfl⟩
      · exact ⟨.illegalSub, rfl⟩
      · exact ⟨.illegalSub, rfl⟩
      · exact ⟨.illegalSub, rfl⟩
    exact commandStep_of_error he s

/-- Settles O5: the step performs the action at the head of the list, and the word decodes. -/
theorem stepRunsTheDecodedCommand : Obligations.StepRunsTheDecodedCommand := by
  intro s w i rest hc hhost hdec
  calc
    step s = hostStep (.command w) { s with host := rest } := step_of_host hc hhost
    _ = exec i { s with host := rest } := commandStep_of_decode hdec _

end Sys2Proof
end

section
/-! SUPPORT. The `SET` commands by the exponent field of their operand (rule R121), and the small commands. -/

namespace Sys2Proof

/-- A word is finite exactly if its exponent field, bits 30:23, is not 255 (rules R11, R121). -/
theorem F32.isFinite_iff_exponent (w : Word) : F32.isFinite w = true ↔ w.extractLsb' 23 8 ≠ 0xFF#8 := by
  have hfield : (w.extractLsb' 23 8).toNat = w.toNat / 2 ^ 23 % 2 ^ 8 := by
    rw [BitVec.extractLsb'_toNat, Nat.shiftRight_eq_div_pow]
  rw [F32.isFinite_iff, F32.magBits, F32.infBits, Ne, ← BitVec.toNat_inj, hfield, BitVec.toNat_ofNat]
  omega

theorem Machine.setShadow_of_finite {write : Word → State} {s : State} (h : F32.isFinite s.arg0 = true) :
    setShadow write s = .next (write s.arg0) :=
  if_pos h

theorem Machine.setShadow_of_not_finite {write : Word → State} {s : State} (h : ¬F32.isFinite s.arg0 = true) :
    setShadow write s = .next (s.withError .nonfinite) := by
  rw [setShadow, if_neg h, State.raise_eq_withError]

open Machine in
/-- Settles O14: the exponent field decides the check that the five commands share. -/
theorem setCommandsCheckTheirOperand : Obligations.SetCommandsCheckTheirOperand := by
  refine fun s => ⟨fun hexp => ?accepted, fun hexp i hi => ?refused⟩
  case accepted =>
    have hf := (F32.isFinite_iff_exponent s.arg0).2 hexp
    simp only [exec, execSetspeed, execSetstart, execSetlength, execSetsos, execSetfilter, setShadow_of_finite hf, and_self]
  case refused =>
    have hf : ¬F32.isFinite s.arg0 = true := fun hf => (F32.isFinite_iff_exponent s.arg0).1 hf hexp
    simp only [List.mem_cons, List.not_mem_nil, or_false] at hi
    obtain rfl | rfl | rfl | rfl | rfl := hi
    all_goals
      simp only [exec, execSetspeed, execSetstart, execSetlength, execSetsos, execSetfilter, setShadow_of_not_finite hf]

/-- Settles O15: each command is one record update, and the two status words are evaluated. -/
theorem setrecTrigAndNop : Obligations.SetrecTrigAndNop :=
  ⟨fun _ _ => rfl, fun _ => rfl, fun _ => rfl, rfl, rfl⟩

end Sys2Proof
end

section
/-! SUPPORT. A `TICK` reads no shadow register and no filter level (rules R120, R136, R331 (a)): every stage commutes with their
replacement. -/

namespace Sys2Proof

namespace Machine

/-- Values for the shadow registers (rule R35) and the filter level. -/
structure Controls where
  speedRaw : Word
  startX : Word
  lengthX : Word
  sosX : Word
  filterX : Word
  filterL : Word
  recX : Bool

/-- The state with its shadow registers and its filter level replaced. -/
def State.withControls (s : State) (k : Controls) : State :=
  { s with
    speedRaw := k.speedRaw, startX := k.startX, lengthX := k.lengthX, sosX := k.sosX, filterX := k.filterX, filterL := k.filterL
    recX := k.recX }

section
variable (s : State) (k : Controls) (g : NanSource)

theorem State.ite_withControls (p : Prop) [Decidable p] (s t : State) :
    (if p then s else t).withControls k = if p then s.withControls k else t.withControls k :=
  apply_ite (State.withControls · k) p s t

/-! ### The write and read stages -/

theorem State.headFade_withControls (c : Channel) (i : Nat) (v : Word) :
    (s.withControls k).headFade g c i v = (s.headFade g c i v).withControls k := by
  cases c <;> rfl

theorem State.headWrite_withControls (c : Channel) (i : Nat) (v : Word) :
    (s.withControls k).headWrite g c i v = (s.headWrite g c i v).withControls k := by
  have hhead : (s.withControls k).head c = s.head c := by cases c <;> rfl
  unfold State.headWrite
  rw [hhead]
  cases (s.head c).state with
  | inactive => rfl
  | active => rfl
  | fadingIn => exact s.headFade_withControls k g c i v
  | fadingOut => exact s.headFade_withControls k g c i v

theorem State.writeChannel_withControls (c : Channel) (v : Word) :
    (s.withControls k).writeChannel g c v = (s.writeChannel g c v).withControls k :=
  s.headWrite_withControls k g c ..

theorem State.writeStage_withControls (a b : Word) :
    (s.withControls k).writeStage g a b = (s.writeStage g a b).withControls k := by
  rw [State.writeStage, State.writeStage, State.writeChannel_withControls, State.writeChannel_withControls,
    State.ite_withControls]
  rfl

theorem State.readStage_withControls : (s.withControls k).readStage g = (s.readStage g).withControls k := rfl

/-! ### The advance stage -/

theorem State.advancePhases_withControls : (s.withControls k).advancePhases g = (s.advancePhases g).withControls k := by
  rw [State.advancePhases, State.advancePhases, State.ite_withControls]
  rfl

theorem State.advanceTail_withControls : (s.withControls k).advanceTail g = (s.advanceTail g).withControls k := by
  rw [State.advanceTail, State.advanceTail, State.ite_withControls]
  rfl

theorem State.advanceProgress_withControls : (s.withControls k).advanceProgress g = (s.advanceProgress g).withControls k := by
  unfold State.advanceProgress
  rw [show (s.withControls k).xfKind = s.xfKind from rfl]
  cases s.xfKind <;> rfl

theorem State.completeTransition_withControls : (s.withControls k).completeTransition = s.completeTransition.withControls k := by
  unfold State.completeTransition
  rw [show (s.withControls k).xfKind = s.xfKind from rfl]
  cases s.xfKind with
  | none => rfl
  | boundary => rw [State.ite_withControls]; rfl
  | param => rw [State.ite_withControls]; rfl
  | trigger => rw [State.ite_withControls]; rfl

theorem State.fadeAtWrap_withControls (ev : Bool) (pun : Word) :
    (s.withControls k).fadeAtWrap g ev pun = (s.fadeAtWrap g ev pun).withControls k := by
  rw [State.fadeAtWrap, State.fadeAtWrap, State.ite_withControls]
  rfl

theorem State.advanceStage_withControls : (s.withControls k).advanceStage g = (s.advanceStage g).withControls k := by
  rw [State.advanceStage, State.advancePhases_withControls, State.advanceTail_withControls, State.advanceProgress_withControls,
    State.completeTransition_withControls, State.fadeAtWrap_withControls]
  rfl

/-! ### The trigger stage -/

theorem State.retriggerWindow_withControls :
    (s.withControls k).retriggerWindow g = ((s.retriggerWindow g).1, (s.retriggerWindow g).2.withControls k) := by
  unfold State.retriggerWindow
  rw [show (s.withControls k).xfKind = s.xfKind from rfl]
  cases s.xfKind <;> rfl

theorem State.beginTrigger_withControls (pos : Word) :
    (s.withControls k).beginTrigger pos = (s.beginTrigger pos).withControls k := by
  rw [State.beginTrigger, State.beginTrigger, State.ite_withControls]
  rfl

theorem State.retrigger_withControls : (s.withControls k).retrigger g = (s.retrigger g).withControls k := by
  rw [State.retrigger, State.retriggerWindow_withControls, State.beginTrigger_withControls]
  rfl

theorem State.ageClock_withControls : (s.withControls k).ageClock = s.ageClock.withControls k := by
  rw [State.ageClock, State.ageClock, State.ite_withControls]
  rfl

theorem State.triggerStage_withControls (clk : Bool) :
    (s.withControls k).triggerStage g clk = (s.triggerStage g clk).withControls k := by
  rw [State.triggerStage, State.triggerStage, State.ite_withControls, ← State.retrigger_withControls,
    ← State.ageClock_withControls]
  rfl

theorem State.tick_withControls (clk : Bool) : (s.withControls k).tick clk = (s.tick clk).withControls k :=
  calc (s.withControls k).tick clk
      = ((((s.withControls k).writeStage s.nanSource s.arg0 s.arg1).readStage (s.nanSource.shift 16)).advanceStage
          (s.nanSource.shift 60)).triggerStage (s.nanSource.shift 67) clk := rfl
    _ = (s.tick clk).withControls k := by
      rw [State.writeStage_withControls, State.readStage_withControls, State.advanceStage_withControls,
        State.triggerStage_withControls]
      rfl

end

end Machine

open Machine in
/-- Settles O50: the replacement commutes with the whole tick. -/
theorem tickIgnoresShadowsAndFilter : Obligations.TickIgnoresShadowsAndFilter := by
  intro s clk a b c d e f r
  have hcommutes := s.tick_withControls ⟨a, b, c, d, e, f, r⟩ clk
  exact ⟨(s.tick clk).drawn, rfl, congrArg (fun t : State => Host.Outcome.next t.drawn) hcommutes⟩

end Sys2Proof
end

section
/-! SUPPORT. `LATCH` by its stages (rules R130, R133 to R135): the levels, the heads and the targets. -/

namespace Sys2Proof

namespace Machine

/-! ### A parameter transition -/

/-- What `BeginParam` sets in both cases (rules R134, R135). -/
theorem State.beginParam_common (s : State) (g : NanSource) (ts tl : Nat) :
    (s.beginParam g ts tl).xfKind = .param ∧ (s.beginParam g ts tl).xfProg = F32.zero ∧
      (s.beginParam g ts tl).nstart = BitVec.ofNat 32 ts ∧ (s.beginParam g ts tl).nlength = BitVec.ofNat 32 tl ∧
      (s.beginParam g ts tl).xo = s.headPosition g := by
  unfold State.beginParam
  split <;> exact ⟨rfl, rfl, rfl, rfl, rfl⟩

/-- The normal case: the phase lies in the new window (rule R134). -/
theorem State.beginParam_normal {s : State} {tl : Nat} (h : F32.lt s.phase (F32.ofInteger tl) = true) (g : NanSource) (ts : Nat) :
    (s.beginParam g ts tl).nphase = s.phase ∧ (s.beginParam g ts tl).xfWin = fadeWindow (g.shift 1) s.cfg tl := by
  rw [State.beginParam, if_pos h]
  exact ⟨rfl, rfl⟩

/-- The edge case: the phase lies past the new window (rule R135). -/
theorem State.beginParam_edge {s : State} {tl : Nat} (h : F32.lt s.phase (F32.ofInteger tl) = false) (g : NanSource) (ts : Nat) :
    (s.beginParam g ts tl).nphase = F32.zero ∧
      (s.beginParam g ts tl).xfWin = F32.clamp (F32.sub (g 2) s.phase (F32.ofInteger tl)) s.cfg.xfMin s.cfg.xfMax := by
  rw [State.beginParam, if_neg (by simp [h])]
  exact ⟨rfl, rfl⟩

/-! ### The stages -/

/-- The state in which `LATCH` looks at its targets: the levels and the heads are done. -/
def State.latchedLevels (s : State) : State :=
  (s.latchLevels s.nanSource).latchHeads

theorem State.acted_latch (s : State) : s.acted .latch = (s.latchedLevels.latchTargets (s.nanSource.shift 1)).drawn := rfl

/-! The window, the transition and the pending stream are not touched before the targets. -/

@[simp] theorem State.latchedLevels_cfg (s : State) : s.latchedLevels.cfg = s.cfg := by simp [State.latchedLevels]
@[simp] theorem State.latchedLevels_start (s : State) : s.latchedLevels.start = s.start := by simp [State.latchedLevels]
@[simp] theorem State.latchedLevels_length (s : State) : s.latchedLevels.length = s.length := by simp [State.latchedLevels]
@[simp] theorem State.latchedLevels_phase (s : State) : s.latchedLevels.phase = s.phase := by simp [State.latchedLevels]
@[simp] theorem State.latchedLevels_nstart (s : State) : s.latchedLevels.nstart = s.nstart := by simp [State.latchedLevels]
@[simp] theorem State.latchedLevels_nlength (s : State) : s.latchedLevels.nlength = s.nlength := by simp [State.latchedLevels]
@[simp] theorem State.latchedLevels_nphase (s : State) : s.latchedLevels.nphase = s.nphase := by simp [State.latchedLevels]
@[simp] theorem State.latchedLevels_xfKind (s : State) : s.latchedLevels.xfKind = s.xfKind := by simp [State.latchedLevels]
@[simp] theorem State.latchedLevels_xfProg (s : State) : s.latchedLevels.xfProg = s.xfProg := by simp [State.latchedLevels]
@[simp] theorem State.latchedLevels_xfWin (s : State) : s.latchedLevels.xfWin = s.xfWin := by simp [State.latchedLevels]
@[simp] theorem State.latchedLevels_xo (s : State) : s.latchedLevels.xo = s.xo := by simp [State.latchedLevels]

theorem State.latchedLevels_targetStart (s : State) (g : NanSource) : s.latchedLevels.targetStart g = s.targetStart g := by
  simp [State.latchedLevels, State.targetStart]

theorem State.latchedLevels_targetLength (s : State) (g : NanSource) : s.latchedLevels.targetLength g = s.targetLength g := by
  simp [State.latchedLevels, State.targetLength]

/-- The target stage, with its test and its targets read from the state before the `LATCH`. -/
theorem State.acted_latch_targets (s : State) :
    s.acted .latch =
      (if s.xfKind = .none ∧ (s.targetStart (s.nanSource.shift 1) ≠ s.start.toNat ∨
          s.targetLength (s.nanSource.shift 2) ≠ s.length.toNat) then
        s.latchedLevels.beginParam (s.nanSource.shift 3) (s.targetStart (s.nanSource.shift 1))
          (s.targetLength (s.nanSource.shift 2))
      else s.latchedLevels).drawn := by
  rw [State.acted_latch, State.latchTargets, State.latchedLevels_targetStart, State.latchedLevels_targetLength,
    State.latchedLevels_xfKind, State.latchedLevels_start, State.latchedLevels_length, NanSource.shift_shift,
    NanSource.shift_shift]

/-- The levels of rules R130 to R132 after a `LATCH`. -/
theorem State.acted_latch_levels (s : State) :
    (s.acted .latch).spd = resolveSpeed s.speedRaw ∧ (s.acted .latch).vol = resolveVolume s.nanSource s.speedRaw ∧
      (s.acted .latch).sosL = F32.clamp s.sosX F32.zero F32.one ∧
      (s.acted .latch).filterL = F32.clamp s.filterX F32.zero F32.one := by
  simp [State.latchLevels]

theorem State.acted_latch_frame (s : State) :
    s.acted .latch = { s with
      spd := (s.acted .latch).spd, vol := (s.acted .latch).vol, sosL := (s.acted .latch).sosL
      filterL := (s.acted .latch).filterL, headL := (s.acted .latch).headL, headR := (s.acted .latch).headR
      nstart := (s.acted .latch).nstart, nlength := (s.acted .latch).nlength, nphase := (s.acted .latch).nphase
      xfKind := (s.acted .latch).xfKind, xfProg := (s.acted .latch).xfProg, xfWin := (s.acted .latch).xfWin
      xo := (s.acted .latch).xo, draws := (s.acted .latch).draws } := by
  apply State.ext <;> simp

end Machine

open Machine in
/-- Settles O19: the levels, the heads and the frame are read off the stages; the targets begin a transition, normal or edge, or
leave the playback registers. -/
theorem latchAdoptsTheControls : Obligations.LatchAdoptsTheControls := by
  intro s
  obtain ⟨hspd, hvol, hsos, hfilter⟩ := s.acted_latch_levels
  have hleft : (s.acted .latch).headL = _ := s.latched_head .left
  have hright : (s.acted .latch).headR = _ := s.latched_head .right
  refine ⟨s.acted .latch, s.nanSource, s.nanSource_quiet, rfl, s.acted_latch_frame, hspd, hvol, hsos, hfilter, ?start, ?stop,
    s.targetStart (s.nanSource.shift 1), s.targetLength (s.nanSource.shift 2), rfl, rfl, fun h => ?begins, fun h => ?deferred⟩
  case start => intro hrec; rw [hleft, hright, if_pos hrec, if_pos hrec]; exact ⟨rfl, rfl⟩
  case stop => intro hrec; rw [hleft, hright, hrec]; exact ⟨rfl, rfl⟩
  case begins =>
    obtain ⟨hkind, hprog, hnstart, hnlength, hxo⟩ := s.latchedLevels.beginParam_common (s.nanSource.shift 3)
      (s.targetStart (s.nanSource.shift 1)) (s.targetLength (s.nanSource.shift 2))
    rw [State.acted_latch_targets, if_pos h]
    refine ⟨hkind, hprog, hnstart, hnlength, ?position, fun hin => ?normal, fun hout => ?edge⟩
    case position => simpa [State.headPosition, floatOfRegister, NanSource.shift_apply] using hxo
    case normal =>
      rw [← s.latchedLevels_phase] at hin
      simpa using State.beginParam_normal hin (s.nanSource.shift 3) (s.targetStart (s.nanSource.shift 1))
    case edge =>
      rw [← s.latchedLevels_phase] at hout
      simpa [NanSource.shift_apply] using
        State.beginParam_edge hout (s.nanSource.shift 3) (s.targetStart (s.nanSource.shift 1))
  case deferred =>
    rw [State.acted_latch_targets, if_neg h]
    simp

end Sys2Proof
end

section
/-! SUPPORT. `min`, `max` and `clamp` of finite words by their values (rule R12), then the resolved speed (rule R131) and the stall
volume (rule R132) by the value of the clamped speed. -/

namespace Sys2Proof

theorem F32.isFinite_min {a b : Word} (ha : F32.isFinite a = true) (hb : F32.isFinite b = true) :
    F32.isFinite (F32.min a b) = true := by
  unfold F32.min
  split <;> assumption

theorem F32.isFinite_max {a b : Word} (ha : F32.isFinite a = true) (hb : F32.isFinite b = true) :
    F32.isFinite (F32.max a b) = true := by
  unfold F32.max
  split <;> assumption

theorem F32.isFinite_clamp {x lo hi : Word} (hx : F32.isFinite x = true) (hlo : F32.isFinite lo = true)
    (hhi : F32.isFinite hi = true) : F32.isFinite (F32.clamp x lo hi) = true :=
  F32.isFinite_min (F32.isFinite_max hx hlo) hhi

theorem F32.units_min {a b : Word} (ha : F32.isFinite a = true) (hb : F32.isFinite b = true) :
    F32.units (F32.min a b) = Min.min (F32.units a) (F32.units b) := by
  unfold F32.min
  split
  next h => rw [F32.lt_iff hb ha] at h; exact (min_eq_right h.le).symm
  next h => rw [F32.lt_iff hb ha] at h; exact (min_eq_left (not_lt.1 h)).symm

theorem F32.units_max {a b : Word} (ha : F32.isFinite a = true) (hb : F32.isFinite b = true) :
    F32.units (F32.max a b) = Max.max (F32.units a) (F32.units b) := by
  unfold F32.max
  split
  next h => rw [F32.lt_iff ha hb] at h; exact (max_eq_right h.le).symm
  next h => rw [F32.lt_iff ha hb] at h; exact (max_eq_left (not_lt.1 h)).symm

theorem F32.units_clamp {x lo hi : Word} (hx : F32.isFinite x = true) (hlo : F32.isFinite lo = true)
    (hhi : F32.isFinite hi = true) :
    F32.units (F32.clamp x lo hi) = Min.min (Max.max (F32.units x) (F32.units lo)) (F32.units hi) := by
  rw [F32.clamp, F32.units_min (F32.isFinite_max hx hlo) hhi, F32.units_max hx hlo]

/-- Words of one value are one word, unless the value is 0. -/
theorem F32.eq_of_units {a b : Word} (h0 : F32.units b ≠ 0) (h : F32.units a = F32.units b) : a = b := by
  have hkey : F32.key a = F32.key b :=
    le_antisymm ((F32.key_le_iff a b).2 h.le) ((F32.key_le_iff b a).2 h.ge)
  refine F32.eq_of_key_eq (fun hb => h0 ?_) hkey
  rw [F32.units_eq_zero_iff, ← F32.natAbs_key, hb, Int.natAbs_zero]

/-- Of two words in order `min` answers the lesser, unless both are zeros. -/
theorem F32.min_of_le {a b : Word} (h0 : F32.key a ≠ 0) (h : F32.le b a = true) : F32.min a b = b := by
  obtain ⟨hb, ha, hkey⟩ := (F32.le_iff_key b a).1 h
  unfold F32.min
  split
  next => rfl
  next hge =>
    have hle := (F32.le_iff_key a b).1 (F32.le_of_not_lt hb ha hge)
    exact (F32.eq_of_key_eq h0 (le_antisymm hkey hle.2.2)).symm

theorem F32.isNaN_round (neg : Bool) (num den : Nat) : F32.isNaN (F32.round neg num den) = false := by
  have := F32.roundBits_le num den
  rw [F32.isNaN, F32.magBits_round, decide_eq_false_iff_not]
  omega

theorem F32.magnitude_abs (w : Word) : F32.magnitude (F32.abs w) = F32.magnitude w := by
  rw [F32.magnitude, F32.magBits_abs, F32.magnitude]

theorem F32.abs_units (w : Word) : |F32.units w| = F32.magnitude w := by
  rw [Int.abs_eq_natAbs, F32.natAbs_units]

theorem F32.unitsOfBits_one : F32.unitsOfBits (F32.magBits F32.one) = F32.unitsPerOne := by decide +kernel

theorem F32.key_one : F32.key F32.one = F32.magBits F32.one := by decide

/-- Inside its bounds, a word is clamped to itself. -/
theorem F32.clamp_of_inside {x lo hi : Word} (hx : F32.isFinite x = true) (hlo : F32.isFinite lo = true)
    (hhi : F32.isFinite hi = true) (h1 : F32.units lo ≤ F32.units x) (h2 : F32.units x ≤ F32.units hi) : F32.clamp x lo hi = x := by
  rw [F32.clamp, F32.max_of_not_lt, F32.min_of_not_lt]
  · simpa [← Bool.not_eq_true, F32.lt_iff hhi hx] using h2
  · simpa [← Bool.not_eq_true, F32.lt_iff hx hlo] using h1

namespace Machine

/-! ### The clamped speed -/

theorem isFinite_clampSpeed {raw : Word} (h : F32.isFinite raw = true) : F32.isFinite (clampSpeed raw) = true :=
  F32.isFinite_clamp h (by decide) (by decide)

/-- The raw speed clamped to `±2.0`, by its value (rule R131). -/
theorem clampSpeed_by_units {raw : Word} (h : F32.isFinite raw = true) :
    clampSpeed raw =
      if F32.units speedMax ≤ F32.units raw then speedMax
      else if F32.units raw ≤ -F32.units speedMax then F32.neg speedMax else raw := by
  have hpos : 0 < F32.units speedMax := by decide +kernel
  have hmax : F32.isFinite speedMax = true := by decide
  have hmin : F32.isFinite (F32.neg speedMax) = true := by decide
  have hunits := F32.units_clamp h hmin hmax
  rw [F32.units_neg] at hunits
  split_ifs with hhigh hlow
  · exact F32.eq_of_units hpos.ne' (by rw [clampSpeed, hunits]; omega)
  · exact F32.eq_of_units (by rw [F32.units_neg]; omega) (by rw [clampSpeed, hunits, F32.units_neg]; omega)
  · exact F32.clamp_of_inside h hmin hmax (by rw [F32.units_neg]; omega) (by omega)

/-! ### The resolved speed -/

/-- The two closed deadbands of rule R131, by the value of the clamped speed. -/
theorem resolveSpeed_by_units {raw : Word} (h : F32.isFinite raw = true) :
    resolveSpeed raw =
      if |F32.units (clampSpeed raw)| ≤ F32.units deadbandZero then F32.zero
      else if F32.units deadbandUnityLow ≤ |F32.units (clampSpeed raw)| ∧
          |F32.units (clampSpeed raw)| ≤ F32.units deadbandUnityHigh then
        (if F32.units (clampSpeed raw) < 0 then F32.negOne else F32.one)
      else clampSpeed raw := by
  have hf := isFinite_clampSpeed h
  have habs : F32.isFinite (F32.abs (clampSpeed raw)) = true := by rw [F32.isFinite_abs]; exact hf
  simp only [resolveSpeed, Bool.and_eq_true, F32.le_iff habs (show F32.isFinite deadbandZero = true by decide),
    F32.le_iff (show F32.isFinite deadbandUnityLow = true by decide) habs,
    F32.le_iff habs (show F32.isFinite deadbandUnityHigh = true by decide), F32.lt_iff hf F32.isFinite_zero, F32.units_abs,
    F32.units_zero]

end Machine

open Machine in
/-- Settles O16: the comparisons by value, the worked words evaluated, and the level that `LATCH` sets. -/
theorem speedResolution : Obligations.SpeedResolution := by
  refine ⟨fun raw h => ?values, ?worked, fun s => ⟨s.acted .latch, rfl, ?latched⟩⟩
  case values =>
    rw [resolveSpeed_by_units h, clampSpeed_by_units h]
  case worked =>
    simp only [List.cons_append, List.nil_append, List.forall_mem_cons, List.not_mem_nil, IsEmpty.forall_iff, implies_true,
      and_true]
    and_intros <;> decide +kernel
  case latched =>
    obtain ⟨hspd, -⟩ := s.acted_latch_levels
    exact hspd

namespace Machine

/-! ### The stall volume -/

/-- The quotient of rule R132, before the bound by 1. -/
def kneeQuotient (raw : Word) : Word :=
  F32.round false (F32.magnitude (clampSpeed raw) * F32.unitsPerOne) (F32.magnitude volKnee)

theorem magnitude_volKnee_pos : 0 < F32.magnitude volKnee := by decide +kernel

theorem units_volKnee : F32.units volKnee = F32.magnitude volKnee := by decide +kernel

theorem div_abs_clampSpeed_volKnee (nan : Word) {raw : Word} (h : F32.isFinite raw = true) :
    F32.div nan (F32.abs (clampSpeed raw)) volKnee = kneeQuotient raw := by
  have habs : F32.isFinite (F32.abs (clampSpeed raw)) = true := by rw [F32.isFinite_abs]; exact isFinite_clampSpeed h
  rw [F32.div_of_finite nan habs (by decide) (by decide), F32.isNeg_abs, F32.magnitude_abs]
  rfl

theorem resolveVolume_of_finite (g : NanSource) {raw : Word} (h : F32.isFinite raw = true) :
    resolveVolume g raw = F32.min F32.one (kneeQuotient raw) := by
  rw [resolveVolume, div_abs_clampSpeed_volKnee _ h]

theorem key_kneeQuotient (raw : Word) :
    F32.key (kneeQuotient raw) = F32.roundBits (F32.magnitude (clampSpeed raw) * F32.unitsPerOne) (F32.magnitude volKnee) := by
  rw [F32.key, kneeQuotient, F32.isNeg_round, F32.magBits_round]
  rfl

/-- From the knee on, the quotient is not below 1. -/
theorem resolveVolume_above_knee (g : NanSource) {raw : Word} (h : F32.isFinite raw = true)
    (hk : F32.magnitude volKnee ≤ F32.magnitude (clampSpeed raw)) : resolveVolume g raw = F32.one := by
  have hbits := F32.le_roundBits_of_le (num := F32.magnitude (clampSpeed raw) * F32.unitsPerOne) (m := F32.magBits F32.one)
    magnitude_volKnee_pos (by decide) (by rw [F32.unitsOfBits_one, Nat.mul_comm]; exact Nat.mul_le_mul_right _ hk)
  rw [resolveVolume_of_finite g h]
  apply F32.min_of_not_lt
  rw [← Bool.not_eq_true, F32.lt_iff_key, key_kneeQuotient, F32.key_one]
  omega

/-- Below the knee, the volume is the quotient: the bound by 1 changes no word. -/
theorem resolveVolume_below_knee (g : NanSource) {raw : Word} (h : F32.isFinite raw = true)
    (hk : F32.magnitude (clampSpeed raw) < F32.magnitude volKnee) : resolveVolume g raw = kneeQuotient raw := by
  have hbits := F32.roundBits_le_of_le (num := F32.magnitude (clampSpeed raw) * F32.unitsPerOne) (m := F32.magBits F32.one)
    magnitude_volKnee_pos (by rw [F32.unitsOfBits_one, Nat.mul_comm]; exact Nat.mul_le_mul_left _ hk.le)
  rw [resolveVolume_of_finite g h]
  refine F32.min_of_le (by decide) ((F32.le_iff_key _ _).2 ⟨F32.isNaN_round _ _ _, by decide, ?_⟩)
  rw [key_kneeQuotient, F32.key_one]
  exact_mod_cast hbits

theorem kneeQuotient_correctlyRounded (raw : Word) :
    F32.CorrectlyRounded (|F32.units (clampSpeed raw)| * F32.unitsPerOne) (F32.magnitude volKnee) (kneeQuotient raw) := by
  rw [F32.abs_units, ← Nat.cast_mul]
  exact F32.round_correctlyRounded false _ magnitude_volKnee_pos

end Machine

open Machine in
/-- Settles O17: the two sides of the knee, the worked words evaluated without a draw, and the level that `LATCH` sets. -/
theorem stallVolume : Obligations.StallVolume := by
  refine ⟨fun g raw h => ⟨fun hk => ?above, fun hk => ?below⟩, fun g => ?worked,
    fun s => ⟨s.acted .latch, s.nanSource, s.nanSource_quiet, rfl, ?latched⟩⟩
  case above =>
    rw [F32.abs_units, units_volKnee, Nat.cast_le] at hk
    exact resolveVolume_above_knee g h hk
  case below =>
    rw [F32.abs_units, units_volKnee, Nat.cast_lt] at hk
    refine ⟨?_, ?_, (inUnitRange_resolveVolume g h).2⟩
    · rw [resolveVolume_below_knee g h hk]; exact kneeQuotient_correctlyRounded raw
    · rw [resolveVolume_below_knee g h hk]; exact F32.isNeg_round _ _ _
  case worked =>
    rw [resolveVolume_of_finite g (by decide), resolveVolume_of_finite g (by decide), resolveVolume_of_finite g (by decide),
      resolveVolume_of_finite g (by decide)]
    and_intros <;> decide +kernel
  case latched =>
    obtain ⟨-, hvol, -⟩ := s.acted_latch_levels
    exact hvol

end Sys2Proof
end

section
/-! SUPPORT. `Quant` of a finite control value (rule R128): the product is a finite word, one rounding of the exact one, and its
nearest integer needs no bound. -/

namespace Sys2Proof

/-- Rounding depends on the quotient only. -/
theorem F32.roundBits_mul_right (num : Nat) {den k : Nat} (hd : 0 < den) (hk : 0 < k) :
    F32.roundBits (num * k) (den * k) = F32.roundBits num den := by
  have hdk := Nat.mul_pos hd hk
  exact le_antisymm (F32.roundBits_mono hdk hd (by rw [Nat.mul_right_comm, Nat.mul_assoc]))
    (F32.roundBits_mono hd hdk (by rw [Nat.mul_right_comm, Nat.mul_assoc]))

theorem F32.magnitude_ofInteger {k : Nat} (h : k ≤ 2 ^ 24) : F32.magnitude (F32.ofInteger k) = k * F32.unitsPerOne := by
  rw [← F32.natAbs_units, F32.units_ofInteger h, Int.natAbs_natCast]

/-- A product with an integer is rounded from the integer multiple of the units. -/
theorem F32.mul_ofInteger (nan : Word) {a : Word} (ha : F32.isFinite a = true) {k : Nat} (hk : k ≤ 2 ^ 24) :
    F32.mul nan a (F32.ofInteger k) = F32.round (F32.isNeg a) (F32.magnitude a * k) 1 := by
  obtain ⟨hfinite, hsign, -⟩ := F32.ofInteger_spec hk
  have hbits := F32.roundBits_mul_right (F32.magnitude a * k) Nat.one_pos F32.unitsPerOne_pos
  rw [Nat.one_mul] at hbits
  rw [F32.mul_of_finite nan ha hfinite, F32.magnitude_ofInteger hk, hsign, Bool.bne_false, ← Nat.mul_assoc, F32.round, hbits,
    F32.round]

namespace Machine

/-- A control value clamped to `[0, 1]`. -/
def clampUnit (x : Word) : Word :=
  F32.clamp x F32.zero F32.one

/-- The product of rule R128: the clamped value times `k = Q - 1`, rounded once. -/
def quantProduct (k : Nat) (x : Word) : Word :=
  F32.round (F32.isNeg (clampUnit x)) (F32.magnitude (clampUnit x) * k) 1

theorem isFinite_clampUnit {x : Word} (h : F32.isFinite x = true) : F32.isFinite (clampUnit x) = true :=
  F32.isFinite_clamp h F32.isFinite_zero F32.isFinite_one

theorem units_clampUnit {x : Word} (h : F32.isFinite x = true) :
    F32.units (clampUnit x) = min (max (F32.units x) 0) F32.unitsPerOne := by
  rw [clampUnit, F32.units_clamp h F32.isFinite_zero F32.isFinite_one, F32.units_zero, F32.units_one]

theorem units_clampUnit_eq_magnitude {x : Word} (h : F32.isFinite x = true) :
    F32.units (clampUnit x) = F32.magnitude (clampUnit x) := by
  rw [← F32.abs_units, abs_of_nonneg]
  rw [units_clampUnit h]
  exact le_min (le_max_right _ _) (Int.natCast_nonneg _)

theorem magnitude_clampUnit_le {x : Word} (h : F32.isFinite x = true) : F32.magnitude (clampUnit x) ≤ F32.unitsPerOne := by
  rw [← Int.ofNat_le, ← units_clampUnit_eq_magnitude h, units_clampUnit h]
  exact min_le_right _ _

theorem quantProduct_correctlyRounded (k : Nat) {x : Word} (h : F32.isFinite x = true) :
    F32.CorrectlyRounded (min (max (F32.units x) 0) F32.unitsPerOne * (k : Int)) 1 (quantProduct k x) := by
  have hexact : F32.units (clampUnit x) * (k : Int) =
      if F32.isNeg (clampUnit x) = true then -((F32.magnitude (clampUnit x) * k : Nat) : Int)
      else (F32.magnitude (clampUnit x) * k : Nat) := by
    unfold F32.units
    split <;> simp
  rw [← units_clampUnit h, hexact]
  exact F32.round_correctlyRounded _ _ Nat.one_pos

/-- The clamped value has a sign only as `-0.0` (log 9), and so has the product: its value is its magnitude. -/
theorem units_quantProduct (k : Nat) {x : Word} (h : F32.isFinite x = true) :
    F32.units (quantProduct k x) = F32.magnitude (quantProduct k x) := by
  have hclamp := units_clampUnit_eq_magnitude h
  rw [quantProduct, F32.units, F32.isNeg_round]
  split
  next hneg =>
    have hzero : F32.magnitude (clampUnit x) = 0 := by
      rw [F32.units, if_pos hneg] at hclamp
      omega
    rw [hzero, Nat.zero_mul, F32.round_zero, hneg]
    decide
  next => rfl

/-- The product lies in `[0, Q - 1]`. -/
theorem quantProduct_range {k : Nat} (hk : k ≤ 2 ^ 24) {x : Word} (h : F32.isFinite x = true) :
    F32.isFinite (quantProduct k x) = true ∧ F32.magnitude (quantProduct k x) ≤ k * F32.unitsPerOne := by
  obtain ⟨top, htop, hunits⟩ := F32.exists_bits_of_integer hk
  obtain ⟨hfinite, -, -, hle⟩ := F32.round_between (num := F32.magnitude (clampUnit x) * k) (lo := 0) (hi := top)
    (F32.isNeg (clampUnit x)) Nat.one_pos htop (by simp)
    (by rw [hunits, Nat.mul_one, Nat.mul_comm]; exact Nat.mul_le_mul_left k (magnitude_clampUnit_le h))
  exact ⟨hfinite, hle.trans_eq hunits⟩

/-- `Quant` is the nearest integer of the product, and the bound by `Q - 1` changes nothing. -/
theorem quant_of_finite (g : NanSource) {q : Nat} (hq : q ≤ 2 ^ 24 + 1) {x : Word} (h : F32.isFinite x = true) :
    quant g q x = F32.roundToInteger (F32.magnitude (quantProduct (q - 1) x)) F32.unitsPerOne := by
  have hk : q - 1 ≤ 2 ^ 24 := by omega
  obtain ⟨hfinite, hle⟩ := quantProduct_range hk h
  have hproduct : F32.mul (g 0) (F32.clamp x F32.zero F32.one) (F32.ofInteger (q - 1)) = quantProduct (q - 1) x :=
    F32.mul_ofInteger (g 0) (isFinite_clampUnit h) hk
  rw [quant, hproduct, F32.roundTiesToEven, if_pos hfinite]
  exact Nat.min_eq_left (F32.roundToInteger_le _ F32.unitsPerOne_pos hle)

end Machine

open Machine in
/-- Settles O18: the rounded quotient is a nearest integer, even in a tie; the worked values are evaluated without a draw. -/
theorem quantRoundsToTheTable : Obligations.QuantRoundsToTheTable := by
  refine ⟨fun g q x _ hq h => ⟨?bound, quantProduct (q - 1) x, quantProduct_correctlyRounded (q - 1) h, fun z => ?nearest⟩,
    fun g => ?worked⟩
  case bound => exact Nat.min_le_right _ _
  case nearest =>
    rw [units_quantProduct _ h, quant_of_finite g hq h]
    exact ⟨F32.roundToInteger_nearest _ F32.unitsPerOne_pos z, F32.roundToInteger_tie _ F32.unitsPerOne_pos⟩
  case worked =>
    simp only [List.forall_mem_cons, List.not_mem_nil, IsEmpty.forall_iff, implies_true, and_true]
    and_intros
    all_goals
      rw [quant_of_finite g (by decide) (by decide)]
      decide +kernel

end Sys2Proof
end

section
/-! SUPPORT. The store commands as equations (rules R161, R162, R193), and the stereo frame that `STWRITE` and the clears write. -/

namespace Sys2Proof

namespace Machine

/-! ### The checks of the store commands -/

theorem exec_stwrite_of_idle {s : State} (h : s.clrBusy = false) : exec .stwrite s = .next (s.acted .stwrite) :=
  if_neg (by simp [h])

theorem exec_stwrite_of_busy {s : State} (h : s.clrBusy = true) : exec .stwrite s = .next (s.withError .busy) := by
  rw [← State.raise_eq_withError]
  exact if_pos h

theorem exec_whwrite_of_busy {s : State} (h : s.clrBusy = true) (c : Channel) :
    exec (.whwrite c) s = .next (s.withError .busy) := by
  rw [← State.raise_eq_withError]
  exact if_pos h

theorem exec_stread_of_finite {s : State} (h : F32.isFinite s.arg0 = true) (dir : Direction) :
    exec (.stread dir) s = .next (s.acted (.stread dir)) :=
  if_pos h

theorem exec_stread_of_not_finite {s : State} (h : ¬F32.isFinite s.arg0 = true) (dir : Direction) :
    exec (.stread dir) s = .next (s.withError .nonfinite) := by
  rw [← State.raise_eq_withError]
  exact if_neg h

/-! ### Integer positions -/

theorem cast_integerPosition {n : Nat} (h : 0 < n) (w : Word) : (integerPosition n w : Int) = w.toInt % n :=
  Int.toNat_of_nonneg (Int.emod_nonneg _ (by omega))

theorem integerPosition_congr {n : Nat} {k k' : Word} {m : Int} (h : k'.toInt = k.toInt + m * n) :
    integerPosition n k' = integerPosition n k := by
  rw [integerPosition, integerPosition, h, Int.add_mul_emod_self_right]

/-! ### One stereo frame -/

/-- Sample `i` of both channels written, L before R. -/
def State.writeFrame (s : State) (i : Nat) (l r : Word) : State :=
  (s.storeWrite .left i l).storeWrite .right i r

theorem State.acted_stwrite (s : State) :
    s.acted .stwrite = s.writeFrame (integerPosition s.cfg.n s.arg0) s.arg1 s.arg2 := rfl

theorem State.wf_writeFrame {s : State} (h : s.mem.wf = true) (i : Nat) (l r : Word) : (s.writeFrame i l r).mem.wf = true :=
  State.wf_storeWrite (State.wf_storeWrite h ..) ..

/-- `S[c][j]` after a frame was written. -/
theorem State.storeRead_writeFrame {s : State} (h : s.mem.wf = true) (i : Nat) (l r : Word) (c : Channel) (j : Nat) :
    (s.writeFrame i l r).storeRead c j = if j = i then (if c = .left then l else r) else s.storeRead c j := by
  rw [State.writeFrame, State.storeRead_storeWrite (State.wf_storeWrite h ..), State.storeRead_storeWrite h]
  cases c <;> simp

/-- A byte read after a frame was written: its eight bytes start at `8i`. -/
theorem State.readByte_writeFrame {s : State} (h : s.mem.wf = true) (i : Nat) (l r : Word) (x : Nat) :
    (s.writeFrame i l r).mem.readByte x =
      if 8 * i + 4 ≤ x ∧ x < 8 * i + 8 then Memory.byteOf r (x - (8 * i + 4))
      else if 8 * i ≤ x ∧ x < 8 * i + 4 then Memory.byteOf l (x - 8 * i)
      else s.mem.readByte x := by
  have hleft : 4 * wordAddress .left i = 8 * i := by simp only [wordAddress, channelBit]; omega
  have hright : 4 * wordAddress .right i = 8 * i + 4 := by simp only [wordAddress, channelBit]; omega
  rw [State.writeFrame, State.storeWrite_mem, Memory.readByte_writeWord (State.wf_storeWrite h ..), State.storeWrite_mem,
    Memory.readByte_writeWord h, hleft, hright]

end Machine

open Machine in
/-- Settles O22: `STWRITE` writes one frame, and the reads after a frame was written. -/
theorem stwriteStoresOneFrame : Obligations.StwriteStoresOneFrame := by
  refine fun s => ⟨fun hidle hwf hn => ?_, exec_stwrite_of_busy⟩
  refine ⟨s.acted .stwrite, exec_stwrite_of_idle hidle, rfl, integerPosition s.cfg.n s.arg0, cast_integerPosition hn _,
    integerPosition_lt hn _, ?left, ?right, fun a ha => ?outside⟩
  case left => rw [State.acted_stwrite, State.storeRead_writeFrame hwf, if_pos rfl, if_pos rfl]
  case right => rw [State.acted_stwrite, State.storeRead_writeFrame hwf, if_pos rfl, if_neg (by decide)]
  case outside => rw [State.acted_stwrite, State.readByte_writeFrame hwf, if_neg (by omega), if_neg (by omega)]

end Sys2Proof
end

section
/-! SUPPORT. The clears (rules R163 to R165): the range operation as the loop of single stores, one slice, and a whole clear by
slices. -/

namespace Sys2Proof

namespace Machine

/-! ### The range operation -/

/-- The range operation is known by its reads. -/
theorem Memory.zeroBytes_eq_of_reads {m m' : Memory} (h : m.wf = true) (h' : m'.wf = true) {lo hi : Nat}
    (hread : ∀ x, m'.readByte x = if lo ≤ x ∧ x < hi then 0#8 else m.readByte x) : m.zeroBytes lo hi = m' :=
  Memory.ext_of_canonical (Memory.wf_zeroBytes h lo hi) h' fun x => by rw [Memory.readByte_zeroBytes h, hread]

theorem State.storeClear_of_le {s : State} (h : s.mem.wf = true) {lo hi : Nat} (hle : hi ≤ lo) : s.storeClear lo hi = s := by
  have hmem : s.mem.zeroBytes (8 * lo) (8 * hi) = s.mem :=
    Memory.zeroBytes_eq_of_reads h h fun x => by rw [if_neg (by omega)]
  rw [State.storeClear, hmem]

@[simp] theorem Memory.byteOf_zero (k : Nat) : Memory.byteOf 0#32 k = 0#8 := by
  simp [Memory.byteOf]

/-- The first sample of a range can be cleared by a frame of zeros. -/
theorem State.storeClear_first {s : State} (h : s.mem.wf = true) {lo hi : Nat} (hlt : lo < hi) :
    s.storeClear lo hi = (s.writeFrame lo 0#32 0#32).storeClear (lo + 1) hi := by
  have hwf := State.wf_writeFrame h lo 0#32 0#32
  have hmem : s.mem.zeroBytes (8 * lo) (8 * hi) = (s.writeFrame lo 0#32 0#32).mem.zeroBytes (8 * (lo + 1)) (8 * hi) := by
    refine Memory.zeroBytes_eq_of_reads h (Memory.wf_zeroBytes hwf ..) fun x => ?_
    rw [Memory.readByte_zeroBytes hwf, State.readByte_writeFrame h, Memory.byteOf_zero, Memory.byteOf_zero]
    grind
  rw [State.storeClear, hmem]
  rfl

theorem State.storeClear_eq_foldl {s : State} (h : s.mem.wf = true) (lo count : Nat) :
    s.storeClear lo (lo + count) = (List.range' lo count).foldl (fun u i => u.writeFrame i 0#32 0#32) s := by
  induction count generalizing s lo with
  | zero => exact State.storeClear_of_le h le_rfl
  | succ count ih =>
    rw [State.storeClear_first h (by omega), List.range'_succ, List.foldl_cons, ← ih (State.wf_writeFrame h ..),
      Nat.add_right_comm, Nat.add_assoc]

end Machine

open Machine in
/-- Settles O29: by induction on the length of the range; an empty range clears nothing. -/
theorem clearIsALoopOfStores : Obligations.ClearIsALoopOfStores := by
  intro s lo hi hwf
  rcases Nat.le_total hi lo with hle | hle
  · rw [State.storeClear_of_le hwf hle, Nat.sub_eq_zero_of_le hle]
    rfl
  · have hloop := State.storeClear_eq_foldl hwf lo (hi - lo)
    rwa [Nat.add_sub_cancel' hle] at hloop

namespace Machine

/-! ### One slice -/

/-- `CLEAR STEP` changes the store, the clear engine and `RES0` only (rules R163, R165). -/
theorem State.clearStep_frame (s : State) :
    s.clearStep =
      { s with
        mem := s.clearStep.mem, clrBusy := s.clearStep.clrBusy, clrPtr := s.clearStep.clrPtr, res0 := s.clearStep.res0 } := by
  unfold State.clearStep
  split <;> rfl

/-- The slice that ends the store ends the clear and returns 1. -/
theorem State.clearStep_last {s : State} (h : s.clearTo = s.cfg.n) :
    s.clearStep.clrBusy = false ∧ s.clearStep.clrPtr = 0#32 ∧ s.clearStep.res0 = 1#32 := by
  rw [State.clearStep, if_pos h]
  exact ⟨rfl, rfl, rfl⟩

/-- Any other slice leaves the clear in progress at its end and returns 0. -/
theorem State.clearStep_not_last {s : State} (hn : s.cfg.n ≤ 2 ^ 24) (h : s.clearTo ≠ s.cfg.n) :
    s.clearStep.clrBusy = true ∧ s.clearStep.clrPtr.toNat = s.clearTo ∧ s.clearStep.res0 = 0#32 := by
  have hle : s.clearTo ≤ s.cfg.n := Nat.min_le_right _ _
  rw [State.clearStep, if_neg h]
  exact ⟨rfl, toNat_ofNat_of_lt (by omega), rfl⟩

/-- `S[c][i]` after one slice. -/
theorem State.storeRead_clearStep {s : State} (h : s.mem.wf = true) (c : Channel) (i : Nat) :
    s.clearStep.storeRead c i = if s.clearFrom ≤ i ∧ i < s.clearTo then 0#32 else s.storeRead c i := by
  rw [State.storeRead, State.clearStep_mem]
  exact State.storeRead_storeClear h ..

/-! ### A whole clear -/

/-- A command performed once more is performed after the others. -/
theorem repeatCommand_succ (i : Instr) (k : Nat) (s : State) :
    repeatCommand i (k + 1) s = (repeatCommand i k s).bind fun t => nextState (exec i t) := by
  induction k generalizing s with
  | zero => exact Option.bind_fun_some _
  | succ k ih =>
    rw [repeatCommand, Option.bind_congr fun t _ => ih t, ← Option.bind_assoc]
    rfl

/-- A call is not the last one exactly while the slices before its end lie inside the store. -/
theorem lt_ceil_div_iff {n c k : Nat} (hc : 0 < c) : k < (n + c - 1) / c ↔ k * c < n := by
  rw [← Nat.succ_le_iff, Nat.le_div_iff_mul_le hc, Nat.succ_mul]
  omega

/-- What `k` calls of `CLEAR STEP` leave of a state with no clear in progress (rule R165). -/
structure State.SlicesCleared (s : State) (k : Nat) (t : State) : Prop where
  frame : t = { s with mem := t.mem, clrBusy := t.clrBusy, clrPtr := t.clrPtr, res0 := t.res0 }
  wf : t.mem.wf = true
  ptr : k * s.cfg.clearSlice < s.cfg.n → t.clearFrom = k * s.cfg.clearSlice
  reads : ∀ (c : Channel) (i : Nat), i < s.cfg.n →
    t.storeRead c i = if i < k * s.cfg.clearSlice then 0#32 else s.storeRead c i

theorem State.SlicesCleared.cfg {s t : State} {k : Nat} (h : s.SlicesCleared k t) : t.cfg = s.cfg := by
  rw [h.frame]

theorem State.SlicesCleared.zero {s : State} (hwf : s.mem.wf = true) (hidle : s.clrBusy = false) : s.SlicesCleared 0 s where
  frame := rfl
  wf := hwf
  ptr _ := by rw [State.clearFrom, hidle, Nat.zero_mul]; rfl
  reads c i _ := by rw [Nat.zero_mul, if_neg (Nat.not_lt_zero i)]

/-- Where the next slice ends. -/
theorem State.SlicesCleared.clearTo {s t : State} {k : Nat} (h : s.SlicesCleared k t) (hk : k * s.cfg.clearSlice < s.cfg.n) :
    t.clearTo = min ((k + 1) * s.cfg.clearSlice) s.cfg.n := by
  rw [State.clearTo, h.ptr hk, h.cfg, Nat.succ_mul]

theorem State.SlicesCleared.step {s t : State} {k : Nat} (h : s.SlicesCleared k t) (hn : s.cfg.n ≤ 2 ^ 24)
    (hk : k * s.cfg.clearSlice < s.cfg.n) : s.SlicesCleared (k + 1) t.clearStep where
  frame := by rw [t.clearStep_frame, h.frame]
  wf := by rw [State.clearStep_mem]; exact Memory.wf_zeroBytes h.wf ..
  ptr hk' := by
    have hto := h.clearTo hk
    rw [Nat.min_eq_left hk'.le] at hto
    obtain ⟨hbusy, hptr, -⟩ := State.clearStep_not_last (s := t) (by rwa [h.cfg]) (by rw [hto, h.cfg]; exact hk'.ne)
    rw [State.clearFrom, if_pos hbusy, hptr, hto]
  reads c i hi := by
    rw [State.storeRead_clearStep h.wf, h.reads c i hi, h.ptr hk, h.clearTo hk, Nat.succ_mul]
    grind

/-- The calls of a whole clear, up to the one that reaches the end of the store. -/
theorem State.repeat_clearStep {s : State} (hn : s.cfg.n ≤ 2 ^ 24) (hwf : s.mem.wf = true) (hidle : s.clrBusy = false) (k : Nat)
    (hk : ∀ j < k, j * s.cfg.clearSlice < s.cfg.n) :
    ∃ t, repeatCommand (.clear .step) k s = some t ∧ s.SlicesCleared k t := by
  induction k with
  | zero => exact ⟨s, rfl, .zero hwf hidle⟩
  | succ k ih =>
    obtain ⟨t, hrun, ht⟩ := ih fun j hj => hk j (by omega)
    exact ⟨t.clearStep, by rw [repeatCommand_succ, hrun]; rfl, ht.step hn (hk k (by omega))⟩

end Machine

open Machine in
/-- Settles O28: one slice by its two cases; the calls of a whole clear by induction, the last of them told by
`lt_ceil_div_iff`. -/
theorem clearStepsZeroTheStore : Obligations.ClearStepsZeroTheStore := by
  refine ⟨fun s hwf hn => ?slice, fun s hwf _ hn hc hidle k hpos hk => ?clear⟩
  case slice =>
    exact ⟨s.clearStep, s.clearFrom, s.clearTo, rfl, rfl, rfl, s.clearStep_frame, State.storeRead_clearStep hwf,
      State.clearStep_last, State.clearStep_not_last hn⟩
  case clear =>
    obtain ⟨k, rfl⟩ : ∃ j, k = j + 1 := ⟨k - 1, by omega⟩
    have hbefore (j : Nat) (hj : j ≤ k) : j * s.cfg.clearSlice < s.cfg.n := (lt_ceil_div_iff hc).1 (by omega)
    obtain ⟨t, hrun, ht⟩ := State.repeat_clearStep hn hwf hidle k fun j hj => hbefore j hj.le
    have hto := ht.clearTo (hbefore k le_rfl)
    have hnext := ht.step hn (hbefore k le_rfl)
    refine ⟨t.clearStep, by rw [repeatCommand_succ, hrun]; rfl, hnext.frame, fun hlt => ?more, fun hlast => ?last, hnext.reads⟩
    case more =>
      have hinside := (lt_ceil_div_iff hc).1 hlt
      rw [Nat.min_eq_left hinside.le] at hto
      rw [← hto]
      exact State.clearStep_not_last (by rwa [ht.cfg]) (by rw [hto, ht.cfg]; exact hinside.ne)
    case last =>
      have hend : s.cfg.n ≤ (k + 1) * s.cfg.clearSlice := not_lt.1 (mt (lt_ceil_div_iff hc).2 (by omega))
      rw [Nat.min_eq_right hend] at hto
      exact State.clearStep_last (by rw [hto, ht.cfg])

end Sys2Proof
end

section
/-! SUPPORT. The interpolated read (rule R160): the fraction of a wrapped position is exact, and a result that is no NaN does not
depend on the draws. -/

namespace Sys2Proof

/-! ### The fraction of a position -/

/-- A significand of any binade, normalised or not, is a finite magnitude. -/
theorem F32.exists_bits_of_significand {r k : Nat} (hr : r < 2 ^ 24) (hk : k ≤ 253) :
    ∃ m, m < F32.infBits ∧ F32.unitsOfBits m = r * 2 ^ k := by
  induction k generalizing r with
  | zero => exact ⟨0 * 2 ^ 23 + r, by norm_num [F32.infBits]; omega, F32.unitsOfBits_significand (.inl rfl) hr.le⟩
  | succ k ih =>
    rcases Nat.lt_or_ge r (2 ^ 23) with hlt | hge
    · obtain ⟨m, hm, hunits⟩ := ih (r := 2 * r) (by omega) (by omega)
      exact ⟨m, hm, by rw [hunits]; ring⟩
    · exact ⟨(k + 1) * 2 ^ 23 + r, by norm_num [F32.infBits]; omega, F32.unitsOfBits_significand (.inr hge) hr.le⟩

/-- The part of a finite magnitude below a power of two is a finite magnitude. -/
theorem F32.exists_bits_of_mod {m : Nat} (hm : m < F32.infBits) (e : Nat) :
    ∃ f, f < F32.infBits ∧ F32.unitsOfBits f = F32.unitsOfBits m % 2 ^ e := by
  obtain ⟨k, r, hmk, hlo, hr, hunits⟩ := F32.exists_significand m
  have hk : k ≤ 253 := by norm_num [F32.infBits] at hm; omega
  rw [hunits]
  rcases Nat.le_total k e with hke | hke
  · have hmod : r * 2 ^ k % 2 ^ e = r % 2 ^ (e - k) * 2 ^ k := by
      rw [← Nat.mul_mod_mul_right, ← pow_add, Nat.sub_add_cancel hke]
    rw [hmod]
    exact F32.exists_bits_of_significand ((Nat.mod_le ..).trans_lt hr) hk
  · refine ⟨0, by norm_num [F32.infBits], ?_⟩
    rw [F32.unitsOfBits_zero, Nat.mod_eq_zero_of_dvd ((Nat.pow_dvd_pow 2 hke).mul_left r)]

/-- `pw - floor(pw)`, the weight of the neighbour (rule R160). -/
def F32.fraction (pw : Word) : Word :=
  F32.addFinite pw (F32.neg (F32.ofInteger (F32.floorNat pw)))

/-- The integer part and the fraction of a position below `2^24`: the difference of the two is exact (rule R160). -/
theorem F32.fraction_spec {pw : Word} (hf : F32.isFinite pw = true) (hs : F32.isNeg pw = false)
    (hi : F32.floorNat pw ≤ 2 ^ 24) :
    F32.isFinite (F32.fraction pw) = true ∧ F32.units (F32.fraction pw) = (F32.magnitude pw % F32.unitsPerOne : Nat) := by
  obtain ⟨f, hfin, hunits⟩ := F32.exists_bits_of_mod ((F32.isFinite_iff pw).1 hf) 149
  have hv : F32.units (F32.ofBits false f) = (F32.magnitude pw % F32.unitsPerOne : Nat) := by
    rw [F32.units_ofBits _ (hfin.trans F32.infBits_lt), hunits]
    rfl
  have hdiff : F32.units pw + F32.units (F32.neg (F32.ofInteger (F32.floorNat pw))) = F32.units (F32.ofBits false f) := by
    have hdiv := Nat.div_add_mod (F32.magnitude pw) F32.unitsPerOne
    rw [hv, F32.units_neg, F32.units_ofInteger hi, F32.units_of_pos hs, F32.floorNat, Nat.mul_comm]
    rw [F32.magnitude] at hdiv ⊢
    omega
  rw [← hv]
  exact F32.units_addFinite_exact (F32.isFinite_ofBits false hfin) hdiff

/-! ### Results that are no NaN -/

/-- A sum is its draw for every draw, or for none. -/
theorem F32.add_draws (a b : Word) :
    (∀ nan, F32.add nan a b = nan) ∨ ∀ nan nan', F32.add nan a b = F32.add nan' a b := by
  unfold F32.add
  split_ifs
  all_goals simp

/-- A product is its draw for every draw, or for none. -/
theorem F32.mul_draws (a b : Word) :
    (∀ nan, F32.mul nan a b = nan) ∨ ∀ nan nan', F32.mul nan a b = F32.mul nan' a b := by
  unfold F32.mul
  split_ifs
  all_goals simp

/-- A sum that is no NaN has operands that are none, and does not depend on the draw. -/
theorem F32.add_of_number {q a b : Word} (hq : F32.isNaN q = true) (h : F32.isNaN (F32.add q a b) = false) :
    F32.isNaN a = false ∧ F32.isNaN b = false ∧ ∀ nan, F32.add nan a b = F32.add q a b := by
  have hne : F32.add q a b ≠ q := fun he => by rw [he, hq] at h; cases h
  refine ⟨Bool.eq_false_iff.2 fun ha => hne (F32.add_of_isNaN q (.inl ha)),
    Bool.eq_false_iff.2 fun hb => hne (F32.add_of_isNaN q (.inr hb)), fun nan => ?_⟩
  exact ((F32.add_draws a b).resolve_left fun hall => hne (hall q)) nan q

/-- A product that is no NaN has operands that are none, and does not depend on the draw. -/
theorem F32.mul_of_number {q a b : Word} (hq : F32.isNaN q = true) (h : F32.isNaN (F32.mul q a b) = false) :
    F32.isNaN a = false ∧ F32.isNaN b = false ∧ ∀ nan, F32.mul nan a b = F32.mul q a b := by
  have hne : F32.mul q a b ≠ q := fun he => by rw [he, hq] at h; cases h
  refine ⟨Bool.eq_false_iff.2 fun ha => hne (F32.mul_of_isNaN q (.inl ha)),
    Bool.eq_false_iff.2 fun hb => hne (F32.mul_of_isNaN q (.inr hb)), fun nan => ?_⟩
  exact ((F32.mul_draws a b).resolve_left fun hall => hne (hall q)) nan q

/-- A difference that is no NaN does not depend on the draw. -/
theorem F32.sub_of_number {q a b : Word} (hq : F32.isNaN q = true) (h : F32.isNaN (F32.sub q a b) = false) (nan : Word) :
    F32.sub nan a b = F32.sub q a b :=
  (F32.add_of_number hq h).2.2 nan

namespace Machine

/-- An interpolated value that is no NaN does not depend on the draws. -/
theorem lerp_of_number {q : NanSource} (hq : ∀ k, F32.isNaN (q k) = true) {fr a b : Word}
    (h : F32.isNaN (lerp q fr a b) = false) (g : NanSource) : lerp g fr a b = lerp q fr a b := by
  obtain ⟨-, hmul, hadd⟩ := F32.add_of_number (hq 3) h
  obtain ⟨hsub, -, hmul⟩ := F32.mul_of_number (hq 2) hmul
  rw [lerp, F32.sub_of_number (hq 1) hsub (g 1), hmul (g 2), hadd (g 3), lerp]

/-! ### The index, the neighbour and the fraction of a read -/

/-- The base index `i` of a read at `p` (rule R160). -/
def sampleIndex (n : Nat) (p : Word) : Nat :=
  F32.floorNat (wrapN n p)

/-- The weight `fr` of a read at `p` (rule R160). -/
def sampleFraction (n : Nat) (p : Word) : Word :=
  F32.fraction (wrapN n p)

section
variable {n : Nat} (h0 : 0 < n) (hn : n ≤ 2 ^ 24) {p : Word} (hp : F32.isFinite p = true)
include h0 hn hp

theorem sampleIndex_lt : sampleIndex n p < n := by
  obtain ⟨-, hsign, hlt⟩ := wrapN_range hn h0 hp
  rw [F32.units_of_pos hsign] at hlt
  exact (Nat.div_lt_iff_lt_mul F32.unitsPerOne_pos).2 (by exact_mod_cast hlt)

theorem sampleFraction_spec :
    F32.isFinite (sampleFraction n p) = true ∧
      F32.units (sampleFraction n p) = (F32.magnitude (wrapN n p) % F32.unitsPerOne : Nat) := by
  obtain ⟨hfinite, hsign, -⟩ := wrapN_range hn h0 hp
  exact F32.fraction_spec hfinite hsign ((sampleIndex_lt h0 hn hp).le.trans hn)

/-- The wrapped position is its index and its fraction (rule R160). -/
theorem units_wrapN_eq :
    F32.units (wrapN n p) = sampleIndex n p * F32.unitsPerOne + F32.units (sampleFraction n p) := by
  obtain ⟨-, hsign, -⟩ := wrapN_range hn h0 hp
  rw [(sampleFraction_spec h0 hn hp).2, F32.units_of_pos hsign]
  exact_mod_cast (Nat.div_add_mod' (F32.magnitude (wrapN n p)) F32.unitsPerOne).symm

/-- `wrapN` leaves a wrapped position (rule R168). -/
theorem wrapN_wrapN : wrapN n (wrapN n p) = wrapN n p := by
  obtain ⟨hfinite, hsign, hlt⟩ := wrapN_range hn h0 hp
  exact wrapN_of_inside hn hfinite hsign hlt

end

/-- `Interp` by its index, neighbour and fraction; the difference that gives the fraction draws nothing (rule R160). -/
theorem State.interp_eq {s : State} (h0 : 0 < s.cfg.n) (hn : s.cfg.n ≤ 2 ^ 24) {p : Word} (hp : F32.isFinite p = true)
    (g : NanSource) (c : Channel) (dir : Direction) :
    s.interp g c p dir =
      lerp g (sampleFraction s.cfg.n p) (s.storeRead c (sampleIndex s.cfg.n p))
        (s.storeRead c (neighbour s.cfg.n (sampleIndex s.cfg.n p) dir)) := by
  have hindex : F32.floorNat (wrapN s.cfg.n p) ≤ 2 ^ 24 := (sampleIndex_lt h0 hn hp).le.trans hn
  rw [State.interp, State.interpAt, F32.sub_of_finite (g 0) (wrapN_range hn h0 hp).1 (F32.isFinite_ofInteger hindex)]
  rfl

/-- The neighbour in the read direction, around the ends of the store (rule R160). -/
theorem neighbour_eq {n i : Nat} (hi : i < n) (dir : Direction) :
    neighbour n i dir = (match dir with
      | .forward => if i + 1 = n then 0 else i + 1
      | .backward => if i = 0 then n - 1 else i - 1) := by
  cases dir with
  | forward =>
    have hcast : ((i : Int) + 1) % n = ((i + 1) % n : Nat) := by push_cast; rfl
    rw [neighbour, directionStep, hcast, Int.toNat_natCast]
    show (i + 1) % n = if i + 1 = n then 0 else i + 1
    split_ifs with hend
    · rw [hend, Nat.mod_self]
    · exact Nat.mod_eq_of_lt (by omega)
  | backward =>
    have hcast : ((i : Int) + -1) % n = ((i + (n - 1)) % n : Nat) := by
      rw [← Int.add_emod_right]
      push_cast [Nat.cast_sub (show 1 ≤ n by omega)]
      ring_nf
    rw [neighbour, directionStep, hcast, Int.toNat_natCast]
    show (i + (n - 1)) % n = if i = 0 then n - 1 else i - 1
    split_ifs with hzero
    · rw [hzero, Nat.zero_add, Nat.mod_eq_of_lt (by omega)]
    · rw [show i + (n - 1) = i - 1 + n by omega, Nat.add_mod_right, Nat.mod_eq_of_lt (by omega)]

theorem neighbour_lt {n i : Nat} (hi : i < n) (dir : Direction) : neighbour n i dir < n := by
  have hn : (0 : Int) < n := by omega
  have hlt := Int.emod_lt_of_pos ((i : Int) + directionStep dir) hn
  have hnonneg := Int.emod_nonneg ((i : Int) + directionStep dir) hn.ne'
  unfold neighbour
  omega

/-- `STREAD` changes the results only (rule R78). -/
theorem State.acted_stread_eq (s : State) (dir : Direction) :
    s.acted (.stread dir) = { s with res0 := (s.acted (.stread dir)).res0, res1 := (s.acted (.stread dir)).res1 } := rfl

/-- `STREAD` reads nothing that it changes (rule R78). -/
theorem exec_stread_again {s : State} (h : F32.isFinite s.arg0 = true) (dir : Direction) :
    exec (.stread dir) (s.acted (.stread dir)) = .next (s.acted (.stread dir)) :=
  exec_stread_of_finite (s := s.acted (.stread dir)) h dir

/-! ### Worked values -/

/-- A worked value: an interpolation that was evaluated with some draws and is no NaN. -/
theorem State.interp_of_number {s : State} (h0 : 0 < s.cfg.n) (hn : s.cfg.n ≤ 2 ^ 24) {p v : Word} (hp : F32.isFinite p = true)
    {c : Channel} {dir : Direction} (hv : F32.isNaN v = false) (h : s.interp (fun _ => 0x7FC00000#32) c p dir = v) (g : NanSource) :
    s.interp g c p dir = v := by
  rw [State.interp_eq h0 hn hp] at h ⊢
  rw [lerp_of_number (q := fun _ => 0x7FC00000#32) (fun _ => by decide) (by rw [h]; exact hv), h]

/-- The NaN answers of the three operations on each channel, numbered from 0: the difference in the fraction draws none. -/
def interpDraws (g : NanSource) : NanSource :=
  fun k => if k < 3 then g (k + 1) else g (k + 2)

end Machine

open Machine in
/-- Settles O23: the read by its index, neighbour and exact fraction; the worked values are evaluated with one draw and hold with
every other. -/
theorem streadInterpolates : Obligations.StreadInterpolates := by
  refine ⟨fun s dir h0 hn hp => ?reads, fun s dir hp => exec_stread_of_not_finite (by simp [hp]) dir, fun g => ?worked⟩
  case reads =>
    have hlt := sampleIndex_lt h0 hn hp
    obtain ⟨hfinite, hfraction⟩ := sampleFraction_spec h0 hn hp
    refine ⟨s.acted (.stread dir), interpDraws (s.readSource dir), sampleFraction s.cfg.n s.arg0, sampleIndex s.cfg.n s.arg0,
      neighbour s.cfg.n (sampleIndex s.cfg.n s.arg0) dir, ?quiet, exec_stread_of_finite hp dir, s.acted_stread_eq dir,
      exec_stread_again hp dir, hlt, ?neighbour, hfinite, ?nonneg, ?below, units_wrapN_eq h0 hn hp,
      State.interp_eq h0 hn hp _ .left dir, State.interp_eq h0 hn hp _ .right dir⟩
    case quiet =>
      intro k
      unfold interpDraws
      split <;> exact s.readSource_quiet dir _
    case neighbour => cases dir <;> exact neighbour_eq hlt _
    case nonneg => rw [hfraction]; exact Int.natCast_nonneg _
    case below => rw [hfraction]; exact_mod_cast Nat.mod_lt _ F32.unitsPerOne_pos
  case worked =>
    simp only [List.cons_append, List.nil_append, List.forall_mem_cons, List.not_mem_nil, IsEmpty.forall_iff, implies_true,
      and_true]
    and_intros
    all_goals exact State.interp_of_number (by decide) (by decide) (by decide) (by decide) (by decide +kernel) g

end Sys2Proof
end

section
/-! SUPPORT. Positions modulo `N` (rule R168), and what a read returns at an integer position and from a cleared store (rules R164,
R169). -/

namespace Sys2Proof

open Machine in
/-- Settles O25: the operand of a write is used only through its integer position, that of a read only through its `wrapN`. -/
theorem positionsAreUsedModuloN : Obligations.PositionsAreUsedModuloN := by
  refine ⟨fun s k k' m hk => ?written, fun s dir p h0 hn hp => ?read⟩
  case written =>
    have hpos := integerPosition_congr hk
    refine ⟨hpos, ?_⟩
    rcases Bool.eq_false_or_eq_true s.clrBusy with hbusy | hidle
    · exact ⟨_, exec_stwrite_of_busy (s := { s with arg0 := k }) hbusy, exec_stwrite_of_busy (s := { s with arg0 := k' }) hbusy⟩
    · refine ⟨_, exec_stwrite_of_idle (s := { s with arg0 := k }) hidle, ?_⟩
      rw [exec_stwrite_of_idle (s := { s with arg0 := k' }) hidle, State.acted_stwrite, State.acted_stwrite, hpos]
      rfl
  case read =>
    refine ⟨_, exec_stread_of_finite (s := { s with arg0 := p }) hp dir, ?_⟩
    rw [exec_stread_of_finite (s := { s with arg0 := wrapN s.cfg.n p }) (wrapN_range hn h0 hp).1]
    simp only [State.acted, State.interp, State.readSource, wrapN_wrapN h0 hn hp]
    rfl

/-! ### Zeros in the three operations -/

/-- Adding a zero leaves every finite word but `-0.0`. -/
theorem F32.addFinite_zero {v z : Word} (hv : F32.isFinite v = true) (hne : v ≠ 0x80000000#32) (hz : F32.units z = 0) :
    F32.addFinite v z = v := by
  rw [F32.addFinite, hz, add_zero]
  split
  next h0 =>
    have hmag := (F32.units_eq_zero_iff v).1 h0
    have hsign : F32.isNeg v = false :=
      Bool.eq_false_iff.2 fun hneg => hne (F32.ext_bits (hneg.trans (by decide)) (hmag.trans (by decide)))
    exact F32.ext_bits (by rw [hsign, F32.isNeg_ofBits _ (by norm_num), Bool.false_and])
      (by rw [hmag, F32.magBits_ofBits _ (by norm_num)])
  next h0 =>
    have hbits : F32.roundBits (F32.units v).natAbs 1 = F32.magBits v :=
      F32.roundBits_exact Nat.one_pos ((F32.isFinite_iff v).1 hv).le (by rw [F32.natAbs_units, F32.magnitude, mul_one])
    have hsign : decide (F32.units v < 0) = F32.isNeg v := by
      have hpos := F32.magnitude_pos h0
      unfold F32.units
      cases F32.isNeg v <;> simp [hpos]
    exact F32.ext_bits (by rw [F32.isNeg_round, hsign]) (by rw [F32.magBits_round, hbits])

/-- A finite word times `+0.0` is the zero of its sign. -/
theorem F32.mul_zero (nan : Word) {d : Word} (hd : F32.isFinite d = true) :
    F32.mul nan d F32.zero = F32.ofBits (F32.isNeg d) 0 := by
  rw [F32.mul_of_finite nan hd F32.isFinite_zero, F32.isNeg_zero, Bool.bne_false,
    show F32.magnitude F32.zero = 0 by decide, Nat.mul_zero, F32.round,
    F32.roundBits_exact (m := 0) F32.unitsPerOne_pos (Nat.zero_le _) (by simp)]

theorem F32.isFinite_ofBits_zero (neg : Bool) : F32.isFinite (F32.ofBits neg 0) = true := by
  cases neg <;> decide

theorem F32.units_ofBits_zero (neg : Bool) : F32.units (F32.ofBits neg 0) = 0 := by
  cases neg <;> decide

/-- A word that is not finite times `+0.0` is a NaN. -/
theorem F32.mul_zero_of_not_finite (nan : Word) {d : Word} (hd : F32.isFinite d = false) : F32.mul nan d F32.zero = nan := by
  cases hnan : F32.isNaN d with
  | true => exact F32.mul_of_isNaN nan (.inl hnan)
  | false =>
    have hinf : F32.isInf d = true := (F32.isFinite_or_isInf hnan).resolve_left (by simp [hd])
    exact F32.mul_of_isInf_zero nan hinf (by decide)

theorem F32.isNaN_of_isQuietNaN {w : Word} (h : F32.isQuietNaN w = true) : F32.isNaN w = true := by
  have hfield : (w.extractLsb' 22 9).toNat = 0x1FF := by
    rw [F32.isQuietNaN, beq_iff_eq] at h
    rw [h]
    rfl
  rw [BitVec.extractLsb'_toNat, Nat.shiftRight_eq_div_pow] at hfield
  refine decide_eq_true ?_
  unfold F32.infBits F32.magBits
  omega

theorem F32.not_isFinite_of_isNaN {w : Word} (h : F32.isNaN w = true) : F32.isFinite w = false :=
  Bool.eq_false_iff.2 fun hf => by rw [F32.not_isNaN_of_finite hf] at h; cases h

theorem F32.not_isFinite_of_isInf {w : Word} (h : F32.isInf w = true) : F32.isFinite w = false :=
  Bool.eq_false_iff.2 fun hf => by rw [F32.not_isInf_of_finite hf] at h; cases h

/-- A sum with an operand that is not finite is not finite, its NaN answer included. -/
theorem F32.add_not_finite {nan a b : Word} (hnan : F32.isNaN nan = true) (h : F32.isFinite a = false ∨ F32.isFinite b = false) :
    F32.isFinite (F32.add nan a b) = false := by
  have hn := F32.not_isFinite_of_isNaN hnan
  by_cases hab : F32.isNaN a = true ∨ F32.isNaN b = true
  · rw [F32.add_of_isNaN nan hab, hn]
  · obtain ⟨ha, hb⟩ : F32.isNaN a = false ∧ F32.isNaN b = false := by simpa using hab
    rcases F32.isFinite_or_isInf ha with hfa | hia
    · have hib := (F32.isFinite_or_isInf hb).resolve_left (by rcases h with h | h <;> simp_all)
      rw [F32.add_of_isInf_right nan hfa hib, F32.not_isFinite_of_isInf hib]
    · rcases F32.isFinite_or_isInf hb with hfb | hib
      · rw [F32.add_of_isInf_left nan hia hfb, F32.not_isFinite_of_isInf hia]
      · by_cases hs : F32.isNeg a = F32.isNeg b
        · rw [F32.add_of_isInf_same nan hia hib hs, F32.not_isFinite_of_isInf hia]
        · rw [F32.add_of_isInf_opposite nan hia hib hs, hn]

namespace Machine

/-! ### Interpolation with the fraction 0 -/

/-- The first line of rule R169: the value itself, where the difference does not overflow (log 17). -/
theorem lerp_zero_of_finite (g : NanSource) {v b : Word} (hv : F32.isFinite v = true) (hne : v ≠ 0x80000000#32)
    (hb : F32.isFinite b = true) (hd : F32.isFinite (F32.addFinite b (F32.neg v)) = true) : lerp g F32.zero v b = v := by
  rw [lerp, F32.sub_of_finite _ hb hv, F32.mul_zero _ hd, F32.add_of_finite _ hv (F32.isFinite_ofBits_zero _)]
  exact F32.addFinite_zero hv hne (F32.units_ofBits_zero _)

/-- The second line of rule R169: `-0.0` next to a word without a sign reads as `+0.0`. -/
theorem lerp_zero_of_negZero (g : NanSource) {b : Word} (hb : F32.isFinite b = true) (hs : F32.isNeg b = false) :
    lerp g F32.zero 0x80000000#32 b = F32.zero := by
  have hne : b ≠ 0x80000000#32 := by rintro rfl; revert hs; decide
  have hd : F32.addFinite b (F32.neg 0x80000000#32) = b := F32.addFinite_zero hb hne (by decide)
  rw [lerp, F32.sub_of_finite _ hb (by decide), hd, F32.mul_zero _ hb, hs,
    F32.add_of_finite _ (by decide) (F32.isFinite_ofBits_zero _)]
  decide +kernel

/-- The third line of rule R169: with an operand that is not finite the product, and so the result, is a NaN. -/
theorem lerp_zero_of_not_finite {g : NanSource} (hg : g.Quiet) {v b : Word}
    (h : F32.isFinite v = false ∨ F32.isFinite b = false) : F32.isNaN (lerp g F32.zero v b) = true := by
  have hnan (k : Nat) := F32.isNaN_of_isQuietNaN (hg k)
  have hd : F32.isFinite (F32.sub (g 1) b v) = false :=
    F32.add_not_finite (hnan 1) (by rw [F32.isFinite_neg]; exact h.symm)
  rw [lerp, F32.mul_zero_of_not_finite _ hd, F32.add_of_isNaN _ (.inr (hnan 2))]
  exact hnan 3

/-- Between zeros every fraction gives `+0.0` (rule R164). -/
theorem lerp_of_zeros (g : NanSource) {fr : Word} (hfr : F32.isFinite fr = true) : lerp g fr F32.zero F32.zero = F32.zero := by
  have hd : F32.sub (g 1) F32.zero F32.zero = F32.zero := by
    rw [F32.sub_of_finite _ F32.isFinite_zero F32.isFinite_zero]
    decide
  rw [lerp, hd, F32.mul_comm, F32.mul_zero _ hfr, F32.add_of_finite _ F32.isFinite_zero (F32.isFinite_ofBits_zero _)]
  exact F32.addFinite_zero F32.isFinite_zero (by decide) (F32.units_ofBits_zero _)

/-! ### Reads at integer positions -/

section
variable {n i : Nat} (hn : n ≤ 2 ^ 24) (hi : i < n)
include hn hi

/-- An index of the store is a wrapped position. -/
theorem wrapN_ofInteger : wrapN n (F32.ofInteger i) = F32.ofInteger i := by
  obtain ⟨hfinite, hsign, hunits⟩ := F32.ofInteger_spec (hi.le.trans hn)
  refine wrapN_of_inside hn hfinite hsign ?_
  rw [hunits]
  exact_mod_cast Nat.mul_lt_mul_of_pos_right hi F32.unitsPerOne_pos

theorem sampleIndex_ofInteger : sampleIndex n (F32.ofInteger i) = i := by
  rw [sampleIndex, wrapN_ofInteger hn hi, F32.floorNat, F32.magnitude_ofInteger (hi.le.trans hn),
    Nat.mul_div_cancel _ F32.unitsPerOne_pos]

theorem sampleFraction_ofInteger : sampleFraction n (F32.ofInteger i) = F32.zero := by
  have hindex : F32.floorNat (F32.ofInteger i) = i := by
    rw [← wrapN_ofInteger hn hi]
    exact sampleIndex_ofInteger hn hi
  rw [sampleFraction, wrapN_ofInteger hn hi, F32.fraction, hindex, F32.addFinite, F32.units_neg, add_neg_cancel, if_pos rfl,
    F32.isNeg_neg, Bool.and_not_self]
  rfl

end

/-- A read at an integer position has the fraction 0. -/
theorem State.interp_ofInteger {s : State} (hn : s.cfg.n ≤ 2 ^ 24) {i : Nat} (hi : i < s.cfg.n) (g : NanSource) (c : Channel)
    (dir : Direction) :
    s.interp g c (F32.ofInteger i) dir = lerp g F32.zero (s.storeRead c i) (s.storeRead c (neighbour s.cfg.n i dir)) := by
  rw [State.interp_eq (by omega) hn (F32.isFinite_ofInteger (hi.le.trans hn)), sampleIndex_ofInteger hn hi,
    sampleFraction_ofInteger hn hi]

/-- Rule R169 of one channel: what a read `r` between a value `v` and its neighbour `b` returns. -/
theorem lerp_zero_cases {g : NanSource} (hg : g.Quiet) {v b r : Word} (hr : r = lerp g F32.zero v b) :
    (F32.isFinite v = true → v ≠ 0x80000000#32 → F32.isFinite b = true → F32.isFinite (F32.sub F32.zero b v) = true → r = v) ∧
      (v = 0x80000000#32 → F32.isFinite b = true → F32.isNeg b = false → r = 0x00000000#32) ∧
      (F32.isFinite v = false ∨ F32.isFinite b = false → F32.isNaN r = true) := by
  subst hr
  refine ⟨fun hv hne hb hd => ?_, fun hv hb hs => ?_, lerp_zero_of_not_finite hg⟩
  · rw [F32.sub_of_finite _ hb hv] at hd
    exact lerp_zero_of_finite g hv hne hb hd
  · rw [hv]
    exact lerp_zero_of_negZero g hb hs

/-- A read from a store of zeros is `+0.0` (rule R164). -/
theorem State.interp_of_zeros {s : State} (h0 : 0 < s.cfg.n) (hn : s.cfg.n ≤ 2 ^ 24)
    (hzero : ∀ (c : Channel) (i : Nat), i < s.cfg.n → s.storeRead c i = F32.zero) {p : Word} (hp : F32.isFinite p = true)
    (g : NanSource) (c : Channel) (dir : Direction) : s.interp g c p dir = F32.zero := by
  have hi := sampleIndex_lt h0 hn hp
  rw [State.interp_eq h0 hn hp, hzero c _ hi, hzero c _ (neighbour_lt hi dir)]
  exact lerp_of_zeros g (sampleFraction_spec h0 hn hp).1

end Machine

open Machine in
/-- Settles O26: `STREAD` at the written index has the fraction 0 and the written value for its first sample. -/
theorem storeRoundTrip : Obligations.StoreRoundTrip := by
  intro s dir hidle hwf h0 hn
  have hi := integerPosition_lt h0 s.arg0
  set i := integerPosition s.cfg.n s.arg0
  have hwritten (c : Channel) : (s.writeFrame i s.arg1 s.arg2).storeRead c i = if c = .left then s.arg1 else s.arg2 :=
    (State.storeRead_writeFrame hwf ..).trans (if_pos rfl)
  have hread (g : NanSource) (c : Channel) :
      (s.writeFrame i s.arg1 s.arg2).interp g c (F32.ofInteger i) dir =
        lerp g F32.zero (if c = .left then s.arg1 else s.arg2)
          ((s.writeFrame i s.arg1 s.arg2).storeRead c (neighbour s.cfg.n i dir)) := by
    rw [← hwritten]
    exact State.interp_ofInteger (s := s.writeFrame i s.arg1 s.arg2) hn hi g c dir
  refine ⟨s.writeFrame i s.arg1 s.arg2, _, i, exec_stwrite_of_idle hidle, cast_integerPosition h0 _,
    exec_stread_of_finite (F32.isFinite_ofInteger (hi.le.trans hn)) dir, fun c => ⟨_, _, _, rfl, rfl, rfl, ?_⟩⟩
  have hquiet := State.readSource_quiet { s.writeFrame i s.arg1 s.arg2 with arg0 := F32.ofInteger i } dir
  cases c with
  | left => exact lerp_zero_cases hquiet (hread _ .left)
  | right => exact lerp_zero_cases (hquiet.shift 4) (hread _ .right)

open Machine in
/-- Settles O27: the range clear over the whole store; both samples of every read after it are `+0.0`. -/
theorem clearAllZeroesTheStore : Obligations.ClearAllZeroesTheStore := by
  intro s hwf
  have hzero (c : Channel) (i : Nat) (hi : i < s.cfg.n) : s.clearAll.storeRead c i = F32.zero :=
    (State.storeRead_storeClear hwf 0 s.cfg.n c i).trans (if_pos ⟨Nat.zero_le i, hi⟩)
  refine ⟨s.clearAll, rfl, rfl, hzero, fun a ha => ?outside, fun h0 hn p dir hp => ?read⟩
  case outside => exact (Memory.readByte_zeroBytes hwf ..).trans (if_neg (by omega))
  case read =>
    have hsilent := State.interp_of_zeros (s := { s.clearAll with arg0 := p }) h0 hn hzero hp
    exact ⟨_, exec_stread_of_finite (s := { s.clearAll with arg0 := p }) hp dir, hsilent _ .left dir, hsilent _ .right dir⟩

end Sys2Proof
end

section
/-! SUPPORT. A clear in progress (rule R166): what a `TICK` leaves, and the commands that do not read `CLR_BUSY`. -/

namespace Sys2Proof

namespace Machine

/-- While a clear is in progress a tick writes no store word and moves no head (rules R166, R221). -/
theorem State.tick_of_busy {s : State} (h : s.clrBusy = true) (clk : Bool) :
    (s.tick clk).mem = s.mem ∧ ∀ c, (s.tick clk).head c = s.head c := by
  refine ⟨?_, fun c => ?_⟩
  · rw [State.tick_mem, State.writeStage_busy h]
    rfl
  · rw [State.tick_head, State.writeStage_busy h]
    cases c <;> rfl

/-- The state with a clear in progress, whether or not one is. -/
def State.withClear (s : State) : State :=
  { s with clrBusy := true }

theorem State.ite_withClear (p : Prop) [Decidable p] (s t : State) :
    (if p then s else t).withClear = if p then s.withClear else t.withClear :=
  apply_ite State.withClear p s t

/-- The command acts as it does with no clear in progress. -/
def IgnoresClear (i : Instr) : Prop :=
  ∀ s : State, ∃ t, exec i s = .next t ∧ exec i s.withClear = .next t.withClear

/-- A command without checks ignores the clear if its action does. -/
theorem IgnoresClear.of_acted {i : Instr} (hexec : ∀ s, exec i s = .next (s.acted i))
    (hacted : ∀ s : State, s.withClear.acted i = (s.acted i).withClear) : IgnoresClear i :=
  fun s => ⟨s.acted i, hexec s, by rw [hexec, hacted]⟩

/-- A command that raises `NONFINITE` or acts ignores the clear if its action does. -/
theorem IgnoresClear.of_checked {i : Instr} (hok : ∀ s : State, F32.isFinite s.arg0 = true → exec i s = .next (s.acted i))
    (herr : ∀ s : State, ¬F32.isFinite s.arg0 = true → exec i s = .next (s.withError .nonfinite))
    (hacted : ∀ s : State, s.withClear.acted i = (s.acted i).withClear) : IgnoresClear i := by
  intro s
  by_cases hf : F32.isFinite s.arg0 = true
  · exact ⟨s.acted i, hok s hf, by rw [hok s.withClear hf, hacted]⟩
  · exact ⟨s.withError .nonfinite, herr s hf, herr s.withClear hf⟩

/-- The shape of the binary32 `SET` commands (rule R121). -/
theorem IgnoresClear.of_setShadow {i : Instr} {write : State → Word → State} (hexec : ∀ s, exec i s = setShadow (write s) s)
    (hacted : ∀ s, s.acted i = write s s.arg0) (hwrite : ∀ (s : State) v, write s.withClear v = (write s v).withClear) :
    IgnoresClear i :=
  .of_checked (fun s hf => by rw [hexec, setShadow_of_finite hf, hacted])
    (fun s hf => by rw [hexec, setShadow_of_not_finite hf])
    (fun s => by rw [hacted, hacted]; exact hwrite s s.arg0)

/-! ### The stages of `LATCH` -/

theorem State.latchHeads_withClear (s : State) : s.withClear.latchHeads = s.latchHeads.withClear := by
  rw [State.latchHeads, State.latchHeads, State.ite_withClear]
  rfl

theorem State.beginParam_withClear (s : State) (g : NanSource) (ts tl : Nat) :
    s.withClear.beginParam g ts tl = (s.beginParam g ts tl).withClear := by
  rw [State.beginParam, State.beginParam, State.ite_withClear]
  rfl

theorem State.latchTargets_withClear (s : State) (g : NanSource) : s.withClear.latchTargets g = (s.latchTargets g).withClear := by
  rw [State.latchTargets, State.latchTargets, State.ite_withClear, ← State.beginParam_withClear]
  rfl

theorem State.acted_latch_withClear (s : State) : s.withClear.acted .latch = (s.acted .latch).withClear :=
  calc s.withClear.acted .latch
      = ((((s.latchLevels s.nanSource).withClear).latchHeads).latchTargets (s.nanSource.shift 1)).drawn := rfl
    _ = (s.acted .latch).withClear := by
      rw [State.latchHeads_withClear, State.latchTargets_withClear]
      rfl

theorem ignoresClear_stread (dir : Direction) : IgnoresClear (.stread dir) :=
  .of_checked (fun _ hf => exec_stread_of_finite hf dir) (fun _ hf => exec_stread_of_not_finite hf dir) fun _ => rfl

end Machine

open Machine in
/-- Settles O30: the two refusals, the frame of the tick, and `IgnoresClear` of each command of the list. -/
theorem clearSuppressesWrites : Obligations.ClearSuppressesWrites := by
  refine fun s hbusy => ⟨exec_stwrite_of_busy hbusy, exec_whwrite_of_busy hbusy, fun clk => ?tick, ?others⟩
  case tick =>
    obtain ⟨hmem, hhead⟩ := State.tick_of_busy hbusy clk
    refine ⟨(s.tick clk).drawn, rfl, hmem, hhead .left, hhead .right, ?_, s.tick_clrPtr clk, s.tick_wp clk,
      s.nanSource.shift 16, s.nanSource_quiet.shift 16, ?_, ?_⟩
    · rw [State.drawn_clrBusy, State.tick_clrBusy, hbusy]
    · rw [State.drawn_res0, State.tick_res0, hmem]
    · rw [State.drawn_res1, State.tick_res1, hmem]
  case others =>
    have hs : ({ s with clrBusy := false } : State).withClear = s := by rw [State.withClear, ← hbusy]
    have hignores (i : Instr) (hi : IgnoresClear i) :
        ∃ t : State, exec i { s with clrBusy := false } = .next t ∧ exec i s = .next { t with clrBusy := true } := by
      obtain ⟨t, hidle, hclear⟩ := hi { s with clrBusy := false }
      rw [hs] at hclear
      exact ⟨t, hidle, hclear⟩
    intro i hi
    apply hignores
    simp only [List.cons_append, List.nil_append, List.mem_cons, List.not_mem_nil, or_false] at hi
    obtain rfl | rfl | rfl | rfl | rfl | rfl | rfl | rfl | rfl | rfl | rfl | rfl := hi
    · exact .of_acted (fun _ => rfl) fun _ => rfl
    · exact .of_acted (fun _ => rfl) State.acted_latch_withClear
    · exact .of_setShadow (write := fun s v => { s with speedRaw := v }) (fun _ => rfl) (fun _ => rfl) fun _ _ => rfl
    · exact .of_setShadow (write := fun s v => { s with startX := v }) (fun _ => rfl) (fun _ => rfl) fun _ _ => rfl
    · exact .of_setShadow (write := fun s v => { s with lengthX := v }) (fun _ => rfl) (fun _ => rfl) fun _ _ => rfl
    · exact .of_setShadow (write := fun s v => { s with sosX := v }) (fun _ => rfl) (fun _ => rfl) fun _ _ => rfl
    · exact .of_setShadow (write := fun s v => { s with filterX := v }) (fun _ => rfl) (fun _ => rfl) fun _ _ => rfl
    · exact .of_acted (fun _ => rfl) fun _ => rfl
    · exact .of_acted (fun _ => rfl) fun _ => rfl
    · exact .of_acted (fun _ => rfl) fun _ => rfl
    · exact ignoresClear_stread .forward
    · exact ignoresClear_stread .backward

end Sys2Proof
end

section
/-! SUPPORT. The tables of one write head (rules R191, R192, R194), by its state and count, and the level of its next write in exact
arithmetic (rule R195 (c)). -/

namespace Sys2Proof

namespace Machine

section

variable {wfade : Nat} {h : Head}

/-! ### `WHStart` -/

theorem Head.start_of_inactive (hs : h.state = .inactive) : h.start wfade = ⟨.fadingIn, 0#32⟩ := by
  rw [Head.start, hs]

theorem Head.start_of_active (hs : h.state = .active) : h.start wfade = h := by
  rw [Head.start, hs]

theorem Head.start_of_fadingIn (hs : h.state = .fadingIn) : h.start wfade = h := by
  rw [Head.start, hs]

/-- A fade-out that has not written yet is still at full level. -/
theorem Head.start_of_fadingOut_zero (hs : h.state = .fadingOut) (hc : h.count = 0#32) : h.start wfade = ⟨.active, 0#32⟩ := by
  rw [Head.start, hs, hc]
  exact if_pos rfl

theorem Head.start_of_fadingOut_pos (hs : h.state = .fadingOut) (hpos : 0 < h.count.toNat) (hlt : h.count.toNat < wfade) :
    h.start wfade = ⟨.fadingIn, BitVec.ofNat 32 (wfade - h.count.toNat)⟩ := by
  rw [Head.start, hs]
  exact if_neg (by omega)

/-! ### `WHStop` -/

theorem Head.stop_of_inactive (hs : h.state = .inactive) : h.stop wfade = h := by
  rw [Head.stop, hs]

theorem Head.stop_of_active (hs : h.state = .active) : h.stop wfade = ⟨.fadingOut, 0#32⟩ := by
  rw [Head.stop, hs]

theorem Head.stop_of_fadingOut (hs : h.state = .fadingOut) : h.stop wfade = h := by
  rw [Head.stop, hs]

/-- A fade-in that has not written yet has written nothing at a level above zero. -/
theorem Head.stop_of_fadingIn_zero (hs : h.state = .fadingIn) (hc : h.count = 0#32) : h.stop wfade = ⟨.inactive, 0#32⟩ := by
  rw [Head.stop, hs, hc]
  exact if_pos rfl

theorem Head.stop_of_fadingIn_pos (hs : h.state = .fadingIn) (hpos : 0 < h.count.toNat) (hlt : h.count.toNat < wfade) :
    h.stop wfade = ⟨.fadingOut, BitVec.ofNat 32 (wfade - h.count.toNat)⟩ := by
  rw [Head.stop, hs]
  exact if_neg (by omega)

/-- The count of a reversed fade fits its register (log 16). -/
theorem toNat_reversedCount {k : Nat} (hw : wfade ≤ 2 ^ 32) (hpos : 0 < k) (hlt : k < wfade) :
    (BitVec.ofNat 32 (wfade - k)).toNat = wfade - k :=
  toNat_ofNat_of_lt (by omega)

/-! ### A fading write -/

theorem Head.isFading_iff : h.isFading = true ↔ h.state = .fadingIn ∨ h.state = .fadingOut :=
  decide_eq_true_iff

theorem Head.advance_of_last (hc : h.count.toNat + 1 = wfade) :
    h.advance wfade = ⟨if h.state = .fadingIn then .active else .inactive, 0#32⟩ :=
  if_pos hc

theorem Head.advance_of_not_last (hc : h.count.toNat + 1 ≠ wfade) :
    h.advance wfade = ⟨h.state, BitVec.ofNat 32 (h.count.toNat + 1)⟩ :=
  if_neg hc

/-- The rounded level of a fading write (rule R194). -/
theorem Head.level_eq (g : NanSource) (wfade : Nat) (h : Head) :
    h.level g wfade =
      if h.state = .fadingIn then F32.div (g 0) (F32.ofInteger h.count.toNat) (F32.ofInteger wfade)
      else F32.sub (g 1) F32.one (F32.div (g 0) (F32.ofInteger h.count.toNat) (F32.ofInteger wfade)) := by
  unfold Head.level
  split
  next hs => exact (if_pos hs).symm
  next hs => exact (if_neg hs).symm

/-! ### The exact level of the next write -/

theorem Head.levelNumerator_of_inactive (hs : h.state = .inactive) : h.levelNumerator wfade = 0 := by
  rw [Head.levelNumerator, hs]

theorem Head.levelNumerator_of_active (hs : h.state = .active) : h.levelNumerator wfade = wfade := by
  rw [Head.levelNumerator, hs]

theorem Head.levelNumerator_of_fadingIn (hs : h.state = .fadingIn) : h.levelNumerator wfade = h.count.toNat := by
  rw [Head.levelNumerator, hs]

theorem Head.levelNumerator_of_fadingOut (hs : h.state = .fadingOut) : h.levelNumerator wfade = wfade - h.count.toNat := by
  rw [Head.levelNumerator, hs]

/-- Starting a head keeps the level: a reversed fade-out at count `k` goes on at `WFADE - k` (rule R191). -/
theorem Head.Legal.levelNumerator_start (hl : h.Legal wfade) (hw : wfade ≤ 2 ^ 32) :
    (h.start wfade).levelNumerator wfade = h.levelNumerator wfade := by
  cases hs : h.state with
  | inactive => rw [Head.start_of_inactive hs, Head.levelNumerator_of_inactive hs]; rfl
  | fadingIn => rw [Head.start_of_fadingIn hs]
  | active => rw [Head.start_of_active hs]
  | fadingOut =>
    rw [Head.levelNumerator_of_fadingOut hs]
    by_cases hc : h.count = 0#32
    · rw [Head.start_of_fadingOut_zero hs hc, hc]
      rfl
    · have hpos : 0 < h.count.toNat := by bv_omega
      rw [Head.start_of_fadingOut_pos hs hpos hl.below]
      exact toNat_reversedCount hw hpos hl.below

/-- Stopping a head keeps the level: a reversed fade-in at count `k` goes on at `WFADE - k` (rule R192). -/
theorem Head.Legal.levelNumerator_stop (hl : h.Legal wfade) (hw : wfade ≤ 2 ^ 32) :
    (h.stop wfade).levelNumerator wfade = h.levelNumerator wfade := by
  cases hs : h.state with
  | inactive => rw [Head.stop_of_inactive hs]
  | fadingOut => rw [Head.stop_of_fadingOut hs]
  | active => rw [Head.stop_of_active hs, Head.levelNumerator_of_active hs]; rfl
  | fadingIn =>
    rw [Head.levelNumerator_of_fadingIn hs]
    by_cases hc : h.count = 0#32
    · rw [Head.stop_of_fadingIn_zero hs hc, hc]
      rfl
    · have hpos : 0 < h.count.toNat := by bv_omega
      have hlt := hl.below
      rw [Head.stop_of_fadingIn_pos hs hpos hlt, Head.levelNumerator_of_fadingOut rfl, toNat_reversedCount hw hpos hlt]
      omega

/-- A fade-in gains one `WFADE`-th of a level with each write (rule R194). -/
theorem Head.Legal.levelNumerator_advance_of_fadingIn (hl : h.Legal wfade) (hw : wfade ≤ 2 ^ 32) (hs : h.state = .fadingIn) :
    (h.advance wfade).levelNumerator wfade = h.levelNumerator wfade + 1 := by
  have hlt := hl.below
  rw [Head.levelNumerator_of_fadingIn hs]
  by_cases hc : h.count.toNat + 1 = wfade
  · rw [Head.advance_of_last hc, if_pos hs]
    exact hc.symm
  · rw [Head.advance_of_not_last hc, hs, Head.levelNumerator_of_fadingIn rfl, toNat_ofNat_of_lt (by omega)]

/-- A fade-out loses one `WFADE`-th of a level with each write (rule R194). -/
theorem Head.Legal.levelNumerator_advance_of_fadingOut (hl : h.Legal wfade) (hw : wfade ≤ 2 ^ 32) (hs : h.state = .fadingOut) :
    (h.advance wfade).levelNumerator wfade + 1 = h.levelNumerator wfade := by
  have hlt := hl.below
  rw [Head.levelNumerator_of_fadingOut hs]
  by_cases hc : h.count.toNat + 1 = wfade
  · rw [Head.advance_of_last hc, if_neg (by simp [hs]), Head.levelNumerator_of_inactive rfl]
    omega
  · rw [Head.advance_of_not_last hc, hs, Head.levelNumerator_of_fadingOut rfl, toNat_ofNat_of_lt (by omega)]
    omega

end

/-! ### `WHSTART` and `WHSTOP` -/

theorem exec_whstart_of_nonempty {mask : ChannelMask} (hm : mask.nonempty = true) (s : State) :
    exec (.whstart mask) s = .next (s.acted (.whstart mask)) :=
  if_pos hm

theorem exec_whstop_of_nonempty {mask : ChannelMask} (hm : mask.nonempty = true) (s : State) :
    exec (.whstop mask) s = .next (s.acted (.whstop mask)) :=
  if_pos hm

/-- The empty mask is ILLEGAL for both commands (log 15). -/
theorem exec_headCommand_of_empty {mask : ChannelMask} (hm : ¬mask.nonempty = true) (s : State) :
    exec (.whstart mask) s = .next (s.withError .illegal) ∧ exec (.whstop mask) s = .next (s.withError .illegal) := by
  rw [← State.raise_eq_withError]
  exact ⟨if_neg hm, if_neg hm⟩

end Machine

open Machine in
/-- Settles O32: the level of a reversed fade goes on where it was, and an advance moves it by one. -/
theorem fadeLevelsAreContinuous : Obligations.FadeLevelsAreContinuous :=
  fun _ _ hw hl =>
    ⟨hl.levelNumerator_start hw, hl.levelNumerator_stop hw, hl.start hw, hl.stop hw,
      fun hf => hl.advance hw (Head.isFading_iff.1 hf),
      hl.levelNumerator_advance_of_fadingIn hw, hl.levelNumerator_advance_of_fadingOut hw⟩

open Machine in
/-- Settles O31: the tables by the state and count of the head, and the commands by their mask. -/
theorem startAndStopTables : Obligations.StartAndStopTables := by
  refine ⟨fun wfade h hw => ⟨?inactive, ?active, ?fadingIn, ?fadingOut⟩, fun s mask hm => ?masked, fun s mask hl hr => ?empty⟩
  case inactive => exact fun hs => ⟨Head.start_of_inactive hs, Head.stop_of_inactive hs⟩
  case active => exact fun hs => ⟨Head.start_of_active hs, Head.stop_of_active hs⟩
  case fadingIn =>
    refine fun hs => ⟨Head.start_of_fadingIn hs, Head.stop_of_fadingIn_zero hs, fun hpos hlt => ?_⟩
    rw [Head.stop_of_fadingIn_pos hs hpos hlt]
    exact ⟨rfl, toNat_reversedCount hw hpos hlt⟩
  case fadingOut =>
    refine fun hs => ⟨Head.stop_of_fadingOut hs, Head.start_of_fadingOut_zero hs, fun hpos hlt => ?_⟩
    rw [Head.start_of_fadingOut_pos hs hpos hlt]
    exact ⟨rfl, toNat_reversedCount hw hpos hlt⟩
  case masked =>
    have hne : mask.nonempty = true := by simpa [ChannelMask.nonempty] using hm
    rw [exec_whstart_of_nonempty hne, exec_whstop_of_nonempty hne, State.acted, State.acted, forMask_startHead, forMask_stopHead]
    exact ⟨rfl, rfl⟩
  case empty => exact exec_headCommand_of_empty (by simp [ChannelMask.nonempty, hl, hr]) s

end Sys2Proof
end

section
/-! SUPPORT. `WHWRITE` (rules R193, R194): the write of a head by its state, one command, and a fade of `WFADE` commands. -/

namespace Sys2Proof

namespace Machine

/-! ### The write of a head -/

section

variable {s : State} {c : Channel}

theorem State.headWrite_of_inactive (h : (s.head c).state = .inactive) (g : NanSource) (i : Nat) (v : Word) :
    s.headWrite g c i v = s := by
  rw [State.headWrite, h]

theorem State.headWrite_of_active (h : (s.head c).state = .active) (g : NanSource) (i : Nat) (v : Word) :
    s.headWrite g c i v = s.storeWrite c i v := by
  rw [State.headWrite, h]

theorem State.headWrite_of_fading (h : (s.head c).isFading = true) (g : NanSource) (i : Nat) (v : Word) :
    s.headWrite g c i v = s.headFade g c i v := by
  obtain hs | hs := Head.isFading_iff.1 h <;> rw [State.headWrite, hs]

/-- A store word after the heads were changed is the one before. -/
theorem State.storeRead_setHead (h : Head) (d : Channel) (i : Nat) : (s.setHead c h).storeRead d i = s.storeRead d i := by
  rw [State.storeRead, State.setHead_mem, State.storeRead]

end

/-! ### One `WHWRITE` -/

section

variable {s : State} {c : Channel}

theorem exec_whwrite_of_idle (h : s.clrBusy = false) (c : Channel) : exec (.whwrite c) s = .next (s.acted (.whwrite c)) :=
  if_neg (by simp [h])

/-- `WHWRITE` is `WHCore` at `int32(ARG0) mod N` with the value `ARG1`. -/
theorem State.acted_whwrite (s : State) (c : Channel) :
    s.acted (.whwrite c) = (s.headWrite s.nanSource c (integerPosition s.cfg.n s.arg0) s.arg1).drawn := rfl

@[simp] theorem State.drawn_head (s : State) (c : Channel) : s.drawn.head c = s.head c := by
  cases c <;> rfl

/-- `WHWRITE` changes the store and the heads only, and uses its draws. -/
theorem State.acted_whwrite_frame (s : State) (c : Channel) :
    s.acted (.whwrite c) =
      { s with
        mem := (s.acted (.whwrite c)).mem, headL := (s.acted (.whwrite c)).headL, headR := (s.acted (.whwrite c)).headR
        draws := (s.acted (.whwrite c)).draws } := by
  apply State.ext <;> simp

/-- A head that is not fading ignores the call or writes the value as given. -/
theorem State.acted_whwrite_of_inactive (h : (s.head c).state = .inactive) : s.acted (.whwrite c) = s.drawn := by
  rw [State.acted_whwrite, State.headWrite_of_inactive h]

theorem State.acted_whwrite_of_active (h : (s.head c).state = .active) :
    s.acted (.whwrite c) = (s.storeWrite c (integerPosition s.cfg.n s.arg0) s.arg1).drawn := by
  rw [State.acted_whwrite, State.headWrite_of_active h]

theorem State.acted_whwrite_of_fading (h : (s.head c).isFading = true) :
    s.acted (.whwrite c) = (s.headFade s.nanSource c (integerPosition s.cfg.n s.arg0) s.arg1).drawn := by
  rw [State.acted_whwrite, State.headWrite_of_fading h]

/-- The head of its channel after a fading write. -/
theorem State.head_acted_whwrite_of_fading (h : (s.head c).isFading = true) :
    (s.acted (.whwrite c)).head c = (s.head c).advance s.cfg.wfade := by
  rw [State.acted_whwrite_of_fading h, State.drawn_head, State.headFade, State.head_setHead]

/-- The word of its sample after a fading write. -/
theorem State.storeRead_acted_whwrite_of_fading (hwf : s.mem.wf = true) (h : (s.head c).isFading = true) :
    (s.acted (.whwrite c)).storeRead c (integerPosition s.cfg.n s.arg0) =
      fadeBlend s.nanSource ((s.head c).level s.nanSource s.cfg.wfade) (s.storeRead c (integerPosition s.cfg.n s.arg0)) s.arg1 := by
  rw [State.acted_whwrite_of_fading h]
  exact (State.storeRead_setHead ..).trans ((State.storeRead_storeWrite hwf ..).trans (if_pos ⟨rfl, rfl⟩))

end

end Machine

open Machine in
/-- Settles O33: the case of each head state, at the wrapped index. -/
theorem whwriteWritesThroughItsHead : Obligations.WhwriteWritesThroughItsHead := by
  refine fun s c => ⟨fun hidle hwf hn => ?_, fun hbusy => exec_whwrite_of_busy hbusy c⟩
  refine ⟨s.acted (.whwrite c), s.nanSource, integerPosition s.cfg.n s.arg0, s.nanSource_quiet, exec_whwrite_of_idle hidle c,
    s.acted_whwrite_frame c, cast_integerPosition hn _, integerPosition_lt hn _, fun a ha => ?outside, fun d hd => ?other,
    fun hs => ?inactive, fun hs => ?active, fun hs => ?fading⟩
  case outside => exact State.headWrite_readByte hwf _ _ _ _ _ (.inr ha)
  case other => rw [State.acted_whwrite, State.drawn_head, State.headWrite_head_other _ _ hd]
  case inactive =>
    rw [State.acted_whwrite_of_inactive hs]
    exact ⟨rfl, State.drawn_head s c⟩
  case active =>
    rw [State.acted_whwrite_of_active hs, State.drawn_head, State.head_storeWrite]
    exact ⟨(State.storeRead_storeWrite hwf ..).trans (if_pos ⟨rfl, rfl⟩), rfl⟩
  case fading =>
    rw [State.head_acted_whwrite_of_fading hs, State.storeRead_acted_whwrite_of_fading hwf hs, Head.level_eq]
    exact ⟨_, _, rfl, rfl, rfl, Head.advance_of_last, Head.advance_of_not_last⟩

namespace Machine

/-! ### A whole fade -/

/-- What `k` calls of `WHWRITE`, fewer than `WFADE`, leave of a head at the start of a fade in the direction `f`. -/
structure State.FadeWritten (s : State) (c : Channel) (f : HeadState) (k : Nat) (t : State) : Prop where
  cfg : t.cfg = s.cfg
  idle : t.clrBusy = false
  head : t.head c = ⟨f, BitVec.ofNat 32 k⟩

section

variable {s t : State} {c : Channel} {f : HeadState} {k : Nat}

theorem State.FadeWritten.count (h : s.FadeWritten c f k t) (hk : k < 2 ^ 32) : (t.head c).count.toNat = k := by
  rw [h.head]
  exact toNat_ofNat_of_lt hk

/-- One more call advances the head. -/
theorem State.FadeWritten.head_next (h : s.FadeWritten c f k t) (hf : f = .fadingIn ∨ f = .fadingOut) :
    (t.acted (.whwrite c)).head c = (t.head c).advance s.cfg.wfade := by
  have hfading : (t.head c).isFading = true := by rw [h.head]; exact Head.isFading_iff.2 hf
  rw [State.head_acted_whwrite_of_fading hfading, h.cfg]

theorem State.FadeWritten.next (h : s.FadeWritten c f k t) (hf : f = .fadingIn ∨ f = .fadingOut) (hw : s.cfg.wfade ≤ 2 ^ 32)
    (hk : k + 1 < s.cfg.wfade) : s.FadeWritten c f (k + 1) (t.acted (.whwrite c)) where
  cfg := (acted_frame (.whwrite c) t).cfg.trans h.cfg
  idle := ((acted_frame (.whwrite c) t).clear (by simp)).1.trans h.idle
  head := by
    have hcount := h.count (by omega)
    rw [h.head_next hf, Head.advance_of_not_last (by omega), hcount, h.head]

/-- The last call of the fade ends it. -/
theorem State.FadeWritten.head_last (h : s.FadeWritten c f k t) (hf : f = .fadingIn ∨ f = .fadingOut) (hw : s.cfg.wfade ≤ 2 ^ 32)
    (hk : k + 1 = s.cfg.wfade) : (t.acted (.whwrite c)).head c = ⟨if f = .fadingIn then .active else .inactive, 0#32⟩ := by
  have hcount := h.count (by omega)
  rw [h.head_next hf, Head.advance_of_last (by omega), h.head]

theorem State.FadeWritten.repeat_succ (h : s.FadeWritten c f k t) (hrun : repeatCommand (.whwrite c) k s = some t) :
    repeatCommand (.whwrite c) (k + 1) s = some (t.acted (.whwrite c)) := by
  rw [repeatCommand_succ, hrun, Option.bind_some, exec_whwrite_of_idle h.idle]
  rfl

end

/-- Fewer than `WFADE` calls go on with the fade. -/
theorem repeat_whwrite_fading {s : State} {c : Channel} {f : HeadState} (hf : f = .fadingIn ∨ f = .fadingOut)
    (hidle : s.clrBusy = false) (hw : s.cfg.wfade ≤ 2 ^ 32) (hstart : s.head c = ⟨f, 0#32⟩) (k : Nat) (hk : k < s.cfg.wfade) :
    ∃ t, repeatCommand (.whwrite c) k s = some t ∧ s.FadeWritten c f k t := by
  induction k with
  | zero => exact ⟨s, rfl, rfl, hidle, hstart⟩
  | succ k ih =>
    obtain ⟨t, hrun, ht⟩ := ih (by omega)
    exact ⟨t.acted (.whwrite c), ht.repeat_succ hrun, ht.next hf hw hk⟩

end Machine

open Machine in
/-- Settles O34: the calls before the last by induction, and the last one. -/
theorem fadesTakeWfadeWrites : Obligations.FadesTakeWfadeWrites := by
  intro s c f hf hidle hpos hw hstart k hk
  obtain hlt | hlast := Nat.lt_or_eq_of_le hk
  · obtain ⟨t, hrun, ht⟩ := repeat_whwrite_fading hf hidle hw hstart k hlt
    exact ⟨t, hrun, fun _ => ht.head, fun heq => absurd heq hlt.ne⟩
  · obtain ⟨j, rfl⟩ := Nat.exists_eq_add_of_le' (hpos.trans_eq hlast.symm)
    obtain ⟨t, hrun, ht⟩ := repeat_whwrite_fading hf hidle hw hstart j (by omega)
    exact ⟨t.acted (.whwrite c), ht.repeat_succ hrun, fun hlt => absurd hlast hlt.ne, fun _ => ht.head_last hf hw hlast⟩

end Sys2Proof
end

section
/-! SUPPORT. What a run of host actions keeps of the write heads: the lockstep of two equal heads (rule R196), and the silence of two
INACTIVE ones (rule R195 (a)). -/

namespace Sys2Proof

/-- The command treats both heads alike: no `WHWRITE`, and no mask of one channel (rule R196). -/
structure Instr.PairsHeads (i : Instr) : Prop where
  start : ∀ mask, i = .whstart mask → mask.left = mask.right
  stop : ∀ mask, i = .whstop mask → mask.left = mask.right
  write : ∀ c, i ≠ .whwrite c

namespace Machine

/-! ### Runs -/

theorem nextState_eq_some_iff {r : Result} {t : State} : nextState r = some t ↔ r = .next t := by
  cases r <;> simp [nextState]

/-- A property is kept by a run if every action of its list keeps it. -/
theorem runHost_keeps {P : State → Prop} {acts : List HostAction}
    (action : ∀ a ∈ acts, ∀ s t, P s → hostStep a s = .next t → P t) {s t : State} (hs : P s) (h : runHost acts s = some t) :
    P t := by
  induction acts generalizing s with
  | nil => cases h; exact hs
  | cons a rest ih =>
    obtain ⟨hfirst, hrest⟩ := List.forall_mem_cons.1 action
    rw [runHost, Option.bind_eq_some_iff] at h
    obtain ⟨u, hu, hrun⟩ := h
    exact ih hrest (hfirst s u hs (nextState_eq_some_iff.1 hu)) hrun

/-- An error leaves the heads (rule R290). -/
theorem State.raise_head (s : State) (e : ErrorCode) (c : Channel) : (s.raise e).head c = s.head c := by
  cases c <;> simp

/-- An operand write leaves the heads (rule R32). -/
theorem State.writeArg_head (s : State) (r : ArgReg) (w : Word) (c : Channel) : (s.writeArg r w).head c = s.head c := by
  cases c <;> simp

/-! ### Lockstep -/

/-- The command of a word that does not separate the heads. -/
theorem pairsHeads_of_command {w : Word} {i : Instr} (hw : (HostAction.command w).separatesHeads = false)
    (hi : decode w = .ok i) : i.PairsHeads := by
  simp only [HostAction.separatesHeads, hi] at hw
  refine ⟨fun mask h => ?_, fun mask h => ?_, fun c h => ?_⟩
  · subst h; simpa using hw
  · subst h; simpa using hw
  · subst h; simp at hw

/-- A command that treats both heads alike keeps equal heads equal. -/
theorem State.acted_lockstep {s : State} {i : Instr} (hi : i.PairsHeads) (h : s.headL = s.headR) :
    (s.acted i).headL = (s.acted i).headR := by
  have hall (c : Channel) : s.head c = s.headL := by cases c <;> simp [h]
  suffices hsame : (s.acted i).head .left = (s.acted i).head .right from hsame
  cases i with
  | latch => rw [State.latched_head, State.latched_head, hall, hall]
  | tick clk =>
    rw [State.acted, State.drawn_head, State.drawn_head, State.tick_head, State.tick_head, State.writeStage_head,
      State.writeStage_head, hall, hall]
  | whstart mask =>
    rw [State.acted, forMask_startHead, State.head_left, State.head_right, hi.start mask rfl, h]
  | whstop mask =>
    rw [State.acted, forMask_stopHead, State.head_left, State.head_right, hi.stop mask rfl, h]
  | whwrite c => exact absurd rfl (hi.write c)
  | _ =>
    rw [State.acted_head s (by simp) (by simp) (by simp) (by simp), State.acted_head s (by simp) (by simp) (by simp) (by simp), hall,
      hall]

theorem hostStep_lockstep {a : HostAction} (ha : a.separatesHeads = false) {s t : State} (hs : s.headL = s.headR)
    (h : hostStep a s = .next t) : t.headL = t.headR := by
  cases hostStep_effect h with
  | writeArg r w => simpa using hs
  | reset hd => rfl
  | command hw =>
    obtain ⟨e, rfl⟩ | ⟨i, hi, -, rfl⟩ := commandStep_effect hw
    · simpa using hs
    · exact State.acted_lockstep (pairsHeads_of_command ha hi) hs

end Machine

open Machine in
/-- Settles O35: every action that separates no heads keeps them equal, resets included. -/
theorem headsStayInLockstep : Obligations.HeadsStayInLockstep :=
  fun _ _ _ hacts hs hrun => runHost_keeps (P := fun u => u.headL = u.headR) (fun a ha _ _ => hostStep_lockstep (hacts a ha)) hs hrun

namespace Machine

/-! ### Silence -/

theorem State.writeChannel_of_inactive {s : State} {c : Channel} (h : (s.head c).state = .inactive) (g : NanSource) (v : Word) :
    s.writeChannel g c v = s :=
  State.headWrite_of_inactive h ..

/-- With both heads INACTIVE the write stage moves `WP` only (rules R194, R221). -/
theorem State.writeStage_of_inactive {s : State} (h : ∀ c, (s.head c).state = .inactive) (g : NanSource) (a b : Word) :
    s.writeStage g a b = s.advanceWp := by
  cases hb : s.clrBusy
  · rw [State.writeStage_idle hb, State.writeChannel_of_inactive (h .left), State.writeChannel_of_inactive (h .right)]
  · exact State.writeStage_busy hb ..

/-- The store and the heads of a state are those of another one. -/
structure State.SameRecording (s t : State) : Prop where
  mem : t.mem = s.mem
  head : ∀ c, t.head c = s.head c

theorem State.SameRecording.trans {s t u : State} (h : s.SameRecording t) (h' : t.SameRecording u) : s.SameRecording u :=
  ⟨h'.mem.trans h.mem, fun c => (h'.head c).trans (h.head c)⟩

/-- A `TICK` with both heads INACTIVE records nothing. -/
theorem State.acted_tick_of_inactive {s : State} (h : ∀ c, (s.head c).state = .inactive) (clk : Bool) :
    s.SameRecording (s.acted (.tick clk)) where
  mem := by
    rw [State.acted, State.drawn_mem, State.tick_mem, State.writeStage_of_inactive h]
    rfl
  head c := by
    rw [State.acted, State.drawn_head, State.tick_head, State.writeStage_of_inactive h]
    cases c <;> rfl

/-- A command word that stands for a `TICK` or a `WHWRITE` records nothing while both heads are INACTIVE. -/
theorem commandStep_of_inactive {w : Word} (hw : (∃ clk, decode w = .ok (.tick clk)) ∨ ∃ c, decode w = .ok (.whwrite c))
    {s t : State} (hs : ∀ c, (s.head c).state = .inactive) (h : commandStep w s = .next t) : s.SameRecording t := by
  obtain ⟨e, rfl⟩ | ⟨i, hi, -, rfl⟩ := commandStep_effect h
  · exact ⟨State.raise_mem s e, s.raise_head e⟩
  · obtain ⟨clk, hd⟩ | ⟨c, hd⟩ := hw <;> cases hi.symm.trans hd
    · exact State.acted_tick_of_inactive hs clk
    · rw [State.acted_whwrite_of_inactive (hs c)]
      exact ⟨rfl, s.drawn_head⟩

end Machine

open Machine in
/-- Settles O36: each action leaves the store and the heads of the start of the run, so the heads stay INACTIVE for the next. -/
theorem silenceBeforeRecording : Obligations.SilenceBeforeRecording := by
  intro acts s t hacts hl hr hrun
  have hinactive (c : Channel) : (s.head c).state = .inactive := by
    cases c
    · exact hl
    · exact hr
  have hsame : s.SameRecording t := by
    refine runHost_keeps (P := s.SameRecording) (fun a ha u v hu hstep => hu.trans ?_) ⟨rfl, fun _ => rfl⟩ hrun
    obtain ⟨r, w, rfl⟩ | ⟨w, rfl, hw⟩ := hacts a ha
    · cases hstep
      exact ⟨State.writeArg_mem .., u.writeArg_head r w⟩
    · exact commandStep_of_inactive hw (fun c => by rw [hu.head, hinactive]) hstep
  exact ⟨hsame.mem, hsame.head .left, hsame.head .right⟩

end Sys2Proof
end

section
/-! SUPPORT. The playback registers after a `TICK` without a trigger (rules R240 to R249): those of the advance stage, by the kind of
the transition in flight. -/

namespace Sys2Proof

namespace Machine

/-! ### What the advance stage does not touch -/

/-- The registers that the advance stage neither reads nor writes, taken from another state. -/
def State.withOutside (s u : State) : State :=
  { s with
    mem := u.mem, wp := u.wp, headL := u.headL, headR := u.headR, res0 := u.res0, res1 := u.res1, trigPend := u.trigPend
    clkPrev := u.clkPrev }

theorem State.ite_withOutside (p : Prop) [Decidable p] (s t u : State) :
    (if p then s else t).withOutside u = if p then s.withOutside u else t.withOutside u :=
  apply_ite (State.withOutside · u) p s t

theorem State.completeTransition_withOutside (s u : State) :
    (s.withOutside u).completeTransition = s.completeTransition.withOutside u := by
  unfold State.completeTransition
  rw [show (s.withOutside u).xfKind = s.xfKind from rfl]
  cases s.xfKind with
  | none => rfl
  | boundary => rw [State.ite_withOutside]; rfl
  | param => rw [State.ite_withOutside]; rfl
  | trigger => rw [State.ite_withOutside]; rfl

theorem State.fadeAtWrap_withOutside (s u : State) (g : NanSource) (ev : Bool) (pun : Word) :
    (s.withOutside u).fadeAtWrap g ev pun = (s.fadeAtWrap g ev pun).withOutside u := by
  rw [State.fadeAtWrap, State.fadeAtWrap, State.ite_withOutside]
  rfl

theorem State.advanceStage_withOutside (s u : State) (g : NanSource) :
    (s.withOutside u).advanceStage g = (s.advanceStage g).withOutside u := by
  cases hk : s.xfKind with
  | none =>
    rw [State.advanceStage_none hk, State.advanceStage_none (s := s.withOutside u) hk, ← State.fadeAtWrap_withOutside]
    rfl
  | boundary =>
    rw [State.advanceStage_boundary hk, State.advanceStage_boundary (s := s.withOutside u) hk, ← State.fadeAtWrap_withOutside,
      ← State.completeTransition_withOutside]
    rfl
  | param =>
    rw [State.advanceStage_param hk, State.advanceStage_param (s := s.withOutside u) hk, ← State.completeTransition_withOutside]
    rfl
  | trigger =>
    rw [State.advanceStage_trigger hk, State.advanceStage_trigger (s := s.withOutside u) hk, ← State.fadeAtWrap_withOutside,
      ← State.completeTransition_withOutside]
    rfl

theorem State.afterRead_eq_withOutside (s : State) : s.afterRead = s.withOutside s.afterRead := by
  apply State.ext <;> simp [State.withOutside]

/-- A tick before its trigger stage: the advance stage of the state before, with what the write and read stages left. -/
theorem State.afterRead_advanceStage (s : State) (g : NanSource) :
    s.afterRead.advanceStage g = (s.advanceStage g).withOutside s.afterRead := by
  rw [← State.advanceStage_withOutside, ← State.afterRead_eq_withOutside]

/-- Two states hold the same transition and the same window (rules R37 to R39). -/
structure State.SamePlayback (s t : State) : Prop where
  start : t.start = s.start
  length : t.length = s.length
  phase : t.phase = s.phase
  nphase : t.nphase = s.nphase
  xfKind : t.xfKind = s.xfKind
  xfProg : t.xfProg = s.xfProg
  xfWin : t.xfWin = s.xfWin
  xo : t.xo = s.xo

/-- Without a trigger, the playback registers of a tick are those of the advance stage (rules R222, R250). -/
theorem State.tick_playback {s : State} {clk : Bool} (h : s.triggered clk = false) :
    (s.advanceStage (s.nanSource.shift 60)).SamePlayback (s.tick clk).drawn := by
  rw [State.tick_of_not_triggered h, State.afterRead_advanceStage]
  constructor <;> simp [State.withOutside]

/-! ### A fade that may begin at a wrap -/

theorem State.fadeAtWrap_of_wrap {s : State} (h : s.xfKind = .none) (g : NanSource) (pun : Word) :
    s.fadeAtWrap g true pun = s.beginBoundary g pun :=
  if_pos ⟨rfl, h⟩

theorem State.fadeAtWrap_of_no_wrap (s : State) (g : NanSource) (pun : Word) : s.fadeAtWrap g false pun = s :=
  if_neg (by simp)

theorem State.fadeAtWrap_of_fading {s : State} (h : s.xfKind ≠ .none) (g : NanSource) (ev : Bool) (pun : Word) :
    s.fadeAtWrap g ev pun = s :=
  if_neg fun hw => h hw.2

/-! ### No transition -/

/-- The canonical head moved (rules R240, R241). -/
def State.headMoved (s : State) (g : NanSource) : State :=
  { s with phase := (wrapPhase (g.shift 1) (s.unwrappedPhase g) s.length.toNat).1 }

theorem State.advanceStage_none_moved {s : State} (h : s.xfKind = .none) (g : NanSource) :
    s.advanceStage g =
      (s.headMoved g).fadeAtWrap g (wrapPhase (g.shift 1) (s.unwrappedPhase g) s.length.toNat).2 (s.unwrappedPhase g) :=
  State.advanceStage_none h g

/-! ### A BOUNDARY or TRIGGER transition -/

/-- The progress of a BOUNDARY or TRIGGER transition after a tick (rule R243). -/
def State.fadeProgress (s : State) (g : NanSource) : Word :=
  F32.add (g 4) s.xfProg (if s.xfKind = .boundary then F32.abs s.spd else F32.one)

/-- Whether a progress reaches the end of a BOUNDARY or TRIGGER transition (rules R246, R248). -/
def State.fadeDone (s : State) (prog : Word) : Bool :=
  if s.xfKind = .boundary then F32.le s.xfWin prog else F32.le (F32.ofInteger (2 * s.cfg.trigFade)) prog

/-- A BOUNDARY or TRIGGER transition with its head, its tail and its progress moved (rules R240, R242, R243). -/
def State.fadeMoved (s : State) (g : NanSource) : State :=
  { s.headMoved g with
    xo := wrapN s.cfg.n (F32.add (g 3) s.xo s.spd)
    xfProg := s.fadeProgress g }

/-- The two kinds differ in how far the progress moves and where it ends only. -/
theorem State.advanceStage_fade {s : State} (h : s.xfKind = .boundary ∨ s.xfKind = .trigger) (g : NanSource) :
    s.advanceStage g =
      (if s.fadeDone (s.fadeProgress g) = true then { s.fadeMoved g with xfKind := .none } else s.fadeMoved g).fadeAtWrap g
        (wrapPhase (g.shift 1) (s.unwrappedPhase g) s.length.toNat).2 (s.unwrappedPhase g) := by
  obtain h | h := h
  · rw [State.advanceStage_boundary h]
    simp [State.completeTransition, State.fadeMoved, State.headMoved, State.fadeProgress, State.fadeDone, h]
  · rw [State.advanceStage_trigger h]
    simp [State.completeTransition, State.fadeMoved, State.headMoved, State.fadeProgress, State.fadeDone, h]

theorem State.advanceStage_fade_going {s : State} (h : s.xfKind = .boundary ∨ s.xfKind = .trigger) {g : NanSource}
    (hd : s.fadeDone (s.fadeProgress g) = false) : s.advanceStage g = s.fadeMoved g := by
  have hkind : (s.fadeMoved g).xfKind ≠ .none := by
    change s.xfKind ≠ .none
    obtain h | h := h <;> simp [h]
  rw [State.advanceStage_fade h, if_neg (by simp [hd]), State.fadeAtWrap_of_fading hkind]

theorem State.advanceStage_fade_done {s : State} (h : s.xfKind = .boundary ∨ s.xfKind = .trigger) {g : NanSource}
    (hd : s.fadeDone (s.fadeProgress g) = true) :
    s.advanceStage g = ({ s.fadeMoved g with xfKind := .none } : State).fadeAtWrap g
      (wrapPhase (g.shift 1) (s.unwrappedPhase g) s.length.toNat).2 (s.unwrappedPhase g) := by
  rw [State.advanceStage_fade h, if_pos hd]

/-- Outside a PARAM transition the head moves in its window, and neither the window nor the pending phase changes (rule R240). -/
theorem State.advanceStage_window {s : State} (h : s.xfKind ≠ .param) (g : NanSource) :
    (s.advanceStage g).phase = (wrapPhase (g.shift 1) (s.unwrappedPhase g) s.length.toNat).1 ∧
      (s.advanceStage g).start = s.start ∧ (s.advanceStage g).length = s.length ∧ (s.advanceStage g).nphase = s.nphase := by
  have hfade (hk : s.xfKind = .boundary ∨ s.xfKind = .trigger) :
      (s.advanceStage g).phase = (s.headMoved g).phase ∧ (s.advanceStage g).start = s.start ∧
        (s.advanceStage g).length = s.length ∧ (s.advanceStage g).nphase = s.nphase := by
    rw [State.advanceStage_fade hk, State.fadeAtWrap_phase, State.fadeAtWrap_start, State.fadeAtWrap_length,
      State.fadeAtWrap_nphase]
    split <;> exact ⟨rfl, rfl, rfl, rfl⟩
  cases hk : s.xfKind with
  | none => simp [State.advanceStage_none hk]
  | boundary => exact hfade (.inl hk)
  | param => exact absurd hk h
  | trigger => exact hfade (.inr hk)

/-! ### A PARAM transition -/

/-- The pending window adopted (rule R247). -/
theorem State.completeTransition_param_done {s : State} (h : s.xfKind = .param) (hd : F32.le s.xfWin s.xfProg = true) :
    s.completeTransition = { s with start := s.nstart, length := s.nlength, phase := s.nphase, xfKind := .none } := by
  rw [State.completeTransition, h]
  exact if_pos hd

theorem State.completeTransition_param_going {s : State} (h : s.xfKind = .param) (hd : F32.le s.xfWin s.xfProg = false) :
    s.completeTransition = s := by
  rw [State.completeTransition, h]
  exact if_neg (by simp [hd])

/-- A PARAM transition with the new stream, the tail and the progress moved (rules R240, R242, R243). -/
def State.paramMoved (s : State) (g : NanSource) : State :=
  { s with
    nphase := (wrapPhase (g.shift 1) (F32.add (g 0) s.nphase s.spd) s.nlength.toNat).1
    xo := wrapN s.cfg.n (F32.add (g 3) s.xo s.spd)
    xfProg := F32.add (g 4) s.xfProg (F32.abs s.spd) }

theorem State.advanceStage_param_moved {s : State} (h : s.xfKind = .param) (g : NanSource) :
    s.advanceStage g = (s.paramMoved g).completeTransition :=
  State.advanceStage_param h g

end Machine

open Machine in
/-- Settles O43: the advance stage with no transition in flight, by whether the phase wraps. -/
theorem tickAdvancesThePhase : Obligations.TickAdvancesThePhase := by
  intro s clk hkind htrig
  have h := State.tick_playback htrig
  obtain ⟨hphase, hstart, hlength, hnphase⟩ := State.advanceStage_window (s := s) (by simp [hkind]) (s.nanSource.shift 60)
  refine ⟨(s.tick clk).drawn, s.nanSource.shift 60, s.unwrappedPhase (s.nanSource.shift 60), s.nanSource_quiet.shift 60, rfl, rfl,
    h.phase.trans hphase, h.start.trans hstart, h.length.trans hlength, h.nphase.trans hnphase, fun hev => ?stays,
    fun hev => ?wraps⟩
  case stays =>
    rw [State.advanceStage_none_moved hkind, hev, State.fadeAtWrap_of_no_wrap] at h
    exact ⟨h.xfKind.trans hkind, h.xfProg, h.xfWin, h.xo⟩
  case wraps =>
    rw [State.advanceStage_none_moved hkind, hev, State.fadeAtWrap_of_wrap (s := s.headMoved _) hkind] at h
    exact ⟨h.xfKind, h.xfProg, h.xfWin, h.xo⟩

open Machine in
/-- Settles O44: the advance stage during a PARAM transition, by whether the progress reaches the window. -/
theorem paramTransitionProgress : Obligations.ParamTransitionProgress := by
  intro s clk hkind htrig
  have h := State.tick_playback htrig
  rw [State.advanceStage_param_moved hkind] at h
  have hnphase := h.nphase.trans (State.completeTransition_nphase _)
  have hprog := h.xfProg.trans (State.completeTransition_xfProg _)
  refine ⟨(s.tick clk).drawn, s.nanSource.shift 60, s.nanSource_quiet.shift 60, rfl, hnphase,
    h.xo.trans (State.completeTransition_xo _), hprog, h.xfWin.trans (State.completeTransition_xfWin _), fun hend => ?ends,
    fun hend => ?goes⟩
  all_goals rw [hprog] at hend
  case ends =>
    rw [State.completeTransition_param_done (s := s.paramMoved _) hkind hend] at h
    exact ⟨h.start, h.length, h.phase.trans hnphase.symm, h.xfKind⟩
  case goes =>
    rw [State.completeTransition_param_going (s := s.paramMoved _) hkind hend] at h
    exact ⟨h.start, h.length, h.phase, h.xfKind.trans hkind⟩

open Machine in
/-- Settles O45: the advance stage during a BOUNDARY or TRIGGER transition, by whether the progress reaches its end and whether the
phase wraps. -/
theorem fadeTransitionProgress : Obligations.FadeTransitionProgress := by
  intro s clk hkind htrig
  have h := State.tick_playback htrig
  obtain ⟨hphase, hstart, hlength, hnphase⟩ := State.advanceStage_window (s := s) (by rcases hkind with hk | hk <;> simp [hk])
    (s.nanSource.shift 60)
  refine ⟨(s.tick clk).drawn, s.nanSource.shift 60, s.unwrappedPhase (s.nanSource.shift 60), s.fadeProgress (s.nanSource.shift 60),
    s.fadeDone (s.fadeProgress (s.nanSource.shift 60)), s.nanSource_quiet.shift 60, rfl, rfl, rfl, rfl, h.phase.trans hphase,
    h.start.trans hstart, h.length.trans hlength, h.nphase.trans hnphase, fun hgoing => ?going, fun hdone hev => ?ends,
    fun hdone hev => ?wraps⟩
  case going =>
    rw [State.advanceStage_fade_going hkind hgoing] at h
    exact ⟨h.xfKind, h.xfProg, h.xfWin, h.xo⟩
  case ends =>
    rw [State.advanceStage_fade_done hkind hdone, hev, State.fadeAtWrap_of_no_wrap] at h
    exact ⟨h.xfKind, h.xfProg, h.xfWin, h.xo⟩
  case wraps =>
    rw [State.advanceStage_fade_done hkind hdone, hev, State.fadeAtWrap_of_wrap rfl] at h
    exact ⟨h.xfKind, h.xfProg, h.xfWin, h.xo⟩

end Sys2Proof
end

section
/-! SUPPORT. A `TICK` with a trigger (rules R250, R251) beside the same `TICK` without it. -/

namespace Sys2Proof

namespace Machine

/-! ### The re-trigger -/

theorem State.retriggerWindow_of_param {s : State} (h : s.xfKind = .param) (g : NanSource) :
    s.retriggerWindow g = (wrapN s.cfg.n (F32.add (g 0) (floatOfRegister s.nstart) s.nphase),
      { s with start := s.nstart, length := s.nlength, phase := F32.zero }) :=
  if_pos h

theorem State.retriggerWindow_of_not_param {s : State} (h : s.xfKind ≠ .param) (g : NanSource) :
    s.retriggerWindow g =
      (wrapN s.cfg.n (F32.add (g 0) (floatOfRegister s.start) s.phase), { s with phase := F32.zero }) :=
  if_neg h

/-- The new window leaves the registers of the transition. -/
theorem State.retriggerWindow_transition (s : State) (g : NanSource) :
    (s.retriggerWindow g).2.phase = F32.zero ∧ (s.retriggerWindow g).2.xfProg = s.xfProg ∧
      (s.retriggerWindow g).2.xfWin = s.xfWin ∧ (s.retriggerWindow g).2.xo = s.xo := by
  unfold State.retriggerWindow
  split <;> exact ⟨rfl, rfl, rfl, rfl⟩

theorem State.retrigger_phase (s : State) (g : NanSource) : (s.retrigger g).phase = F32.zero :=
  (State.beginTrigger_phase ..).trans (s.retriggerWindow_transition g).1

/-- The start and the length after a re-trigger are those of its window (rule R251). -/
theorem State.retrigger_start (s : State) (g : NanSource) : (s.retrigger g).start = (s.retriggerWindow g).2.start :=
  State.beginTrigger_start ..

theorem State.retrigger_length (s : State) (g : NanSource) : (s.retrigger g).length = (s.retriggerWindow g).2.length :=
  State.beginTrigger_length ..

/-- In a loop longer than `2 · TRIG_FADE` a TRIGGER fade begins (rule R251). -/
theorem State.retrigger_of_long {s : State} {g : NanSource} (h : 2 * s.cfg.trigFade < (s.retrigger g).length.toNat) :
    (s.retrigger g).xfKind = .trigger ∧ (s.retrigger g).xfProg = F32.zero ∧
      (s.retrigger g).xfWin = F32.ofInteger s.cfg.trigFade ∧ (s.retrigger g).xo = (s.retriggerWindow g).1 := by
  rw [State.retrigger_length, ← s.retriggerWindow_cfg g] at h
  rw [State.retrigger, State.beginTrigger, if_pos h, s.retriggerWindow_cfg g]
  exact ⟨rfl, rfl, rfl, rfl⟩

/-- A shorter loop cuts hard (rule R251). -/
theorem State.retrigger_of_short {s : State} {g : NanSource} (h : (s.retrigger g).length.toNat ≤ 2 * s.cfg.trigFade) :
    (s.retrigger g).xfKind = .none ∧ (s.retrigger g).xfProg = s.xfProg ∧ (s.retrigger g).xfWin = s.xfWin ∧
      (s.retrigger g).xo = s.xo := by
  rw [State.retrigger_length, ← s.retriggerWindow_cfg g] at h
  rw [State.retrigger, State.beginTrigger, if_neg (not_lt.2 h)]
  obtain ⟨-, hprog, hwin, hxo⟩ := s.retriggerWindow_transition g
  exact ⟨rfl, hprog, hwin, hxo⟩

/-! ### The same tick without the trigger -/

/-- The inputs of the trigger stage replaced (rule R250). -/
def State.withTriggerInputs (s : State) (pend prev : Bool) : State :=
  { s with trigPend := pend, clkPrev := prev }

/-- No trigger is pending, and the clock was high before, so that no level is a rising edge. -/
theorem State.not_triggered_withTriggerInputs (s : State) (clk : Bool) :
    (s.withTriggerInputs false true).triggered clk = false := by
  simp [State.triggered, State.withTriggerInputs]

theorem State.headWrite_withTriggerInputs (s : State) (pend prev : Bool) (g : NanSource) (c : Channel) (i : Nat) (v : Word) :
    (s.withTriggerInputs pend prev).headWrite g c i v = (s.headWrite g c i v).withTriggerInputs pend prev := by
  have hhead : (s.withTriggerInputs pend prev).head c = s.head c := by cases c <;> rfl
  unfold State.headWrite
  rw [hhead]
  cases (s.head c).state with
  | inactive => rfl
  | active => rfl
  | fadingIn => cases c <;> rfl
  | fadingOut => cases c <;> rfl

theorem State.writeStage_withTriggerInputs (s : State) (pend prev : Bool) (g : NanSource) (a b : Word) :
    (s.withTriggerInputs pend prev).writeStage g a b = (s.writeStage g a b).withTriggerInputs pend prev := by
  have hchannel (t : State) (g : NanSource) (c : Channel) (v : Word) :
      (t.withTriggerInputs pend prev).writeChannel g c v = (t.writeChannel g c v).withTriggerInputs pend prev :=
    t.headWrite_withTriggerInputs pend prev g c ..
  cases hbusy : s.clrBusy with
  | false =>
    rw [State.writeStage_idle hbusy, State.writeStage_idle (s := s.withTriggerInputs pend prev) hbusy, hchannel, hchannel]
    rfl
  | true =>
    rw [State.writeStage_busy hbusy, State.writeStage_busy (s := s.withTriggerInputs pend prev) hbusy]
    rfl

theorem State.tick_mem_withTriggerInputs (s : State) (pend prev clk clk' : Bool) :
    ((s.withTriggerInputs pend prev).tick clk').mem = (s.tick clk).mem := by
  have h := congrArg State.mem (s.writeStage_withTriggerInputs pend prev s.nanSource s.arg0 s.arg1)
  rw [State.tick_mem, State.tick_mem]
  exact h

theorem State.tick_head_withTriggerInputs (s : State) (pend prev clk clk' : Bool) (c : Channel) :
    ((s.withTriggerInputs pend prev).tick clk').head c = (s.tick clk).head c := by
  have h := congrArg (State.head · c) (s.writeStage_withTriggerInputs pend prev s.nanSource s.arg0 s.arg1)
  rw [State.tick_head, State.tick_head]
  exact h.trans (by cases c <;> rfl)

/-- The state of a tick that its trigger stage acts on: the advance stage is done and the clock is sampled (rules R222, R250). -/
def State.beforeTrigger (s : State) (clk : Bool) : State :=
  ((s.advanceStage (s.nanSource.shift 60)).withOutside s.afterRead).sampleClock clk

theorem State.tick_eq_retrigger {s : State} {clk : Bool} (h : s.triggered clk = true) :
    s.tick clk = (s.beforeTrigger clk).retrigger (s.nanSource.shift 67) := by
  rw [State.tick_of_triggered h, State.afterRead_advanceStage, State.beforeTrigger]

/-- The re-trigger starts from the playback registers of the tick without the trigger. -/
theorem State.beforeTrigger_playback (s : State) (clk : Bool) :
    (s.beforeTrigger clk).SamePlayback ((s.withTriggerInputs false true).tick clk).drawn := by
  have hadv : (s.withTriggerInputs false true).advanceStage (s.nanSource.shift 60) =
      (s.advanceStage (s.nanSource.shift 60)).withOutside (s.withTriggerInputs false true) :=
    s.advanceStage_withOutside (s.withTriggerInputs false true) _
  have h : ((s.advanceStage (s.nanSource.shift 60)).withOutside (s.withTriggerInputs false true)).SamePlayback _ :=
    hadv ▸ State.tick_playback (s.not_triggered_withTriggerInputs clk)
  exact ⟨h.start, h.length, h.phase, h.nphase, h.xfKind, h.xfProg, h.xfWin, h.xo⟩

theorem State.beforeTrigger_cfg (s : State) (clk : Bool) : (s.beforeTrigger clk).cfg = s.cfg := by
  simp [State.beforeTrigger, State.withOutside]

/-- No tick writes the pending start and length (rule R38). -/
theorem State.beforeTrigger_pending (s : State) (clk : Bool) :
    ((s.withTriggerInputs false true).tick clk).drawn.nstart = (s.beforeTrigger clk).nstart ∧
      ((s.withTriggerInputs false true).tick clk).drawn.nlength = (s.beforeTrigger clk).nlength := by
  simp [State.beforeTrigger, State.withOutside, State.withTriggerInputs]

end Machine

open Machine in
/-- Settles O47: the re-trigger of the advance stage, whose playback registers are those of the tick without the trigger. -/
theorem retriggerRestartsThePhase : Obligations.RetriggerRestartsThePhase := by
  intro s clk htrig
  have hu := s.beforeTrigger_playback clk
  have hcfg := s.beforeTrigger_cfg clk
  have ht := State.tick_eq_retrigger htrig
  obtain ⟨hnstart, hnlength⟩ := s.beforeTrigger_pending clk
  have hmem := s.tick_mem_withTriggerInputs false true clk clk
  have hhead := s.tick_head_withTriggerInputs false true clk clk
  refine ⟨(s.tick clk).drawn, ((s.withTriggerInputs false true).tick clk).drawn, s.nanSource 67, s.nanSource_quiet 67, rfl, rfl,
    ?res0, ?res1, hmem.symm, (hhead .left).symm, (hhead .right).symm, ?wp, ?phase, ?trigPend, ?clkAge, ?synced, ?clkPrev,
    fun hk => ?adopts, fun hk => ?keeps, fun hlong => ?fades, fun hshort => ?cuts⟩
  case res0 =>
    rw [State.drawn_res0, State.drawn_res0, State.tick_res0, State.tick_res0, hmem]
    rfl
  case res1 =>
    rw [State.drawn_res1, State.drawn_res1, State.tick_res1, State.tick_res1, hmem]
    rfl
  case wp =>
    rw [State.drawn_wp, State.drawn_wp, State.tick_wp, State.tick_wp]
    rfl
  case phase => rw [State.drawn_phase, ht, State.retrigger_phase]
  case trigPend => rw [State.drawn_trigPend, ht]; rfl
  case clkAge => rw [State.drawn_clkAge, ht]; rfl
  case synced => rw [State.drawn_synced, ht]; rfl
  case clkPrev => rw [State.drawn_clkPrev, ht, State.retrigger_clkPrev]; rfl
  case adopts =>
    rw [hu.xfKind] at hk
    rw [State.drawn_start, State.drawn_length, ht, State.retrigger_start, State.retrigger_length,
      State.retriggerWindow_of_param hk, hnstart, hnlength]
    exact ⟨rfl, rfl⟩
  case keeps =>
    rw [hu.xfKind] at hk
    rw [State.drawn_start, State.drawn_length, ht, State.retrigger_start, State.retrigger_length,
      State.retriggerWindow_of_not_param hk, hu.start, hu.length]
    exact ⟨rfl, rfl⟩
  case fades =>
    rw [State.drawn_length, ht, ← hcfg] at hlong
    obtain ⟨hkind, hprog, hwin, hxo⟩ := State.retrigger_of_long hlong
    rw [State.drawn_xfKind, State.drawn_xfProg, State.drawn_xfWin, State.drawn_xo, ht, ← hcfg]
    refine ⟨hkind, hprog, hwin, ?_⟩
    rw [hxo, hu.xfKind, hnstart, hu.nphase, hu.start, hu.phase, State.retriggerWindow, apply_ite Prod.fst]
    rfl
  case cuts =>
    rw [State.drawn_length, ht, ← hcfg] at hshort
    obtain ⟨hkind, hprog, hwin, hxo⟩ := State.retrigger_of_short hshort
    rw [State.drawn_xfKind, State.drawn_xfProg, State.drawn_xfWin, State.drawn_xo, ht, hu.xfProg, hu.xfWin, hu.xo]
    exact ⟨hkind, hprog, hwin, hxo⟩

end Sys2Proof
end

section
/-! SUPPORT. Which transition a `TICK` can leave (rules R233, R245 to R249, R251). -/

namespace Sys2Proof

namespace Machine

/-- A BOUNDARY fade can begin in this tick: the phase wraps, and none is in flight but a TRIGGER that ends (rules R245, R249). -/
structure State.BoundaryBegins (s : State) (g : NanSource) : Prop where
  quiet : g.Quiet
  wraps : (wrapPhase (g.shift 1) (F32.add (g 0) s.phase s.spd) s.length.toNat).2 = true
  free : s.xfKind = .boundary ∨ s.xfKind = .none ∨
    (s.xfKind = .trigger ∧ F32.le (F32.ofInteger (2 * s.cfg.trigFade)) (F32.add (g 4) s.xfProg F32.one) = true)

/-- Without a trigger the transition goes on, or ends, or is a BOUNDARY that begins at a wrap. -/
theorem State.tick_xfKind_of_not_triggered {s t : State} {clk : Bool} (htrig : s.triggered clk = false)
    (h : exec (.tick clk) s = .next t) :
    t.xfKind = s.xfKind ∨ t.xfKind = .none ∨ (t.xfKind = .boundary ∧ ∃ g, s.BoundaryBegins g) := by
  have hfade (hk : s.xfKind = .boundary ∨ s.xfKind = .trigger) :
      t.xfKind = s.xfKind ∨ t.xfKind = .none ∨ (t.xfKind = .boundary ∧ ∃ g, s.BoundaryBegins g) := by
    obtain ⟨u, g, pun, prog, done, hquiet, hexec, rfl, hprog, hdone, -, -, -, -, hgoing, hends, hwraps⟩ :=
      fadeTransitionProgress s clk hk htrig
    obtain rfl := Host.Outcome.next.inj (h.symm.trans hexec)
    cases hd : done with
    | false => exact .inl (hgoing hd).1
    | true =>
      cases hw : (wrapPhase (g.shift 1) (F32.add (g 0) s.phase s.spd) s.length.toNat).2 with
      | false => exact .inr (.inl (hends hd hw).1)
      | true =>
        refine .inr (.inr ⟨(hwraps hd hw).1, g, hquiet, hw, hk.imp id fun ht => .inr ⟨ht, ?_⟩⟩)
        rw [← hd, hdone, hprog]
        simp [ht]
  cases hk : s.xfKind with
  | none =>
    obtain ⟨u, g, pun, hquiet, hexec, rfl, -, -, -, -, hstays, hwraps⟩ := tickAdvancesThePhase s clk hk htrig
    obtain rfl := Host.Outcome.next.inj (h.symm.trans hexec)
    cases hw : (wrapPhase (g.shift 1) (F32.add (g 0) s.phase s.spd) s.length.toNat).2 with
    | false => exact .inl (hstays hw).1
    | true => exact .inr (.inr ⟨(hwraps hw).1, g, hquiet, hw, .inr (.inl hk)⟩)
  | param =>
    obtain ⟨u, g, -, hexec, -, -, -, -, hends, hgoes⟩ := paramTransitionProgress s clk hk htrig
    obtain rfl := Host.Outcome.next.inj (h.symm.trans hexec)
    cases hd : F32.le s.xfWin t.xfProg with
    | false => exact .inl (hgoes hd).2.2.2
    | true => exact .inr (.inl (hends hd).2.2.2)
  | boundary => exact hk ▸ hfade (.inl hk)
  | trigger => exact hk ▸ hfade (.inr hk)

/-- With a trigger the transition is a TRIGGER, or none after a hard cut. -/
theorem State.tick_xfKind_of_triggered {s t : State} {clk : Bool} (htrig : s.triggered clk = true)
    (h : exec (.tick clk) s = .next t) : t.xfKind = .trigger ∨ t.xfKind = .none := by
  obtain ⟨u, v, x, -, hexec, -, -, -, -, -, -, -, -, -, -, -, -, -, -, hlong, hshort⟩ := retriggerRestartsThePhase s clk htrig
  obtain rfl := Host.Outcome.next.inj (h.symm.trans hexec)
  obtain hlt | hle := Nat.lt_or_ge (2 * s.cfg.trigFade) t.length.toNat
  · exact .inl (hlong hlt).1
  · exact .inr (hshort hle).1

/-- `LATCH` begins a PARAM transition with none in flight, or leaves the transition (rule R233). -/
theorem State.acted_latch_xfKind (s : State) :
    (s.acted .latch).xfKind = s.xfKind ∨ ((s.acted .latch).xfKind = .param ∧ s.xfKind = .none) := by
  rw [State.acted_latch_targets]
  split
  next h => exact .inr ⟨(State.beginParam_common ..).1, h.1⟩
  next => exact .inl (State.latchedLevels_xfKind s)

/-- Where a command can leave another transition than it found. -/
theorem exec_xfKind {i : Instr} {s t : State} (h : exec i s = .next t) :
    t.xfKind = s.xfKind ∨ (i = .latch ∧ t.xfKind = .param ∧ s.xfKind = .none) ∨ ∃ clk, i = .tick clk := by
  by_cases htick : ∃ clk, i = .tick clk
  · exact .inr (.inr htick)
  · by_cases hlatch : i = .latch
    · subst hlatch
      obtain rfl := Host.Outcome.next.inj (h.symm.trans (rfl : exec .latch s = .next (s.acted .latch)))
      exact s.acted_latch_xfKind.imp id fun hp => .inl ⟨rfl, hp⟩
    · exact .inl ((exec_frame h).transition hlatch (not_exists.1 htick)).2.1

end Machine

open Machine in
/-- Settles O20: only `LATCH` and `TICK` change the kind of the transition, a `TICK` by whether there is a trigger. -/
theorem transitionsBeginOnlyWhereAllowed : Obligations.TransitionsBeginOnlyWhereAllowed := by
  intro i s t h
  obtain hsame | ⟨rfl, hparam, hnone⟩ | ⟨clk, rfl⟩ := exec_xfKind h
  · rw [hsame]
    exact ⟨fun hk hne => absurd hk hne, fun hk hne => absurd hk hne, fun hk hne => absurd hk hne⟩
  · rw [hparam]
    exact ⟨fun _ _ => ⟨rfl, hnone⟩, nofun, nofun⟩
  · cases htrig : s.triggered clk with
    | false =>
      obtain hsame | hnone | ⟨hboundary, g, hg⟩ := State.tick_xfKind_of_not_triggered htrig h
      · rw [hsame]
        exact ⟨fun hk hne => absurd hk hne, fun hk hne => absurd hk hne, fun hk hne => absurd hk hne⟩
      · rw [hnone]
        exact ⟨nofun, nofun, nofun⟩
      · rw [hboundary]
        exact ⟨nofun, fun _ hne => ⟨⟨clk, rfl⟩, g, hg.quiet, hg.wraps, hg.free.resolve_left hne⟩, nofun⟩
    | true =>
      obtain hkind | hkind := State.tick_xfKind_of_triggered htrig h
      · rw [hkind]
        exact ⟨nofun, nofun, fun _ _ => ⟨clk, rfl, htrig⟩⟩
      · rw [hkind]
        exact ⟨nofun, nofun, nofun⟩

end Sys2Proof
end

section
/-! SUPPORT. A stalled `TICK` (rule R253): adding `+0.0` to a position leaves its value, so nothing wraps and nothing ends. -/

namespace Sys2Proof

/-- Adding `+0.0` to a value that is not below zero clears the sign of `-0.0` and changes nothing else. -/
theorem F32.add_zero_eq_abs (nan : Word) {x : Word} (hf : F32.isFinite x = true) (h0 : 0 ≤ F32.units x) :
    F32.add nan x F32.zero = F32.abs x := by
  rw [F32.add_of_finite nan hf F32.isFinite_zero]
  by_cases hx : x = 0x80000000#32
  · subst hx
    decide +kernel
  · rw [F32.addFinite_zero hf hx F32.units_zero]
    have hsign : F32.isNeg x = false := by
      refine Bool.eq_false_iff.2 fun hneg => hx (F32.ext_bits (hneg.trans (by decide)) ?_)
      have hmag : F32.magBits x = 0 := (F32.units_eq_zero_iff x).1 (le_antisymm (by rw [F32.units_of_neg hneg]; omega) h0)
      exact hmag.trans (by decide)
    exact F32.ext_bits (by rw [hsign, F32.isNeg_abs]) (F32.magBits_abs x).symm

namespace Machine

/-! ### Values in a window -/

theorem InWindow.units_abs {n : Nat} (hn : n ≤ 2 ^ 24) {x : Word} (h : InWindow n x) : F32.units (F32.abs x) = F32.units x := by
  obtain ⟨-, h0, -⟩ := (inWindow_iff hn x).1 h
  rw [F32.units_abs, abs_of_nonneg h0]

theorem InWindow.abs {n : Nat} (hn : n ≤ 2 ^ 24) {x : Word} (h : InWindow n x) : InWindow n (F32.abs x) := by
  obtain ⟨hf, h0, hlt⟩ := (inWindow_iff hn x).1 h
  rw [inWindow_iff hn, F32.isFinite_abs, h.units_abs hn]
  exact ⟨hf, h0, hlt⟩

theorem InWindow.add_zero {n : Nat} (hn : n ≤ 2 ^ 24) {x : Word} (h : InWindow n x) (nan : Word) :
    F32.add nan x F32.zero = F32.abs x := by
  obtain ⟨hf, h0, -⟩ := (inWindow_iff hn x).1 h
  exact F32.add_zero_eq_abs nan hf h0

/-- A phase in its window does not wrap (rule R241). -/
theorem InWindow.wrapPhase {len : Nat} (hl : len ≤ 2 ^ 24) {p : Word} (h : InWindow len p) (g : NanSource) :
    wrapPhase g p len = (p, false) := by
  obtain ⟨hf, h0, hlt⟩ := (inWindow_iff hl p).1 h
  have htop : ¬F32.le (F32.ofInteger len) p = true := by
    rw [F32.le_iff (F32.isFinite_ofInteger hl) hf, F32.units_ofInteger hl, Nat.cast_mul]
    exact not_le.2 hlt
  have hbottom : ¬F32.lt p F32.zero = true := by
    rw [F32.lt_iff hf F32.isFinite_zero, F32.units_zero]
    exact not_lt.2 h0
  rw [Machine.wrapPhase, if_neg htop, if_neg hbottom]

/-- A stalled phase stays where it is, and does not wrap. -/
theorem InWindow.wrapPhase_add_zero {len : Nat} (hl : len ≤ 2 ^ 24) {p : Word} (h : InWindow len p) (g : NanSource) (nan : Word) :
    Machine.wrapPhase g (F32.add nan p F32.zero) len = (F32.abs p, false) := by
  rw [h.add_zero hl, (h.abs hl).wrapPhase hl]

/-- A stalled tail stays where it is. -/
theorem InWindow.units_wrapN_add_zero {n : Nat} (hn : n ≤ 2 ^ 24) {x : Word} (h : InWindow n x) (nan : Word) :
    F32.units (wrapN n (F32.add nan x F32.zero)) = F32.units x := by
  obtain ⟨hf, -, hlt⟩ := (inWindow_iff hn _).1 (h.abs hn)
  rw [h.add_zero hn, wrapN_of_inside hn hf (F32.isNeg_abs x) (by exact_mod_cast hlt), h.units_abs hn]

/-! ### The progress -/

/-- A stalled progress does not move. -/
theorem State.TransitionLegal.prog_add_zero {s : State} (hs : s.TransitionLegal) (nan : Word) :
    F32.add nan s.xfProg (F32.abs F32.zero) = F32.abs s.xfProg ∧ F32.units (F32.abs s.xfProg) = F32.units s.xfProg := by
  have h0 := (F32.le_iff F32.isFinite_zero hs.progFinite).1 hs.progNonneg
  rw [F32.units_zero] at h0
  exact ⟨F32.add_zero_eq_abs nan hs.progFinite h0, by rw [F32.units_abs, abs_of_nonneg h0]⟩

/-- A stalled BOUNDARY or PARAM transition does not reach the end of its window. -/
theorem State.TransitionLegal.not_done {s : State} (hs : s.TransitionLegal) (hk : s.xfKind = .boundary ∨ s.xfKind = .param)
    (nan : Word) : F32.le s.xfWin (F32.add nan s.xfProg (F32.abs F32.zero)) = false := by
  obtain ⟨hadd, hunits⟩ := hs.prog_add_zero nan
  obtain ⟨-, -, hlt⟩ := hs.windowed hk
  have hkey := ((F32.lt_iff_key _ _).1 hlt).2.2
  rw [F32.key_lt_iff] at hkey
  rw [hadd, ← Bool.not_eq_true, F32.le_iff_key, F32.key_le_iff, hunits]
  rintro ⟨-, -, hle⟩
  exact absurd hkey (not_lt.2 hle)

end Machine

open Machine in
/-- Settles O46: by the kind of the transition in flight; no phase wraps, and only a TRIGGER can end. -/
theorem stallHoldsThePosition : Obligations.StallHoldsThePosition := by
  intro s clk hs hspd htrig
  have hb := configBounds_of_admitted hs.admitted
  have hn := hb.n_le
  have hlen := hs.window.length_le hb
  have hnlen := hs.window.nlength_le hb
  have hwrap := hs.window.phase.wrapPhase_add_zero hlen
  have hnwrap := hs.window.nphase.wrapPhase_add_zero hnlen
  have htail := hs.window.xo.units_wrapN_add_zero hn
  have hphase := hs.window.phase.units_abs hlen
  have hnphase := hs.window.nphase.units_abs hnlen
  cases hk : s.xfKind with
  | none =>
    obtain ⟨t, g, pun, -, hexec, rfl, hp, hst, hl, hnp, hstays, -⟩ := tickAdvancesThePhase s clk hk htrig
    rw [hspd, hwrap] at hp hstays
    obtain ⟨hkind, hprog, hwin, hxo⟩ := hstays rfl
    exact ⟨t, hexec, by rw [hp, hphase], by rw [hnp], by rw [hxo], hst, hl, hwin, fun _ => ⟨hkind, by rw [hprog]⟩, nofun⟩
  | param =>
    obtain ⟨t, g, -, hexec, hnp, hxo, hprog, hwin, -, hgoes⟩ := paramTransitionProgress s clk hk htrig
    rw [hspd] at hnp hxo hprog
    rw [hprog] at hgoes
    obtain ⟨hst, hl, hp, hkind⟩ := hgoes (hs.transition.not_done (.inr hk) _)
    obtain ⟨hadd, hunits⟩ := hs.transition.prog_add_zero (g 4)
    exact ⟨t, hexec, by rw [hp], by rw [hnp, hnwrap, hnphase], by rw [hxo, htail], hst, hl, hwin,
      fun _ => ⟨hkind, by rw [hprog, hadd, hunits]⟩, nofun⟩
  | boundary =>
    obtain ⟨t, g, pun, prog, done, -, hexec, rfl, hprog, hdone, hp, hst, hl, hnp, hgoing, -⟩ :=
      fadeTransitionProgress s clk (.inl hk) htrig
    simp only [hk, if_true, hspd] at hprog hdone
    rw [hspd, hwrap] at hp
    rw [hprog, hs.transition.not_done (.inl hk)] at hdone
    obtain ⟨hadd, hunits⟩ := hs.transition.prog_add_zero (g 4)
    obtain ⟨hkind, hprog', hwin, hxo⟩ := hgoing hdone
    exact ⟨t, hexec, by rw [hp, hphase], by rw [hnp], by rw [hxo, hspd, htail], hst, hl, hwin,
      fun _ => ⟨hkind.trans hk, by rw [hprog', hprog, hadd, hunits]⟩, nofun⟩
  | trigger =>
    obtain ⟨t, g, pun, prog, done, -, hexec, rfl, -, -, hp, hst, hl, hnp, hgoing, hends, -⟩ :=
      fadeTransitionProgress s clk (.inr hk) htrig
    rw [hspd, hwrap] at hp hends
    have hmoved : (t.xfKind = .trigger ∨ t.xfKind = .none) ∧ t.xfWin = s.xfWin ∧
        t.xo = wrapN s.cfg.n (F32.add (g 3) s.xo s.spd) := by
      cases hd : done with
      | false =>
        obtain ⟨hkind, -, hwin, hxo⟩ := hgoing hd
        exact ⟨.inl (hkind.trans hk), hwin, hxo⟩
      | true =>
        obtain ⟨hkind, -, hwin, hxo⟩ := hends hd rfl
        exact ⟨.inr hkind, hwin, by rw [hxo, hspd]⟩
    obtain ⟨hkind, hwin, hxo⟩ := hmoved
    exact ⟨t, hexec, by rw [hp, hphase], by rw [hnp], by rw [hxo, hspd, htail], hst, hl, hwin, fun h => absurd rfl h,
      fun _ => hkind⟩

end Sys2Proof
end

section
/-! SUPPORT. What runs of `TICK`s without a trigger count: the clock age (rule R252) and the progress of a TRIGGER transition (rules
R243, R248). -/

namespace Sys2Proof

/-- Up to `2^24`, adding 1 to an integer is exact (rule R13). -/
theorem F32.add_ofInteger_one (nan : Word) {k : Nat} (h : k + 1 ≤ 2 ^ 24) :
    F32.add nan (F32.ofInteger k) F32.one = F32.ofInteger (k + 1) := by
  obtain ⟨hf, -, hu⟩ := F32.ofInteger_spec (k := k) (by omega)
  obtain ⟨hf', hs', hu'⟩ := F32.ofInteger_spec h
  have hsum : F32.units (F32.ofInteger k) + F32.units F32.one = F32.units (F32.ofInteger (k + 1)) := by
    rw [hu, hu', F32.units_one]
    push_cast
    ring
  have hne : F32.units (F32.ofInteger (k + 1)) ≠ 0 := by
    rw [hu']
    exact_mod_cast (Nat.mul_pos k.succ_pos F32.unitsPerOne_pos).ne'
  rw [F32.add_of_finite nan hf F32.isFinite_one]
  exact F32.eq_of_units hne (F32.units_addFinite_exact hf' hsum).2

/-- Up to `2^24`, integers as binary32 are ordered as the integers. -/
theorem F32.le_ofInteger {j k : Nat} (hj : j ≤ 2 ^ 24) (hk : k ≤ 2 ^ 24) :
    F32.le (F32.ofInteger j) (F32.ofInteger k) = decide (j ≤ k) := by
  rw [Bool.eq_iff_iff, F32.le_iff (F32.isFinite_ofInteger hj) (F32.isFinite_ofInteger hk), F32.units_ofInteger hj,
    F32.units_ofInteger hk, decide_eq_true_iff, Nat.cast_le]
  exact Nat.mul_le_mul_right_iff F32.unitsPerOne_pos

namespace Machine

/-! ### The clock age -/

theorem State.ageClock_of_lt {s : State} (h : s.clkAge.toNat < s.cfg.clockTimeout) :
    s.ageClock.clkAge = BitVec.ofNat 32 (s.clkAge.toNat + 1) ∧
      s.ageClock.synced = if s.clkAge.toNat + 1 = s.cfg.clockTimeout then false else s.synced := by
  rw [State.ageClock, if_pos h]
  exact ⟨rfl, rfl⟩

theorem State.ageClock_of_saturated {s : State} (h : s.cfg.clockTimeout ≤ s.clkAge.toNat) : s.ageClock = s :=
  if_neg (not_lt.2 h)

/-- The clock registers that the trigger stage finds (rule R250). -/
theorem State.beforeTrigger_clock (s : State) (clk : Bool) :
    (s.beforeTrigger clk).clkPrev = clk ∧ (s.beforeTrigger clk).trigPend = s.trigPend ∧
      (s.beforeTrigger clk).clkAge = s.clkAge ∧ (s.beforeTrigger clk).synced = s.synced := by
  simp [State.beforeTrigger, State.withOutside]

theorem State.tick_eq_ageClock {s : State} {clk : Bool} (h : s.triggered clk = false) :
    s.tick clk = (s.beforeTrigger clk).ageClock := by
  rw [State.tick_of_not_triggered h, State.afterRead_advanceStage, State.beforeTrigger]

theorem State.tick_samples_clock {s : State} {clk : Bool} (h : s.triggered clk = false) :
    (s.tick clk).clkPrev = clk ∧ (s.tick clk).trigPend = false := by
  obtain ⟨hprev, hpend, -, -⟩ := s.beforeTrigger_clock clk
  rw [State.tick_eq_ageClock h, State.ageClock_clkPrev, State.ageClock_trigPend]
  exact ⟨hprev, hpend.trans (Bool.or_eq_false_iff.1 h).2⟩

theorem State.tick_ages_clock {s : State} {clk : Bool} (h : s.triggered clk = false)
    (hlt : s.clkAge.toNat < s.cfg.clockTimeout) :
    (s.tick clk).clkAge = BitVec.ofNat 32 (s.clkAge.toNat + 1) ∧
      (s.tick clk).synced = if s.clkAge.toNat + 1 = s.cfg.clockTimeout then false else s.synced := by
  obtain ⟨-, -, hage, hsynced⟩ := s.beforeTrigger_clock clk
  have hcfg := s.beforeTrigger_cfg clk
  have hstep := State.ageClock_of_lt (s := s.beforeTrigger clk) (by rwa [hage, hcfg])
  rwa [hage, hsynced, hcfg, ← State.tick_eq_ageClock h] at hstep

theorem State.tick_keeps_saturated_clock {s : State} {clk : Bool} (h : s.triggered clk = false)
    (hge : s.cfg.clockTimeout ≤ s.clkAge.toNat) : (s.tick clk).clkAge = s.clkAge ∧ (s.tick clk).synced = s.synced := by
  obtain ⟨-, -, hage, hsynced⟩ := s.beforeTrigger_clock clk
  have hcfg := s.beforeTrigger_cfg clk
  rw [State.tick_eq_ageClock h, State.ageClock_of_saturated (by rwa [hage, hcfg])]
  exact ⟨hage, hsynced⟩

/-! ### Runs of low ticks -/

/-- A low clock level is no edge (rule R250). -/
theorem State.not_triggered_low {s : State} (h : s.trigPend = false) : s.triggered false = false := by
  rw [State.triggered, h]
  rfl

theorem repeat_tick_succ {s t : State} {k : Nat} {clk : Bool} (h : repeatCommand (.tick clk) k s = some t) :
    repeatCommand (.tick clk) (k + 1) s = some (t.tick clk).drawn := by
  rw [repeatCommand_succ, h]
  rfl

/-- What `k` low ticks after a trigger leave of the clock registers. -/
structure State.ClockCounted (s : State) (k : Nat) (t : State) : Prop where
  cfg : t.cfg = s.cfg
  idle : t.trigPend = false
  age : t.clkAge.toNat = min k s.cfg.clockTimeout
  synced : t.synced = decide (k < s.cfg.clockTimeout)

theorem State.ClockCounted.next {s t : State} {k : Nat} (h : s.ClockCounted k t) (hmax : s.cfg.clockTimeout < 2 ^ 32) :
    s.ClockCounted (k + 1) (t.tick false).drawn := by
  have htrig := State.not_triggered_low h.idle
  have hage := h.age
  obtain hlt | hge := Nat.lt_or_ge k s.cfg.clockTimeout
  · rw [Nat.min_eq_left hlt.le] at hage
    obtain ⟨hnext, hsynced⟩ := State.tick_ages_clock htrig (by rw [h.cfg, hage]; exact hlt)
    rw [hage] at hnext
    rw [hage, h.cfg, h.synced, decide_eq_true hlt] at hsynced
    refine ⟨(State.tick_cfg ..).trans h.cfg, (State.tick_samples_clock htrig).2, ?_, ?_⟩
    · rw [State.drawn_clkAge, hnext, toNat_ofNat_of_lt (by omega), Nat.min_eq_left hlt]
    · rw [State.drawn_synced, hsynced]
      split
      next hlast => exact (decide_eq_false (by omega)).symm
      next hmore => exact (decide_eq_true (by omega)).symm
  · rw [Nat.min_eq_right hge] at hage
    obtain ⟨hnext, hsynced⟩ := State.tick_keeps_saturated_clock htrig (by rw [h.cfg, hage])
    refine ⟨(State.tick_cfg ..).trans h.cfg, (State.tick_samples_clock htrig).2, ?_, ?_⟩
    · rw [State.drawn_clkAge, hnext, hage, Nat.min_eq_right (by omega)]
    · rw [State.drawn_synced, hsynced, h.synced, decide_eq_false (by omega), decide_eq_false (by omega)]

theorem repeat_tick_clock {s : State} (hmax : s.cfg.clockTimeout < 2 ^ 32) (h : s.ClockCounted 0 s) (k : Nat) :
    ∃ t, repeatCommand (.tick false) k s = some t ∧ s.ClockCounted k t := by
  induction k with
  | zero => exact ⟨s, rfl, h⟩
  | succ k ih =>
    obtain ⟨t, hrun, ht⟩ := ih
    exact ⟨(t.tick false).drawn, repeat_tick_succ hrun, ht.next hmax⟩

/-- What `k` low ticks leave of a TRIGGER transition that has just begun, before its end. -/
structure State.TriggerCounted (s : State) (k : Nat) (t : State) : Prop where
  cfg : t.cfg = s.cfg
  idle : t.trigPend = false
  kind : t.xfKind = .trigger
  prog : t.xfProg = F32.ofInteger k

/-- One more low tick adds 1 to the progress, and the transition ends when it reaches `2 · TRIG_FADE`. -/
theorem State.TriggerCounted.tick {s t : State} {k : Nat} (h : s.TriggerCounted k t) (hk : k < 2 * s.cfg.trigFade)
    (hmax : 2 * s.cfg.trigFade ≤ 2 ^ 24) :
    (k + 1 < 2 * s.cfg.trigFade → s.TriggerCounted (k + 1) (t.tick false).drawn) ∧
      (k + 1 = 2 * s.cfg.trigFade → (t.tick false).drawn.xfKind ≠ .trigger) := by
  have htrig := State.not_triggered_low h.idle
  obtain ⟨u, g, pun, prog, done, -, hexec, -, hprog, hdone, -, -, -, -, hgoing, hends, hwraps⟩ :=
    fadeTransitionProgress t false (.inr h.kind) htrig
  obtain rfl : (t.tick false).drawn = u := Host.Outcome.next.inj hexec
  have hstep : prog = F32.ofInteger (k + 1) := by
    rw [hprog, h.kind, h.prog]
    exact F32.add_ofInteger_one _ (by omega)
  have hend : done = decide (2 * s.cfg.trigFade ≤ k + 1) := by
    rw [hdone, h.kind, h.cfg, hstep]
    exact F32.le_ofInteger hmax (by omega)
  constructor
  · intro hlt
    obtain ⟨hkind, hprog', -, -⟩ := hgoing (by rw [hend]; exact decide_eq_false (by omega))
    exact ⟨(State.tick_cfg ..).trans h.cfg, (State.tick_samples_clock htrig).2, hkind.trans h.kind, hprog'.trans hstep⟩
  · intro hlast
    have hd : done = true := by rw [hend]; exact decide_eq_true (by omega)
    cases hw : (wrapPhase (g.shift 1) pun t.length.toNat).2 with
    | false => rw [(hends hd hw).1]; nofun
    | true => rw [(hwraps hd hw).1]; nofun

theorem repeat_tick_trigger {s : State} (hmax : 2 * s.cfg.trigFade ≤ 2 ^ 24) (h : s.TriggerCounted 0 s) (k : Nat)
    (hk : k < 2 * s.cfg.trigFade) : ∃ t, repeatCommand (.tick false) k s = some t ∧ s.TriggerCounted k t := by
  induction k with
  | zero => exact ⟨s, rfl, h⟩
  | succ k ih =>
    obtain ⟨t, hrun, ht⟩ := ih (by omega)
    exact ⟨(t.tick false).drawn, repeat_tick_succ hrun, (ht.tick (by omega) hmax).1 hk⟩

end Machine

open Machine in
/-- Settles O48: one tick by whether the age has reached the timeout; the run of low ticks by induction. -/
theorem clockAgesOut : Obligations.ClockAgesOut := by
  refine ⟨fun s clk htrig hmax => ?tick, fun s hpos hmax hpend hage hsynced k => ?run⟩
  case tick =>
    obtain ⟨hprev, hpend⟩ := State.tick_samples_clock htrig
    refine ⟨(s.tick clk).drawn, rfl, hprev, hpend, fun hlt => ?_, State.tick_keeps_saturated_clock htrig⟩
    obtain ⟨hage, hsynced⟩ := State.tick_ages_clock htrig hlt
    refine ⟨?_, fun hlast => hsynced.trans (if_pos hlast), fun hmore => hsynced.trans (if_neg hmore)⟩
    rw [State.drawn_clkAge, hage, toNat_ofNat_of_lt (by omega)]
  case run =>
    have hstart : s.ClockCounted 0 s := ⟨rfl, hpend, by rw [hage]; simp, by rw [hsynced]; exact (decide_eq_true hpos).symm⟩
    obtain ⟨t, hrun, ht⟩ := repeat_tick_clock hmax hstart k
    exact ⟨t, hrun, ht.age, ht.synced⟩

open Machine in
/-- Settles O49: the ticks before the last by induction, and the last one. -/
theorem triggerFadeLastsTwoHalves : Obligations.TriggerFadeLastsTwoHalves := by
  intro s hc hkind hprog hpend
  have hb := configBounds_of_admitted hc
  have hmax : 2 * s.cfg.trigFade ≤ 2 ^ 24 := hb.trigFade_lt.le.trans hb.n_le
  have hstart : s.TriggerCounted 0 s := ⟨rfl, hpend, hkind, hprog.trans (by decide)⟩
  have hrun := repeat_tick_trigger hmax hstart
  constructor
  · intro k hk
    obtain ⟨t, hrun, ht⟩ := hrun k hk
    exact ⟨t, hrun, ht.kind, ht.prog⟩
  · have hpos := hb.trigFade_pos
    obtain ⟨j, hj⟩ := Nat.exists_eq_add_of_le' (show 1 ≤ 2 * s.cfg.trigFade by omega)
    obtain ⟨t, hrun, ht⟩ := hrun j (by omega)
    rw [hj]
    exact ⟨(t.tick false).drawn, repeat_tick_succ hrun, (ht.tick (by omega) hmax).2 hj.symm⟩

end Sys2Proof
end

section
/-! SUPPORT. `WrapPhase` by the value of the phase (rule R241): the difference of a forward wrap is a binary32 value, the sum of a
backward wrap is rounded once. -/

namespace Sys2Proof

/-! ### Exact differences -/

/-- Of two magnitudes of which the greater is at most twice the lesser, the difference is a magnitude. -/
theorem F32.exists_bits_of_sub {a b : Nat} (ha : a < F32.infBits) (hab : a ≤ b)
    (h : F32.unitsOfBits b ≤ 2 * F32.unitsOfBits a) :
    ∃ m, m < F32.infBits ∧ F32.unitsOfBits m = F32.unitsOfBits b - F32.unitsOfBits a := by
  obtain ⟨j, r, haj, hlo, hr, hua⟩ := F32.exists_significand a
  obtain ⟨k, q, hbk, -, hq, hub⟩ := F32.exists_significand b
  have hj : j ≤ 253 := by norm_num [F32.infBits] at ha; omega
  obtain ⟨d, rfl⟩ := Nat.exists_eq_add_of_le (show j ≤ k by omega)
  have hub' : F32.unitsOfBits b = q * 2 ^ d * 2 ^ j := by rw [hub, pow_add]; ring
  have hdiff : q * 2 ^ d - r < 2 ^ 24 := by
    have hle : q * 2 ^ d ≤ 2 * r := by
      refine Nat.le_of_mul_le_mul_right ?_ (Nat.two_pow_pos j)
      rwa [← hub', Nat.mul_assoc, ← hua]
    omega
  obtain ⟨m, hm, hunits⟩ := F32.exists_bits_of_significand hdiff hj
  exact ⟨m, hm, by rw [hunits, hub', hua, Nat.sub_mul]⟩

/-- A difference `x - y` with `0 ≤ y ≤ x ≤ 2 y` is exact. -/
theorem F32.units_sub_exact {x y : Word} (hy : F32.isFinite y = true) (h0 : 0 ≤ F32.units y)
    (hyx : F32.units y ≤ F32.units x) (hxy : F32.units x ≤ 2 * F32.units y) :
    F32.isFinite (F32.addFinite x (F32.neg y)) = true ∧
      F32.units (F32.addFinite x (F32.neg y)) = F32.units x - F32.units y := by
  have hmx := F32.abs_units x
  have hmy := F32.abs_units y
  rw [abs_of_nonneg (h0.trans hyx), F32.magnitude] at hmx
  rw [abs_of_nonneg h0, F32.magnitude] at hmy
  have hbits : F32.magBits y ≤ F32.magBits x := by
    rw [← F32.unitsOfBits_strictMono.le_iff_le]
    omega
  obtain ⟨m, hm, hunits⟩ := F32.exists_bits_of_sub ((F32.isFinite_iff y).1 hy) hbits (by omega)
  have hv : F32.units (F32.ofBits false m) = F32.units x - F32.units y := by
    have hpos := F32.units_ofBits false (hm.trans F32.infBits_lt)
    rw [if_neg Bool.false_ne_true, hunits] at hpos
    omega
  rw [← hv]
  refine F32.units_addFinite_exact (F32.isFinite_ofBits false hm) ?_
  rw [hv, F32.units_neg]
  omega

namespace Machine

/-! ### The wraps -/

/-- From the length on, the phase wraps forward. -/
theorem wrapPhase_of_top {p : Word} {len : Nat} (hl : len ≤ 2 ^ 24) (hf : F32.isFinite p = true)
    (h : (len * F32.unitsPerOne : Int) ≤ F32.units p) (g : NanSource) :
    wrapPhase g p len = (F32.addFinite p (F32.neg (F32.ofInteger len)), true) := by
  have hi := F32.isFinite_ofInteger hl
  have htop : F32.le (F32.ofInteger len) p = true := by
    rw [F32.le_iff hi hf, F32.units_ofInteger hl, Nat.cast_mul]
    exact h
  rw [wrapPhase, if_pos htop, F32.sub_of_finite _ hf hi]

/-- Below zero, the phase wraps backward. -/
theorem wrapPhase_of_neg {p : Word} {len : Nat} (hl : len ≤ 2 ^ 24) (hf : F32.isFinite p = true) (h : F32.units p < 0)
    (g : NanSource) : wrapPhase g p len = (snapTop len (F32.addFinite p (F32.ofInteger len)), true) := by
  have hi := F32.isFinite_ofInteger hl
  have htop : ¬F32.le (F32.ofInteger len) p = true := by
    rw [F32.le_iff hi hf, F32.units_ofInteger hl]
    omega
  have hneg : F32.lt p F32.zero = true := by
    rw [F32.lt_iff hf F32.isFinite_zero, F32.units_zero]
    exact h
  rw [wrapPhase, if_neg htop, if_pos hneg, F32.add_of_finite _ hf hi]

/-- A forward wrap of less than `3L/2` is exact. -/
theorem units_wrapPhase_of_top {p : Word} {len : Nat} (hl : len ≤ 2 ^ 24) (hf : F32.isFinite p = true)
    (h : (len * F32.unitsPerOne : Int) ≤ F32.units p) (h2 : F32.units p ≤ 2 * (len * F32.unitsPerOne : Int)) (g : NanSource) :
    F32.isFinite (wrapPhase g p len).1 = true ∧ F32.units (wrapPhase g p len).1 = F32.units p - len * F32.unitsPerOne := by
  have hu := F32.units_ofInteger hl
  rw [Nat.cast_mul] at hu
  rw [wrapPhase_of_top hl hf h, ← hu]
  rw [← hu] at h h2
  exact F32.units_sub_exact (F32.isFinite_ofInteger hl) (by rw [hu]; positivity) h h2

/-- A value in `[0, n]` with the top snapped to `+0.0` lies in `[0, n)`. -/
theorem inWindow_snapTop {n : Nat} (h0 : 0 < n) (hn : n ≤ 2 ^ 24) {y : Word} (hf : F32.isFinite y = true)
    (hlo : 0 ≤ F32.units y) (hhi : F32.units y ≤ n * F32.unitsPerOne) : InWindow n (snapTop n y) := by
  rw [snapTop_of_isFinite hn hf, Nat.cast_mul]
  split
  next => exact inWindow_zero hn h0
  next hne => exact (inWindow_iff hn y).2 ⟨hf, hlo, lt_of_le_of_ne hhi hne⟩

/-- A backward wrap rounds the exact sum once. -/
theorem wrapPhase_of_neg_nearest {p : Word} {len : Nat} (hl : len ≤ 2 ^ 24)
    (hlo : -(len * F32.unitsPerOne : Int) ≤ 2 * F32.units p) (h : F32.units p < 0) :
    F32.NearestEven (F32.units p + len * F32.unitsPerOne) 1 (F32.addFinite p (F32.ofInteger len)) := by
  have hround := (F32.addFinite_correctlyRounded p (F32.ofInteger len)).1
  have hbound := F32.position_lt_overflow hl
  have hcast : ((len * F32.unitsPerOne : Nat) : Int) = len * F32.unitsPerOne := Nat.cast_mul _ _
  rw [F32.units_ofInteger hl, hcast, if_pos (by omega)] at hround
  exact hround

/-- One wrap leads from `[-L/2, 3L/2)` into `[0, L)`. -/
theorem inWindow_wrapPhase {p : Word} {len : Nat} (h0 : 0 < len) (hl : len ≤ 2 ^ 24) (hf : F32.isFinite p = true)
    (hlo : -(len * F32.unitsPerOne : Int) ≤ 2 * F32.units p) (hhi : 2 * F32.units p < 3 * (len * F32.unitsPerOne : Int))
    (g : NanSource) : InWindow len (wrapPhase g p len).1 := by
  rcases lt_or_ge (F32.units p) 0 with hneg | hnonneg
  · have hi := F32.isFinite_ofInteger hl
    have hu := F32.units_ofInteger hl
    rw [Nat.cast_mul] at hu
    obtain ⟨hyf, hy0, hy1⟩ := F32.addFinite_between (a := p) (b := F32.ofInteger len) F32.isFinite_zero hi
      (by rw [F32.units_zero]; omega) (by omega)
    rw [F32.units_zero] at hy0
    rw [hu] at hy1
    rw [wrapPhase_of_neg hl hf hneg]
    exact inWindow_snapTop h0 hl hyf hy0 hy1
  · rcases lt_or_ge (F32.units p) (len * F32.unitsPerOne) with hlt | htop
    · have hin := (inWindow_iff hl p).2 ⟨hf, hnonneg, hlt⟩
      rw [hin.wrapPhase hl]
      exact hin
    · obtain ⟨hyf, hyu⟩ := units_wrapPhase_of_top hl hf htop (by omega) g
      exact (inWindow_iff hl _).2 ⟨hyf, by omega, by omega⟩

end Machine

open Machine in
/-- Settles O42: the three ranges of the phase, and the worked values without a draw. -/
theorem phaseWrapsOnce : Obligations.PhaseWrapsOnce := by
  refine ⟨fun g p len h0 hl hf hlo hhi => ?ranges, fun g => ?worked⟩
  case ranges =>
    refine ⟨inWindow_wrapPhase h0 hl hf hlo hhi g, fun htop => ?forward, fun hnonneg hlt => ?inside, fun hneg => ?backward⟩
    case forward =>
      refine ⟨?_, (units_wrapPhase_of_top hl hf htop (by omega) g).2⟩
      rw [wrapPhase_of_top hl hf htop]
    case inside => exact ((inWindow_iff hl p).2 ⟨hf, hnonneg, hlt⟩).wrapPhase hl g
    case backward =>
      have hnear := wrapPhase_of_neg_nearest hl hlo hneg
      rw [wrapPhase_of_neg hl hf hneg]
      exact ⟨rfl, _, hnear, by rw [snapTop_of_isFinite hl hnear.1, Nat.cast_mul]⟩
  case worked =>
    have hinside : InWindow 8 0x40F00000#32 := ⟨by decide, by decide +kernel⟩
    rw [wrapPhase_of_top (by decide) (by decide) (by decide +kernel), wrapPhase_of_neg (by decide) (by decide) (by decide +kernel),
      wrapPhase_of_neg (by decide) (by decide) (by decide +kernel), hinside.wrapPhase (by decide)]
    and_intros <;> decide +kernel

end Sys2Proof
end

section
/-! SUPPORT. The fade window `W(L)` (rule R244) by value: at most half the loop, since `XF_FRAC` is at most one half and `XF_MIN` at
most half of `MIN_LOOP` (rule R9 (e), (f)). -/

namespace Sys2Proof

/-- Half of an integer up to `2^24` is a binary32 value. -/
theorem F32.exists_bits_of_half {k : Nat} (h : k ≤ 2 ^ 24) :
    ∃ m, m < F32.infBits ∧ 2 * F32.unitsOfBits m = k * F32.unitsPerOne := by
  obtain ⟨m, hm, hu⟩ : ∃ m, m < F32.infBits ∧ F32.unitsOfBits m = k * 2 ^ 148 := by
    obtain hlt | rfl := Nat.lt_or_eq_of_le h
    · exact F32.exists_bits_of_significand hlt (by norm_num)
    · obtain ⟨m, hm, hu⟩ := F32.exists_bits_of_significand (r := 2 ^ 23) (k := 149) (by norm_num) (by norm_num)
      exact ⟨m, hm, by rw [hu]; norm_num⟩
  refine ⟨m, hm, ?_⟩
  rw [hu, F32.unitsPerOne]
  ring

namespace Machine

/-- The bounds of rule R9 (c) to (f) on the fade parameters. -/
structure FadeParameters (c : Config) : Prop where
  xfMin_finite : F32.isFinite c.xfMin = true
  xfMax_finite : F32.isFinite c.xfMax = true
  xfFrac_finite : F32.isFinite c.xfFrac = true
  xfMin_half : 2 * F32.units c.xfMin ≤ c.minLoop * F32.unitsPerOne
  xfFrac_half : 2 * F32.magnitude c.xfFrac ≤ F32.unitsPerOne

theorem fadeParameters_of_admitted {c : Config} (h : configAdmitted c = true) : FadeParameters c := by
  simp only [configAdmitted, fadesAdmitted, Bool.and_eq_true, decide_eq_true_eq] at h
  obtain ⟨⟨⟨⟨⟨-, hfades⟩, -⟩, -⟩, -⟩, -⟩ := h
  obtain ⟨⟨⟨⟨⟨⟨⟨⟨hmin, hmax⟩, hfrac⟩, -⟩, -⟩, hminLoop⟩, hpos⟩, hhalf⟩, -⟩ := hfades
  refine ⟨hmin, hmax, hfrac, ?_, ?_⟩
  · have hle : F32.units c.xfMin ≤ F32.magnitude c.xfMin := by
      rw [← F32.abs_units]
      exact le_abs_self _
    have hcast : ((c.minLoop * F32.unitsPerOne : Nat) : Int) = c.minLoop * F32.unitsPerOne := Nat.cast_mul _ _
    omega
  · rw [F32.lt_iff F32.isFinite_zero hfrac, F32.units_zero] at hpos
    rw [F32.le_iff hfrac (by decide)] at hhalf
    have hone : 2 * F32.units 0x3F000000#32 = F32.unitsPerOne := by decide +kernel
    have habs := F32.abs_units c.xfFrac
    rw [abs_of_nonneg hpos.le] at habs
    omega

/-- `XF_FRAC × L`, rounded once, is at most half the loop. -/
theorem FadeParameters.product {c : Config} (hp : FadeParameters c) (nan : Word) {len : Nat} (hl : len ≤ 2 ^ 24) :
    F32.isFinite (F32.mul nan c.xfFrac (F32.ofInteger len)) = true ∧
      2 * F32.units (F32.mul nan c.xfFrac (F32.ofInteger len)) ≤ len * F32.unitsPerOne := by
  obtain ⟨m, hm, hunits⟩ := F32.exists_bits_of_half hl
  have hexact : F32.magnitude c.xfFrac * len ≤ F32.unitsOfBits m * 1 := by
    have := Nat.mul_le_mul_right len hp.xfFrac_half
    linarith
  rw [F32.mul_ofInteger nan hp.xfFrac_finite hl]
  obtain ⟨hf, -, -, hle⟩ := F32.round_between (lo := 0) (F32.isNeg c.xfFrac) Nat.one_pos hm (by simp) hexact
  refine ⟨hf, ?_⟩
  have habs := le_abs_self (F32.units (F32.round (F32.isNeg c.xfFrac) (F32.magnitude c.xfFrac * len) 1))
  rw [F32.abs_units] at habs
  have hcast : ((len * F32.unitsPerOne : Nat) : Int) = len * F32.unitsPerOne := Nat.cast_mul _ _
  omega

/-- The fade window is at most half of a loop that is not shorter than `MIN_LOOP` (rules R39, R245). -/
theorem FadeParameters.fadeWindow_le_half {c : Config} (hp : FadeParameters c) (g : NanSource) {len : Nat} (hmin : c.minLoop ≤ len)
    (hl : len ≤ 2 ^ 24) : 2 * F32.units (fadeWindow g c len) ≤ len * F32.unitsPerOne := by
  obtain ⟨hf, hle⟩ := hp.product (g 0) hl
  have hmin' := hp.xfMin_half
  have hlen : (c.minLoop * F32.unitsPerOne : Int) ≤ len * F32.unitsPerOne :=
    mul_le_mul_of_nonneg_right (by exact_mod_cast hmin) (Int.natCast_nonneg _)
  rw [fadeWindow, F32.units_max hp.xfMin_finite (F32.isFinite_min hf hp.xfMax_finite), F32.units_min hf hp.xfMax_finite]
  omega

/-- With a finite `XF_FRAC` the fade window needs no draw. -/
theorem fadeWindow_of_finite (g : NanSource) {c : Config} (hf : F32.isFinite c.xfFrac = true) {len : Nat} (hl : len ≤ 2 ^ 24) :
    fadeWindow g c len =
      F32.max c.xfMin (F32.min (F32.round (F32.isNeg c.xfFrac) (F32.magnitude c.xfFrac * len) 1) c.xfMax) := by
  rw [fadeWindow, F32.mul_ofInteger _ hf hl]

end Machine

open Machine in
/-- Settles O41: between its bounds for every length, at most half of a legal one, and the worked values without a draw. -/
theorem fadeWindowBounds : Obligations.FadeWindowBounds := by
  refine ⟨fun _ _ _ => rfl, fun g c len hc hmin hmax => ?bounds, fun g => ?worked⟩
  case bounds =>
    have hb := configBounds_of_admitted hc
    obtain ⟨hlo, hhi⟩ := fadeWindow_between hb g len
    exact ⟨hlo, hhi, (fadeParameters_of_admitted hc).fadeWindow_le_half g hmin (hmax.trans hb.n_le)⟩
  case worked =>
    have hf : F32.isFinite Config.tc.xfFrac = true := by decide
    and_intros
    all_goals
      rw [fadeWindow_of_finite g hf (by decide)]
      decide +kernel

end Sys2Proof
end

section
/-! SUPPORT. The blend laws (rules R235, R236), and the output sample by the kind of the transition in flight (rules R230 to R234,
R237). -/

namespace Sys2Proof

namespace Machine

/-! ### The draws of an output sample -/

/-- Which operation of the read stage draws the word that the statement numbers `k`: the sum of the stream position, the volume, the
blend fraction, the trigger gain and its fraction, then the tail, the head, the linear law and the equal-power gains. -/
def drawOfStatement (k : Nat) : Nat :=
  if k < 10 then [4, 21, 13, 20, 14, 13].getD k 0
  else if k < 20 then k - 10
  else if k < 30 then k - 15
  else if k < 40 then k - 21
  else k - 25

/-- The source of an output sample, numbered as the statement numbers it. -/
def statementSource (g : NanSource) : NanSource :=
  fun k => g (drawOfStatement k)

theorem NanSource.Quiet.statementSource {g : NanSource} (h : g.Quiet) : (statementSource g).Quiet :=
  fun k => h (drawOfStatement k)

section

variable (s : State) (g : NanSource) (c : Channel)

/-! The draws of each part are those of the statement. -/

theorem State.readTail_statement : s.readTail g c = s.interp ((statementSource g).shift 10) c s.xo s.readDirection := rfl

theorem State.readHead_statement :
    s.readHead (g.shift 4) c = s.interp ((statementSource g).shift 20) c
      (F32.add (statementSource g 0) (F32.ofInteger s.start.toNat) s.phase) s.readDirection := rfl

theorem State.readNew_statement :
    s.readNew (g.shift 4) c = s.interp ((statementSource g).shift 20) c
      (F32.add (statementSource g 0) (F32.ofInteger s.nstart.toNat) s.nphase) s.readDirection := rfl

end

/-! ### The stream sample -/

section

variable {s : State}

theorem State.streamSample_none (h : s.xfKind = .none) (g : NanSource) (c : Channel) :
    s.streamSample g c = s.readHead (g.shift 4) c := by
  rw [State.streamSample, h]

theorem State.streamSample_boundary (h : s.xfKind = .boundary) (g : NanSource) (c : Channel) :
    s.streamSample g c =
      lin (g.shift 9) (s.readTail g c) (s.readHead (g.shift 4) c) (F32.min F32.one (F32.div (g 13) s.xfProg s.xfWin)) := by
  rw [State.streamSample, h]
  rfl

theorem State.streamSample_param (h : s.xfKind = .param) (g : NanSource) (c : Channel) :
    s.streamSample g c =
      lin (g.shift 9) (s.readTail g c) (s.readNew (g.shift 4) c) (F32.min F32.one (F32.div (g 13) s.xfProg s.xfWin)) := by
  rw [State.streamSample, h]
  rfl

/-- The first half of a TRIGGER transition fades the tail out (rule R234). -/
theorem State.streamSample_trigger_out (h : s.xfKind = .trigger) (hlt : F32.lt s.xfProg (F32.ofInteger s.cfg.trigFade) = true)
    (g : NanSource) (c : Channel) :
    s.streamSample g c =
      F32.mul (g 20) (s.readTail g c) (equalPowerOut (g.shift 15) (F32.div (g 14) s.xfProg (F32.ofInteger s.cfg.trigFade))) := by
  rw [State.streamSample, h]
  exact if_pos hlt

/-- The second half fades the head in (rule R234). -/
theorem State.streamSample_trigger_in (h : s.xfKind = .trigger) (hge : F32.lt s.xfProg (F32.ofInteger s.cfg.trigFade) = false)
    (g : NanSource) (c : Channel) :
    s.streamSample g c =
      F32.mul (g 20) (s.readHead (g.shift 4) c)
        (equalPowerIn (g.shift 15) (F32.div (g 14) (F32.sub (g 13) s.xfProg (F32.ofInteger s.cfg.trigFade))
          (F32.ofInteger s.cfg.trigFade))) := by
  rw [State.streamSample, h]
  exact if_neg (by simp [hge])

end

end Machine

open Machine in
/-- Settles O39: the stream sample of each kind, with its draws renumbered. -/
theorem outputSampleByKind : Obligations.OutputSampleByKind := by
  intro s c g
  refine ⟨statementSource g, s.readDirection, s.readTail g c, s.readHead (g.shift 4) c, s.readNew (g.shift 4) c,
    NanSource.Quiet.statementSource, rfl, s.readTail_statement g c, s.readHead_statement g c, s.readNew_statement g c,
    fun h => ?_, fun h => ?_, fun h => ?_, fun h hlt => ?_, fun h hge => ?_⟩
  · rw [State.outputSample, State.streamSample_none h]
    rfl
  · rw [State.outputSample, State.streamSample_boundary h]
    rfl
  · rw [State.outputSample, State.streamSample_param h]
    rfl
  · rw [State.outputSample, State.streamSample_trigger_out h hlt]
    rfl
  · rw [State.outputSample, State.streamSample_trigger_in h hge]
    rfl

open Machine in
/-- Settles O40: the laws as defined; the worked values are on finite operands, where no operation draws. -/
theorem blendLaws : Obligations.BlendLaws := by
  refine fun g => ⟨fun _ _ _ => rfl, ?_, fun _ => rfl, fun _ => ⟨_, rfl, rfl⟩, ?_, ?_, ?_, ?_, ?_, ?_, ?_⟩
  all_goals
    simp (disch := decide +kernel) only [lin, equalPowerOut, equalPowerIn, F32.add_of_finite, F32.sub_of_finite,
      F32.mul_of_finite]
    decide +kernel

end Sys2Proof
end

section
/-! SUPPORT. The write stage of `TICK` (rules R194, R221, R223): the word at `WP` and the head of each channel. -/

namespace Sys2Proof

namespace Machine

/-! ### One write through a head -/

/-- What a write of `v` through a head `h` leaves of the head and of the addressed word, which held `old` (rule R194). -/
structure WrittenThrough (g : NanSource) (wfade : Nat) (h : Head) (old v : Word) (h' : Head) (new : Word) : Prop where
  inactive : h.state = .inactive → new = old ∧ h' = h
  active : h.state = .active → new = v ∧ h' = h
  fading : h.isFading = true → h' = h.advance wfade ∧ new = fadeBlend g (h.level g wfade) old v

theorem State.headWrite_writtenThrough {s : State} (hwf : s.mem.wf = true) (g : NanSource) (c : Channel) (i : Nat) (v : Word) :
    WrittenThrough g s.cfg.wfade (s.head c) (s.storeRead c i) v ((s.headWrite g c i v).head c)
      ((s.headWrite g c i v).storeRead c i) where
  inactive h := by
    rw [State.headWrite_of_inactive h]
    exact ⟨rfl, rfl⟩
  active h := by
    rw [State.headWrite_of_active h, State.storeRead_storeWrite hwf, if_pos ⟨rfl, rfl⟩, State.head_storeWrite]
    exact ⟨rfl, rfl⟩
  fading h := by
    rw [State.headWrite_of_fading h, State.headFade, State.head_setHead, State.storeRead_setHead,
      State.storeRead_storeWrite hwf, if_pos ⟨rfl, rfl⟩]
    exact ⟨rfl, rfl⟩

/-- A write through the head of a channel leaves the words of the other one. -/
theorem State.storeRead_headWrite_other {s : State} (hwf : s.mem.wf = true) (g : NanSource) {c d : Channel} (hd : d ≠ c)
    (i j : Nat) (v : Word) : (s.headWrite g c i v).storeRead d j = s.storeRead d j := by
  have hne : ¬(d = c ∧ j = i) := fun h => hd h.1
  unfold State.headWrite State.headFade
  split
  · rfl
  · rw [State.storeRead_storeWrite hwf, if_neg hne]
  · rw [State.storeRead_setHead, State.storeRead_storeWrite hwf, if_neg hne]
  · rw [State.storeRead_setHead, State.storeRead_storeWrite hwf, if_neg hne]

/-! ### The write stage -/

/-- The first operation of a channel in the write stage. -/
def writeDraws : Channel → Nat
  | .left => 0
  | .right => 8

/-- The input of a channel: `ARG0` for L, `ARG1` for R (rule R221). -/
def State.channelInput (s : State) : Channel → Word
  | .left => s.arg0
  | .right => s.arg1

theorem NanSource.shift_zero (g : NanSource) : g.shift 0 = g :=
  funext fun j => congrArg g (Nat.zero_add j)

@[simp] theorem State.advanceWp_head (s : State) (c : Channel) : s.advanceWp.head c = s.head c := by
  cases c <;> rfl

theorem State.storeRead_advanceWp (s : State) (c : Channel) (i : Nat) : s.advanceWp.storeRead c i = s.storeRead c i := rfl

/-- Each channel is written through its head at `WP` with its sound-on-sound value; neither write disturbs the other. -/
theorem State.tick_writtenThrough {s : State} (hidle : s.clrBusy = false) (hwf : s.mem.wf = true) (clk : Bool) (c : Channel) :
    WrittenThrough (s.nanSource.shift (writeDraws c)) s.cfg.wfade (s.head c) (s.storeRead c s.wp.toNat)
      (soundOnSound (s.nanSource.shift (writeDraws c)) s.sosL (s.channelInput c) (s.storeRead c s.wp.toNat))
      ((s.tick clk).head c) ((s.tick clk).storeRead c s.wp.toNat) := by
  have hword : (s.tick clk).storeRead c s.wp.toNat = (s.writeStage s.nanSource s.arg0 s.arg1).storeRead c s.wp.toNat := by
    rw [State.storeRead, State.tick_mem, State.storeRead]
  have hleft := State.writeChannel_wf hwf s.nanSource .left s.arg0
  rw [hword, State.tick_head, State.writeStage_idle hidle, State.advanceWp_head, State.storeRead_advanceWp]
  cases c with
  | left =>
    rw [State.writeChannel, State.headWrite_head_other _ _ (by decide), State.storeRead_headWrite_other hleft _ (by decide),
      writeDraws, NanSource.shift_zero]
    exact State.headWrite_writtenThrough hwf ..
  | right =>
    have hright := State.headWrite_writtenThrough hleft (s.nanSource.shift 8) .right s.wp.toNat
      (soundOnSound (s.nanSource.shift 8) s.sosL s.arg1 (s.storeRead .right s.wp.toNat))
    have hold : (s.writeChannel s.nanSource .left s.arg0).storeRead .right s.wp.toNat = s.storeRead .right s.wp.toNat :=
      State.storeRead_headWrite_other hwf _ (by decide) ..
    have hhead : (s.writeChannel s.nanSource .left s.arg0).head .right = s.head .right :=
      State.headWrite_head_other _ _ (by decide) ..
    rw [hold, hhead, State.writeChannel_cfg] at hright
    rw [State.writeChannel, State.writeChannel_wp, State.writeChannel_sosL, hold]
    exact hright

/-- The registers that no tick writes (rule R220). -/
theorem State.tick_frame (s : State) (clk : Bool) :
    (s.tick clk).drawn = { s with
      res0 := (s.tick clk).drawn.res0, res1 := (s.tick clk).drawn.res1, start := (s.tick clk).drawn.start
      length := (s.tick clk).drawn.length, phase := (s.tick clk).drawn.phase, nphase := (s.tick clk).drawn.nphase
      xfKind := (s.tick clk).drawn.xfKind, xfProg := (s.tick clk).drawn.xfProg, xfWin := (s.tick clk).drawn.xfWin
      xo := (s.tick clk).drawn.xo, wp := (s.tick clk).drawn.wp, headL := (s.tick clk).drawn.headL
      headR := (s.tick clk).drawn.headR, clkPrev := (s.tick clk).drawn.clkPrev, clkAge := (s.tick clk).drawn.clkAge
      synced := (s.tick clk).drawn.synced, trigPend := (s.tick clk).drawn.trigPend, mem := (s.tick clk).drawn.mem
      draws := (s.tick clk).drawn.draws } := by
  apply State.ext <;> simp

end Machine

open Machine in
/-- Settles O37: the frame of the tick, the bytes outside the two words, and the write of each channel through its head. -/
theorem tickWritesAtTheWritePhase : Obligations.TickWritesAtTheWritePhase := by
  intro s clk hidle hwf
  refine ⟨(s.tick clk).drawn, s.nanSource, s.nanSource_quiet, rfl, s.tick_frame clk, s.tick_wp clk, fun a ha => ?outside,
    fun c => ?channel⟩
  case outside =>
    rw [State.drawn_mem, State.tick_mem]
    exact State.writeStage_readByte hwf _ _ _ a ha
  case channel =>
    have h := State.tick_writtenThrough hidle hwf clk c
    refine ⟨writeDraws c, s.storeRead c s.wp.toNat,
      soundOnSound (s.nanSource.shift (writeDraws c)) s.sosL (s.channelInput c) (s.storeRead c s.wp.toNat), rfl, ?value,
      fun hs => ?inactive, fun hs => ?active, fun hs => ?fading⟩
    case value => cases c <;> rfl
    case inactive =>
      rw [State.drawn_head]
      exact h.inactive hs
    case active =>
      rw [State.drawn_head]
      exact h.active hs
    case fading =>
      rw [State.drawn_head]
      obtain ⟨hhead, hnew⟩ := h.fading hs
      rw [Head.level_eq] at hnew
      exact ⟨hhead, _, _, rfl, rfl, hnew⟩

end Sys2Proof
end

section
/-! SUPPORT. The observability commands `STATUS` and `RDREG` (rules R270 to R273): one equation per command, and the words of the
register kinds. -/

namespace Sys2Proof

namespace Machine

/-! ### The commands -/

theorem exec_status_read (s : State) : exec (.status false) s = .next { s with res0 := s.statusWord } :=
  rfl

/-- `STATUS CLR` clears after the read: the word in `RES0` is that of `s`, with its error bits (rule R270). -/
theorem exec_status_clear (s : State) : exec (.status true) s = .next ({ s with res0 := s.statusWord } : State).clearErrors :=
  rfl

theorem exec_rdreg (r : Reg) (s : State) : exec (.rdreg r) s = .next { s with res0 := s.registerWord r } :=
  rfl

/-- The command word of every register decodes, so writing it to `CMD` reads the register (rules R272, R93). -/
theorem commandStep_encode_rdreg (r : Reg) (s : State) :
    commandStep (encode (.rdreg r)) s = .next { s with res0 := s.registerWord r } :=
  commandStep_of_decode (decode_encode rfl) s

/-! ### The register kinds of rule R273 -/

theorem wordOfBit_eq_ite (b : Bool) : wordOfBit b = if b = true then 1#32 else 0#32 := by
  cases b <;> rfl

theorem XfKind.code_setWidth (k : XfKind) :
    k.code.setWidth 32 = match k with | .none => 0#32 | .boundary => 1#32 | .param => 2#32 | .trigger => 3#32 := by
  cases k <;> rfl

theorem HeadState.code_setWidth (st : HeadState) :
    st.code.setWidth 32 = match st with | .inactive => 0#32 | .fadingIn => 1#32 | .active => 2#32 | .fadingOut => 3#32 := by
  cases st <;> rfl

/-! ### The index map -/

/-- The registers of the rows of the index map, in order: each register once, and after `FILTER_L` the row of `FILTER_OUT`, which is
read as `FILTER_L` (rules R136, R273). -/
def indexMapRegisters : List Reg :=
  Reg.all.take 10 ++ .filterL :: Reg.all.drop 10

/-- The row of a register in the index map: its `RDREG` word and what the read returns. -/
def State.indexMapRow (s : State) (r : Reg) : Word × Word :=
  (encode (.rdreg r), s.registerWord r)

/-- A table made of rows of the index map says what `RDREG` does, row by row. -/
theorem rdreg_of_indexMapRows {s : State} {rows : List (Word × Word)} {rs : List Reg} (h : rows = rs.map s.indexMapRow) :
    ∀ p ∈ rows, (∃ r, decode p.1 = .ok (.rdreg r) ∧ exec (.rdreg r) s = .next { s with res0 := p.2 }) ∧
      commandStep p.1 s = .next { s with res0 := p.2 } := by
  intro p hp
  rw [h] at hp
  obtain ⟨r, -, rfl⟩ := List.mem_map.1 hp
  exact ⟨⟨r, decode_encode rfl, exec_rdreg r s⟩, commandStep_encode_rdreg r s⟩

end Machine

open Machine in
/-- Settles O52: the equations of the two commands, and the worked words are evaluated. -/
theorem statusReadsThenClears : Obligations.StatusReadsThenClears :=
  ⟨fun s => ⟨exec_status_read s, exec_status_clear s⟩, rfl, rfl, rfl⟩

open Machine in
/-- Settles O53: the table is the list of the index map's rows, once the one-bit registers and the enumerations are written as rule
R273 gives them. -/
theorem rdregReadsEveryRegister : Obligations.RdregReadsEveryRegister := by
  intro s
  refine rdreg_of_indexMapRows (rs := indexMapRegisters) ?rows
  simp only [indexMapRegisters, Reg.all, List.cons_append, List.nil_append, List.take, List.drop, List.map, State.indexMapRow,
    State.registerWord, wordOfBit_eq_ite, XfKind.code_setWidth, HeadState.code_setWidth]
  rfl

end Sys2Proof
end

section
/-! SUPPORT. The table of errors (rules R291, R293): the error that each check of a command raises, and a command past its
checks acts. -/

namespace Sys2Proof

namespace Machine

/-! ### The checks of a command -/

/-- During an incremental clear the host's store writes raise `BUSY` (rule R291). -/
theorem exec_of_busy {i : Instr} {s : State} (hi : i.checksBusy = true) (hs : s.clrBusy = true) :
    exec i s = .next (s.withError .busy) := by
  cases i with
  | stwrite => exact exec_stwrite_of_busy hs
  | whwrite c => exact exec_whwrite_of_busy hs c
  | _ => cases hi

/-- The commands that read `ARG0` as a binary32 raise `NONFINITE` on a NaN or an infinity (rule R291). -/
theorem exec_of_not_finite {i : Instr} {s : State} (hi : i.checksFinite = true) (hs : ¬F32.isFinite s.arg0 = true) :
    exec i s = .next (s.withError .nonfinite) := by
  cases i with
  | setspeed | setstart | setlength | setsos | setfilter =>
    rw [← State.raise_eq_withError]
    exact if_neg hs
  | stread dir => exact exec_stread_of_not_finite hs dir
  | _ => cases hi

/-- A command with legal operands that passes its checks acts. -/
theorem exec_of_checks {i : Instr} {s : State} (hwf : i.wellFormed = true) (idle : i.checksBusy = true → s.clrBusy = false)
    (finite : i.checksFinite = true → F32.isFinite s.arg0 = true) : exec i s = .next (s.acted i) := by
  cases i with
  | setspeed | setstart | setlength | setsos | setfilter => exact if_pos (finite rfl)
  | stread dir => exact exec_stread_of_finite (finite rfl) dir
  | stwrite => exact exec_stwrite_of_idle (idle rfl)
  | whwrite c => exact exec_whwrite_of_idle (idle rfl) c
  | whstart mask => exact exec_whstart_of_nonempty hwf s
  | whstop mask => exact exec_whstop_of_nonempty hwf s
  | clear mode => cases mode <;> rfl
  | status clr => cases clr <;> rfl
  | _ => rfl

/-! ### The error of a command word -/

theorem commandError_of_decode {w : Word} {i : Instr} (h : decode w = .ok i) (s : State) :
    commandError w s =
      if i.checksBusy && s.clrBusy then some .busy
      else if i.checksFinite && !F32.isFinite s.arg0 then some .nonfinite
      else none := by
  rw [commandError, h]

/-- A command word raises the error of the table and does nothing else (rules R290, R291, R293). -/
theorem commandStep_of_commandError {w : Word} {s : State} {e : ErrorCode} (he : commandError w s = some e) :
    commandStep w s = .next (s.withError e) := by
  cases hdec : decode w with
  | error d =>
    obtain rfl : .illegal = e := by simpa [commandError, hdec] using he
    exact commandStep_of_error hdec s
  | ok i =>
    rw [commandStep_of_decode hdec]
    rw [commandError_of_decode hdec] at he
    split_ifs at he with hbusy hfinite <;> cases he
    · obtain ⟨hi, hs⟩ := Bool.and_eq_true_iff.1 hbusy
      exact exec_of_busy hi hs
    · obtain ⟨hi, hs⟩ := Bool.and_eq_true_iff.1 hfinite
      exact exec_of_not_finite hi (by simpa using hs)

/-- A command word to which the table gives no error is performed. -/
theorem commandStep_of_no_error {w : Word} {s : State} (hnone : commandError w s = none) :
    ∃ i, decode w = .ok i ∧ commandStep w s = .next (s.acted i) := by
  cases hdec : decode w with
  | error d => simp [commandError, hdec] at hnone
  | ok i =>
    refine ⟨i, rfl, ?_⟩
    rw [commandError_of_decode hdec] at hnone
    split_ifs at hnone with hbusy hfinite
    rw [commandStep_of_decode hdec]
    exact exec_of_checks (wellFormed_of_decode hdec) (by simpa using hbusy) (by simpa using hfinite)

/-- The one command word of `STATUS CLR` (rule R100). -/
theorem decode_eq_status_clear_iff {w : Word} : decode w = .ok (.status true) ↔ w = 0x10010000#32 :=
  ⟨fun h => (encode_of_decode h).symm, fun h => h ▸ rfl⟩

/-- A command that acts leaves the log, and the sticky bits unless its word is that of `STATUS CLR`, which clears them (rules R270,
R295). -/
theorem State.acted_errors_of_decode {w : Word} {i : Instr} (h : decode w = .ok i) (s : State) :
    (s.acted i).errLog = s.errLog ∧
      (w ≠ 0x10010000#32 → (s.acted i).errIllegal = s.errIllegal ∧ (s.acted i).errNonfinite = s.errNonfinite ∧
        (s.acted i).errBusy = s.errBusy) ∧
      (w = 0x10010000#32 → (s.acted i).errIllegal = false ∧ (s.acted i).errNonfinite = false ∧ (s.acted i).errBusy = false) := by
  refine ⟨s.acted_errLog i, fun hw => s.acted_errors ?_, fun hw => ?_⟩
  · rintro rfl
    exact hw (decode_eq_status_clear_iff.1 h)
  · obtain rfl : i = .status true := Except.ok.inj (h.symm.trans (decode_eq_status_clear_iff.2 hw))
    exact ⟨rfl, rfl, rfl⟩

end Machine

open Machine

/-- Settles O8: the table gives an error, which the word raises, or none, and then the command acts; the bits of the status word are
those of O51. -/
theorem errorsFollowTheTable : Obligations.ErrorsFollowTheTable := by
  intro w s
  obtain ⟨-, -, -, -, -, -, -, -, -, -, hillegal, hnonfinite, hbusy, -⟩ := statusWordFields.1 s
  refine ⟨?_, hillegal, hnonfinite, hbusy⟩
  cases herr : commandError w s with
  | some e => exact ⟨s.withError e, commandStep_of_commandError herr, fun _ h => congrArg _ (Option.some.inj h), nofun⟩
  | none =>
    obtain ⟨i, hi, hstep⟩ := commandStep_of_no_error herr
    exact ⟨s.acted i, hstep, nofun, fun _ => s.acted_errors_of_decode hi⟩

/-- Settles O6: the admission is tested first, then the list of actions is matched; a read of `CMD` is refused in any state. -/
theorem stepTakesHostActionsInOrder : Obligations.StepTakesHostActionsInOrder := by
  refine fun s => ⟨fun hc => ?notAdmitted, fun hc hhost => ?idle, fun hc _ _ hhost => step_of_host hc hhost, rfl⟩
  case notAdmitted => rw [step, if_neg (by simp [hc])]
  case idle => rw [step, if_pos hc, fetchStep, hhost]

end Sys2Proof
end

section
/-! SUPPORT. What a reset leaves (rules R320 to R322, R325): the configuration, the registers, the drawn store, and the first `LATCH`
after it (rule R324). -/

namespace Sys2Proof

namespace Machine

/-! ### The configuration -/

/-- No host action changes the configuration: a reset keeps it too. -/
theorem hostStep_cfg {a : HostAction} {s t : State} (h : hostStep a s = .next t) : t.cfg = s.cfg := by
  cases hostStep_effect h with
  | writeArg r w => exact State.writeArg_cfg s r w
  | reset hd => rfl
  | command hw =>
    obtain ⟨e, rfl⟩ | ⟨i, -, -, rfl⟩ := commandStep_effect hw
    · exact (raise_frame .nop s e).cfg
    · exact (acted_frame i s).cfg

end Machine

open Machine in
/-- Settles O11: a step holds the state or performs a host action. -/
theorem configurationIsFixed : Obligations.ConfigurationIsFixed := by
  intro s t h
  obtain ⟨-, rfl | ⟨a, rest, ha⟩⟩ := step_effect h
  · rfl
  · exact (hostStep_cfg ha :)

open Machine in
/-- Settles O55: the values are those of `State.resetWith`; the status word is the last clause of O51. -/
theorem resetValues : Obligations.ResetValues := by
  intro cfg mem
  obtain ⟨-, -, -, -, -, -, -, -, -, hstatus⟩ := statusWordFields
  refine ⟨State.resetWith cfg mem, rfl, ?_⟩
  rw [hstatus cfg mem]
  and_intros <;> rfl

namespace Machine

/-! ### The drawn store -/

theorem drawAdmitted_iff {cfg : Config} {draw : List Word} :
    drawAdmitted cfg draw = true ↔
      draw.length = 2 * cfg.n ∧ ∀ w ∈ draw, F32.isFinite w = true ∧ F32.le (F32.abs w) cfg.noiseAmp = true := by
  simp only [drawAdmitted, noiseWord, Bool.and_eq_true, beq_iff_eq, List.all_eq_true]

theorem hostStep_reset_of_admitted {s : State} {draw : List Word} (h : drawAdmitted s.cfg draw = true) :
    hostStep (.reset draw) s = .next (s.resetEvent draw) :=
  if_pos h

theorem hostStep_reset_of_not_admitted {s : State} {draw : List Word} (h : ¬drawAdmitted s.cfg draw = true) :
    hostStep (.reset draw) s = .refused .resetDrawNotAdmitted :=
  if_neg h

theorem wordAddress_lt {n i : Nat} (h : i < n) (c : Channel) : wordAddress c i < 2 * n := by
  cases c <;> simp only [wordAddress, channelBit] <;> omega

/-- After a reset each store word is the word of the draw at its word address (rule R322). -/
theorem State.storeRead_resetEvent (s : State) {draw : List Word} (c : Channel) {i : Nat}
    (h : wordAddress c i < draw.length) : some ((s.resetEvent draw).storeRead c i) = draw[wordAddress c i]? := by
  have hread : (s.resetEvent draw).storeRead c i = draw.getD (wordAddress c i) 0#32 :=
    (Memory.readWord_ofWords draw 0 _).trans (if_pos (Nat.zero_le _))
  rw [hread, List.getD_eq_getElem _ _ h, List.getElem?_eq_getElem h]

end Machine

open Machine in
/-- Settles O54: the admission of a draw decides between the reset event and the refusal. -/
theorem resetTakesAnyAdmittedDraw : Obligations.ResetTakesAnyAdmittedDraw := by
  intro s draw
  refine ⟨fun hlen hwords => ?admitted, fun hbad => hostStep_reset_of_not_admitted fun hd => ?refused⟩
  case admitted =>
    have hbelow := Memory.below_ofWords draw 0
    rw [Nat.zero_add, hlen, ← Nat.mul_assoc] at hbelow
    exact ⟨s.resetEvent draw, hostStep_reset_of_admitted (drawAdmitted_iff.2 ⟨hlen, hwords⟩), rfl, Memory.wf_ofWords draw, hbelow,
      fun c i hi => s.storeRead_resetEvent c (hlen ▸ wordAddress_lt hi c)⟩
  case refused =>
    obtain ⟨hlen, hwords⟩ := drawAdmitted_iff.1 hd
    obtain hne | ⟨w, hw, hnan | hloud⟩ := hbad
    · exact hne hlen
    · exact absurd (hwords w hw).1 (by simp [hnan])
    · exact absurd (hwords w hw).2 (by simp [hloud])

/-- A whole multiple rounds to its quotient. -/
theorem F32.roundToInteger_mul_self (k : Nat) {den : Nat} (h : 0 < den) : F32.roundToInteger (k * den) den = k := by
  rw [F32.roundToInteger, Nat.mul_mod_left, Nat.mul_zero, if_pos h, Nat.mul_div_cancel k h]

namespace Machine

/-! ### The first `LATCH` -/

/-- `Quant` answers the first entry for 0. -/
theorem quant_zero (g : NanSource) {q : Nat} (hq : q ≤ 2 ^ 24 + 1) : quant g q F32.zero = 0 := by
  have hclamp : F32.magnitude (clampUnit F32.zero) = 0 := by decide +kernel
  rw [quant_of_finite g hq F32.isFinite_zero, quantProduct, hclamp, Nat.zero_mul, F32.round_zero]
  cases F32.isNeg (clampUnit F32.zero) <;> decide +kernel

/-- `Quant` answers the last entry for 1.0: the product is `Q - 1`, exactly. -/
theorem quant_one (g : NanSource) {q : Nat} (hq : q ≤ 2 ^ 24 + 1) : quant g q F32.one = q - 1 := by
  have hclamp : clampUnit F32.one = F32.one := by decide +kernel
  have hone : F32.magnitude F32.one = F32.unitsPerOne := F32.unitsOfBits_one
  have hk : q - 1 ≤ 2 ^ 24 := by omega
  have hproduct : quantProduct (q - 1) F32.one = F32.ofInteger (q - 1) := by
    rw [quantProduct, hclamp, hone, F32.ofInteger, if_pos hk, Nat.mul_comm]
    rfl
  rw [quant_of_finite g hq F32.isFinite_one, hproduct, F32.magnitude_ofInteger hk,
    F32.roundToInteger_mul_self _ F32.unitsPerOne_pos]

/-- The tables begin with sample 0 and end with the whole store (rule R129). -/
theorem tables_of_admitted {c : Config} (h : configAdmitted c = true) :
    c.startLut.getD 0 0 = 0 ∧ c.lengthLut.getD (c.q - 1) 0 = c.n := by
  simp only [configAdmitted, startLutAdmitted, lengthLutAdmitted, Bool.and_eq_true, beq_iff_eq] at h
  obtain ⟨⟨-, -, hfirst⟩, ⟨⟨⟨hlen, -⟩, -⟩, -⟩, hlast⟩ := h
  rw [List.getLast?_eq_getElem?, hlen] at hlast
  rw [List.head?_eq_getElem?] at hfirst
  rw [List.getD_eq_getElem?_getD, List.getD_eq_getElem?_getD, hfirst, hlast]
  exact ⟨rfl, rfl⟩

/-- After reset the targets of the shadow registers are the window that stands (rules R129, R321). -/
theorem State.targets_resetWith {cfg : Config} (hc : configAdmitted cfg = true) (hq : cfg.q ≤ 2 ^ 24 + 1) (mem : Memory)
    (g : NanSource) :
    (State.resetWith cfg mem).targetStart g = (State.resetWith cfg mem).start.toNat ∧
      (State.resetWith cfg mem).targetLength g = (State.resetWith cfg mem).length.toNat := by
  obtain ⟨hfirst, hlast⟩ := tables_of_admitted hc
  have hn := (configBounds_of_admitted hc).n_le
  have hlength : (State.resetWith cfg mem).length.toNat = cfg.n := toNat_ofNat_of_lt (by omega)
  refine ⟨?start, ?length⟩
  case start => exact (congrArg (cfg.startLut.getD · 0) (quant_zero g hq)).trans hfirst
  case length => exact (congrArg (cfg.lengthLut.getD · 0) (quant_one g hq)).trans (hlast.trans hlength.symm)

/-- A zero speed stalls the block in silence (rules R131, R132). -/
theorem resolve_zero (g : NanSource) : resolveSpeed F32.zero = F32.zero ∧ resolveVolume g F32.zero = F32.zero := by
  rw [resolveVolume_of_finite g F32.isFinite_zero]
  exact ⟨by decide +kernel, by decide +kernel⟩

/-- The levels of a first `LATCH` are the reset levels, and its head stage stops heads that are INACTIVE. -/
theorem State.latchedLevels_resetWith (cfg : Config) (mem : Memory) :
    (State.resetWith cfg mem).latchedLevels = State.resetWith cfg mem := by
  obtain ⟨hspd, hvol⟩ := resolve_zero (State.resetWith cfg mem).nanSource
  have hclamp : F32.clamp F32.zero F32.zero F32.one = F32.zero := by decide +kernel
  have hlevels : (State.resetWith cfg mem).latchLevels (State.resetWith cfg mem).nanSource = State.resetWith cfg mem := by
    simp only [State.latchLevels, State.resetWith] at hvol ⊢
    rw [hspd, hvol, hclamp]
  rw [State.latchedLevels, hlevels]
  rfl

end Machine

open Machine in
/-- Settles O21: the targets are the window that stands, so no transition begins; levels and heads are those of reset. -/
theorem firstLatchAfterReset : Obligations.FirstLatchAfterReset := by
  intro cfg mem hc hq
  obtain ⟨hstart, -⟩ := State.targets_resetWith hc hq mem ((State.resetWith cfg mem).nanSource.shift 1)
  obtain ⟨-, hlength⟩ := State.targets_resetWith hc hq mem ((State.resetWith cfg mem).nanSource.shift 2)
  have hacted : (State.resetWith cfg mem).acted .latch = (State.resetWith cfg mem).drawn := by
    rw [State.acted_latch_targets, if_neg (by simp [hstart, hlength]), State.latchedLevels_resetWith]
  exact ⟨(State.resetWith cfg mem).drawn, congrArg Host.Outcome.next hacted, rfl⟩

end Sys2Proof
end

section
/-! SUPPORT. The block does not read the list of pending actions (log 2): every command, and every host action, commutes with its
replacement. -/

namespace Sys2Proof

namespace Machine

/-- The state with its list of pending host actions replaced. -/
def State.withHost (s : State) (h : List HostAction) : State :=
  { s with host := h }

/-- A state change that neither reads nor writes the list of pending actions. -/
def HostBlind (f : State → State) : Prop :=
  ∀ s h, f (s.withHost h) = (f s).withHost h

theorem State.ite_withHost (p : Prop) [Decidable p] (s t : State) (h : List HostAction) :
    (if p then s else t).withHost h = if p then s.withHost h else t.withHost h :=
  apply_ite (State.withHost · h) p s t

namespace HostBlind

/-! ### Building blind changes -/

theorem comp {f k : State → State} (hf : HostBlind f) (hk : HostBlind k) : HostBlind fun s => k (f s) :=
  fun s h => (congrArg k (hf s h)).trans (hk (f s) h)

/-- A choice by a test that does not read the list. -/
theorem ite {p : State → Prop} [∀ s, Decidable (p s)] {f k : State → State} (hp : ∀ s h, p (s.withHost h) = p s)
    (hf : HostBlind f) (hk : HostBlind k) : HostBlind fun s => if p s then f s else k s := by
  intro s h
  simp only [hp, hf s h, hk s h, State.ite_withHost]

/-- A change whose parameter is read from the state, and not from the list. -/
theorem reading {α : Type} {r : State → α} {f : α → State → State} (hr : ∀ s h, r (s.withHost h) = r s)
    (hf : ∀ a, HostBlind (f a)) : HostBlind fun s => f (r s) s :=
  fun s h => (congrArg (fun a => f a (s.withHost h)) (hr s h)).trans (hf (r s) s h)

variable (g : NanSource)

/-! ### The write stage -/

theorem headFade (c : Channel) (i : Nat) (v : Word) : HostBlind (·.headFade g c i v) := by
  cases c <;> exact fun _ _ => rfl

theorem headWrite (c : Channel) (i : Nat) (v : Word) : HostBlind (·.headWrite g c i v) := by
  intro s h
  have hhead : (s.withHost h).head c = s.head c := by cases c <;> rfl
  simp only [State.headWrite, hhead]
  cases (s.head c).state with
  | inactive => rfl
  | active => rfl
  | fadingIn => exact headFade g c i v s h
  | fadingOut => exact headFade g c i v s h

theorem writeChannel (c : Channel) (v : Word) : HostBlind (·.writeChannel g c v) :=
  fun s h => headWrite g c _ _ s h

theorem writeStage (a b : Word) : HostBlind (·.writeStage g a b) :=
  .ite (p := (·.clrBusy = true)) (fun _ _ => rfl) (fun _ _ => rfl)
    (((writeChannel g .left a).comp (writeChannel (g.shift 8) .right b)).comp fun _ _ => rfl)

/-! ### The advance stage -/

theorem advancePhases : HostBlind (·.advancePhases g) :=
  .ite (p := (·.xfKind = .param)) (fun _ _ => rfl) (fun _ _ => rfl) fun _ _ => rfl

theorem advanceTail : HostBlind (·.advanceTail g) :=
  .ite (p := (·.xfKind = .none)) (fun _ _ => rfl) (fun _ _ => rfl) fun _ _ => rfl

theorem advanceProgress : HostBlind (·.advanceProgress g) := by
  intro s h
  have hkind : (s.withHost h).xfKind = s.xfKind := rfl
  simp only [State.advanceProgress, hkind]
  cases s.xfKind <;> rfl

theorem completeTransition : HostBlind State.completeTransition := by
  intro s h
  have hkind : (s.withHost h).xfKind = s.xfKind := rfl
  simp only [State.completeTransition, hkind]
  cases s.xfKind with
  | none => rfl
  | boundary | param | trigger => rw [State.ite_withHost]; rfl

theorem fadeAtWrap (ev : Bool) (pun : Word) : HostBlind (·.fadeAtWrap g ev pun) :=
  .ite (p := fun s => ev = true ∧ s.xfKind = .none) (fun _ _ => rfl) (fun _ _ => rfl) fun _ _ => rfl

theorem advanceStage : HostBlind (·.advanceStage g) :=
  .reading (r := fun s => (s.phaseWraps g, s.unwrappedPhase g)) (fun _ _ => rfl) fun e =>
    ((((advancePhases g).comp (advanceTail g)).comp (advanceProgress g)).comp completeTransition).comp (fadeAtWrap g e.1 e.2)

/-! ### The trigger stage -/

theorem beginTrigger (pos : Word) : HostBlind (·.beginTrigger pos) :=
  .ite (p := fun s => 2 * s.cfg.trigFade < s.length.toNat) (fun _ _ => rfl) (fun _ _ => rfl) fun _ _ => rfl

theorem retrigger : HostBlind (·.retrigger g) := by
  intro s h
  have hkind : (s.withHost h).xfKind = s.xfKind := rfl
  have hwindow : (s.withHost h).retriggerWindow g = ((s.retriggerWindow g).1, (s.retriggerWindow g).2.withHost h) := by
    simp only [State.retriggerWindow, hkind]
    cases s.xfKind <;> rfl
  have hbegin := beginTrigger (s.retriggerWindow g).1 (s.retriggerWindow g).2 h
  simp only [State.retrigger, hwindow, hbegin]
  rfl

theorem ageClock : HostBlind State.ageClock :=
  .ite (p := fun s => s.clkAge.toNat < s.cfg.clockTimeout) (fun _ _ => rfl) (fun _ _ => rfl) fun _ _ => rfl

theorem triggerStage (clk : Bool) : HostBlind (·.triggerStage g clk) :=
  .ite (p := fun s => (s.clockEdge clk || s.trigPend) = true) (fun _ _ => rfl)
    (comp (f := (·.sampleClock clk)) (fun _ _ => rfl) (retrigger g))
    (comp (f := (·.sampleClock clk)) (fun _ _ => rfl) ageClock)

theorem tick (clk : Bool) : HostBlind (·.tick clk) :=
  .reading (r := fun s => (s.nanSource, s.arg0, s.arg1)) (fun _ _ => rfl) fun e =>
    (((writeStage e.1 e.2.1 e.2.2).comp (k := (·.readStage (e.1.shift 16))) fun _ _ => rfl).comp
      (advanceStage (e.1.shift 60))).comp (triggerStage (e.1.shift 67) clk)

/-! ### `LATCH` -/

theorem latchHeads : HostBlind State.latchHeads :=
  .ite (p := (·.recX = true)) (fun _ _ => rfl) (fun _ _ => rfl) fun _ _ => rfl

theorem beginParam (ts tl : Nat) : HostBlind (·.beginParam g ts tl) :=
  .ite (p := fun s => F32.lt s.phase (F32.ofInteger tl) = true) (fun _ _ => rfl) (fun _ _ => rfl) fun _ _ => rfl

theorem latchTargets : HostBlind (·.latchTargets g) :=
  .ite (p := fun s => s.xfKind = .none ∧ (s.targetStart g ≠ s.start.toNat ∨ s.targetLength (g.shift 1) ≠ s.length.toNat))
    (fun _ _ => rfl)
    (.reading (r := fun s => (s.targetStart g, s.targetLength (g.shift 1))) (fun _ _ => rfl)
      fun e => beginParam (g.shift 2) e.1 e.2)
    fun _ _ => rfl

theorem latch : HostBlind (·.acted .latch) :=
  .reading (r := State.nanSource) (fun _ _ => rfl) fun e =>
    ((comp (f := (·.latchLevels e)) (fun _ _ => rfl) latchHeads).comp (latchTargets (e.shift 1))).comp
      (k := State.drawn) fun _ _ => rfl

/-! ### Commands and host actions -/

theorem clearStep : HostBlind State.clearStep :=
  .ite (p := fun s => s.clearTo = s.cfg.n) (fun _ _ => rfl) (fun _ _ => rfl) fun _ _ => rfl

/-- No command reads or writes the list. -/
theorem acted (i : Instr) : HostBlind (·.acted i) := by
  cases i with
  | tick clk => exact (tick clk).comp (k := State.drawn) fun _ _ => rfl
  | latch => exact latch
  | clear mode =>
    cases mode
    · exact fun _ _ => rfl
    · exact clearStep
  | whstart mask => intro s h; simp only [State.acted, forMask_startHead]; rfl
  | whstop mask => intro s h; simp only [State.acted, forMask_stopHead]; rfl
  | whwrite c => exact fun s h => congrArg State.drawn (headWrite s.nanSource c _ _ s h)
  | status clr => cases clr <;> exact fun _ _ => rfl
  | rdreg r => cases r <;> exact fun _ _ => rfl
  | _ => exact fun _ _ => rfl

theorem writeArg (r : ArgReg) (w : Word) : HostBlind (·.writeArg r w) := by
  cases r <;> exact fun _ _ => rfl

end HostBlind

theorem commandError_withHost (w : Word) (s : State) (h : List HostAction) :
    commandError w (s.withHost h) = commandError w s := rfl

/-- A command word does the same whatever actions wait behind it. -/
theorem commandStep_withHost {w : Word} {s t : State} (hstep : commandStep w s = .next t) (h : List HostAction) :
    commandStep w (s.withHost h) = .next (t.withHost h) := by
  have hcheck := commandError_withHost w s h
  cases herr : commandError w s with
  | some e =>
    cases (commandStep_of_commandError herr).symm.trans hstep
    exact commandStep_of_commandError (hcheck.trans herr)
  | none =>
    obtain ⟨i, hi, hacted⟩ := commandStep_of_no_error herr
    obtain ⟨j, hj, hacted'⟩ := commandStep_of_no_error (hcheck.trans herr)
    cases hacted.symm.trans hstep
    cases hi.symm.trans hj
    exact hacted'.trans (congrArg Host.Outcome.next (HostBlind.acted i s h))

/-- A host action does the same whatever actions wait behind it. -/
theorem hostStep_withHost {a : HostAction} {s t : State} (hstep : hostStep a s = .next t) (h : List HostAction) :
    hostStep a (s.withHost h) = .next (t.withHost h) := by
  cases hostStep_effect hstep with
  | writeArg r w => exact congrArg Host.Outcome.next (HostBlind.writeArg r w s h)
  | command hw => exact commandStep_withHost hw h
  | reset hd => exact hostStep_reset_of_admitted hd

/-- A host action leaves the list of pending actions. -/
theorem hostStep_host {a : HostAction} {s t : State} (hstep : hostStep a s = .next t) : t.host = s.host := by
  have hsame : hostStep a s = .next (t.withHost s.host) := hostStep_withHost hstep s.host
  exact (congrArg State.host (Host.Outcome.next.inj (hstep.symm.trans hsame)) :)

end Machine

end Sys2Proof
end

section
/-! SUPPORT. Runs and their observations (rule R337): a run as steps of the machine, and the observation as its list of actions grows
at the end. -/

namespace Sys2Proof

/-- The first of `k + 1` steps. -/
theorem run_succ_of_step (M : Host.Core) {s t : M.State} (h : M.step s = .next t) (k : Nat) : M.run (k + 1) s = M.run k t := by
  rw [Host.Core.run, h]

namespace Machine

/-! ### A run as steps -/

/-- A run of host actions is as many steps from the state in which these actions wait (rule R337, log 2). -/
theorem run_of_runHost {acts : List HostAction} {s t : State} (hc : configAdmitted s.cfg = true) (h : runHost acts s = some t) :
    Host.Core.run core acts.length (s.withHost acts) = .next (t.withHost []) := by
  induction acts generalizing s with
  | nil => cases h; rfl
  | cons a rest ih =>
    rw [runHost, Option.bind_eq_some_iff] at h
    obtain ⟨u, hu, hrest⟩ := h
    have ha : hostStep a s = .next u := nextState_eq_some_iff.1 hu
    have hstep : step (s.withHost (a :: rest)) = .next (u.withHost rest) :=
      (step_of_host (s := s.withHost (a :: rest)) hc rfl).trans (hostStep_withHost ha rest)
    exact (run_succ_of_step core hstep rest.length).trans (ih ((hostStep_cfg ha).symm ▸ hc) hrest)

/-- A run leaves the list of pending actions. -/
theorem runHost_host {acts : List HostAction} {s t : State} (h : runHost acts s = some t) : t.host = s.host :=
  runHost_keeps (P := fun u => u.host = s.host) (fun _ _ _ _ hu hstep => (hostStep_host hstep).trans hu) rfl h

/-! ### Observations -/

/-- The actions of a run (rule R337): operand writes and command writes. -/
def HostAction.IsRunAction (a : HostAction) : Prop :=
  (∃ r w, a = .writeArg r w) ∨ ∃ w, a = .command w

/-- The observation that one command puts before those of the later actions. -/
def Observation.after (w : Word) (s t : State) (o : Observation) : Observation :=
  { results := resultsOf w s t ++ o.results, filterOuts := filterOutsOf w t ++ o.filterOuts, final := o.final }

theorem observeFrom_command {w : Word} {s t : State} (h : commandStep w s = .next t) (last : State) (rest : List HostAction) :
    observeFrom last (.command w :: rest) s = (observeFrom t rest t).map (Observation.after w s t) := by
  rw [observeFrom, h]
  rfl

/-- Every command word is performed (rules R290, R304). -/
theorem exists_commandStep (w : Word) (s : State) : ∃ t, commandStep w s = .next t := by
  obtain ⟨⟨t, ht, -⟩, -⟩ := errorsFollowTheTable w s
  exact ⟨t, ht⟩

/-- An operand write after the last command does not show. -/
theorem observeFrom_append_writeArg (acts : List HostAction) (r : ArgReg) (w : Word) (last s : State) :
    observeFrom last (acts ++ [.writeArg r w]) s = observeFrom last acts s := by
  induction acts generalizing last s with
  | nil => rfl
  | cons a rest ih =>
    cases a with
    | writeArg q v => exact ih last (s.writeArg q v)
    | command v =>
      obtain ⟨t, ht⟩ := exists_commandStep v s
      rw [List.cons_append, observeFrom_command ht, observeFrom_command ht, ih]
    | readCommandPort => rfl
    | reset draw => rfl

/-- A command at the end adds what it wrote, and the run now ends in the state after it. -/
theorem observeFrom_append_command {acts : List HostAction} {w : Word} {last s t u : State} {o : Observation}
    (hrun : runHost acts s = some t) (hobs : observeFrom last acts s = some o) (hu : commandStep w t = .next u) :
    observeFrom last (acts ++ [.command w]) s =
      some { results := o.results ++ resultsOf w t u, filterOuts := o.filterOuts ++ filterOutsOf w u, final := u } := by
  induction acts generalizing last s o with
  | nil =>
    cases hrun
    cases hobs
    rw [List.nil_append, observeFrom_command hu]
    simp [observeFrom, Observation.after]
  | cons a rest ih =>
    cases a with
    | writeArg q v => exact ih hrun hobs
    | command v =>
      obtain ⟨m, hm⟩ := exists_commandStep v s
      rw [observeFrom_command hm, Option.map_eq_some_iff] at hobs
      obtain ⟨p, hp, rfl⟩ := hobs
      have hrest : runHost rest m = some t := by
        rwa [runHost, hostStep, hm] at hrun
      rw [List.cons_append, observeFrom_command hm, ih hrest hp]
      simp [Observation.after]
    | readCommandPort => cases hobs
    | reset draw => cases hobs

/-- A list of actions has an observation exactly if they are actions of a run. -/
theorem observeFrom_isSome_iff (acts : List HostAction) (last s : State) :
    (observeFrom last acts s).isSome = true ↔ ∀ a ∈ acts, a.IsRunAction := by
  induction acts generalizing last s with
  | nil => simp [observeFrom]
  | cons a rest ih =>
    rw [List.forall_mem_cons]
    cases a with
    | writeArg q v => exact (ih last (s.writeArg q v)).trans (iff_and_self.2 fun _ => .inl ⟨q, v, rfl⟩)
    | command v =>
      obtain ⟨t, ht⟩ := exists_commandStep v s
      rw [observeFrom_command ht, Option.isSome_map]
      exact (ih t t).trans (iff_and_self.2 fun _ => .inr ⟨v, rfl⟩)
    | readCommandPort => simp [observeFrom, HostAction.IsRunAction]
    | reset draw => simp [observeFrom, HostAction.IsRunAction]

theorem observeRun_isSome_iff (cfg : Config) (draw : List Word) (acts : List HostAction) :
    (observeRun cfg draw acts).isSome = true ↔
      configAdmitted cfg = true ∧ drawAdmitted cfg draw = true ∧ ∀ a ∈ acts, a.IsRunAction := by
  rw [← and_assoc, ← Bool.and_eq_true, observeRun]
  split
  next h => exact (observeFrom_isSome_iff acts _ _).trans (and_iff_right h).symm
  next h => simp [h]

end Machine

open Machine in
/-- Settles O7: a run as steps, by induction on the list of actions; the observation by what its last action adds. -/
theorem runIsStepsOverTheActions : Obligations.RunIsStepsOverTheActions := by
  refine ⟨fun acts s t hc hhost hrun => ?steps, fun _ _ _ _ _ _ hrun hobs hu => observeFrom_append_command hrun hobs hu,
    fun acts r w s => observeFrom_append_writeArg acts r w s s, fun _ => rfl,
    fun cfg draw acts => ⟨fun hc hd => if_pos (by rw [hc, hd]; rfl), observeRun_isSome_iff cfg draw acts⟩⟩
  case steps =>
    have hdone : t.withHost [] = t := by rw [← hhost, ← runHost_host hrun]; rfl
    exact (run_of_runHost hc hrun).trans (congrArg Host.Outcome.next hdone)

end Sys2Proof
end
